-- ==== Sys2Proof/Word.lean ====
section
/-! DEFINITION. The words of the codec block: bytes, u32, u64, and the binary64 numbers of the
arithmetic unit (spec/00_scope.md rules R6, R7, R8). -/

namespace Sys2Proof

/-- u8: a byte of SRC, of DST, of a phrase; a symbol of every codec (R7, NSYM of R5). -/
abbrev Byte := BitVec 8

/-- u32: a Huffman weight, an LZW codeword, the command word's IMM field (R7). -/
abbrev U32 := BitVec 32

/-- u64: a command word, a size, a cursor, RESULT (R7). -/
abbrev U64 := BitVec 64

/-- A binary64 number of the arithmetic unit (R8, R15), held as the natural number of units of
2^-1074 it is worth.  Every non-negative finite binary64 number is such a multiple.  The rules
produce no NaN, no infinity and no negative number (R8, R15), so none is held; notes/assumptions/7. -/
structure F64 where
  units : Nat
  deriving DecidableEq, Repr

end Sys2Proof
end

