-- ==== Sys2Proof/Config.lean ====
section
/-! DEFINITION. The parameters of the block (spec/00_scope.md rule R5): the constants the spec
fixes, and the record of the three parameters it leaves OPEN. -/

namespace Sys2Proof

/-- The parameters R5 marks OPEN (spec/92_eei_decisions.md D12, D36).  A machine carries them as
plain data that no step changes, so that a claim over all states is a claim over all their
values; notes/assumptions/2. -/
structure Config where
  /-- DST_CAP: bytes the DST space can hold; `none` is infinity. -/
  dstCap : Option Nat
  /-- DICT_CAP: most stored dictionary entries. -/
  dictCap : Nat
  /-- CODEBUF_CAP: most collected codewords; `none` is no limit. -/
  codebufCap : Option Nat
  deriving DecidableEq, Repr

/-- The bound R5 puts on DICT_CAP. -/
def Config.dictCapMax : Nat := 2 ^ 32 - 256

/-- The widest capacities R5 allows: what `State.reset` carries; notes/assumptions/2. -/
def Config.widest : Config := ⟨none, Config.dictCapMax, none⟩

/-- DICT_CAP as the LZW unit uses it: never above the bound of R5. -/
def Config.dictLimit (c : Config) : Nat := min c.dictCap Config.dictCapMax

/-- Does DST have room for `n` bytes after the first `len` (R10, R79)? -/
def Config.dstFits (c : Config) (len n : Nat) : Bool :=
  match c.dstCap with
  | none => true
  | some cap => len + n ≤ cap

/-- Does CODEBUF have room for one more codeword after `n` (R273)? -/
def Config.codebufFits (c : Config) (n : Nat) : Bool :=
  match c.codebufCap with
  | none => true
  | some cap => n < cap

/-- HUF_MAX_SRC (R5): the longest source the Huffman unit accepts. -/
def Config.hufMaxSrc : Nat := 2 ^ 32 - 1

/-- LZW_FIRST_CODE (R5): the codeword of the first dictionary entry. -/
def Config.lzwFirstCode : Nat := 256

/-- BWS_WIDTHS (R5, R148). -/
def Config.bwsWidths : List Nat := [1, 4, 8, 12, 16, 20, 24, 28, 32]

/-- LZW_WIDTHS (R5, R118). -/
def Config.lzwWidths : List Nat := [8, 12, 16, 20, 24, 28, 32]

/-- ART_INIT_COUNT (R5, R223). -/
def Config.artInitCount : Nat := 1

/-- ART_INIT_TOTAL (R5, R223). -/
def Config.artInitTotal : Nat := 256

/-- A bound on the passes of a doubling loop of the arithmetic unit (R222 point (e), R361: about
1075): a binary64 number in [0,1) has at most 1074 fraction bits. -/
def Config.artLoopBound : Nat := 1075

end Sys2Proof
end

