-- ==== Sys2Proof/Syntax.lean ====
section
/-! DEFINITION. The 29 commands (spec/30_encoding.md rule R103) and the names of codecs and modes. -/

namespace Sys2Proof

/-- Whose session is open: the values of CODEC (R22). -/
inductive Codec where
  /-- 0: no session open. -/
  | closed
  /-- 1: StaticHuffmanCodec. -/
  | huf
  /-- 2: AdaptiveArithmeticCodec. -/
  | art
  /-- 3: AdaptiveDictionaryCodec. -/
  | lzw
  deriving DecidableEq, Repr

/-- The direction of a session: the values of MODE (R23). -/
inductive Mode where
  /-- 0. -/
  | compress
  /-- 1. -/
  | decompress
  deriving DecidableEq, Repr

/-- One constructor per row of spec/opcode_table.json.  The three commands with operands carry the
command word's fields A, B, IMM as the host wrote them (R101); `Instr.wellFormed` says which values
are legal (R102). -/
inductive Instr where
  | nop
  | sopen (a b : BitVec 8)
  | compress
  | decompress
  | bwsReset
  | bwsWrite (imm : BitVec 32) (a : BitVec 8)
  | bwsFinish
  | bwsRead (a : BitVec 8)
  | hufCount
  | hufBuild
  | hufCodes
  | hufWrhdr
  | hufEncode
  | hufRdhdr
  | hufDecode
  | artInit
  | artWrhdr
  | artEncsym
  | artFlush
  | artRdhdr
  | artDecstep
  | lzwInit
  | lzwEncbyte
  | lzwEnceof
  | lzwWidth
  | lzwWrhdr
  | lzwEmit
  | lzwRdhdr
  | lzwDeccode
  deriving DecidableEq, Repr

end Sys2Proof
end

