-- ==== Sys2Proof/Machine/Operands.lean ====
section
/-! DEFINITION. The operand forms of the command word (spec/30_encoding.md rules R101, R102): the
legal sets of SOPEN's codec and mode numbers and of the packer commands' widths. -/

namespace Sys2Proof.Machine

/-- SOPEN's A field as a codec: legal values 1, 2, 3 (R102). -/
def codecOperand (a : BitVec 8) : Option Codec :=
  if a = 1#8 then some .huf
  else if a = 2#8 then some .art
  else if a = 3#8 then some .lzw
  else none

/-- SOPEN's B field as a mode: legal values 0, 1 (R102). -/
def modeOperand (b : BitVec 8) : Option Mode :=
  if b = 0#8 then some .compress
  else if b = 1#8 then some .decompress
  else none

/-- The A field of BWS.WRITE and BWS.READ as a width: legal values are BWS_WIDTHS (R102, R148). -/
def widthOperand (a : BitVec 8) : Option Nat :=
  if a.toNat ∈ Config.bwsWidths then some a.toNat else none

end Sys2Proof.Machine
end

