-- ==== Sys2Proof/WellFormed.lean ====
section
/-! DEFINITION. Which commands have operands inside their legal sets (spec/30_encoding.md rule R102). -/

namespace Sys2Proof

/-- Every operand of the command is in its legal set (R102); all other commands have none. -/
def Instr.wellFormed : Instr → Bool
  | .nop => true
  | .sopen a b => (Machine.codecOperand a).isSome && (Machine.modeOperand b).isSome
  | .compress => true
  | .decompress => true
  | .bwsReset => true
  | .bwsWrite _ a => (Machine.widthOperand a).isSome
  | .bwsFinish => true
  | .bwsRead a => (Machine.widthOperand a).isSome
  | .hufCount => true
  | .hufBuild => true
  | .hufCodes => true
  | .hufWrhdr => true
  | .hufEncode => true
  | .hufRdhdr => true
  | .hufDecode => true
  | .artInit => true
  | .artWrhdr => true
  | .artEncsym => true
  | .artFlush => true
  | .artRdhdr => true
  | .artDecstep => true
  | .lzwInit => true
  | .lzwEncbyte => true
  | .lzwEnceof => true
  | .lzwWidth => true
  | .lzwWrhdr => true
  | .lzwEmit => true
  | .lzwRdhdr => true
  | .lzwDeccode => true

end Sys2Proof
end

