-- ==== Sys2Proof/Decode.lean ====
section
/-! DEFINITION. The command word: decoding any 64-bit word, and the encoder (spec/30_encoding.md
rules R100 to R106; steps 1 and 2 of spec/60_exceptions.md rule R316). -/

namespace Sys2Proof

/-- Why a word is illegal (R104). -/
inductive DecodeError where
  /-- OPC is not in the table of R103. -/
  | unknownOpcode
  /-- A must-be-zero field of R101 is not zero. -/
  | fieldNotZero
  /-- An operand is outside its legal set (R102). -/
  | operandIllegal
  deriving DecidableEq, Repr

/-- OPC, bits 7:0 (R101). -/
def opcField (w : BitVec 64) : BitVec 8 := w.extractLsb' 0 8
/-- A, bits 15:8 (R101). -/
def aField (w : BitVec 64) : BitVec 8 := w.extractLsb' 8 8
/-- B, bits 23:16 (R101). -/
def bField (w : BitVec 64) : BitVec 8 := w.extractLsb' 16 8
/-- Z, bits 31:24 (R101). -/
def zField (w : BitVec 64) : BitVec 8 := w.extractLsb' 24 8
/-- IMM, bits 63:32 (R101). -/
def immField (w : BitVec 64) : BitVec 32 := w.extractLsb' 32 32

/-- The command an opcode selects (R103), given the fields its operands come from. -/
def selectInstr (opc a b : BitVec 8) (imm : BitVec 32) : Option Instr :=
  match opc with
  | 0x00#8 => some .nop
  | 0x01#8 => some (.sopen a b)
  | 0x02#8 => some .compress
  | 0x03#8 => some .decompress
  | 0x10#8 => some .bwsReset
  | 0x11#8 => some (.bwsWrite imm a)
  | 0x12#8 => some .bwsFinish
  | 0x13#8 => some (.bwsRead a)
  | 0x20#8 => some .hufCount
  | 0x21#8 => some .hufBuild
  | 0x22#8 => some .hufCodes
  | 0x23#8 => some .hufWrhdr
  | 0x24#8 => some .hufEncode
  | 0x25#8 => some .hufRdhdr
  | 0x26#8 => some .hufDecode
  | 0x30#8 => some .artInit
  | 0x31#8 => some .artWrhdr
  | 0x32#8 => some .artEncsym
  | 0x33#8 => some .artFlush
  | 0x34#8 => some .artRdhdr
  | 0x35#8 => some .artDecstep
  | 0x40#8 => some .lzwInit
  | 0x41#8 => some .lzwEncbyte
  | 0x42#8 => some .lzwEnceof
  | 0x43#8 => some .lzwWidth
  | 0x44#8 => some .lzwWrhdr
  | 0x45#8 => some .lzwEmit
  | 0x46#8 => some .lzwRdhdr
  | 0x47#8 => some .lzwDeccode
  | _ => none

/-- The operands of a command (R103's column "operands"). -/
inductive Form where
  /-- None. -/
  | plain
  /-- A = codec, B = mode (SOPEN). -/
  | codecMode
  /-- IMM = code, A = width (BWS.WRITE). -/
  | codeWidth
  /-- A = width (BWS.READ). -/
  | width
  deriving DecidableEq, Repr

/-- Which operands each command has (R103). -/
def formOf : Instr → Form
  | .nop => .plain
  | .sopen _ _ => .codecMode
  | .compress => .plain
  | .decompress => .plain
  | .bwsReset => .plain
  | .bwsWrite _ _ => .codeWidth
  | .bwsFinish => .plain
  | .bwsRead _ => .width
  | .hufCount => .plain
  | .hufBuild => .plain
  | .hufCodes => .plain
  | .hufWrhdr => .plain
  | .hufEncode => .plain
  | .hufRdhdr => .plain
  | .hufDecode => .plain
  | .artInit => .plain
  | .artWrhdr => .plain
  | .artEncsym => .plain
  | .artFlush => .plain
  | .artRdhdr => .plain
  | .artDecstep => .plain
  | .lzwInit => .plain
  | .lzwEncbyte => .plain
  | .lzwEnceof => .plain
  | .lzwWidth => .plain
  | .lzwWrhdr => .plain
  | .lzwEmit => .plain
  | .lzwRdhdr => .plain
  | .lzwDeccode => .plain

/-- Does the command use field A (R101)? -/
def usesA (i : Instr) : Bool := formOf i != .plain

/-- Does the command use field B (R101)? -/
def usesB (i : Instr) : Bool := formOf i == .codecMode

/-- Does the command use field IMM (R101)? -/
def usesImm (i : Instr) : Bool := formOf i == .codeWidth

/-- The must-be-zero fields of the command are zero (R101). -/
def zeroFieldsOk (i : Instr) (a b z : BitVec 8) (imm : BitVec 32) : Bool :=
  z == 0#8 && (usesA i || a == 0#8) && (usesB i || b == 0#8) && (usesImm i || imm == 0#32)

/-- Decoding by fields: opcode, then must-be-zero fields, then operands (R104, R316 steps 1 and 2). -/
def decodeFields (opc a b z : BitVec 8) (imm : BitVec 32) : Except DecodeError Instr :=
  match selectInstr opc a b imm with
  | none => .error .unknownOpcode
  | some i =>
    if zeroFieldsOk i a b z imm then
      if i.wellFormed then .ok i else .error .operandIllegal
    else .error .fieldNotZero

/-- The command a 64-bit word stands for, or why it is illegal.  Total on every word. -/
def decode (w : BitVec 64) : Except DecodeError Instr :=
  decodeFields (opcField w) (aField w) (bField w) (zField w) (immField w)

/-- The opcode of each command (R103). -/
def opcodeOf : Instr → BitVec 8
  | .nop => 0x00#8
  | .sopen _ _ => 0x01#8
  | .compress => 0x02#8
  | .decompress => 0x03#8
  | .bwsReset => 0x10#8
  | .bwsWrite _ _ => 0x11#8
  | .bwsFinish => 0x12#8
  | .bwsRead _ => 0x13#8
  | .hufCount => 0x20#8
  | .hufBuild => 0x21#8
  | .hufCodes => 0x22#8
  | .hufWrhdr => 0x23#8
  | .hufEncode => 0x24#8
  | .hufRdhdr => 0x25#8
  | .hufDecode => 0x26#8
  | .artInit => 0x30#8
  | .artWrhdr => 0x31#8
  | .artEncsym => 0x32#8
  | .artFlush => 0x33#8
  | .artRdhdr => 0x34#8
  | .artDecstep => 0x35#8
  | .lzwInit => 0x40#8
  | .lzwEncbyte => 0x41#8
  | .lzwEnceof => 0x42#8
  | .lzwWidth => 0x43#8
  | .lzwWrhdr => 0x44#8
  | .lzwEmit => 0x45#8
  | .lzwRdhdr => 0x46#8
  | .lzwDeccode => 0x47#8

/-- The word with the given fields (R101): IMM in bits 63:32, Z in 31:24, B in 23:16, A in 15:8,
OPC in 7:0. -/
def packFields (opc a b z : BitVec 8) (imm : BitVec 32) : BitVec 64 :=
  imm ++ z ++ b ++ a ++ opc

/-- The word of a command, written from R101 and R103: fields it does not use are zero. -/
def encode : Instr → BitVec 64
  | .nop => packFields 0x00#8 0#8 0#8 0#8 0#32
  | .sopen a b => packFields 0x01#8 a b 0#8 0#32
  | .compress => packFields 0x02#8 0#8 0#8 0#8 0#32
  | .decompress => packFields 0x03#8 0#8 0#8 0#8 0#32
  | .bwsReset => packFields 0x10#8 0#8 0#8 0#8 0#32
  | .bwsWrite imm a => packFields 0x11#8 a 0#8 0#8 imm
  | .bwsFinish => packFields 0x12#8 0#8 0#8 0#8 0#32
  | .bwsRead a => packFields 0x13#8 a 0#8 0#8 0#32
  | .hufCount => packFields 0x20#8 0#8 0#8 0#8 0#32
  | .hufBuild => packFields 0x21#8 0#8 0#8 0#8 0#32
  | .hufCodes => packFields 0x22#8 0#8 0#8 0#8 0#32
  | .hufWrhdr => packFields 0x23#8 0#8 0#8 0#8 0#32
  | .hufEncode => packFields 0x24#8 0#8 0#8 0#8 0#32
  | .hufRdhdr => packFields 0x25#8 0#8 0#8 0#8 0#32
  | .hufDecode => packFields 0x26#8 0#8 0#8 0#8 0#32
  | .artInit => packFields 0x30#8 0#8 0#8 0#8 0#32
  | .artWrhdr => packFields 0x31#8 0#8 0#8 0#8 0#32
  | .artEncsym => packFields 0x32#8 0#8 0#8 0#8 0#32
  | .artFlush => packFields 0x33#8 0#8 0#8 0#8 0#32
  | .artRdhdr => packFields 0x34#8 0#8 0#8 0#8 0#32
  | .artDecstep => packFields 0x35#8 0#8 0#8 0#8 0#32
  | .lzwInit => packFields 0x40#8 0#8 0#8 0#8 0#32
  | .lzwEncbyte => packFields 0x41#8 0#8 0#8 0#8 0#32
  | .lzwEnceof => packFields 0x42#8 0#8 0#8 0#8 0#32
  | .lzwWidth => packFields 0x43#8 0#8 0#8 0#8 0#32
  | .lzwWrhdr => packFields 0x44#8 0#8 0#8 0#8 0#32
  | .lzwEmit => packFields 0x45#8 0#8 0#8 0#8 0#32
  | .lzwRdhdr => packFields 0x46#8 0#8 0#8 0#8 0#32
  | .lzwDeccode => packFields 0x47#8 0#8 0#8 0#8 0#32

/-- The mask of the command's row (R105), by its operands. -/
def maskOf (i : Instr) : BitVec 64 :=
  match formOf i with
  | .plain => 0xFFFFFFFFFFFFFFFF#64
  | .codecMode => 0xFFFFFFFFFF0000FF#64
  | .codeWidth => 0x00000000FFFF00FF#64
  | .width => 0xFFFFFFFFFFFF00FF#64

/-- The match value of the command's row: its opcode (R105). -/
def matchOf (i : Instr) : BitVec 64 := (opcodeOf i).setWidth 64

/-- The host's probe: what the decoder reads from the word `w`, its bits above `nbits` zero.  A
command is one word of 64 bits (R100). -/
def decodeTableWord (nbits w : Nat) : Option Instr :=
  if nbits ≤ 64 then
    match decode (BitVec.ofNat 64 (w % 2 ^ nbits)) with
    | .ok i => some i
    | .error _ => none
  else none

end Sys2Proof
end

