-- ==== Sys2Proof/Machine/State.lean ====
section
/-! DEFINITION. Everything the spec gives the block as state (spec/10_state.md), the host's pending
actions (spec/20_memory.md rule R81), the reasons a step can stop, and the state after reset (R53). -/

namespace Sys2Proof.Machine

/-- The values of PHASE (R24). -/
inductive Phase where
  | idle | done | fault
  | hCounted | hBuilt | hCoded | hHdrw | hHdrr | hRebuilt
  | aInit | aEnc | aDec
  | lInit | lScan | lScanned | lWidth | lHdrw | lDec
  deriving DecidableEq, Repr

/-- The values of ERR (R25, R310). -/
inductive ErrKind where
  /-- 0. -/
  | noError
  /-- 1: a command of the wrong direction (R311). -/
  | modeMismatch
  /-- 2: an interval of zero width (R312). -/
  | modelPrecision
  /-- 3: SRC too short or DST full (R313). -/
  | ioFailure
  deriving DecidableEq, Repr

/-- A memory space: (address, byte) pairs, addresses strictly rising (`Memory.wf`). -/
abbrev Memory := List Host.Cell

/-- One entry of LEAF (R38). -/
structure Leaf where
  sym : Byte
  weight : U32
  deriving DecidableEq, Repr

/-- One entry of NODE (R39). -/
structure Node where
  leaf : Bool
  dummy : Bool
  sym : Byte
  weight : U32
  left : Nat
  right : Nat
  deriving DecidableEq, Repr

/-- The Huffman unit (R38, R39, R40).  NODECNT is the length of `node`. -/
structure HufUnit where
  /-- CNT. -/
  cnt : Vector U32 256
  /-- LEAF: 256 places, of which LEAFCNT count. -/
  leaf : Vector Leaf 256
  /-- LEAFCNT, 0 to 256. -/
  leafCnt : Fin 257
  /-- NODE[0..NODECNT-1]. -/
  node : List Node
  /-- ROOT. -/
  root : Option Nat
  /-- CODE: a bit path, `false` for left = 0 and `true` for right = 1, or none. -/
  code : Vector (Option (List Bool)) 256
  deriving DecidableEq, Repr

/-- The arithmetic unit (R41 to R44). -/
structure ArtUnit where
  /-- ACNT. -/
  acnt : Vector Nat 256
  /-- ATOTAL. -/
  atotal : Nat
  /-- DIST. -/
  dist : Vector F64 257
  /-- LOW. -/
  low : F64
  /-- HIGH. -/
  high : F64
  /-- ACC. -/
  acc : F64
  /-- EXP. -/
  exp : Nat
  deriving DecidableEq, Repr

/-- The LZW unit (R45 to R49).  DICTCNT is the length of `dict`, NEXT is 256 more, CODECNT is the
length of `codebuf`. -/
structure LzwUnit where
  /-- DICT. -/
  dict : List (List Byte)
  /-- PHRASE. -/
  phrase : List Byte
  /-- CODEBUF. -/
  codebuf : List U32
  /-- WIDTH. -/
  width : BitVec 6
  /-- PREV. -/
  prev : List Byte
  /-- HAVEPREV. -/
  havePrev : Bool
  deriving DecidableEq, Repr

/-- What the host may do that changes the machine (R81). -/
inductive HostAct where
  /-- Write a command word to the command port. -/
  | command (w : BitVec 64)
  /-- Write one byte of SRC. -/
  | writeSrc (addr : BitVec 64) (b : Byte)
  /-- Write the register SRC_LEN. -/
  | writeSrcLen (n : BitVec 64)
  /-- Assert reset. -/
  | reset
  deriving DecidableEq, Repr

structure State where
  /-- CODEC (R22). -/
  codec : Codec
  /-- MODE (R23). -/
  mode : Mode
  /-- PHASE (R24). -/
  phase : Phase
  /-- ERR (R25). -/
  err : ErrKind
  /-- CMDERR (R26). -/
  cmderr : Bool
  /-- RESULT (R30). -/
  result : U64
  /-- ORIG_SIZE (R28). -/
  origSize : U64
  /-- COMP_SIZE (R29). -/
  compSize : U64
  /-- SRC_LEN (R31). -/
  srcLen : U64
  /-- SRC_POS (R32). -/
  srcPos : U64
  /-- DST_LEN (R33). -/
  dstLen : U64
  /-- WACC (R35). -/
  wacc : Byte
  /-- WCNT, 0 to 7 (R35); 8 inside `bws_write` and after an append that failed there (R140, R319);
  notes/assumptions/8. -/
  wcnt : BitVec 4
  /-- RBYTE (R36). -/
  rbyte : Byte
  /-- RCNT, 0 to 7 between commands, 8 inside `bws_read` (R36). -/
  rcnt : BitVec 4
  /-- CNT, LEAF, LEAFCNT, NODE, NODECNT, ROOT, CODE. -/
  huf : HufUnit
  /-- ACNT, ATOTAL, DIST, LOW, HIGH, ACC, EXP. -/
  art : ArtUnit
  /-- DICT, DICTCNT, NEXT, PHRASE, CODEBUF, CODECNT, WIDTH, PREV, HAVEPREV. -/
  lzw : LzwUnit
  /-- The SRC space (R71). -/
  src : Memory
  /-- The DST space (R72). -/
  dst : Memory
  /-- The OPEN parameters (R5): no step changes them; notes/assumptions/2. -/
  cfg : Config
  /-- The host's actions not yet taken, first first (R20, R81); notes/assumptions/1. -/
  port : List HostAct
  deriving DecidableEq, Repr

/-- Faults: the host or the launch of the machine broke a rule the block's rules rest on. -/
inductive Fault where
  /-- Raised by `srcNext`: a byte of SRC below SRC_LEN that the host never wrote is read.  R53 asks
  that a read of an unspecified byte fault.  Safe. -/
  | srcUnwritten
  /-- Raised by the host actions `writeSrc` and `writeSrcLen` while PHASE is not IDLE, DONE or FAULT
  (R81; U6 of 93_implementation_defined.md).  Safe. -/
  | hostDuringCall
  deriving DecidableEq, Repr

/-- Refusals: the outcome is UNSPEC (R11, R322), so the model gives no state; all are safe.  The last
seven are met in no state a run reaches. -/
inductive Refusal where
  /-- An instruction with no meaning in this model (`exec`); safe. -/
  | notModelled (mnemonic : String)
  /-- HUF.COUNT: SRC_LEN above HUF_MAX_SRC (R181, U5); safe. -/
  | hufSourceTooLong
  /-- HUF.BUILD: a weight sum above u32 (R183, U5); safe. -/
  | hufWeightOverflow
  /-- HUF.ENCODE: a source byte without a code (R189, U7); safe. -/
  | hufByteWithoutCode
  /-- HUF.RDHDR: a leaf count above 256 (R190, U7); safe. -/
  | hufLeafCountAbove256
  /-- HUF.DECODE: a byte is due and there is no tree (R191, U7); safe. -/
  | hufNoTree
  /-- HUF.DECODE: the walk ends on the dummy leaf (R191, U7); safe. -/
  | hufDummyReached
  /-- ART.FLUSH: the midpoint is 1.0 or more (R226, U8); safe. -/
  | artMidpointAtLeastOne
  /-- ART.DECSTEP: ACC is below DIST[0] (R228, U8); safe. -/
  | artAccBelowDist
  /-- ART.DECSTEP: EXP is below the renormalization count (R229, U8); safe. -/
  | artExpBelowCount
  /-- LZW.ENCBYTE, LZW.DECCODE: the dictionary is full (R271, U13); safe. -/
  | lzwDictFull
  /-- LZW.ENCBYTE, LZW.ENCEOF: the code buffer is full (R273, R274, U13); safe. -/
  | lzwCodebufFull
  /-- LZW.RDHDR: a width outside LZW_WIDTHS (R278, U9); safe. -/
  | lzwWidthIllegal
  /-- LZW.DECCODE: a codeword with no phrase (R279, U9); safe. -/
  | lzwCodeUndefined
  /-- LZW.DECCODE: a phrase past ORIG_SIZE (R279, U9); safe. -/
  | lzwPhrasePastEnd
  /-- `dstPut`: DST_LEN would leave u64 (R7, R14: no rule wraps); safe. -/
  | dstLenOverflow
  /-- HUF.CODES, HUF.DECODE: the arena is not a tree (R192 excludes it); safe. -/
  | hufArenaNotTree
  /-- ART.ENCSYM, ART.DECSTEP: DIST decreases (R42 excludes it); safe. -/
  | artIntervalInverted
  /-- A doubling loop of the arithmetic unit passes its bound (R222 point (e) excludes it); safe. -/
  | artLoopUnbounded
  /-- LZW.ENCBYTE, LZW.ENCEOF: PHRASE has no codeword (R271 excludes it); safe. -/
  | lzwPhraseUnknown
  /-- LZW.DECCODE: a phrase of length 0 (R45 excludes it); safe. -/
  | lzwPhraseEmpty
  /-- LZW.WIDTH: a width above 32 (R275 excludes it); safe. -/
  | lzwWidthAbove32
  /-- DECOMPRESS: a repeated step that does not end the call (R166, R361 exclude it); safe. -/
  | macroUnbounded
  deriving DecidableEq, Repr

/-- A LEAF place that nothing has written; notes/assumptions/4. -/
def Leaf.blank : Leaf := ⟨0#8, 0#32⟩

/-- The Huffman unit at reset: LEAFCNT 0 (R53); the rest is unspecified there, notes/assumptions/4. -/
def HufUnit.reset : HufUnit :=
  { cnt := Vector.replicate 256 0#32
    leaf := Vector.replicate 256 Leaf.blank
    leafCnt := 0
    node := []
    root := none
    code := Vector.replicate 256 none }

/-- The arithmetic unit at reset: all unspecified (R53), notes/assumptions/4. -/
def ArtUnit.reset : ArtUnit :=
  { acnt := Vector.replicate 256 0
    atotal := 0
    dist := Vector.replicate 257 ⟨0⟩
    low := ⟨0⟩
    high := ⟨0⟩
    acc := ⟨0⟩
    exp := 0 }

/-- The LZW unit at reset: WIDTH 0 (R53); the rest is unspecified there, notes/assumptions/4. -/
def LzwUnit.reset : LzwUnit :=
  { dict := []
    phrase := []
    codebuf := []
    width := 0#6
    prev := []
    havePrev := false }

/-- The machine right after reset (R53, R350), with no host action pending. -/
def State.reset : State :=
  { codec := .closed
    mode := .compress
    phase := .idle
    err := .noError
    cmderr := false
    result := 0#64
    origSize := 0#64
    compSize := 0#64
    srcLen := 0#64
    srcPos := 0#64
    dstLen := 0#64
    wacc := 0#8
    wcnt := 0#4
    rbyte := 0#8
    rcnt := 0#4
    huf := HufUnit.reset
    art := ArtUnit.reset
    lzw := LzwUnit.reset
    src := []
    dst := []
    cfg := Config.widest
    port := [] }

end Sys2Proof.Machine
end

