-- ==== Sys2Proof/Machine/Flags.lean ====
section
/-! DEFINITION. The block's flags, ERR and CMDERR (spec/10_state.md rules R25 to R27), what sets and
clears them, and the codes software reads CODEC, MODE, PHASE, ERR and CMDERR as (R22 to R26, R34). -/

namespace Sys2Proof.Machine

/-- CODEC's code (R22). -/
def codecCode : Codec → BitVec 2
  | .closed => 0#2
  | .huf => 1#2
  | .art => 2#2
  | .lzw => 3#2

/-- MODE's code (R23). -/
def modeCode : Mode → BitVec 1
  | .compress => 0#1
  | .decompress => 1#1

/-- PHASE's code (R24). -/
def phaseCode : Phase → BitVec 8
  | .idle => 0x00#8
  | .done => 0x01#8
  | .fault => 0x02#8
  | .hCounted => 0x20#8
  | .hBuilt => 0x21#8
  | .hCoded => 0x22#8
  | .hHdrw => 0x23#8
  | .hHdrr => 0x24#8
  | .hRebuilt => 0x25#8
  | .aInit => 0x30#8
  | .aEnc => 0x31#8
  | .aDec => 0x32#8
  | .lInit => 0x40#8
  | .lScan => 0x41#8
  | .lScanned => 0x42#8
  | .lWidth => 0x43#8
  | .lHdrw => 0x44#8
  | .lDec => 0x45#8

/-- ERR's code (R25, R310). -/
def errCode : ErrKind → BitVec 2
  | .noError => 0#2
  | .modeMismatch => 1#2
  | .modelPrecision => 2#2
  | .ioFailure => 3#2

/-- CMDERR as a bit (R26). -/
def cmderrBit (b : Bool) : BitVec 1 := if b then 1#1 else 0#1

/-- Set ERR (R25): `fail` and ModeMismatch do. -/
def State.setErr (s : State) (k : ErrKind) : State := { s with err := k }

/-- Clear ERR (R25): `begin_call` and SOPEN do. -/
def State.clearErr (s : State) : State := { s with err := .noError }

/-- Set CMDERR (R26): the refusal of R314 does. -/
def State.setCmderr (s : State) : State := { s with cmderr := true }

/-- Clear CMDERR (R26): SOPEN does. -/
def State.clearCmderr (s : State) : State := { s with cmderr := false }

end Sys2Proof.Machine
end

