-- ==== Sys2Proof/Machine/Float.lean ====
section
/-! DEFINITION. Binary64 arithmetic of the arithmetic unit: the operations of spec/00_scope.md rules
R8 and R15, each rounded once, to nearest, ties to even.  A number is held in units of 2^-1074. -/

namespace Sys2Proof

/-- 1.0 in units of 2^-1074. -/
def F64.scale : Nat := 2 ^ 1074

/-- The exponent by which the quotient `q` has to be shortened to leave 53 significant bits; 0 below
2^53, which covers the subnormals (R15: gradual underflow). -/
def F64.excess (q : Nat) : Nat := Nat.log2 q - 52

/-- `num / den`, read in units of `2^e`, rounded to a natural number of them: to nearest, ties to
even (R8). -/
def F64.roundAt (num den e : Nat) : Nat :=
  let d := den * 2 ^ e
  let q := num / d
  let r := num % d
  if d < 2 * r || (d == 2 * r && q % 2 == 1) then q + 1 else q

/-- The binary64 number nearest to `num / den` units, ties to even (R8). -/
def F64.round (num den : Nat) : F64 :=
  let e := F64.excess (num / den)
  ⟨F64.roundAt num den e * 2 ^ e⟩

/-- Is the number a binary64 number: at most 53 significant bits (R5, F64)? -/
abbrev F64.Valid (x : F64) : Prop := x.units % 2 ^ F64.excess x.units = 0

/-- +0.0. -/
def F64.zero : F64 := ⟨0⟩
/-- 0.5, ART_HALF (R5). -/
def F64.half : F64 := ⟨2 ^ 1073⟩
/-- 1.0. -/
def F64.one : F64 := ⟨2 ^ 1074⟩
/-- 2.0. -/
def F64.two : F64 := ⟨2 ^ 1075⟩

/-- `fadd` (R8). -/
def F64.fadd (a b : F64) : F64 := F64.round (a.units + b.units) 1

/-- `fsub` (R8), for `b` at most `a`: no rule subtracts a larger number (R15). -/
def F64.fsub (a b : F64) : F64 := F64.round (a.units - b.units) 1

/-- `fmul` (R8). -/
def F64.fmul (a b : F64) : F64 := F64.round (a.units * b.units) F64.scale

/-- `fdiv` (R8), for a positive divisor (R8: every divisor is a positive total, or 2.0). -/
def F64.fdiv (a b : F64) : F64 := F64.round (a.units * F64.scale) b.units

/-- `f64(n)`: a natural number converted, with the same rounding (R8). -/
def F64.ofNat (n : Nat) : F64 := F64.round (n * F64.scale) 1

/-- `pow2neg(n)`: 2^-n, exact for n up to 1074 and +0.0 for larger n (R8). -/
def F64.pow2neg (n : Nat) : F64 := if n ≤ 1074 then ⟨2 ^ (1074 - n)⟩ else F64.zero

/-- `a < b` (R8). -/
def F64.lt (a b : F64) : Bool := a.units < b.units

/-- `a <= b` (R8). -/
def F64.le (a b : F64) : Bool := a.units ≤ b.units

end Sys2Proof
end

