-- ==== Sys2Proof/Machine/Ops.lean ====
section
/-! DEFINITION. The named operations over memory and registers: the two byte spaces
(spec/20_memory.md), the block's accesses `SrcNext` and `DstPut` (spec/00_scope.md rule R10), the
errors, the refusal and the acceptance procedure (spec/60_exceptions.md), and what every call begins
and ends with (spec/41_session.md rules R162 to R164). -/

namespace Sys2Proof.Machine

/-! ## Memory -/

/-- What an unlisted address reads as: nothing.  R53 leaves every byte of SRC and DST unspecified at
reset and asks that a read before a write fault; notes/assumptions/3. -/
def Memory.unlisted : Option Byte := none

/-- The canonical form: addresses strictly rising, each inside the u64 address space (R70). -/
abbrev Memory.wf (m : Memory) : Prop :=
  m.Pairwise (fun x y => x.1 < y.1) ∧ ∀ c ∈ m, c.1 < 2 ^ 64

/-- The byte at an address. -/
def Memory.read : Memory → Nat → Option Byte
  | [], _ => Memory.unlisted
  | (k, b) :: m, a => if k = a then some b else Memory.read m a

/-- Write one byte. -/
def Memory.write : Memory → Nat → Byte → Memory
  | [], a, b => [(a, b)]
  | (k, c) :: m, a, b =>
    if a < k then (a, b) :: (k, c) :: m
    else if a = k then (a, b) :: m
    else (k, c) :: Memory.write m a b

/-- The bytes at `a`, `a + 1`, ..., `a + n - 1`. -/
def Memory.readBytes (m : Memory) (a : Nat) : Nat → Option (List Byte)
  | 0 => some []
  | n + 1 =>
    match Memory.read m a with
    | none => none
    | some b =>
      match Memory.readBytes m (a + 1) n with
      | none => none
      | some bs => some (b :: bs)

/-- Write bytes at `a`, `a + 1`, and so on. -/
def Memory.writeBytes (m : Memory) (a : Nat) : List Byte → Memory
  | [] => m
  | b :: bs => Memory.writeBytes (Memory.write m a b) (a + 1) bs

/-- The number big-endian bytes stand for: the first is the most significant (R73, R74). -/
def beValue (bs : List Byte) : Nat := bs.foldl (fun v b => v * 256 + b.toNat) 0

/-- The `n`-byte big-endian image of `v` (R73). -/
def beBytes : Nat → Nat → List Byte
  | 0, _ => []
  | n + 1, v => BitVec.ofNat 8 (v >>> (8 * n)) :: beBytes n v

/-- `MemRead` (R73): `n` bytes of SRC at `a` as one number. -/
def memRead (m : Memory) (a n : Nat) : Option Nat := (Memory.readBytes m a n).map beValue

/-- `MemWrite` (R73): the `n`-byte image of `v` at `a`. -/
def memWrite (m : Memory) (a n v : Nat) : Memory := Memory.writeBytes m a (beBytes n v)

/-! ## Tables of 256 -/

/-- `TAB[b]` (R10), for a table with one entry per byte value. -/
def tabGet {α : Type} (t : Vector α 256) (b : Byte) : α := t[b.toNat]'b.isLt

/-- `TAB[b] <- v` (R10). -/
def tabSet {α : Type} (t : Vector α 256) (b : Byte) (v : α) : Vector α 256 :=
  t.set b.toNat v b.isLt

/-! ## Errors and refusal -/

/-- `fail(K)` (R317), the block's entry into an error (R318): ERR says which, RESULT is 0, PHASE is
FAULT; nothing else is written and nothing undone. -/
def State.fail (s : State) (k : ErrKind) : State :=
  { s.setErr k with result := 0#64, phase := .fault }

/-- ModeMismatch (R311): ERR 1, RESULT 0, nothing else. -/
def State.modeMismatch (s : State) : State := { s.setErr .modeMismatch with result := 0#64 }

/-- The refusal of an illegal command (R314): CMDERR 1, nothing else. -/
def State.refuse (s : State) : State := s.setCmderr

/-! ## The pseudocode of a command

A command's pseudocode runs as an action: it goes on with a value and a state, or it stops with the
state it had reached (R319: nothing done before is undone). -/

/-- Why a command's pseudocode stops before its end. -/
inductive Stop where
  /-- `raise K` (R10). -/
  | raise (k : ErrKind)
  /-- An UNSPEC point (R11). -/
  | unspec (r : Refusal)
  /-- A rule outside the block was broken. -/
  | broken (f : Fault)
  deriving DecidableEq, Repr

/-- An action of the sequencer. -/
abbrev Act (α : Type) := EStateM Stop State α

/-- Read the state. -/
def Act.state : Act State := fun s => .ok s s

/-- Write registers and tables. -/
def Act.write (f : State → State) : Act Unit := fun s => .ok () (f s)

/-- `raise K` (R10). -/
def Act.raise {α : Type} (k : ErrKind) : Act α := fun s => .error (.raise k) s

/-- UNSPEC (R11). -/
def Act.unspec {α : Type} (r : Refusal) : Act α := fun s => .error (.unspec r) s

/-- A byte the host never wrote is needed (R53). -/
def Act.broken {α : Type} (f : Fault) : Act α := fun s => .error (.broken f) s

/-- The same action `n` times (R108's `xN`). -/
def Act.times (m : Act Unit) : Nat → Act Unit
  | 0 => pure ()
  | n + 1 => do
    m
    Act.times m n

/-- The same action while `go` holds, at most `n` times; a bound that is passed is UNSPEC. -/
def Act.while (go : State → Bool) (m : Act Unit) : Nat → Act Unit
  | 0 => do
    let s ← Act.state
    if go s then Act.unspec .macroUnbounded else pure ()
  | n + 1 => do
    let s ← Act.state
    if go s then
      m
      Act.while go m n
    else pure ()

/-- The outcome of a command whose pseudocode runs from `s` (R316 step 7). -/
def runBody (m : Act Unit) (s : State) : Host.Outcome State Fault Refusal :=
  match m s with
  | .ok _ t => .next t
  | .error (.raise k) t => .next (t.fail k)
  | .error (.unspec r) _ => .refused r
  | .error (.broken f) _ => .fault f

/-! ## The block's accesses to SRC and DST -/

/-- `SrcNext(n)` (R10, R73, R79): all `n` bytes, or IOFailure and none. -/
def srcNext (n : Nat) : Act Nat := do
  let s ← Act.state
  if s.srcLen.toNat < s.srcPos.toNat + n then Act.raise .ioFailure
  else
    match memRead s.src s.srcPos.toNat n with
    | none => Act.broken .srcUnwritten
    | some v => do
      Act.write fun s => { s with srcPos := s.srcPos + BitVec.ofNat 64 n }
      pure v

/-- `SrcNext(1)`: one byte. -/
def srcByte : Act Byte := do
  let v ← srcNext 1
  pure (BitVec.ofNat 8 v)

/-- `DstPut(n, v)` (R10, R73, R79): all `n` bytes, or IOFailure and none.  DST_LEN is a u64 and no
rule wraps (R14). -/
def dstPut (n v : Nat) : Act Unit := do
  let s ← Act.state
  if s.cfg.dstFits s.dstLen.toNat n then
    if s.dstLen.toNat + n < 2 ^ 64 then
      Act.write fun s =>
        { s with dst := memWrite s.dst s.dstLen.toNat n v, dstLen := s.dstLen + BitVec.ofNat 64 n }
    else Act.unspec .dstLenOverflow
  else Act.raise .ioFailure

/-! ## What every call begins and ends with -/

/-- The packer and both stream cursors in their initial state (R144, R161, R162). -/
def State.clearStream (s : State) : State :=
  { s with srcPos := 0#64, dstLen := 0#64, wacc := 0#8, wcnt := 0#4, rbyte := 0#8, rcnt := 0#4 }

/-- `begin_call()` (R162). -/
def State.beginCall (s : State) : State :=
  { s.clearErr.clearStream with
    result := 0#64
    origSize := match s.mode with
      | .compress => s.srcLen
      | .decompress => 0#64 }

/-- `finish_compress()` (R163).  The packer keeps what the call left; notes/assumptions/16. -/
def State.finishCompress (s : State) : State :=
  { s with compSize := s.dstLen, result := s.dstLen, mode := .decompress, phase := .done }

/-- `finish_decompress()` (R164).  The packer keeps what the call left; notes/assumptions/16. -/
def State.finishDecompress (s : State) : State :=
  { s with result := s.origSize, phase := .done }

/-- The body starts at a byte boundary: RBYTE and RCNT cleared after a header (R36, R76). -/
def State.clearReader (s : State) : State := { s with rbyte := 0#8, rcnt := 0#4 }

/-- No pending partial byte: WACC and WCNT cleared (R35, R140, R141). -/
def State.clearWriter (s : State) : State := { s with wacc := 0#8, wcnt := 0#4 }

/-- `PHASE <- p` (R10, R24). -/
def State.setPhase (s : State) (p : Phase) : State := { s with phase := p }

/-! ## Acceptance -/

/-- A guard's condition on the source cursor (R316 step 5). -/
inductive Cursor where
  | any
  /-- SRC_POS < SRC_LEN. -/
  | bytesLeft
  /-- SRC_POS = SRC_LEN. -/
  | atEnd
  deriving DecidableEq, Repr

/-- What the acceptance procedure checks for a command (R103, R316). -/
structure Guard where
  /-- The codecs it may run under (step 4). -/
  codecs : List Codec
  /-- The phases it may run in (step 5). -/
  phases : List Phase
  /-- Its cursor condition (step 5). -/
  cursor : Cursor
  /-- Its direction, if it has one (step 6). -/
  dir : Option Mode
  deriving DecidableEq, Repr

/-- "Codec any" (R103). -/
def anyCodec : List Codec := [.closed, .huf, .art, .lzw]

/-- Does the cursor condition hold? -/
def cursorOk (c : Cursor) (s : State) : Bool :=
  match c with
  | .any => true
  | .bytesLeft => s.srcPos.toNat < s.srcLen.toNat
  | .atEnd => s.srcPos == s.srcLen

/-- Step 4: CODEC is one the command needs. -/
def codecOk (g : Guard) (s : State) : Bool := g.codecs.contains s.codec

/-- Step 5: PHASE and the source cursor are as the guard asks. -/
def phaseOk (g : Guard) (s : State) : Bool := g.phases.contains s.phase && cursorOk g.cursor s

/-- Step 6: MODE is the command's direction. -/
def dirOk (g : Guard) (s : State) : Bool :=
  match g.dir with
  | none => true
  | some m => s.mode == m

/-- Steps 4 to 7 of the acceptance procedure (R316): the first step that applies decides. -/
def accept (g : Guard) (m : Act Unit) (s : State) : Host.Outcome State Fault Refusal :=
  if codecOk g s then
    if phaseOk g s then
      if dirOk g s then runBody m s
      else .next s.modeMismatch
    else .next s.refuse
  else .next s.refuse

end Sys2Proof.Machine
end

