-- ==== Sys2Proof/Machine/Packer.lean ====
section
/-! DEFINITION. The bit and codeword packer, BitWordStream, and its four commands
(spec/40_bitwordstream.md). -/

namespace Sys2Proof.Machine

/-! ## The packer functions -/

/-- A bit as a byte. -/
def bitByte (b : Bool) : Byte := if b then 1#8 else 0#8

/-- One pass of `bws_write`'s loop (R140): the bit goes to position WCNT of WACC, and a full byte is
appended to DST. -/
def bwsPutBit (b : Bool) : Act Unit := do
  Act.write fun s => { s with wacc := s.wacc ||| (bitByte b <<< s.wcnt.toNat), wcnt := s.wcnt + 1#4 }
  let s ← Act.state
  if s.wcnt = 8#4 then do
    dstPut 1 s.wacc.toNat
    Act.write State.clearWriter
  else pure ()

/-- Bits written one after another, first first. -/
def bwsPutBits : List Bool → Act Unit
  | [] => pure ()
  | b :: bs => do
    bwsPutBit b
    bwsPutBits bs

/-- The bits of a codeword in stream order: `code[0]` first (R75, R140). -/
def codeBits (code : U32) (w : Nat) : List Bool := (List.range w).map code.getLsbD

/-- `bws_write(code, w)` (R140). -/
def bwsWrite (code : U32) (w : Nat) : Act Unit := bwsPutBits (codeBits code w)

/-- `bws_finish()` (R141). -/
def bwsFinish : Act Unit := do
  let s ← Act.state
  if s.wcnt = 0#4 then pure ()
  else do
    dstPut 1 s.wacc.toNat
    Act.write State.clearWriter

/-- The byte fetch of `bws_read`'s loop (R142): only when no bit is left in RBYTE. -/
def bwsFetch : Act Unit := do
  let s ← Act.state
  if s.rcnt = 0#4 then do
    let b ← srcByte
    Act.write fun s => { s with rbyte := b, rcnt := 8#4 }
  else pure ()

/-- One pass of `bws_read`'s loop (R142). -/
def bwsGetBit : Act Bool := do
  bwsFetch
  let s ← Act.state
  Act.write fun s => { s with rbyte := s.rbyte >>> 1, rcnt := s.rcnt - 1#4 }
  pure (s.rbyte.getLsbD 0)

/-- Bits read one after another. -/
def bwsGetBits : Nat → Act (List Bool)
  | 0 => pure []
  | n + 1 => do
    let b ← bwsGetBit
    let bs ← bwsGetBits n
    pure (b :: bs)

/-- The number whose bit k is the k-th of the list (R142: `v | (bit << k)`). -/
def bitsValue : List Bool → Nat
  | [] => 0
  | b :: bs => (if b then 1 else 0) + 2 * bitsValue bs

/-- `bws_read(w)` (R142). -/
def bwsRead (w : Nat) : Act U32 := do
  let bs ← bwsGetBits w
  pure (BitVec.ofNat 32 (bitsValue bs))

/-- `bws_avail()` (R143). -/
def bwsAvail (s : State) : Bool := s.rcnt != 0#4 || s.srcPos.toNat < s.srcLen.toNat

/-! ## The commands -/

/-- The guard of the four packer commands (R144 to R147): any codec, both directions, IDLE or DONE.  At
DONE they go on from the bits the call left (R51, R360); notes/assumptions/16. -/
def guardBws : Guard := ⟨anyCodec, [.idle, .done], .any, none⟩

/-- BWS.RESET (R144). -/
def execBwsReset (s : State) : Host.Outcome State Fault Refusal :=
  accept guardBws (Act.write State.clearStream) s

/-- BWS.WRITE code, w (R145); a width outside BWS_WIDTHS is refused first (R316 step 2). -/
def execBwsWrite (imm : BitVec 32) (a : BitVec 8) (s : State) : Host.Outcome State Fault Refusal :=
  match widthOperand a with
  | none => .next s.refuse
  | some w => accept guardBws (bwsWrite imm w) s

/-- BWS.FINISH (R146). -/
def execBwsFinish (s : State) : Host.Outcome State Fault Refusal :=
  accept guardBws bwsFinish s

/-- BWS.READ w (R147); a width outside BWS_WIDTHS is refused first (R316 step 2). -/
def execBwsRead (a : BitVec 8) (s : State) : Host.Outcome State Fault Refusal :=
  match widthOperand a with
  | none => .next s.refuse
  | some w =>
    accept guardBws
      (do
        let v ← bwsRead w
        Act.write fun s => { s with result := v.setWidth 64 }) s

end Sys2Proof.Machine
end

