-- ==== Sys2Proof/Machine/Arithmetic.lean ====
section
/-! DEFINITION. The adaptive arithmetic unit and its six commands (spec/43_arithmetic.md). -/

namespace Sys2Proof.Machine

/-! ## The two functions both directions share -/

/-- The boundaries from `prev` on, one more for each count (R221): the count over the total, times the
width, added to the boundary before; each operation rounded once. -/
def boundaries (total width : F64) : F64 → List Nat → List F64
  | prev, [] => [prev]
  | prev, c :: cs =>
    prev :: boundaries total width
      (F64.fadd prev (F64.fmul (F64.fdiv (F64.ofNat c) total) width)) cs

/-- There is one boundary more than there are counts. -/
theorem boundaries_length (total width prev : F64) (cs : List Nat) :
    (boundaries total width prev cs).length = cs.length + 1 := by
  induction cs generalizing prev with
  | nil => rfl
  | cons c cs ih => simp [boundaries, ih]

/-- `art_relayout(low, high)` (R221): the whole distribution laid out inside [low, high). -/
def artRelayout (acnt : Vector Nat 256) (atotal : Nat) (low high : F64) : Vector F64 257 :=
  ⟨⟨boundaries (F64.ofNat atotal) (F64.fsub high low) low acnt.toList⟩, by
    simp [boundaries_length]⟩

/-- A doubling that drops and returns the integer part (R222, R226, R229). -/
def doubleDrop (x : F64) : Bool × F64 :=
  let y := F64.fmul F64.two x
  if F64.le F64.one y then (true, F64.fsub y F64.one) else (false, y)

/-- The bits of a fraction, first first, until nothing is left of it (R222's saturation flush, R226's
flush): none when more than `n` doublings are needed. -/
def fractionBits : Nat → F64 → Option (List Bool)
  | n, x =>
    if x = F64.zero then some []
    else
      match n with
      | 0 => none
      | n + 1 =>
        match fractionBits n (doubleDrop x).2 with
        | none => none
        | some bits => some ((doubleDrop x).1 :: bits)

/-- What a renormalization gives: the interval and the bits (R222). -/
structure Renorm where
  low : F64
  high : F64
  bits : List Bool
  deriving DecidableEq, Repr

/-- `art_renorm`'s loop (R222): none when more than `n` paired doublings, or a saturation flush beyond
the bound, would be needed. -/
def renormLoop : Nat → F64 → F64 → Option Renorm
  | n, low, high =>
    if high = F64.one then
      match fractionBits Config.artLoopBound low with
      | none => none
      | some bits => some ⟨F64.zero, F64.one, bits⟩
    else if F64.lt low F64.half && F64.lt high F64.half then
      match n with
      | 0 => none
      | n + 1 =>
        match renormLoop n (F64.fmul F64.two low) (F64.fmul F64.two high) with
        | none => none
        | some r => some { r with bits := false :: r.bits }
    else if F64.le F64.half low && F64.lt high F64.one then
      match n with
      | 0 => none
      | n + 1 =>
        match renormLoop n (F64.fsub (F64.fmul F64.two low) F64.one)
            (F64.fsub (F64.fmul F64.two high) F64.one) with
        | none => none
        | some r => some { r with bits := true :: r.bits }
    else some ⟨low, high, []⟩

/-- `art_renorm(low, high, ·)` (R222); the encoder writes the bits, the decoder counts them. -/
def artRenorm (low high : F64) : Option Renorm := renormLoop Config.artLoopBound low high

/-! ## Helpers on the unit's registers -/

/-- DIST[b] (R42). -/
def distLow (d : Vector F64 257) (b : Byte) : F64 :=
  d[b.toNat]'(Nat.lt_succ_of_lt b.isLt)

/-- DIST[b+1] (R42). -/
def distHigh (d : Vector F64 257) (b : Byte) : F64 :=
  d[b.toNat + 1]'(Nat.succ_lt_succ b.isLt)

/-- Step 3 of R225, and the same in R229: the symbol's count and the total go up, the interval is the
renormalized one, and the distribution is laid out in it. -/
def ArtUnit.update (u : ArtUnit) (b : Byte) (low high : F64) : ArtUnit :=
  { u with
    acnt := tabSet u.acnt b (tabGet u.acnt b + 1)
    atotal := u.atotal + 1
    dist := artRelayout (tabSet u.acnt b (tabGet u.acnt b + 1)) (u.atotal + 1) low high
    low := low
    high := high }

/-- The initial model (R223). -/
def ArtUnit.start : ArtUnit :=
  { acnt := Vector.replicate 256 Config.artInitCount
    atotal := Config.artInitTotal
    dist := artRelayout (Vector.replicate 256 Config.artInitCount) Config.artInitTotal F64.zero F64.one
    low := F64.zero
    high := F64.one
    acc := F64.zero
    exp := 0 }

/-! ## The pseudocode of the commands -/

/-- ART.INIT (R223). -/
def artInitBody : Act Unit := do
  Act.write State.beginCall
  Act.write fun s => { s with art := ArtUnit.start }
  Act.write fun s => s.setPhase .aInit

/-- ART.WRHDR (R224). -/
def artWrhdrBody : Act Unit := do
  let s ← Act.state
  dstPut 8 s.origSize.toNat
  Act.write fun s => s.setPhase .aEnc

/-- ART.ENCSYM (R225). -/
def artEncsymBody : Act Unit := do
  let b ← srcByte
  let s ← Act.state
  let lo := distLow s.art.dist b
  let hi := distHigh s.art.dist b
  if lo = hi then Act.raise .modelPrecision
  else if F64.lt hi lo then Act.unspec .artIntervalInverted
  else
    match artRenorm lo hi with
    | none => Act.unspec .artLoopUnbounded
    | some r => do
      bwsPutBits r.bits
      Act.write fun s => { s with art := s.art.update b r.low r.high }

/-- The midpoint of the final interval (R226). -/
def ArtUnit.midpoint (u : ArtUnit) : F64 := F64.fdiv (F64.fadd u.low u.high) F64.two

/-- ART.FLUSH (R226). -/
def artFlushBody : Act Unit := do
  let s ← Act.state
  if F64.le F64.one s.art.midpoint then Act.unspec .artMidpointAtLeastOne
  else
    match fractionBits Config.artLoopBound s.art.midpoint with
    | none => Act.unspec .artLoopUnbounded
    | some bits => do
      bwsPutBits bits
      bwsFinish
      Act.write State.finishCompress

/-- ART.RDHDR (R227). -/
def artRdhdrBody : Act Unit := do
  let size ← srcNext 8
  Act.write fun s => { s with origSize := BitVec.ofNat 64 size }
  Act.write State.clearReader
  Act.write fun s => { s with art := { s.art with acc := F64.zero, exp := 0 } }
  Act.write fun s => s.setPhase .aDec

/-- The last index, counted from `i`, of a boundary at most `acc`; `best` if there is none (R228). -/
def lastAtMost (acc : F64) : List F64 → Nat → Nat → Nat
  | [], _, best => best
  | d :: ds, i, best => lastAtMost acc ds (i + 1) (if F64.le d acc then i else best)

/-- `art_search()` (R228): the largest i in 0..255 with DIST[i] <= ACC. -/
def artSearch (u : ArtUnit) : Option Byte :=
  if F64.lt u.acc (u.dist[0]) then none
  else some (BitVec.ofNat 8 (lastAtMost u.acc (u.dist.toList.take 256) 0 0))

/-- ACC after `k` rescalings (R229): doubled, the integer part dropped. -/
def rescale : Nat → F64 → F64
  | 0, x => x
  | k + 1, x => rescale k (doubleDrop x).2

/-- The resolve test of R229: the bits folded so far already single out symbol `i`. -/
def artResolved (u : ArtUnit) (i : Byte) : Bool :=
  F64.le (F64.fadd u.acc (F64.pow2neg u.exp)) (distHigh u.dist i)

/-- The model and the accumulator after the decoder resolved symbol `i` (R229). -/
def ArtUnit.decoded (u : ArtUnit) (i : Byte) (r : Renorm) : ArtUnit :=
  { u.update i r.low r.high with
    acc := rescale r.bits.length u.acc
    exp := u.exp - r.bits.length }

/-- A bit folded into ACC (R229 corner case (b)): EXP counts it first. -/
def ArtUnit.fold (u : ArtUnit) (bit : Bool) : ArtUnit :=
  { u with
    acc := F64.fadd u.acc (F64.fmul (F64.ofNat (if bit then 1 else 0)) (F64.pow2neg (u.exp + 1)))
    exp := u.exp + 1 }

/-- The resolved branch of ART.DECSTEP (R229). -/
def artEmit (i : Byte) : Act Unit := do
  let s ← Act.state
  let lo := distLow s.art.dist i
  let hi := distHigh s.art.dist i
  if lo = hi then Act.raise .modelPrecision
  else if F64.lt hi lo then Act.unspec .artIntervalInverted
  else do
    dstPut 1 i.toNat
    match artRenorm lo hi with
    | none => Act.unspec .artLoopUnbounded
    | some r =>
      if s.art.exp < r.bits.length then Act.unspec .artExpBelowCount
      else Act.write fun s => { s with art := s.art.decoded i r }

/-- ART.DECSTEP (R229). -/
def artDecstepBody : Act Unit := do
  let s ← Act.state
  if s.dstLen = s.origSize then Act.write State.finishDecompress
  else
    match artSearch s.art with
    | none => Act.unspec .artAccBelowDist
    | some i =>
      if artResolved s.art i then artEmit i
      else if bwsAvail s then do
        let bit ← bwsGetBit
        Act.write fun s => { s with art := s.art.fold bit }
      else Act.write State.finishDecompress

/-! ## The commands -/

/-- ART.INIT's guard (R223). -/
def guardArtInit : Guard := ⟨[.art], [.idle, .done], .any, none⟩
/-- ART.WRHDR's guard (R224). -/
def guardArtWrhdr : Guard := ⟨[.art], [.aInit], .any, some .compress⟩
/-- ART.ENCSYM's guard (R225). -/
def guardArtEncsym : Guard := ⟨[.art], [.aEnc], .bytesLeft, some .compress⟩
/-- ART.FLUSH's guard (R226). -/
def guardArtFlush : Guard := ⟨[.art], [.aEnc], .atEnd, some .compress⟩
/-- ART.RDHDR's guard (R227). -/
def guardArtRdhdr : Guard := ⟨[.art], [.aInit], .any, some .decompress⟩
/-- ART.DECSTEP's guard (R229). -/
def guardArtDecstep : Guard := ⟨[.art], [.aDec], .any, some .decompress⟩

/-- ART.INIT (R223). -/
def execArtInit (s : State) : Host.Outcome State Fault Refusal :=
  accept guardArtInit artInitBody s

/-- ART.WRHDR (R224). -/
def execArtWrhdr (s : State) : Host.Outcome State Fault Refusal :=
  accept guardArtWrhdr artWrhdrBody s

/-- ART.ENCSYM (R225). -/
def execArtEncsym (s : State) : Host.Outcome State Fault Refusal :=
  accept guardArtEncsym artEncsymBody s

/-- ART.FLUSH (R226). -/
def execArtFlush (s : State) : Host.Outcome State Fault Refusal :=
  accept guardArtFlush artFlushBody s

/-- ART.RDHDR (R227). -/
def execArtRdhdr (s : State) : Host.Outcome State Fault Refusal :=
  accept guardArtRdhdr artRdhdrBody s

/-- ART.DECSTEP (R229). -/
def execArtDecstep (s : State) : Host.Outcome State Fault Refusal :=
  accept guardArtDecstep artDecstepBody s

end Sys2Proof.Machine
end

