-- ==== Sys2Proof/Machine/Huffman.lean ====
section
/-! DEFINITION. The static Huffman unit and its seven commands (spec/42_huffman.md). -/

namespace Sys2Proof.Machine

/-! ## Counting -/

/-- HUF.COUNT's loop (R181): `n` source bytes tallied. -/
def hufTally : Nat → Act Unit
  | 0 => pure ()
  | n + 1 => do
    let b ← srcByte
    Act.write fun s =>
      { s with huf := { s.huf with cnt := tabSet s.huf.cnt b (tabGet s.huf.cnt b + 1#32) } }
    hufTally n

/-- The (symbol, count) pairs from symbol `k` on, those of count 0 left out, in ascending order
(R182). -/
def leavesFrom (k : Nat) : List U32 → List Leaf
  | [] => []
  | c :: cs => if c = 0#32 then leavesFrom (k + 1) cs else ⟨BitVec.ofNat 8 k, c⟩ :: leavesFrom (k + 1) cs

/-- The leaf list of a frequency table (R182). -/
def leavesOf (cnt : Vector U32 256) : List Leaf := leavesFrom 0 cnt.toList

/-- `LEAF[k] <- x` (R10). -/
def leafSet (t : Vector Leaf 256) (k : Nat) (x : Leaf) : Vector Leaf 256 := t.setIfInBounds k x

/-- `LEAF[k], LEAF[k+1], ...` written from a list. -/
def leafSetAll (t : Vector Leaf 256) (k : Nat) : List Leaf → Vector Leaf 256
  | [] => t
  | x :: xs => leafSetAll (leafSet t k x) (k + 1) xs

/-- LEAFCNT as a number of at most 256 (R38). -/
def leafCount (n : Nat) : Fin 257 := Fin.ofNat 257 n

/-- `form_leaf_list()` (R182). -/
def HufUnit.formLeafList (h : HufUnit) : HufUnit :=
  let ls := leavesOf h.cnt
  { h with leaf := leafSetAll h.leaf 0 ls, leafCnt := leafCount ls.length }

/-- LEAF[0..LEAFCNT-1] (R38). -/
def HufUnit.leaves (h : HufUnit) : List Leaf := h.leaf.toList.take h.leafCnt.val

/-- CNT[0..255] <- 0 (R181). -/
def HufUnit.clearCnt (h : HufUnit) : HufUnit := { h with cnt := Vector.replicate 256 0#32 }

/-- The pseudocode of HUF.COUNT (R181); a source above HUF_MAX_SRC is UNSPEC. -/
def hufCountBody : Act Unit := do
  Act.write State.beginCall
  let s ← Act.state
  if Config.hufMaxSrc < s.srcLen.toNat then Act.unspec .hufSourceTooLong
  else do
    Act.write fun s => { s with huf := s.huf.clearCnt }
    hufTally s.srcLen.toNat
    Act.write fun s => { s with huf := s.huf.formLeafList }
    Act.write fun s => s.setPhase .hCounted

/-! ## The tree builder -/

/-- The node of a leaf record (R183).  LEFT and RIGHT, unused in a leaf (R39), hold 0; notes/assumptions/15. -/
def leafNode (l : Leaf) : Node := ⟨true, false, l.sym, l.weight, 0, 0⟩

/-- The dummy leaf (R185).  LEFT and RIGHT, unused in a leaf (R39), hold 0; notes/assumptions/15. -/
def dummyNode : Node := ⟨true, true, 0#8, 0#32, 0, 0⟩

/-- An internal node (R183, R186).  SYM, unused in an internal node (R39), holds 0; notes/assumptions/15. -/
def joinNode (w : U32) (left right : Nat) : Node := ⟨false, false, 0#8, w, left, right⟩

/-- NODE[i].weight. -/
def weightAt (ns : List Node) (i : Nat) : Nat :=
  match ns[i]? with
  | some n => n.weight.toNat
  | none => 0

/-- The priority order (R184): lighter first, then the lower index. -/
def nodeBefore (ns : List Node) (i j : Nat) : Bool :=
  weightAt ns i < weightAt ns j || (weightAt ns i == weightAt ns j && i < j)

/-- The least of `i` and the indices of a list in the priority order. -/
def leastOf (ns : List Node) (i : Nat) : List Nat → Nat
  | [] => i
  | j :: q => if nodeBefore ns j i then leastOf ns j q else leastOf ns i q

/-- `popmin(Q)` (R184): the least index, and Q without it. -/
def popMin (ns : List Node) : List Nat → Option (Nat × List Nat)
  | [] => none
  | i :: q => some (leastOf ns i q, (i :: q).erase (leastOf ns i q))

/-- The arena and the waiting indices before the first merge (R183, R185). -/
def startNodes (ls : List Leaf) : List Node :=
  if ls.length = 1 then ls.map leafNode ++ [dummyNode] else ls.map leafNode

/-- One merge (R183, R186): the two least waiting nodes become the children of a new one; the first
popped is the left child.  None when fewer than two wait; an error when the weight leaves u32. -/
def mergeStep (ns : List Node) (q : List Nat) : Except Refusal (Option (List Node × List Nat)) :=
  match popMin ns q with
  | none => .ok none
  | some (a, q1) =>
    match popMin ns q1 with
    | none => .ok none
    | some (b, q2) =>
      let w := weightAt ns a + weightAt ns b
      if w < 2 ^ 32 then
        .ok (some (ns ++ [joinNode (BitVec.ofNat 32 w) a b], q2 ++ [ns.length]))
      else .error .hufWeightOverflow

/-- The merge loop (R183): each pass leaves one waiting index less. -/
def mergeAll : Nat → List Node → List Nat → Except Refusal (List Node × List Nat)
  | 0, ns, q => .ok (ns, q)
  | n + 1, ns, q =>
    match mergeStep ns q with
    | .error r => .error r
    | .ok none => .ok (ns, q)
    | .ok (some (ns', q')) => mergeAll n ns' q'

/-- The tree of a leaf list: the arena, and ROOT (R183). -/
def buildTree (ls : List Leaf) : Except Refusal (List Node × Option Nat) :=
  let ns := startNodes ls
  match mergeAll ns.length ns (List.range ns.length) with
  | .error r => .error r
  | .ok (ns', q) => .ok (ns', q.head?)

/-- The phase HUF.BUILD leaves (R183). -/
def builtPhase (p : Phase) : Phase := if p = .hCounted then .hBuilt else .hRebuilt

/-- The pseudocode of HUF.BUILD (R183). -/
def hufBuildBody : Act Unit := do
  let s ← Act.state
  match buildTree s.huf.leaves with
  | .error r => Act.unspec r
  | .ok (ns, root) => do
    Act.write fun s => { s with huf := { s.huf with node := ns, root := root } }
    Act.write fun s => s.setPhase (builtPhase s.phase)

/-! ## The prefix-code generator -/

/-- `walk(i, path)` (R187): the code table with the codes of the leaves under node `i`.  A path has at
most `d` edges; an arena that is not a tree has no result. -/
def walkCodes (ns : List Node) :
    Nat → Nat → List Bool → Vector (Option (List Bool)) 256 → Option (Vector (Option (List Bool)) 256)
  | d, i, path, t =>
    match ns[i]? with
    | none => none
    | some n =>
      if n.leaf then some (if n.dummy then t else tabSet t n.sym (some path))
      else
        match d with
        | 0 => none
        | d + 1 =>
          match walkCodes ns d n.left (path ++ [false]) t with
          | none => none
          | some t' => walkCodes ns d n.right (path ++ [true]) t'

/-- The code table of a tree (R187): all `none`, then the walk from ROOT. -/
def codeTable (ns : List Node) (root : Option Nat) : Option (Vector (Option (List Bool)) 256) :=
  match root with
  | none => some (Vector.replicate 256 none)
  | some r => walkCodes ns ns.length r [] (Vector.replicate 256 none)

/-- The pseudocode of HUF.CODES (R187). -/
def hufCodesBody : Act Unit := do
  let s ← Act.state
  match codeTable s.huf.node s.huf.root with
  | none => Act.unspec .hufArenaNotTree
  | some t => do
    Act.write fun s => { s with huf := { s.huf with code := t } }
    Act.write fun s => s.setPhase .hCoded

/-! ## Writing the archive -/

/-- The leaf records of the header (R111, R188). -/
def putLeaves : List Leaf → Act Unit
  | [] => pure ()
  | l :: ls => do
    dstPut 1 l.sym.toNat
    dstPut 4 l.weight.toNat
    putLeaves ls

/-- The pseudocode of HUF.WRHDR (R188). -/
def hufWrhdrBody : Act Unit := do
  let s ← Act.state
  dstPut 8 s.origSize.toNat
  dstPut 4 s.huf.leafCnt.val
  putLeaves s.huf.leaves
  Act.write fun s => s.setPhase .hHdrw

/-- HUF.ENCODE's loop (R189): the codes of `n` source bytes. -/
def hufEncodeBytes : Nat → Act Unit
  | 0 => pure ()
  | n + 1 => do
    let b ← srcByte
    let s ← Act.state
    match tabGet s.huf.code b with
    | none => Act.unspec .hufByteWithoutCode
    | some path => bwsPutBits path
    hufEncodeBytes n

/-- The pseudocode of HUF.ENCODE (R189). -/
def hufEncodeBody : Act Unit := do
  Act.write fun s => { s with srcPos := 0#64 }
  let s ← Act.state
  hufEncodeBytes s.srcLen.toNat
  bwsFinish
  Act.write State.finishCompress

/-! ## Reading the archive -/

/-- The leaf records read from the header (R190), `n` of them from place `k` on. -/
def getLeaves : Nat → Nat → Act Unit
  | _, 0 => pure ()
  | k, n + 1 => do
    let sym ← srcByte
    let w ← srcNext 4
    Act.write fun s =>
      { s with huf := { s.huf with leaf := leafSet s.huf.leaf k ⟨sym, BitVec.ofNat 32 w⟩ } }
    getLeaves (k + 1) n

/-- The pseudocode of HUF.RDHDR (R190). -/
def hufRdhdrBody : Act Unit := do
  Act.write State.beginCall
  let size ← srcNext 8
  Act.write fun s => { s with origSize := BitVec.ofNat 64 size }
  let n ← srcNext 4
  if 256 < n then Act.unspec .hufLeafCountAbove256
  else do
    Act.write fun s => { s with huf := { s.huf with leafCnt := leafCount n } }
    getLeaves 0 n
    Act.write State.clearReader
    Act.write fun s => s.setPhase .hHdrr

/-- HUF.DECODE's walk (R191): from node `i` down to a leaf, one bit an edge, at most `d` edges. -/
def walkLeaf (ns : List Node) : Nat → Nat → Act Node
  | d, i =>
    match ns[i]? with
    | none => Act.unspec .hufArenaNotTree
    | some n =>
      if n.leaf then pure n
      else
        match d with
        | 0 => Act.unspec .hufArenaNotTree
        | d + 1 => do
          let x ← bwsGetBit
          walkLeaf ns d (if x then n.right else n.left)

/-- One pass of HUF.DECODE's loop (R191): one byte recovered. -/
def hufDecodeByte : Act Unit := do
  let s ← Act.state
  match s.huf.root with
  | none => Act.unspec .hufNoTree
  | some r => do
    let n ← walkLeaf s.huf.node s.huf.node.length r
    if n.dummy then Act.unspec .hufDummyReached else dstPut 1 n.sym.toNat

/-- The pseudocode of HUF.DECODE (R191): each pass appends one byte, so ORIG_SIZE - DST_LEN passes. -/
def hufDecodeBody : Act Unit := do
  let s ← Act.state
  Act.times hufDecodeByte (s.origSize.toNat - s.dstLen.toNat)
  Act.write State.finishDecompress

/-! ## The commands -/

/-- HUF.COUNT's guard (R181). -/
def guardHufCount : Guard := ⟨[.huf], [.idle, .done], .any, some .compress⟩
/-- HUF.BUILD's guard (R183). -/
def guardHufBuild : Guard := ⟨[.huf], [.hCounted, .hHdrr], .any, none⟩
/-- HUF.CODES's guard (R187). -/
def guardHufCodes : Guard := ⟨[.huf], [.hBuilt], .any, some .compress⟩
/-- HUF.WRHDR's guard (R188). -/
def guardHufWrhdr : Guard := ⟨[.huf], [.hCoded], .any, some .compress⟩
/-- HUF.ENCODE's guard (R189). -/
def guardHufEncode : Guard := ⟨[.huf], [.hHdrw], .any, some .compress⟩
/-- HUF.RDHDR's guard (R190). -/
def guardHufRdhdr : Guard := ⟨[.huf], [.idle, .done], .any, some .decompress⟩
/-- HUF.DECODE's guard (R191). -/
def guardHufDecode : Guard := ⟨[.huf], [.hRebuilt], .any, some .decompress⟩

/-- HUF.COUNT (R181). -/
def execHufCount (s : State) : Host.Outcome State Fault Refusal :=
  accept guardHufCount hufCountBody s

/-- HUF.BUILD (R183). -/
def execHufBuild (s : State) : Host.Outcome State Fault Refusal :=
  accept guardHufBuild hufBuildBody s

/-- HUF.CODES (R187). -/
def execHufCodes (s : State) : Host.Outcome State Fault Refusal :=
  accept guardHufCodes hufCodesBody s

/-- HUF.WRHDR (R188). -/
def execHufWrhdr (s : State) : Host.Outcome State Fault Refusal :=
  accept guardHufWrhdr hufWrhdrBody s

/-- HUF.ENCODE (R189). -/
def execHufEncode (s : State) : Host.Outcome State Fault Refusal :=
  accept guardHufEncode hufEncodeBody s

/-- HUF.RDHDR (R190). -/
def execHufRdhdr (s : State) : Host.Outcome State Fault Refusal :=
  accept guardHufRdhdr hufRdhdrBody s

/-- HUF.DECODE (R191). -/
def execHufDecode (s : State) : Host.Outcome State Fault Refusal :=
  accept guardHufDecode hufDecodeBody s

end Sys2Proof.Machine
end

