-- ==== Sys2Proof/Machine/Lzw.lean ====
section
/-! DEFINITION. The adaptive dictionary unit and its eight commands (spec/44_lzw.md). -/

namespace Sys2Proof.Machine

/-! ## The dictionary (R271) -/

/-- NEXT, the next unused codeword: 256 + DICTCNT (R45), kept as a natural number, so that a full
dictionary has NEXT = 2^32, which is no u32; notes/assumptions/11. -/
def LzwUnit.next (u : LzwUnit) : Nat := Config.lzwFirstCode + u.dict.length

/-- `dict_find(p)` (R271). -/
def dictFind (u : LzwUnit) (p : List Byte) : Option Nat := u.dict.findIdx? (· == p)

/-- `code_of(p)` (R271): the byte of a one-byte phrase, else 256 + its place in the dictionary. -/
def codeOf (u : LzwUnit) (p : List Byte) : Option U32 :=
  match p with
  | [b] => some (b.setWidth 32)
  | p =>
    match dictFind u p with
    | some k => some (BitVec.ofNat 32 (Config.lzwFirstCode + k))
    | none => none

/-- `phrase_of(c)` (R271), for `c` below NEXT. -/
def phraseOf (u : LzwUnit) (c : Nat) : Option (List Byte) :=
  if c < Config.lzwFirstCode then some [BitVec.ofNat 8 c] else u.dict[c - Config.lzwFirstCode]?

/-- `dict_add(p)` (R271). -/
def dictAdd (p : List Byte) : Act Unit := do
  let s ← Act.state
  if s.lzw.dict.length < s.cfg.dictLimit then
    Act.write fun s => { s with lzw := { s.lzw with dict := s.lzw.dict ++ [p] } }
  else Act.unspec .lzwDictFull

/-- `CODEBUF[CODECNT] <- code_of(PHRASE) ; CODECNT <- CODECNT + 1` (R273, R274). -/
def collectPhrase : Act Unit := do
  let s ← Act.state
  if s.cfg.codebufFits s.lzw.codebuf.length then
    match codeOf s.lzw s.lzw.phrase with
    | none => Act.unspec .lzwPhraseUnknown
    | some c => Act.write fun s => { s with lzw := { s.lzw with codebuf := s.lzw.codebuf ++ [c] } }
  else Act.unspec .lzwCodebufFull

/-- `PHRASE <- p` (R10). -/
def LzwUnit.setPhrase (u : LzwUnit) (p : List Byte) : LzwUnit := { u with phrase := p }

/-! ## The pseudocode of the commands -/

/-- The unit as a call starts (R272); WIDTH is kept. -/
def LzwUnit.start (u : LzwUnit) : LzwUnit :=
  { u with dict := [], phrase := [], codebuf := [], prev := [], havePrev := false }

/-- LZW.INIT (R272). -/
def lzwInitBody : Act Unit := do
  Act.write State.beginCall
  Act.write fun s => { s with lzw := s.lzw.start }
  Act.write fun s => s.setPhase .lInit

/-- The phrase-extension step of LZW.ENCBYTE for the byte `c` (R273). -/
def lzwExtend (c : Byte) : Act Unit := do
  let s ← Act.state
  if s.lzw.phrase = [] then
    Act.write fun s => { s with lzw := s.lzw.setPhrase [c] }
  else
    match dictFind s.lzw (s.lzw.phrase ++ [c]) with
    | some _ => Act.write fun s => { s with lzw := s.lzw.setPhrase (s.lzw.phrase ++ [c]) }
    | none => do
      collectPhrase
      dictAdd (s.lzw.phrase ++ [c])
      Act.write fun s => { s with lzw := s.lzw.setPhrase [c] }

/-- LZW.ENCBYTE (R273). -/
def lzwEncbyteBody : Act Unit := do
  let c ← srcByte
  lzwExtend c
  Act.write fun s => s.setPhase .lScan

/-- LZW.ENCEOF (R274). -/
def lzwEnceofBody : Act Unit := do
  let s ← Act.state
  if s.lzw.phrase = [] then pure ()
  else do
    collectPhrase
    Act.write fun s => { s with lzw := s.lzw.setPhrase [] }
  Act.write fun s => s.setPhase .lScanned

/-- The least natural k with 2^k >= n (R275). -/
def ceilLog2 (n : Nat) : Nat := if n ≤ 1 then 0 else Nat.log2 (n - 1) + 1

/-- The codeword width for `dictCnt` stored entries (R275). -/
def lzwWidthFor (dictCnt : Nat) : Nat := 4 * ((ceilLog2 (dictCnt + 256) + 3) / 4)

/-- LZW.WIDTH (R275); R275 bounds the width by 32. -/
def lzwWidthBody : Act Unit := do
  let s ← Act.state
  if 32 < lzwWidthFor s.lzw.dict.length then Act.unspec .lzwWidthAbove32
  else do
    Act.write fun s =>
      { s with lzw := { s.lzw with width := BitVec.ofNat 6 (lzwWidthFor s.lzw.dict.length) } }
    Act.write fun s => s.setPhase .lWidth

/-- LZW.WRHDR (R276). -/
def lzwWrhdrBody : Act Unit := do
  let s ← Act.state
  dstPut 8 s.origSize.toNat
  dstPut 4 s.lzw.width.toNat
  Act.write fun s => s.setPhase .lHdrw

/-- LZW.EMIT's loop (R277). -/
def putCodes (w : Nat) : List U32 → Act Unit
  | [] => pure ()
  | c :: cs => do
    bwsWrite c w
    putCodes w cs

/-- LZW.EMIT (R277). -/
def lzwEmitBody : Act Unit := do
  let s ← Act.state
  putCodes s.lzw.width.toNat s.lzw.codebuf
  bwsFinish
  Act.write State.finishCompress

/-- LZW.RDHDR (R278). -/
def lzwRdhdrBody : Act Unit := do
  let size ← srcNext 8
  Act.write fun s => { s with origSize := BitVec.ofNat 64 size }
  let w ← srcNext 4
  if w ∈ Config.lzwWidths then do
    Act.write fun s => { s with lzw := { s.lzw with width := BitVec.ofNat 6 w } }
    Act.write State.clearReader
    Act.write fun s => s.setPhase .lDec
  else Act.unspec .lzwWidthIllegal

/-- The phrase of the codeword `c` in the decoder (R279): a known one, or PREV and its first byte again
for the codeword about to be defined. -/
def decodePhrase (u : LzwUnit) (c : Nat) : Except Refusal (List Byte) :=
  if c < u.next then
    match phraseOf u c with
    | some p => .ok p
    | none => .error .lzwCodeUndefined
  else if c = u.next && u.havePrev then
    match u.prev with
    | [] => .error .lzwPhraseEmpty
    | x :: xs => .ok (x :: xs ++ [x])
  else .error .lzwCodeUndefined

/-- A phrase appended to DST, byte by byte (R279). -/
def putPhrase : List Byte → Act Unit
  | [] => pure ()
  | x :: xs => do
    dstPut 1 x.toNat
    putPhrase xs

/-- The decoder's insertion after the phrase whose first byte is `x` (R279): none after the first
codeword. -/
def decodeInsert (x : Byte) : Act Unit := do
  let s ← Act.state
  if s.lzw.havePrev then dictAdd (s.lzw.prev ++ [x]) else pure ()

/-- `PREV <- cur ; HAVEPREV <- 1` (R279). -/
def LzwUnit.setPrev (u : LzwUnit) (cur : List Byte) : LzwUnit :=
  { u with prev := cur, havePrev := true }

/-- The rest of LZW.DECCODE once the phrase is known (R279). -/
def lzwEmitPhrase (cur : List Byte) : Act Unit := do
  let s ← Act.state
  if s.origSize.toNat < s.dstLen.toNat + cur.length then Act.unspec .lzwPhrasePastEnd
  else
    match cur with
    | [] => Act.unspec .lzwPhraseEmpty
    | x :: xs => do
      putPhrase (x :: xs)
      decodeInsert x
      Act.write fun s => { s with lzw := s.lzw.setPrev (x :: xs) }
      let t ← Act.state
      if t.origSize.toNat ≤ t.dstLen.toNat then Act.write State.finishDecompress else pure ()

/-- LZW.DECCODE (R279). -/
def lzwDeccodeBody : Act Unit := do
  let s ← Act.state
  if s.origSize.toNat ≤ s.dstLen.toNat then Act.write State.finishDecompress
  else do
    let c ← bwsRead s.lzw.width.toNat
    match decodePhrase s.lzw c.toNat with
    | .error r => Act.unspec r
    | .ok cur => lzwEmitPhrase cur

/-! ## The commands -/

/-- LZW.INIT's guard (R272). -/
def guardLzwInit : Guard := ⟨[.lzw], [.idle, .done], .any, none⟩
/-- LZW.ENCBYTE's guard (R273). -/
def guardLzwEncbyte : Guard := ⟨[.lzw], [.lInit, .lScan], .bytesLeft, some .compress⟩
/-- LZW.ENCEOF's guard (R274). -/
def guardLzwEnceof : Guard := ⟨[.lzw], [.lInit, .lScan], .atEnd, some .compress⟩
/-- LZW.WIDTH's guard (R275). -/
def guardLzwWidth : Guard := ⟨[.lzw], [.lScanned], .any, some .compress⟩
/-- LZW.WRHDR's guard (R276). -/
def guardLzwWrhdr : Guard := ⟨[.lzw], [.lWidth], .any, some .compress⟩
/-- LZW.EMIT's guard (R277). -/
def guardLzwEmit : Guard := ⟨[.lzw], [.lHdrw], .any, some .compress⟩
/-- LZW.RDHDR's guard (R278). -/
def guardLzwRdhdr : Guard := ⟨[.lzw], [.lInit], .any, some .decompress⟩
/-- LZW.DECCODE's guard (R279). -/
def guardLzwDeccode : Guard := ⟨[.lzw], [.lDec], .any, some .decompress⟩

/-- LZW.INIT (R272). -/
def execLzwInit (s : State) : Host.Outcome State Fault Refusal :=
  accept guardLzwInit lzwInitBody s

/-- LZW.ENCBYTE (R273). -/
def execLzwEncbyte (s : State) : Host.Outcome State Fault Refusal :=
  accept guardLzwEncbyte lzwEncbyteBody s

/-- LZW.ENCEOF (R274). -/
def execLzwEnceof (s : State) : Host.Outcome State Fault Refusal :=
  accept guardLzwEnceof lzwEnceofBody s

/-- LZW.WIDTH (R275). -/
def execLzwWidth (s : State) : Host.Outcome State Fault Refusal :=
  accept guardLzwWidth lzwWidthBody s

/-- LZW.WRHDR (R276). -/
def execLzwWrhdr (s : State) : Host.Outcome State Fault Refusal :=
  accept guardLzwWrhdr lzwWrhdrBody s

/-- LZW.EMIT (R277). -/
def execLzwEmit (s : State) : Host.Outcome State Fault Refusal :=
  accept guardLzwEmit lzwEmitBody s

/-- LZW.RDHDR (R278). -/
def execLzwRdhdr (s : State) : Host.Outcome State Fault Refusal :=
  accept guardLzwRdhdr lzwRdhdrBody s

/-- LZW.DECCODE (R279). -/
def execLzwDeccode (s : State) : Host.Outcome State Fault Refusal :=
  accept guardLzwDeccode lzwDeccodeBody s

end Sys2Proof.Machine
end

