-- ==== Sys2Proof/Machine/Session.lean ====
section
/-! DEFINITION. The codec session and its commands NOP, SOPEN, COMPRESS, DECOMPRESS
(spec/41_session.md; the expansions of spec/30_encoding.md rule R108). -/

namespace Sys2Proof.Machine

/-- SOPEN's writes (R161). -/
def State.openSession (s : State) (c : Codec) (m : Mode) : State :=
  { s.clearErr.clearCmderr.clearStream with
    codec := c
    mode := m
    phase := .idle
    result := 0#64
    origSize := 0#64
    compSize := 0#64 }

/-- NOP (R160): no register changes. -/
def execNop (s : State) : Host.Outcome State Fault Refusal := .next s

/-- SOPEN codec, mode (R161): legal at every PHASE, CODEC and MODE; an operand outside its legal set is
refused (R316 step 2). -/
def execSopen (a b : BitVec 8) (s : State) : Host.Outcome State Fault Refusal :=
  match codecOperand a, modeOperand b with
  | some c, some m => .next (s.openSession c m)
  | _, _ => .next s.refuse

/-- COMPRESS for the Huffman codec (R108). -/
def compressHuf : Act Unit := do
  hufCountBody
  hufBuildBody
  hufCodesBody
  hufWrhdrBody
  hufEncodeBody

/-- COMPRESS for the arithmetic codec (R108). -/
def compressArt : Act Unit := do
  artInitBody
  artWrhdrBody
  let s ← Act.state
  Act.times artEncsymBody s.srcLen.toNat
  artFlushBody

/-- COMPRESS for the LZW codec (R108). -/
def compressLzw : Act Unit := do
  lzwInitBody
  let s ← Act.state
  Act.times lzwEncbyteBody s.srcLen.toNat
  lzwEnceofBody
  lzwWidthBody
  lzwWrhdrBody
  lzwEmitBody

/-- The expansion of COMPRESS by CODEC (R108); with no session the guard has refused (R316 step 4). -/
def compressBody : Act Unit := do
  let s ← Act.state
  match s.codec with
  | .closed => pure ()
  | .huf => compressHuf
  | .art => compressArt
  | .lzw => compressLzw

/-- The bits of SRC from the read cursor on (R50): no decoder step consumes more. -/
def bitsLeft (s : State) : Nat := s.rcnt.toNat + 8 * (s.srcLen.toNat - s.srcPos.toNat)

/-- A bound on the steps of an arithmetic decode (R361): each emits a byte, consumes a bit or ends. -/
def artDecodeBound (s : State) : Nat := bitsLeft s + (s.origSize.toNat - s.dstLen.toNat) + 1

/-- A bound on the steps of an LZW decode (R166): each consumes bits or ends. -/
def lzwDecodeBound (s : State) : Nat := bitsLeft s + 1

/-- DECOMPRESS for the Huffman codec (R108). -/
def decompressHuf : Act Unit := do
  hufRdhdrBody
  hufBuildBody
  hufDecodeBody

/-- DECOMPRESS for the arithmetic codec (R108). -/
def decompressArt : Act Unit := do
  artInitBody
  artRdhdrBody
  let s ← Act.state
  Act.while (fun s => s.phase == .aDec) artDecstepBody (artDecodeBound s)

/-- DECOMPRESS for the LZW codec (R108). -/
def decompressLzw : Act Unit := do
  lzwInitBody
  lzwRdhdrBody
  let s ← Act.state
  Act.while (fun s => s.phase == .lDec) lzwDeccodeBody (lzwDecodeBound s)

/-- The expansion of DECOMPRESS by CODEC (R108); with no session the guard has refused. -/
def decompressBody : Act Unit := do
  let s ← Act.state
  match s.codec with
  | .closed => pure ()
  | .huf => decompressHuf
  | .art => decompressArt
  | .lzw => decompressLzw

/-- COMPRESS's guard (R165). -/
def guardCompress : Guard := ⟨[.huf, .art, .lzw], [.idle, .done], .any, some .compress⟩
/-- DECOMPRESS's guard (R166). -/
def guardDecompress : Guard := ⟨[.huf, .art, .lzw], [.idle, .done], .any, some .decompress⟩

/-- COMPRESS (R165). -/
def execCompress (s : State) : Host.Outcome State Fault Refusal :=
  accept guardCompress compressBody s

/-- DECOMPRESS (R166). -/
def execDecompress (s : State) : Host.Outcome State Fault Refusal :=
  accept guardDecompress decompressBody s

end Sys2Proof.Machine
end

