-- ==== Sys2Proof/Machine/Dispatch.lean ====
section
/-! DEFINITION. `exec`: one arm per command, each one call of its meaning. -/

namespace Sys2Proof.Machine

def exec (i : Instr) (s : State) : Host.Outcome State Fault Refusal :=
  match i with
  | .nop => Sys2Proof.Machine.execNop s
  | .sopen a b => Sys2Proof.Machine.execSopen a b s
  | .compress => Sys2Proof.Machine.execCompress s
  | .decompress => Sys2Proof.Machine.execDecompress s
  | .bwsReset => Sys2Proof.Machine.execBwsReset s
  | .bwsWrite imm a => Sys2Proof.Machine.execBwsWrite imm a s
  | .bwsFinish => Sys2Proof.Machine.execBwsFinish s
  | .bwsRead a => Sys2Proof.Machine.execBwsRead a s
  | .hufCount => Sys2Proof.Machine.execHufCount s
  | .hufBuild => Sys2Proof.Machine.execHufBuild s
  | .hufCodes => Sys2Proof.Machine.execHufCodes s
  | .hufWrhdr => Sys2Proof.Machine.execHufWrhdr s
  | .hufEncode => Sys2Proof.Machine.execHufEncode s
  | .hufRdhdr => Sys2Proof.Machine.execHufRdhdr s
  | .hufDecode => Sys2Proof.Machine.execHufDecode s
  | .artInit => Sys2Proof.Machine.execArtInit s
  | .artWrhdr => Sys2Proof.Machine.execArtWrhdr s
  | .artEncsym => Sys2Proof.Machine.execArtEncsym s
  | .artFlush => Sys2Proof.Machine.execArtFlush s
  | .artRdhdr => Sys2Proof.Machine.execArtRdhdr s
  | .artDecstep => Sys2Proof.Machine.execArtDecstep s
  | .lzwInit => Sys2Proof.Machine.execLzwInit s
  | .lzwEncbyte => Sys2Proof.Machine.execLzwEncbyte s
  | .lzwEnceof => Sys2Proof.Machine.execLzwEnceof s
  | .lzwWidth => Sys2Proof.Machine.execLzwWidth s
  | .lzwWrhdr => Sys2Proof.Machine.execLzwWrhdr s
  | .lzwEmit => Sys2Proof.Machine.execLzwEmit s
  | .lzwRdhdr => Sys2Proof.Machine.execLzwRdhdr s
  | .lzwDeccode => Sys2Proof.Machine.execLzwDeccode s

end Sys2Proof.Machine
end

