-- ==== Sys2Proof/Machine/HostPort.lean ====
section
/-! DEFINITION. The host's side of the block (spec/20_memory.md rule R81, spec/10_state.md rule R34):
the command port, writing SRC and SRC_LEN, reset, the register read port and reading DST. -/

namespace Sys2Proof.Machine

/-- PHASE is IDLE, DONE or FAULT: the host may touch memory (R81). -/
def quiet (s : State) : Bool := s.phase == .idle || s.phase == .done || s.phase == .fault

/-- A command word at the command port: decoded and performed, or refused as illegal (R316 steps 1 and
2, R314). -/
def hostCommand (w : BitVec 64) (s : State) : Host.Outcome State Fault Refusal :=
  match decode w with
  | .ok i => exec i s
  | .error _ => .next s.refuse

/-- The host writes one byte of SRC (R81); during a call it must not, and the model makes no claim
(U6). -/
def hostWriteSrc (addr : BitVec 64) (b : Byte) (s : State) : Host.Outcome State Fault Refusal :=
  if quiet s then .next { s with src := Memory.write s.src addr.toNat b } else .fault .hostDuringCall

/-- The host writes SRC_LEN (R34, R81). -/
def hostWriteSrcLen (n : BitVec 64) (s : State) : Host.Outcome State Fault Refusal :=
  if quiet s then .next { s with srcLen := n } else .fault .hostDuringCall

/-- The host asserts reset (R81, R350), at any time; the parameters stay, and so do the actions the
host has yet to take; notes/assumptions/9. -/
def hostReset (s : State) : Host.Outcome State Fault Refusal :=
  .next { State.reset with cfg := s.cfg, port := s.port }

/-- One action of the host. -/
def hostAct (a : HostAct) (s : State) : Host.Outcome State Fault Refusal :=
  match a with
  | .command w => hostCommand w s
  | .writeSrc addr b => hostWriteSrc addr b s
  | .writeSrcLen n => hostWriteSrcLen n s
  | .reset => hostReset s

/-- The register read port (R34): the value zero-extended to 64 bits; any other number reads 0. -/
def hostReadReg (n : Nat) (s : State) : U64 :=
  match n with
  | 0x00 => (codecCode s.codec).setWidth 64
  | 0x01 => (modeCode s.mode).setWidth 64
  | 0x02 => (phaseCode s.phase).setWidth 64
  | 0x03 => (errCode s.err).setWidth 64
  | 0x04 => (cmderrBit s.cmderr).setWidth 64
  | 0x05 => s.result
  | 0x06 => s.origSize
  | 0x07 => s.compSize
  | 0x08 => s.srcLen
  | 0x09 => s.srcPos
  | 0x0A => s.dstLen
  | 0x0B => s.lzw.width.setWidth 64
  | 0x0C => BitVec.ofNat 64 s.huf.leafCnt.val
  | _ => 0#64

/-- The host reads DST (R81): bytes 0 to DST_LEN - 1, while PHASE is IDLE, DONE or FAULT; bytes at
DST_LEN and above are unspecified (R72), and the model gives none of them and none at another PHASE;
notes/assumptions/10. -/
def hostReadDst (a : Nat) (s : State) : Option Byte :=
  if quiet s && a < s.dstLen.toNat then Memory.read s.dst a else none

end Sys2Proof.Machine
end

