-- ==== Sys2Proof/Machine/Step.lean ====
section
/-! DEFINITION. One step: the host's next action, or waiting for one (spec/10_state.md rules R20, R53). -/

namespace Sys2Proof.Machine

/-- The next action of the host is taken off the port and performed; with none pending the block waits
(R53).  Commands are atomic and performed in the order the host wrote them (R2, R82). -/
def step : State → Host.Outcome State Fault Refusal := fun s =>
  match s.port with
  | [] => .next s
  | a :: rest => hostAct a { s with port := rest }

/-- The state with the command word `w` next at the command port (R100: a command is one word, never
fetched from memory, R70); bits of `w` above `nbits` are zero. -/
def State.withFetchWord (s : State) (nbits w : Nat) : State :=
  { s with port := .command (BitVec.ofNat 64 (w % 2 ^ nbits)) :: s.port }

end Sys2Proof.Machine
end

