-- ==== Sys2Proof/Safety.lean ====
section
/-! DEFINITION. The words the statements about the block use: streams of bits and bytes, the tables of
which command is legal where, the trees, intervals and dictionaries of the codecs in the spec's own
terms, runs of step commands, and the invariants every step keeps. -/

namespace Sys2Proof.Machine

/-! ## Bytes and bits in DST and SRC -/

/-- PHASE is one in which a call may start and the packer commands are legal (R24). -/
abbrev State.between (s : State) : Prop := s.phase = .idle ∨ s.phase = .done

/-- DST takes `n` more bytes, and DST_LEN stays a u64 (R10, R14). -/
abbrev State.room (s : State) (n : Nat) : Prop :=
  s.cfg.dstFits s.dstLen.toNat n = true ∧ s.dstLen.toNat + n < 2 ^ 64

/-- DST has no room for `n` more bytes (R79). -/
abbrev State.full (s : State) (n : Nat) : Prop := s.cfg.dstFits s.dstLen.toNat n = false

/-- The write side of the packer between commands (R35). -/
abbrev State.writerOk (s : State) : Prop := s.wcnt.toNat < 8 ∧ s.wacc.toNat < 2 ^ s.wcnt.toNat

/-- The read side of the packer between commands (R36). -/
abbrev State.readerOk (s : State) : Prop := s.rcnt.toNat < 8 ∧ s.rbyte.toNat < 2 ^ s.rcnt.toNat

/-- SRC can be read to its end: the read side is sound, SRC_POS is at most SRC_LEN and the host has
written every byte in between. -/
abbrev State.srcIntact (s : State) : Prop :=
  s.readerOk ∧ s.srcPos.toNat ≤ s.srcLen.toNat
  ∧ ∀ k, s.srcPos.toNat ≤ k → k < s.srcLen.toNat → (Memory.read s.src k).isSome = true

/-- How many bits are left in RBYTE and SRC (R36). -/
def State.bitsLeft (s : State) : Nat := s.rcnt.toNat + 8 * (s.srcLen.toNat - s.srcPos.toNat)

/-- The read cursor at the end of SRC, every bit consumed. -/
def State.drained (s : State) : State := { s with srcPos := s.srcLen, rbyte := 0#8, rcnt := 0#4 }

/-- `fail(3)` (R317, R313): IOFailure. -/
def ioFailed (s : State) : State := { s with err := .ioFailure, result := 0#64, phase := .fault }

/-- The bits accepted and not yet written to DST, first first (R35). -/
def State.pendingBits (s : State) : List Bool := (List.range s.wcnt.toNat).map s.wacc.getLsbD

/-- Every byte of DST outside the block between the two DST_LENs reads as before (R72). -/
def DstOutside (s t : State) : Prop :=
  ∀ a, a < s.dstLen.toNat ∨ t.dstLen.toNat ≤ a → Memory.read t.dst a = Memory.read s.dst a

/-- `t` has the bytes `bs` appended to DST (R72). -/
def DstAppended (s t : State) (bs : List Byte) : Prop :=
  t.dstLen.toNat = s.dstLen.toNat + bs.length
  ∧ Memory.readBytes t.dst s.dstLen.toNat bs.length = some bs ∧ DstOutside s t

/-- `t` has the stream bits `new` appended after the pending ones (R75, R115, R140): stream bit `n` is
bit `n mod 8` of byte `n div 8`; the bits of an incomplete byte wait in WACC. -/
structure BitsAppended (s t : State) (new : List Bool) : Prop where
  len : t.dstLen.toNat = s.dstLen.toNat + (s.wcnt.toNat + new.length) / 8
  count : t.wcnt.toNat = (s.wcnt.toNat + new.length) % 8
  bytes : ∀ n, n < 8 * ((s.wcnt.toNat + new.length) / 8) →
    (Memory.read t.dst (s.dstLen.toNat + n / 8)).map (fun b => b.getLsbD (n % 8))
      = (s.pendingBits ++ new)[n]?
  pending : ∀ j, t.wacc.getLsbD j
    = (s.pendingBits ++ new).getD (8 * ((s.wcnt.toNat + new.length) / 8) + j) false
  outside : DstOutside s t

/-- `t` has the stream bits `new` appended and the last byte filled up with zero bits (R115, R141). -/
structure BitsFinished (s t : State) (new : List Bool) : Prop where
  len : t.dstLen.toNat = s.dstLen.toNat + (s.wcnt.toNat + new.length + 7) / 8
  writer : t.wacc = 0#8 ∧ t.wcnt = 0#4
  bytes : ∀ n, n < 8 * ((s.wcnt.toNat + new.length + 7) / 8) →
    (Memory.read t.dst (s.dstLen.toNat + n / 8)).map (fun b => b.getLsbD (n % 8))
      = some ((s.pendingBits ++ new).getD n false)
  outside : DstOutside s t

/-- `t` has only `m` bytes of the stream bits `new`, appended after the pending ones, in DST: the next
byte did not fit and stands in WACC (R140, R313, R319; that WCNT is then 8 is notes/assumptions/8). -/
structure BitsCutOff (s t : State) (new : List Bool) (m : Nat) : Prop where
  len : t.dstLen.toNat = s.dstLen.toNat + m
  count : t.wcnt = 8#4
  bytes : ∀ n, n < 8 * m →
    (Memory.read t.dst (s.dstLen.toNat + n / 8)).map (fun b => b.getLsbD (n % 8))
      = (s.pendingBits ++ new)[n]?
  waiting : ∀ j, j < 8 → (s.pendingBits ++ new)[8 * m + j]? = some (t.wacc.getLsbD j)
  outside : DstOutside s t

/-- Of the fields, appended one after another and each whole or not at all, DST takes exactly those of
`pre` (R73, R79). -/
def fieldsCut (s : State) (fields pre : List (List Byte)) : Prop :=
  ∃ f post, fields = pre ++ f :: post ∧ s.room pre.flatten.length
    ∧ s.full (pre.flatten.length + f.length)

/-- Stream bit `n` from the read cursor on (R36, R75): first the bits RBYTE still holds, then those of
SRC below SRC_LEN; none past the end. -/
def State.srcBit (s : State) (n : Nat) : Option Bool :=
  if n < s.rcnt.toNat then some (s.rbyte.getLsbD n)
  else
    let a := s.srcPos.toNat + (n - s.rcnt.toNat) / 8
    if a < s.srcLen.toNat then
      (Memory.read s.src a).map (fun b => b.getLsbD ((n - s.rcnt.toNat) % 8))
    else none

/-- The stream bits from the read cursor on begin with `bs`. -/
def State.nextBits (s : State) (bs : List Bool) : Prop := ∀ n, n < bs.length → s.srcBit n = bs[n]?

/-- `t` has `w` bits of the stream consumed (R142): whole bytes are fetched, only as many as the bits
need, and what is left of the stream is the old stream from bit `w` on. -/
structure BitsConsumed (s t : State) (w : Nat) : Prop where
  fetched : t.srcPos.toNat = s.srcPos.toNat + (w - s.rcnt.toNat + 7) / 8
  held : t.rcnt.toNat = s.rcnt.toNat + 8 * ((w - s.rcnt.toNat + 7) / 8) - w
  rest : ∀ n, t.srcBit n = s.srcBit (w + n)

/-! ## Which command is legal where -/

/-- The column "codec" of R103. -/
def codecsFor : Instr → List Codec
  | .nop | .sopen _ _ | .bwsReset | .bwsWrite _ _ | .bwsFinish | .bwsRead _ => [.closed, .huf, .art, .lzw]
  | .compress | .decompress => [.huf, .art, .lzw]
  | .hufCount | .hufBuild | .hufCodes | .hufWrhdr | .hufEncode | .hufRdhdr | .hufDecode => [.huf]
  | .artInit | .artWrhdr | .artEncsym | .artFlush | .artRdhdr | .artDecstep => [.art]
  | .lzwInit | .lzwEncbyte | .lzwEnceof | .lzwWidth | .lzwWrhdr | .lzwEmit | .lzwRdhdr | .lzwDeccode =>
    [.lzw]

/-- The table of R24, read by command; NOP and SOPEN are legal at every value. -/
def phasesFor : Instr → List Phase
  | .nop | .sopen _ _ =>
    [.idle, .done, .fault, .hCounted, .hBuilt, .hCoded, .hHdrw, .hHdrr, .hRebuilt, .aInit, .aEnc, .aDec,
      .lInit, .lScan, .lScanned, .lWidth, .lHdrw, .lDec]
  | .compress | .decompress | .bwsReset | .bwsWrite _ _ | .bwsFinish | .bwsRead _ | .hufCount
  | .hufRdhdr | .artInit | .lzwInit => [.idle, .done]
  | .hufBuild => [.hCounted, .hHdrr]
  | .hufCodes => [.hBuilt]
  | .hufWrhdr => [.hCoded]
  | .hufEncode => [.hHdrw]
  | .hufDecode => [.hRebuilt]
  | .artWrhdr | .artRdhdr => [.aInit]
  | .artEncsym | .artFlush => [.aEnc]
  | .artDecstep => [.aDec]
  | .lzwEncbyte | .lzwEnceof => [.lInit, .lScan]
  | .lzwWidth => [.lScanned]
  | .lzwWrhdr => [.lWidth]
  | .lzwEmit => [.lHdrw]
  | .lzwRdhdr => [.lInit]
  | .lzwDeccode => [.lDec]

/-- The cursor conditions of R225, R226, R273, R274. -/
def cursorFor (i : Instr) (s : State) : Prop :=
  match i with
  | .artEncsym | .lzwEncbyte => s.srcPos.toNat < s.srcLen.toNat
  | .artFlush | .lzwEnceof => s.srcPos = s.srcLen
  | _ => True

/-- The column "dir" of R103. -/
def directionFor : Instr → Option Mode
  | .compress | .hufCount | .hufCodes | .hufWrhdr | .hufEncode | .artWrhdr | .artEncsym | .artFlush
  | .lzwEncbyte | .lzwEnceof | .lzwWidth | .lzwWrhdr | .lzwEmit => some .compress
  | .decompress | .hufRdhdr | .hufDecode | .artRdhdr | .artDecstep | .lzwRdhdr | .lzwDeccode =>
    some .decompress
  | .nop | .sopen _ _ | .bwsReset | .bwsWrite _ _ | .bwsFinish | .bwsRead _ | .hufBuild | .artInit
  | .lzwInit => none

/-- The 29 opcodes of R103. -/
def assignedOpcodes : List (BitVec 8) :=
  [0x00#8, 0x01#8, 0x02#8, 0x03#8, 0x10#8, 0x11#8, 0x12#8, 0x13#8]
    ++ [0x20#8, 0x21#8, 0x22#8, 0x23#8, 0x24#8, 0x25#8, 0x26#8]
    ++ [0x30#8, 0x31#8, 0x32#8, 0x33#8, 0x34#8, 0x35#8]
    ++ [0x40#8, 0x41#8, 0x42#8, 0x43#8, 0x44#8, 0x45#8, 0x46#8, 0x47#8]

/-- A word is illegal (R104): an unassigned opcode, a must-be-zero field of R101 that is not zero, or an
operand outside its legal set (R102). -/
def illegalWord (w : BitVec 64) : Prop :=
  let opc := w.toNat % 2 ^ 8
  let a := w.toNat / 2 ^ 8 % 2 ^ 8
  let b := w.toNat / 2 ^ 16 % 2 ^ 8
  let z := w.toNat / 2 ^ 24 % 2 ^ 8
  let imm := w.toNat / 2 ^ 32
  BitVec.ofNat 8 opc ∉ assignedOpcodes
  ∨ z ≠ 0
  ∨ (opc ≠ 0x11 ∧ imm ≠ 0)
  ∨ (opc ≠ 0x01 ∧ b ≠ 0)
  ∨ (opc ≠ 0x01 ∧ opc ≠ 0x11 ∧ opc ≠ 0x13 ∧ a ≠ 0)
  ∨ (opc = 0x01 ∧ (a ∉ [1, 2, 3] ∨ b ∉ [0, 1]))
  ∨ ((opc = 0x11 ∨ opc = 0x13) ∧ a ∉ [1, 4, 8, 12, 16, 20, 24, 28, 32])

/-- The commands whose first act is `begin_call`, alone or in their expansion (R162, R108). -/
def beginsCall (i : Instr) : Prop :=
  i = .hufCount ∨ i = .hufRdhdr ∨ i = .artInit ∨ i = .lzwInit ∨ i = .compress ∨ i = .decompress

/-! ## Runs of step commands -/

/-- The commands of a list performed in order, up to the first that faults (R108). -/
def runSteps : List Instr → State → Host.Outcome State Fault Refusal
  | [], s => .next s
  | i :: is, s =>
    match exec i s with
    | .next t => if t.phase = .fault then .next t else runSteps is t
    | .fault f => .fault f
    | .refused r => .refused r

/-- The expansion of COMPRESS (R108), `n` being SRC_LEN. -/
def compressSteps (c : Codec) (n : Nat) : List Instr :=
  match c with
  | .closed => []
  | .huf => [.hufCount, .hufBuild, .hufCodes, .hufWrhdr, .hufEncode]
  | .art => [.artInit, .artWrhdr] ++ List.replicate n .artEncsym ++ [.artFlush]
  | .lzw => [.lzwInit] ++ List.replicate n .lzwEncbyte ++ [.lzwEnceof, .lzwWidth, .lzwWrhdr, .lzwEmit]

/-- The expansion of DECOMPRESS (R108), its repeated step performed `n` times. -/
def decompressSteps (c : Codec) (n : Nat) : List Instr :=
  match c with
  | .closed => []
  | .huf => [.hufRdhdr, .hufBuild, .hufDecode]
  | .art => [.artInit, .artRdhdr] ++ List.replicate n .artDecstep
  | .lzw => [.lzwInit, .lzwRdhdr] ++ List.replicate n .lzwDeccode

/-! ## What a command may write -/

/-- The registers every command reports through: PHASE, ERR, CMDERR, RESULT, taken from `t`. -/
def reported (s t : State) : State :=
  { s with phase := t.phase, err := t.err, cmderr := t.cmderr, result := t.result }

/-- The packer and both cursors, taken from `t`. -/
def restarted (s t : State) : State :=
  { s with srcPos := t.srcPos, dstLen := t.dstLen, wacc := t.wacc, wcnt := t.wcnt,
           rbyte := t.rbyte, rcnt := t.rcnt }

/-- DST and the write side of the packer, taken from `t`. -/
def written (s t : State) : State :=
  { s with dst := t.dst, dstLen := t.dstLen, wacc := t.wacc, wcnt := t.wcnt }

/-- The read cursor, taken from `t`. -/
def consumed (s t : State) : State := { s with srcPos := t.srcPos, rbyte := t.rbyte, rcnt := t.rcnt }

/-- `s` with exactly the state the rules let the command write taken from `t` (the command rules of
R144 to R279): everything not named is `s`'s. -/
def frameOf (i : Instr) (s t : State) : State :=
  match i with
  | .nop => s
  | .sopen _ _ =>
    { restarted (reported s t) t with
      codec := t.codec, mode := t.mode, origSize := t.origSize, compSize := t.compSize }
  | .compress =>
    { restarted (reported s t) t with
      mode := t.mode, origSize := t.origSize, compSize := t.compSize, dst := t.dst
      huf := if s.codec = .huf then t.huf else s.huf
      art := if s.codec = .art then t.art else s.art
      lzw := if s.codec = .lzw then t.lzw else s.lzw }
  | .decompress =>
    { restarted (reported s t) t with
      origSize := t.origSize, dst := t.dst
      huf := if s.codec = .huf then t.huf else s.huf
      art := if s.codec = .art then t.art else s.art
      lzw := if s.codec = .lzw then t.lzw else s.lzw }
  | .bwsReset => { restarted s t with cmderr := t.cmderr }
  | .bwsWrite _ _ | .bwsFinish => written (reported s t) t
  | .bwsRead _ => consumed (reported s t) t
  | .hufCount =>
    { restarted (reported s t) t with
      origSize := t.origSize
      huf := { s.huf with cnt := t.huf.cnt, leaf := t.huf.leaf, leafCnt := t.huf.leafCnt } }
  | .hufBuild =>
    { s with
      phase := t.phase, cmderr := t.cmderr, huf := { s.huf with node := t.huf.node, root := t.huf.root } }
  | .hufCodes => { reported s t with huf := { s.huf with code := t.huf.code } }
  | .hufWrhdr | .artWrhdr | .lzwWrhdr => { reported s t with dst := t.dst, dstLen := t.dstLen }
  | .hufEncode =>
    { written (reported s t) t with srcPos := t.srcPos, mode := t.mode, compSize := t.compSize }
  | .hufRdhdr =>
    { restarted (reported s t) t with
      origSize := t.origSize, huf := { s.huf with leaf := t.huf.leaf, leafCnt := t.huf.leafCnt } }
  | .hufDecode => { consumed (reported s t) t with dst := t.dst, dstLen := t.dstLen }
  | .artInit => { restarted (reported s t) t with origSize := t.origSize, art := t.art }
  | .artEncsym =>
    { written (reported s t) t with
      srcPos := t.srcPos
      art := { s.art with acnt := t.art.acnt, atotal := t.art.atotal, dist := t.art.dist,
                          low := t.art.low, high := t.art.high } }
  | .artFlush | .lzwEmit => { written (reported s t) t with mode := t.mode, compSize := t.compSize }
  | .artRdhdr =>
    { consumed (reported s t) t with
      origSize := t.origSize, art := { s.art with acc := t.art.acc, exp := t.art.exp } }
  | .artDecstep => { consumed (reported s t) t with dst := t.dst, dstLen := t.dstLen, art := t.art }
  | .lzwInit =>
    { restarted (reported s t) t with
      origSize := t.origSize
      lzw := { t.lzw with width := s.lzw.width } }
  | .lzwEncbyte =>
    { reported s t with
      srcPos := t.srcPos
      lzw := { s.lzw with dict := t.lzw.dict, phrase := t.lzw.phrase, codebuf := t.lzw.codebuf } }
  | .lzwEnceof =>
    { reported s t with lzw := { s.lzw with phrase := t.lzw.phrase, codebuf := t.lzw.codebuf } }
  | .lzwWidth => { reported s t with lzw := { s.lzw with width := t.lzw.width } }
  | .lzwRdhdr =>
    { consumed (reported s t) t with
      origSize := t.origSize, lzw := { s.lzw with width := t.lzw.width } }
  | .lzwDeccode =>
    { consumed (reported s t) t with
      dst := t.dst, dstLen := t.dstLen
      lzw := { s.lzw with dict := t.lzw.dict, prev := t.lzw.prev, havePrev := t.lzw.havePrev } }

/-- BWS.READ performed once for each width; the values read, if all of them could be read (R147). -/
def readItems : List (BitVec 8) → State → Option (List U64)
  | [], _ => some []
  | a :: as, s =>
    match exec (.bwsRead a) s with
    | .next t => if t.phase = .fault then none else (readItems as t).map fun vs => t.result :: vs
    | .fault _ => none
    | .refused _ => none

/-! ## Huffman trees -/

/-- NODE[i] comes before NODE[j] in the priority order (R184). -/
def comesBefore (ns : List Node) (i j : Nat) : Prop :=
  weightAt ns i < weightAt ns j ∨ (weightAt ns i = weightAt ns j ∧ i < j)

/-- The leaves a tree is built from: at least two once there is one (R183, R185). -/
def firstInternal (ls : List Leaf) : Nat := if ls.length = 1 then 2 else ls.length

/-- Index `i` waits when NODE[n] is made: it is older, and no older merge has taken it (R183). -/
def waits (ls : List Leaf) (ns : List Node) (n i : Nat) : Prop :=
  i < n ∧ ∀ m (x : Node), firstInternal ls ≤ m → m < n → ns[m]? = some x → x.left ≠ i ∧ x.right ≠ i

/-- What HUF.BUILD makes of a leaf list (R183 to R186).  That the unused LEFT and RIGHT of a leaf hold 0 is
the model's choice, notes/assumptions/15. -/
structure BuiltTree (ls : List Leaf) (ns : List Node) (root : Option Nat) : Prop where
  size : ns.length = if ls.length = 0 then 0 else if ls.length = 1 then 3 else 2 * ls.length - 1
  top : root = if ls.length = 0 then none else some (ns.length - 1)
  leaves : ∀ (k : Nat) (l : Leaf), ls[k]? = some l → ns[k]? = some (Node.mk true false l.sym l.weight 0 0)
  dummy : ls.length = 1 → ns[1]? = some (Node.mk true true 0#8 0#32 0 0)
  merges : ∀ (n : Nat) (x : Node), firstInternal ls ≤ n → ns[n]? = some x →
    x.leaf = false ∧ x.dummy = false ∧ x.weight.toNat = weightAt ns x.left + weightAt ns x.right
    ∧ waits ls ns n x.left ∧ waits ls ns n x.right ∧ x.left ≠ x.right
    ∧ (∀ j, waits ls ns n j → j ≠ x.left → comesBefore ns x.left j)
    ∧ (∀ j, waits ls ns n j → j ≠ x.left → j ≠ x.right → comesBefore ns x.right j)

/-- The arena is ordered: children are older than their node, the root is an internal node of it, and
at most 255 nodes are internal (R39, R192). -/
structure ArenaOk (ns : List Node) (root : Option Nat) : Prop where
  older : ∀ i (x : Node), ns[i]? = some x → x.leaf = false → x.left < i ∧ x.right < i
  top : ∀ r, root = some r → ∃ x : Node, ns[r]? = some x ∧ x.leaf = false
  few : ns.countP (fun x : Node => !x.leaf) ≤ 255

/-- The path `p` leads from node `i` to the leaf `x`: 0 to the left, 1 to the right (R187). -/
def leadsTo (ns : List Node) : Nat → List Bool → Node → Prop
  | i, [], x => ns[i]? = some x ∧ x.leaf = true
  | i, b :: p, x => ∃ y, ns[i]? = some y ∧ y.leaf = false ∧ leadsTo ns (if b then y.right else y.left) p x

/-- The path `p` is the code of symbol `c` in the tree: it leads from the root to a leaf of that symbol,
not to the dummy (R187). -/
def isCode (ns : List Node) (root : Option Nat) (c : Byte) (p : List Bool) : Prop :=
  ∃ r x, root = some r ∧ leadsTo ns r p x ∧ x.dummy = false ∧ x.sym = c

/-- The bits of a byte sequence under a code table (R112). -/
def codedBits (code : Vector (Option (List Bool)) 256) (bs : List Byte) : List Bool :=
  bs.flatMap fun b => (tabGet code b).getD []

/-- The header of a Huffman archive (R111). -/
def hufHeader (size : U64) (ls : List Leaf) : List Byte :=
  beBytes 8 size.toNat ++ beBytes 4 ls.length
    ++ ls.flatMap fun l => l.sym :: beBytes 4 l.weight.toNat

/-- The same header as the fields that are appended one after another (R188). -/
def hufFields (size : U64) (ls : List Leaf) : List (List Byte) :=
  [beBytes 8 size.toNat, beBytes 4 ls.length] ++ ls.flatMap fun l => [[l.sym], beBytes 4 l.weight.toNat]

/-- The leaf list of a source: one record for each byte value that occurs, ascending (R182). -/
def tallyLeaves (bs : List Byte) : List Leaf :=
  (List.range 256).filterMap fun k =>
    let c := bs.count (BitVec.ofNat 8 k)
    if c = 0 then none else some ⟨BitVec.ofNat 8 k, BitVec.ofNat 32 c⟩

/-! ## Intervals -/

/-- The number bits stand for, the first the most significant. -/
def bitsNumber (bs : List Bool) : Nat := bs.foldl (fun v b => 2 * v + b.toNat) 0

/-- `bs` is the finite binary expansion of the fraction `x`, without a trailing 0 (R222, R226). -/
def expands (x : F64) (bs : List Bool) : Prop :=
  x.units * 2 ^ bs.length = bitsNumber bs * F64.scale ∧ bs.getLast? ≠ some false

/-- DIST is the layout of the counts in [LOW, HIGH), in the order of operations of R221. -/
def laidOut (u : ArtUnit) : Prop :=
  u.dist[0] = u.low ∧ ∀ j (h : j < 256),
    u.dist[j + 1]'(Nat.succ_lt_succ h)
      = F64.fadd (u.dist[j]'(Nat.lt_succ_of_lt h))
          (F64.fmul (F64.fdiv (F64.ofNat u.acnt[j]) (F64.ofNat u.atotal)) (F64.fsub u.high u.low))

/-- The model after symbol `b` was coded in the interval that `r` renormalized (R225, R229). -/
def modelAfter (u v : ArtUnit) (b : Byte) (r : Renorm) : Prop :=
  (∀ c, tabGet v.acnt c = if c = b then tabGet u.acnt c + 1 else tabGet u.acnt c)
  ∧ v.atotal = u.atotal + 1 ∧ v.low = r.low ∧ v.high = r.high ∧ laidOut v

/-- One doubling that drops the integer part (R229). -/
def dropDouble (x : F64) : F64 :=
  if F64.le F64.one (F64.fmul F64.two x) then F64.fsub (F64.fmul F64.two x) F64.one
  else F64.fmul F64.two x

/-- `i` is the symbol the search of R228 gives: the largest index with DIST[i] at most ACC. -/
def searchGives (u : ArtUnit) (i : Byte) : Prop :=
  F64.le u.dist[0] u.acc = true ∧ F64.le (distLow u.dist i) u.acc = true
  ∧ ∀ j : Byte, i.toNat < j.toNat → F64.lt u.acc (distLow u.dist j) = true

/-! ## Dictionaries -/

/-- The stream bits of the collected codewords, WIDTH bits each, bit 0 first (R114, R277). -/
def packedBits (u : LzwUnit) : List Bool :=
  u.codebuf.flatMap fun c => (List.range u.width.toNat).map c.getLsbD

/-- `c` is the codeword of the phrase `p` (R271): a byte stands for itself, a longer phrase has 256 plus
its place. -/
def codewordIs (u : LzwUnit) (p : List Byte) (c : U32) : Prop :=
  (∃ b, p = [b] ∧ c.toNat = b.toNat)
  ∨ (2 ≤ p.length ∧ ∃ k, u.dict[k]? = some p ∧ (∀ j, j < k → u.dict[j]? ≠ some p)
      ∧ c.toNat = 256 + k)

/-- `p` is the phrase the decoder takes for the codeword `c` (R271, R279): a literal, a stored phrase, or
for the codeword about to be defined the previous phrase and its first byte again. -/
def phraseIs (u : LzwUnit) (c : Nat) (p : List Byte) : Prop :=
  (c < 256 ∧ p = [BitVec.ofNat 8 c])
  ∨ (256 ≤ c ∧ u.dict[c - 256]? = some p)
  ∨ (c = 256 + u.dict.length ∧ u.havePrev = true ∧ ∃ x xs, u.prev = x :: xs ∧ p = x :: xs ++ [x])

/-- The codeword at the read cursor, `w` bits, the first its bit 0 (R142). -/
def State.codewordAt (s : State) (w : Nat) : Nat :=
  bitsValue ((List.range w).map fun n => (s.srcBit n).getD false)

/-! ## The invariants -/

/-- The memories are in canonical form. -/
abbrev memoryOk (s : State) : Prop := Memory.wf s.src ∧ Memory.wf s.dst

/-- The packer's registers (R35, R36); after an append that failed the write side is at 8 bits. -/
abbrev packerOk (s : State) : Prop := (s.phase = .fault ∨ s.writerOk) ∧ s.readerOk

/-- PHASE belongs to the codec of the session and to its direction (R24, R323), and a call that ended
in FAULT left its error kind (R317). -/
def sessionOk (s : State) : Prop :=
  match s.phase with
  | .idle | .done => True
  | .fault => s.err = .modelPrecision ∨ s.err = .ioFailure
  | .hCounted | .hBuilt | .hCoded | .hHdrw => s.codec = .huf ∧ s.mode = .compress
  | .hHdrr | .hRebuilt => s.codec = .huf ∧ s.mode = .decompress
  | .aInit => s.codec = .art
  | .aEnc => s.codec = .art ∧ s.mode = .compress
  | .aDec => s.codec = .art ∧ s.mode = .decompress
  | .lInit => s.codec = .lzw
  | .lScan | .lScanned | .lWidth | .lHdrw => s.codec = .lzw ∧ s.mode = .compress
  | .lDec => s.codec = .lzw ∧ s.mode = .decompress

/-- The tree is a tree, and every code is a path of 1 to 255 bits (R39, R40, R192). -/
def huffmanOk (u : HufUnit) : Prop :=
  u.node.length ≤ 511 ∧ ArenaOk u.node u.root
  ∧ ∀ c p, tabGet u.code c = some p → 1 ≤ p.length ∧ p.length ≤ 255

/-- The counts add up to the total, DIST is the layout of the counts and does not decrease, LOW is at
most HIGH, and every number is a binary64 number (R41 to R44, R230). -/
def modelOk (u : ArtUnit) : Prop :=
  u.acnt.toList.sum = u.atotal ∧ laidOut u
  ∧ (∀ j (h : j < 256), F64.le (u.dist[j]'(Nat.lt_succ_of_lt h)) (u.dist[j + 1]'(Nat.succ_lt_succ h)) = true)
  ∧ (∀ j (h : j < 257), (u.dist[j]).Valid)
  ∧ F64.le u.low u.high = true ∧ u.low.Valid ∧ u.high.Valid ∧ u.acc.Valid

/-- The dictionary, the collected codewords and the width (R45 to R49, R275). -/
def dictionaryOk (s : State) : Prop :=
  s.lzw.dict.length ≤ s.cfg.dictLimit
  ∧ (∀ p ∈ s.lzw.dict, 2 ≤ p.length)
  ∧ (s.lzw.phrase.length ≤ 1 ∨ s.lzw.phrase ∈ s.lzw.dict)
  ∧ (∀ c ∈ s.lzw.codebuf, c.toNat < s.lzw.next)
  ∧ (s.lzw.havePrev = true → s.lzw.prev ≠ [])
  ∧ (s.lzw.width = 0#6 ∨ s.lzw.width.toNat ∈ Config.lzwWidths)
  ∧ (s.phase = .lDec → s.lzw.width.toNat ∈ Config.lzwWidths)
  ∧ (s.phase = .lWidth ∨ s.phase = .lHdrw →
      s.lzw.width.toNat ∈ Config.lzwWidths ∧ ∀ c ∈ s.lzw.codebuf, c.toNat < 2 ^ s.lzw.width.toNat)

end Sys2Proof.Machine
end

