-- ==== Sys2Proof/Certificates/Slice0/Obligations.lean ====
section
/-! DEFINITION. The statements about the block that the provers are asked to prove. -/

section
open Sys2Proof Sys2Proof.Machine

/-! ## The command word -/

/-- R101 to R103: the decoder gives back every well-formed command from its word, with every operand at
every legal value. -/
def Obligations.DecodeEncodeRoundTrip : Prop :=
  ∀ i : Instr, i.wellFormed = true → decode (encode i) = .ok i

/-- R105: a word decodes to a command exactly when it matches the command's row under the row's mask,
its operand fields are the command's operands, and these are legal; and no two rows overlap. -/
def Obligations.DecodeSelectsRow : Prop :=
  (∀ (w : BitVec 64) (i : Instr), decode w = .ok i ↔
    (i.wellFormed = true ∧
      match i with
      | .sopen a b =>
        w &&& 0xFFFFFFFFFF0000FF#64 = 0x01#64
        ∧ a = BitVec.ofNat 8 (w.toNat / 2 ^ 8) ∧ b = BitVec.ofNat 8 (w.toNat / 2 ^ 16)
      | .bwsWrite imm a =>
        w &&& 0x00000000FFFF00FF#64 = 0x11#64
        ∧ a = BitVec.ofNat 8 (w.toNat / 2 ^ 8) ∧ imm = BitVec.ofNat 32 (w.toNat / 2 ^ 32)
      | .bwsRead a =>
        w &&& 0xFFFFFFFFFFFF00FF#64 = 0x13#64 ∧ a = BitVec.ofNat 8 (w.toNat / 2 ^ 8)
      | j => w &&& 0xFFFFFFFFFFFFFFFF#64 = (opcodeOf j).setWidth 64))
  ∧ ∀ (w : BitVec 64) (i j : Instr),
      w &&& maskOf i = matchOf i → w &&& maskOf j = matchOf j → opcodeOf i = opcodeOf j

/-- Words of the spec's examples and programs (R161, R107 with 95_test_vectors.md P1 to P6): the decoder
reads the command the spec names. -/
def Obligations.KnownWordsDecode : Prop :=
  decode 0x0000000000000000#64 = .ok .nop
  ∧ decode 0x0000000000000101#64 = .ok (.sopen 1#8 0#8)
  ∧ decode 0x0000000000010301#64 = .ok (.sopen 3#8 1#8)
  ∧ decode 0x0000000000000002#64 = .ok .compress
  ∧ decode 0x0000004100000C11#64 = .ok (.bwsWrite 0x41#32 12#8)
  ∧ decode 0x000ABCDE00001411#64 = .ok (.bwsWrite 0xABCDE#32 20#8)
  ∧ decode 0x0000000000000C13#64 = .ok (.bwsRead 12#8)
  ∧ decode 0x0000000000000024#64 = .ok .hufEncode
  ∧ decode 0x0000000000000035#64 = .ok .artDecstep
  ∧ decode 0x0000000000000044#64 = .ok .lzwWrhdr

/-- R104, R314: the decoder rejects exactly the illegal words, and the block refuses them: CMDERR is set
and nothing else changes. -/
def Obligations.IllegalWordRefused : Prop :=
  ∀ w : BitVec 64,
    (illegalWord w ↔ ∃ e, decode w = .error e)
    ∧ (illegalWord w → ∀ s : State, hostCommand w s = .next { s with cmderr := true })

/-! ## One step -/

/-- R20, R82: a command word at the command port whose decoding is `i` makes the step `exec i`, with the
word taken off the port; with nothing pending the block waits (R53).  The port is the model's form of
the host's actions, notes/assumptions/1. -/
def Obligations.StepRunsCommand : Prop :=
  (∀ (s : State) (w : BitVec 64) (rest : List HostAct) (i : Instr),
    s.port = .command w :: rest → decode w = .ok i → step s = exec i { s with port := rest })
  ∧ ∀ s : State, s.port = [] → step s = .next s

/-- R81: what the host's other actions do, and when: SRC bytes and SRC_LEN while PHASE is IDLE, DONE or
FAULT, reset at any time; and the host's read of DST below DST_LEN at IDLE, DONE or FAULT.  The model's
choices are: a write at another time is a fault (notes/assumptions/6); reset keeps the parameters and
the actions still pending, lists nothing in SRC and DST (notes/assumptions/9) and gives the engine tables
the values of notes/assumptions/4; a read of DST at another time or at DST_LEN or above gives nothing
(notes/assumptions/10). -/
def Obligations.HostActions : Prop :=
  ∀ (s : State) (rest : List HostAct),
    (∀ addr b, s.port = .writeSrc addr b :: rest → (s.between ∨ s.phase = .fault) →
      ∃ t, step s = .next t ∧ t = { s with port := rest, src := t.src }
        ∧ ∀ a, Memory.read t.src a = if a = addr.toNat then some b else Memory.read s.src a)
    ∧ (∀ n, s.port = .writeSrcLen n :: rest → (s.between ∨ s.phase = .fault) →
      step s = .next { s with port := rest, srcLen := n })
    ∧ (∀ act, s.port = act :: rest → ((∃ addr b, act = .writeSrc addr b) ∨ ∃ n, act = .writeSrcLen n) →
      ¬(s.between ∨ s.phase = .fault) → step s = .fault .hostDuringCall)
    ∧ (s.port = .reset :: rest → step s = .next { State.reset with cfg := s.cfg, port := rest })
    ∧ ∀ a, hostReadDst a s
        = if (s.between ∨ s.phase = .fault) ∧ a < s.dstLen.toNat then Memory.read s.dst a else none

/-- R34 with the codes of R22 to R25: the register numbers, each register read zero-extended, and 0 for
any other number. -/
def Obligations.RegisterMap : Prop :=
  ∀ s : State,
    (hostReadReg 0x00 s).toNat
        = (match s.codec with | .closed => 0 | .huf => 1 | .art => 2 | .lzw => 3)
    ∧ (hostReadReg 0x01 s).toNat = (match s.mode with | .compress => 0 | .decompress => 1)
    ∧ (hostReadReg 0x02 s).toNat
        = (match s.phase with
          | .idle => 0x00 | .done => 0x01 | .fault => 0x02
          | .hCounted => 0x20 | .hBuilt => 0x21 | .hCoded => 0x22
          | .hHdrw => 0x23 | .hHdrr => 0x24 | .hRebuilt => 0x25
          | .aInit => 0x30 | .aEnc => 0x31 | .aDec => 0x32
          | .lInit => 0x40 | .lScan => 0x41 | .lScanned => 0x42
          | .lWidth => 0x43 | .lHdrw => 0x44 | .lDec => 0x45)
    ∧ (hostReadReg 0x03 s).toNat
        = (match s.err with | .noError => 0 | .modeMismatch => 1 | .modelPrecision => 2 | .ioFailure => 3)
    ∧ (hostReadReg 0x04 s).toNat = (if s.cmderr then 1 else 0)
    ∧ hostReadReg 0x05 s = s.result ∧ hostReadReg 0x06 s = s.origSize
    ∧ hostReadReg 0x07 s = s.compSize ∧ hostReadReg 0x08 s = s.srcLen
    ∧ hostReadReg 0x09 s = s.srcPos ∧ hostReadReg 0x0A s = s.dstLen
    ∧ (hostReadReg 0x0B s).toNat = s.lzw.width.toNat
    ∧ (hostReadReg 0x0C s).toNat = s.huf.leafCnt.val
    ∧ ∀ n, 0x0C < n → hostReadReg n s = 0#64

/-- R53: the values the spec gives for reset. -/
def Obligations.ResetValues : Prop :=
  State.reset.codec = .closed ∧ State.reset.mode = .compress ∧ State.reset.phase = .idle
  ∧ State.reset.err = .noError ∧ State.reset.cmderr = false ∧ State.reset.result = 0#64
  ∧ State.reset.origSize = 0#64 ∧ State.reset.compSize = 0#64 ∧ State.reset.srcLen = 0#64
  ∧ State.reset.srcPos = 0#64 ∧ State.reset.dstLen = 0#64
  ∧ State.reset.wacc = 0#8 ∧ State.reset.wcnt = 0#4 ∧ State.reset.rbyte = 0#8
  ∧ State.reset.rcnt = 0#4 ∧ State.reset.lzw.width = 0#6 ∧ State.reset.huf.leafCnt.val = 0
  ∧ ∀ n, n ≠ 0x02 → hostReadReg n State.reset = 0#64

/-! ## Acceptance and errors -/

/-- R316 steps 2 to 5 with R24 and R103: a command with an operand outside its set, of the wrong codec, in
a phase that is not legal for it or with its cursor condition not met is refused, whatever MODE is:
CMDERR is set and nothing else changes (R314). -/
def Obligations.RefusedOutOfPlace : Prop :=
  ∀ (i : Instr) (s : State),
    (i.wellFormed = false ∨ s.codec ∉ codecsFor i ∨ s.phase ∉ phasesFor i ∨ ¬cursorFor i s) →
    exec i s = .next { s with cmderr := true }

/-- R311: a command of the other direction that would otherwise have run is answered with ModeMismatch:
ERR 1, RESULT 0, nothing else. -/
def Obligations.WrongDirection : Prop :=
  ∀ (i : Instr) (m : Mode) (s : State),
    directionFor i = some m → m ≠ s.mode → s.codec ∈ codecsFor i → s.phase ∈ phasesFor i →
    cursorFor i s →
    exec i s = .next { s with err := .modeMismatch, result := 0#64 }

/-- R310, R312, R313, R317: a command that takes the block into FAULT reports IOFailure, or, from the
commands that code symbols, ModelPrecisionFailure; RESULT is 0; MODE, COMP_SIZE, CODEC and CMDERR stay. -/
def Obligations.EnteringFault : Prop :=
  ∀ (i : Instr) (s t : State),
    exec i s = .next t → s.phase ≠ .fault → t.phase = .fault →
    (t.err = .ioFailure
      ∨ (t.err = .modelPrecision
          ∧ (i = .artEncsym ∨ i = .artDecstep ∨ ((i = .compress ∨ i = .decompress) ∧ s.codec = .art))))
    ∧ t.result = 0#64 ∧ t.mode = s.mode ∧ t.compSize = s.compSize ∧ t.codec = s.codec
    ∧ t.cmderr = s.cmderr

/-- R322: every UNSPEC point the table of R324 lists; the model gives them no state and stops by name (R11),
notes/assumptions/5.  The macro commands meet those of their steps (CompressIsItsSteps,
DecompressIsItsSteps). -/
def Obligations.UnspecPoints : Prop :=
  ∀ s : State,
    (s.codec = .huf → s.mode = .compress → s.between → 2 ^ 32 - 1 < s.srcLen.toNat →
      exec .hufCount s = .refused .hufSourceTooLong)
    ∧ (s.codec = .huf → (s.phase = .hCounted ∨ s.phase = .hHdrr) →
      2 ^ 32 ≤ (s.huf.leaves.map fun l => l.weight.toNat).sum →
      exec .hufBuild s = .refused .hufWeightOverflow)
    ∧ (∀ (pre : List Byte) (b : Byte), s.codec = .huf → s.mode = .compress → s.phase = .hHdrw → s.writerOk →
      pre.length < s.srcLen.toNat → Memory.readBytes s.src 0 (pre.length + 1) = some (pre ++ [b]) →
      (∀ c ∈ pre, (tabGet s.huf.code c).isSome = true) → tabGet s.huf.code b = none →
      s.room ((s.wcnt.toNat + (codedBits s.huf.code pre).length) / 8) →
      exec .hufEncode s = .refused .hufByteWithoutCode)
    ∧ (∀ size n, s.codec = .huf → s.mode = .decompress → s.between → 12 ≤ s.srcLen.toNat →
      memRead s.src 0 8 = some size → memRead s.src 8 4 = some n → 256 < n →
      exec .hufRdhdr s = .refused .hufLeafCountAbove256)
    ∧ (s.codec = .huf → s.mode = .decompress → s.phase = .hRebuilt → s.huf.root = none →
      s.dstLen.toNat < s.origSize.toNat → exec .hufDecode s = .refused .hufNoTree)
    ∧ (∀ (ps : List (List Bool × Byte)) (r : Nat) (p : List Bool) (x : Node),
      s.codec = .huf → s.mode = .decompress → s.phase = .hRebuilt → ArenaOk s.huf.node s.huf.root →
      (∀ y ∈ ps, isCode s.huf.node s.huf.root y.2 y.1) →
      s.huf.root = some r → leadsTo s.huf.node r p x → x.dummy = true →
      ps.length < s.origSize.toNat - s.dstLen.toNat → s.nextBits (ps.flatMap Prod.fst ++ p) →
      s.room ps.length → exec .hufDecode s = .refused .hufDummyReached)
    ∧ (s.codec = .art → s.mode = .compress → s.phase = .aEnc → s.srcPos = s.srcLen →
      F64.le F64.one (F64.fdiv (F64.fadd s.art.low s.art.high) F64.two) = true →
      exec .artFlush s = .refused .artMidpointAtLeastOne)
    ∧ (s.codec = .art → s.mode = .decompress → s.phase = .aDec → s.dstLen ≠ s.origSize →
      F64.lt s.art.acc s.art.dist[0] = true → exec .artDecstep s = .refused .artAccBelowDist)
    ∧ (∀ (i : Byte) (r : Renorm), s.codec = .art → s.mode = .decompress → s.phase = .aDec →
      s.dstLen ≠ s.origSize → searchGives s.art i →
      F64.le (F64.fadd s.art.acc (F64.pow2neg s.art.exp)) (distHigh s.art.dist i) = true →
      F64.lt (distLow s.art.dist i) (distHigh s.art.dist i) = true →
      artRenorm (distLow s.art.dist i) (distHigh s.art.dist i) = some r →
      s.art.exp < r.bits.length → s.room 1 → exec .artDecstep s = .refused .artExpBelowCount)
    ∧ (∀ (c : Byte) (code : U32), s.codec = .lzw → s.mode = .compress → (s.phase = .lInit ∨ s.phase = .lScan) →
      s.srcPos.toNat < s.srcLen.toNat → Memory.read s.src s.srcPos.toNat = some c →
      s.lzw.phrase ++ [c] ∉ s.lzw.dict → codewordIs s.lzw s.lzw.phrase code →
      s.cfg.codebufFits s.lzw.codebuf.length = true → s.cfg.dictLimit ≤ s.lzw.dict.length →
      exec .lzwEncbyte s = .refused .lzwDictFull)
    ∧ (∀ c : Byte, s.codec = .lzw → s.mode = .compress → (s.phase = .lInit ∨ s.phase = .lScan) →
      s.srcPos.toNat < s.srcLen.toNat → Memory.read s.src s.srcPos.toNat = some c →
      s.lzw.phrase ≠ [] → s.lzw.phrase ++ [c] ∉ s.lzw.dict →
      s.cfg.codebufFits s.lzw.codebuf.length = false →
      exec .lzwEncbyte s = .refused .lzwCodebufFull)
    ∧ (s.codec = .lzw → s.mode = .compress → (s.phase = .lInit ∨ s.phase = .lScan) → s.srcPos = s.srcLen →
      s.lzw.phrase ≠ [] → s.cfg.codebufFits s.lzw.codebuf.length = false →
      exec .lzwEnceof s = .refused .lzwCodebufFull)
    ∧ (∀ size w, s.codec = .lzw → s.mode = .decompress → s.phase = .lInit →
      s.srcPos.toNat + 12 ≤ s.srcLen.toNat → memRead s.src s.srcPos.toNat 8 = some size →
      memRead s.src (s.srcPos.toNat + 8) 4 = some w → w ∉ [8, 12, 16, 20, 24, 28, 32] →
      exec .lzwRdhdr s = .refused .lzwWidthIllegal)
    ∧ (s.codec = .lzw → s.mode = .decompress → s.phase = .lDec → s.dstLen.toNat < s.origSize.toNat →
      s.lzw.width.toNat ∈ Config.lzwWidths →
      (∀ n, n < s.lzw.width.toNat → (s.srcBit n).isSome = true) →
      ((256 + s.lzw.dict.length < s.codewordAt s.lzw.width.toNat
          ∨ (256 + s.lzw.dict.length = s.codewordAt s.lzw.width.toNat ∧ s.lzw.havePrev = false)) →
        exec .lzwDeccode s = .refused .lzwCodeUndefined)
      ∧ ∀ (x : Byte) (xs : List Byte), phraseIs s.lzw (s.codewordAt s.lzw.width.toNat) (x :: xs) →
        (s.origSize.toNat < s.dstLen.toNat + (x :: xs).length →
          exec .lzwDeccode s = .refused .lzwPhrasePastEnd)
        ∧ (s.dstLen.toNat + (x :: xs).length ≤ s.origSize.toNat → s.room (x :: xs).length →
          s.lzw.havePrev = true → s.cfg.dictLimit ≤ s.lzw.dict.length →
          exec .lzwDeccode s = .refused .lzwDictFull))

/-! ## Who writes what -/

/-- The frame of every command: when `exec` gives a next state, only the state named for the command
(`frameOf`) may differ; SRC, SRC_LEN, the parameters and the port never do. -/
def Obligations.CommandFrame : Prop :=
  ∀ (i : Instr) (s t : State), exec i s = .next t → t = frameOf i s t

/-- R22, R23, R29: CODEC is written by SOPEN alone; MODE by SOPEN and by a completed compress call, from
Compress to Decompress; COMP_SIZE by SOPEN and by a completed compress call, with DST_LEN. -/
def Obligations.SessionWriters : Prop :=
  ∀ (i : Instr) (s t : State), exec i s = .next t → (∀ a b, i ≠ .sopen a b) →
    t.codec = s.codec
    ∧ ((t.mode = s.mode ∧ t.compSize = s.compSize)
      ∨ ((i = .compress ∨ i = .hufEncode ∨ i = .artFlush ∨ i = .lzwEmit)
          ∧ s.mode = .compress ∧ t.mode = .decompress ∧ t.phase = .done
          ∧ t.compSize = t.dstLen ∧ t.result = t.dstLen))

/-- R25, R26, R27: CMDERR is set by a refusal, which changes nothing else, and cleared by SOPEN alone; ERR
is set by ModeMismatch, which changes only RESULT beside it, and on entering FAULT, and cleared by
SOPEN and by the commands that begin a call. -/
def Obligations.FlagWriters : Prop :=
  ∀ (i : Instr) (s t : State), exec i s = .next t →
    (t.cmderr = s.cmderr ∨ t = { s with cmderr := true } ∨ ((∃ a b, i = .sopen a b) ∧ t.cmderr = false))
    ∧ (t.err = s.err ∨ t = { s with err := .modeMismatch, result := 0#64 }
      ∨ (t.phase = .fault ∧ t.result = 0#64 ∧ (t.err = .modelPrecision ∨ t.err = .ioFailure))
      ∨ (t.err = .noError ∧ (beginsCall i ∨ ∃ a b, i = .sopen a b)))

/-- R32, R33, R72: DST is only ever appended to: a command that does not start a call or a session leaves
DST_LEN where it was or higher and every byte outside the block between the two alone; one that starts
a call leaves every byte at and above its final DST_LEN alone; SRC_POS never passes SRC_LEN. -/
def Obligations.CursorsAndAppend : Prop :=
  ∀ (i : Instr) (s t : State), exec i s = .next t →
    (s.srcPos.toNat ≤ s.srcLen.toNat → t.srcPos.toNat ≤ t.srcLen.toNat)
    ∧ (¬beginsCall i → (∀ a b, i ≠ .sopen a b) → i ≠ .bwsReset →
        s.dstLen.toNat ≤ t.dstLen.toNat ∧ DstOutside s t)
    ∧ (beginsCall i → ∀ a, t.dstLen.toNat ≤ a → Memory.read t.dst a = Memory.read s.dst a)
    ∧ (((∃ a b, i = .sopen a b) ∨ i = .bwsReset) → t.dst = s.dst)

/-! ## Bytes and bits -/

/-- R73, R74: `MemRead` reads the byte at the lowest address as the most significant; `MemWrite` stores
the bytes of a number in that order and leaves every other byte alone. -/
def Obligations.BigEndianAccess : Prop :=
  (∀ (m : Memory) (a n : Nat) (bs : List Byte),
    bs.length = n → (∀ k, k < n → Memory.read m (a + k) = bs[k]?) →
    memRead m a n = some (∑ k ∈ Finset.range n, (bs.getD k 0#8).toNat * 256 ^ (n - 1 - k)))
  ∧ ∀ (m : Memory) (a n v c : Nat),
    Memory.read (memWrite m a n v) c
      = if a ≤ c ∧ c < a + n then some (BitVec.ofNat 8 (v / 2 ^ (8 * (n - 1 - (c - a)))))
        else Memory.read m c

/-- R144: BWS.RESET, the word 0x10, clears the packer and both cursors and touches nothing else, for any
codec and either mode, while PHASE is IDLE or DONE; at another PHASE it is refused. -/
def Obligations.BwsResetClears : Prop :=
  encode .bwsReset = 0x10#64
  ∧ ∀ s : State,
    (s.between →
      exec .bwsReset s = .next { s with
        wacc := 0#8, wcnt := 0#4, rbyte := 0#8, rcnt := 0#4, srcPos := 0#64, dstLen := 0#64 })
    ∧ (¬s.between → exec .bwsReset s = .next { s with cmderr := true })

/-- R140, R145: BWS.WRITE appends the low bits of the code, the least significant first, and leaves
(WCNT + w) mod 8 bits waiting; the bits of the code above the width are ignored. -/
def Obligations.BwsWriteAppends : Prop :=
  ∀ (imm : BitVec 32) (a : BitVec 8) (s : State),
    a.toNat ∈ Config.bwsWidths → s.between → s.writerOk → s.room ((s.wcnt.toNat + a.toNat) / 8) →
    ∃ t, exec (.bwsWrite imm a) s = .next t
      ∧ BitsAppended s t ((List.range a.toNat).map imm.getLsbD) ∧ t = written s t

/-- R141, R146: BWS.FINISH appends the waiting bits, zero-padded; with none waiting it changes nothing. -/
def Obligations.BwsFinishPads : Prop :=
  ∀ s : State, s.between → s.writerOk →
    (s.wcnt = 0#4 → exec .bwsFinish s = .next s)
    ∧ (s.wcnt ≠ 0#4 → s.room 1 →
      ∃ t, exec .bwsFinish s = .next t ∧ BitsFinished s t [] ∧ t = written s t)

/-- R142, R147: BWS.READ takes the next bits of the stream, the first as bit 0 of RESULT, and leaves the
cursor after them. -/
def Obligations.BwsReadTakes : Prop :=
  ∀ (a : BitVec 8) (s : State),
    a.toNat ∈ Config.bwsWidths → s.between → (∀ n, n < a.toNat → (s.srcBit n).isSome = true) →
    ∃ t, exec (.bwsRead a) s = .next t
      ∧ (∀ n, t.result.getLsbD n = (decide (n < a.toNat) && (s.srcBit n).getD false))
      ∧ BitsConsumed s t a.toNat ∧ t = { consumed s t with result := t.result }

/-- R79, R145, R146, R147, R313, R319: where the packer's commands meet IOFailure: DST takes the bytes that
fit and no more; a read consumes the bits there are; ERR 3, RESULT 0, PHASE FAULT.  That the byte which
did not fit still stands in WACC with WCNT 8 is read from R140 and R319, notes/assumptions/8.  Where the
codecs' commands meet it stands in the statement of each. -/
def Obligations.PackerOutOfRoom : Prop :=
  (∀ (imm : BitVec 32) (a : BitVec 8) (m : Nat) (s : State),
    a.toNat ∈ Config.bwsWidths → s.between → s.writerOk → m < (s.wcnt.toNat + a.toNat) / 8 →
    s.room m → s.full (m + 1) →
    ∃ t, exec (.bwsWrite imm a) s = .next t
      ∧ BitsCutOff s t ((List.range a.toNat).map imm.getLsbD) m ∧ t = ioFailed (written s t))
  ∧ (∀ s : State, s.between → s.wcnt ≠ 0#4 → s.full 1 → exec .bwsFinish s = .next (ioFailed s))
  ∧ (∀ (a : BitVec 8) (s : State),
    a.toNat ∈ Config.bwsWidths → s.between → s.srcIntact → s.bitsLeft < a.toNat →
    exec (.bwsRead a) s = .next (ioFailed s.drained))

/-- R142: reading undoes writing: codes written with BWS.WRITE and closed with BWS.FINISH are read back
from the bytes written, with the same widths, each truncated to its width. -/
def Obligations.PackerRoundTrip : Prop :=
  ∀ (items : List (BitVec 32 × BitVec 8)) (s t u : State),
    (∀ x ∈ items, x.2.toNat ∈ Config.bwsWidths) →
    s.between → s.wacc = 0#8 → s.wcnt = 0#4 → s.dstLen = 0#64 →
    runSteps (items.map (fun x => .bwsWrite x.1 x.2) ++ [.bwsFinish]) s = .next t → t.phase ≠ .fault →
    u.between → u.srcPos = 0#64 → u.rcnt = 0#4 → u.srcLen = t.dstLen →
    Memory.readBytes u.src 0 u.srcLen.toNat = Memory.readBytes t.dst 0 t.dstLen.toNat →
    readItems (items.map Prod.snd) u
      = some (items.map fun x => BitVec.ofNat 64 (x.1.toNat % 2 ^ x.2.toNat))

/-! ## The session -/

/-- R160: NOP, the all-zero word, changes nothing, at every PHASE, CODEC and MODE. -/
def Obligations.NopChangesNothing : Prop := encode .nop = 0#64 ∧ ∀ s : State, exec .nop s = .next s

/-- R161: SOPEN, OPC 0x01 with A the codec and B the mode, opens a session at every PHASE, CODEC and MODE;
with an operand outside its set it is refused. -/
def Obligations.SopenOpensSession : Prop :=
  ∀ (a b : BitVec 8) (s : State),
    (encode (.sopen a b)).toNat = 0x01 + a.toNat * 2 ^ 8 + b.toNat * 2 ^ 16 ∧
    ((a ∈ [1#8, 2#8, 3#8] ∧ b ∈ [0#8, 1#8]) →
      exec (.sopen a b) s = .next { s with
        codec := if a = 1#8 then .huf else if a = 2#8 then .art else .lzw
        mode := if b = 0#8 then .compress else .decompress
        phase := .idle, err := .noError, cmderr := false, result := 0#64
        origSize := 0#64, compSize := 0#64, srcPos := 0#64, dstLen := 0#64
        wacc := 0#8, wcnt := 0#4, rbyte := 0#8, rcnt := 0#4 })
    ∧ (¬(a ∈ [1#8, 2#8, 3#8] ∧ b ∈ [0#8, 1#8]) →
      exec (.sopen a b) s = .next { s with cmderr := true })

/-- R165, R166 (corner cases): COMPRESS of an empty source and DECOMPRESS of an archive of size 0, for the
three codecs, with every byte and every register.  The archives are V-H3, V-A1 and V-L3. -/
def Obligations.EmptyCalls : Prop :=
  ∀ s : State, s.between →
    (∀ c archive,
      ((c, archive) ∈ [(Codec.huf, List.replicate 12 0#8),
          (Codec.art, List.replicate 8 0#8 ++ [1#8]),
          (Codec.lzw, List.replicate 11 0#8 ++ [8#8])]) →
      s.codec = c → s.mode = .compress → s.srcLen = 0#64 →
      s.cfg.dstFits 0 archive.length = true →
      ∃ t, exec .compress s = .next t
        ∧ Memory.readBytes t.dst 0 archive.length = some archive
        ∧ (∀ a, archive.length ≤ a → Memory.read t.dst a = Memory.read s.dst a)
        ∧ t = { s with
            phase := .done, mode := .decompress, err := .noError
            result := BitVec.ofNat 64 archive.length, compSize := BitVec.ofNat 64 archive.length
            dstLen := BitVec.ofNat 64 archive.length, origSize := 0#64, srcPos := 0#64
            wacc := 0#8, wcnt := 0#4, rbyte := 0#8, rcnt := 0#4
            dst := t.dst, huf := t.huf, art := t.art, lzw := t.lzw })
    ∧ (∀ c header,
      ((c, header) ∈ [(Codec.huf, List.replicate 12 0#8), (Codec.art, List.replicate 8 0#8),
          (Codec.lzw, List.replicate 11 0#8 ++ [8#8])]) →
      s.codec = c → s.mode = .decompress → header.length ≤ s.srcLen.toNat →
      Memory.readBytes s.src 0 header.length = some header →
      ∃ t, exec .decompress s = .next t
        ∧ t = { s with
            phase := .done, err := .noError, result := 0#64, dstLen := 0#64, origSize := 0#64
            srcPos := BitVec.ofNat 64 header.length
            wacc := 0#8, wcnt := 0#4, rbyte := 0#8, rcnt := 0#4
            huf := t.huf, art := t.art, lzw := t.lzw })

/-- R108, R165, R167: COMPRESS and its expansion, step by step up to the first that faults, give the same
outcome from every state in which COMPRESS is accepted. -/
def Obligations.CompressIsItsSteps : Prop :=
  ∀ s : State, s.codec ≠ .closed → s.mode = .compress → s.between →
    exec .compress s = runSteps (compressSteps s.codec s.srcLen.toNat) s

/-- R108, R166, R167, R361: DECOMPRESS and its expansion, the repeated step performed some number of times,
give the same outcome; it ends in DONE or FAULT, and the repetition always ends. -/
def Obligations.DecompressIsItsSteps : Prop :=
  ∀ s : State, s.codec ≠ .closed → s.mode = .decompress → s.between →
    (∃ n, exec .decompress s = runSteps (decompressSteps s.codec n) s)
    ∧ (∀ t, exec .decompress s = .next t → t.phase = .done ∨ t.phase = .fault)
    ∧ exec .decompress s ≠ .refused .macroUnbounded

/-- R168: after a successful COMPRESS, MODE is Decompress, and a second COMPRESS is answered with
ModeMismatch, which changes ERR and RESULT alone. -/
def Obligations.ModeFlipsOnce : Prop :=
  ∀ s t : State, s.codec ≠ .closed → s.mode = .compress → s.between →
    exec .compress s = .next t → t.phase ≠ .fault →
    t.mode = .decompress ∧ t.phase = .done ∧ t.result = t.compSize ∧ t.compSize = t.dstLen
    ∧ exec .compress t = .next { t with err := .modeMismatch, result := 0#64 }

/-! ## The Huffman unit -/

/-- R181, R182: HUF.COUNT counts every byte of SRC and lists the values that occur, ascending. -/
def Obligations.HufCountTallies : Prop :=
  ∀ (s : State) (bs : List Byte),
    s.codec = .huf → s.mode = .compress → s.between → s.srcLen.toNat ≤ 2 ^ 32 - 1 →
    Memory.readBytes s.src 0 s.srcLen.toNat = some bs →
    ∃ t, exec .hufCount s = .next t
      ∧ (∀ c, (tabGet t.huf.cnt c).toNat = bs.count c)
      ∧ t.huf.leaves = tallyLeaves bs
      ∧ t = { s with
          err := .noError, result := 0#64, origSize := s.srcLen, srcPos := s.srcLen, dstLen := 0#64
          wacc := 0#8, wcnt := 0#4, rbyte := 0#8, rcnt := 0#4, phase := .hCounted
          huf := { s.huf with cnt := t.huf.cnt, leaf := t.huf.leaf, leafCnt := t.huf.leafCnt } }

/-- R183 to R186, R192, R193: HUF.BUILD makes the tree of the leaf list: the leaves first, the dummy when
there is one leaf, then each merge of the two least waiting nodes; every node but ROOT is the child of
exactly one, and ROOT weighs what the leaves weigh.  That the unused LEFT and RIGHT of a leaf hold 0
(BuiltTree) is the model's choice, notes/assumptions/15. -/
def Obligations.HufBuildMakesTree : Prop :=
  ∀ s : State,
    s.codec = .huf → (s.phase = .hCounted ∨ s.phase = .hHdrr) →
    (s.huf.leaves.map fun l => l.weight.toNat).sum < 2 ^ 32 →
    ∃ t, exec .hufBuild s = .next t
      ∧ BuiltTree s.huf.leaves t.huf.node t.huf.root
      ∧ ArenaOk t.huf.node t.huf.root
      ∧ (∀ i, i + 1 < t.huf.node.length →
          ∃ (n : Nat) (x : Node), t.huf.node[n]? = some x ∧ x.leaf = false ∧ (x.left = i ∨ x.right = i)
            ∧ ∀ (m : Nat) (y : Node), t.huf.node[m]? = some y → y.leaf = false → (y.left = i ∨ y.right = i) → m = n)
      ∧ (∀ r, t.huf.root = some r →
          weightAt t.huf.node r = (s.huf.leaves.map fun l => l.weight.toNat).sum)
      ∧ t = { s with
          phase := if s.phase = .hCounted then .hBuilt else .hRebuilt
          huf := { s.huf with node := t.huf.node, root := t.huf.root } }

/-- R187: HUF.CODES gives each symbol the path from the root to its leaf, the symbols without a leaf
none, and the codes are prefix-free. -/
def Obligations.HufCodesArePaths : Prop :=
  ∀ s : State,
    s.codec = .huf → s.mode = .compress → s.phase = .hBuilt → ArenaOk s.huf.node s.huf.root →
    ∃ t, exec .hufCodes s = .next t
      ∧ (∀ c p, tabGet t.huf.code c = some p → isCode s.huf.node s.huf.root c p)
      ∧ (∀ c, tabGet t.huf.code c = none → ∀ p, ¬isCode s.huf.node s.huf.root c p)
      ∧ (∀ c d p q, tabGet t.huf.code c = some p → tabGet t.huf.code d = some q → c ≠ d → ¬p <+: q)
      ∧ t = { s with phase := .hCoded, huf := { s.huf with code := t.huf.code } }

/-- R111, R188: HUF.WRHDR appends the header: the size, the leaf count, the records; where a field of it
does not fit, the fields before it, and the call ends with IOFailure (R79, R313). -/
def Obligations.HufWrhdrWritesHeader : Prop :=
  ∀ s : State, s.codec = .huf → s.mode = .compress → s.phase = .hCoded →
    (s.room (12 + 5 * s.huf.leafCnt.val) →
      ∃ t, exec .hufWrhdr s = .next t
        ∧ DstAppended s t (hufHeader s.origSize s.huf.leaves)
        ∧ t = { s with phase := .hHdrw, dst := t.dst, dstLen := t.dstLen })
    ∧ ∀ pre, fieldsCut s (hufFields s.origSize s.huf.leaves) pre →
      ∃ t, exec .hufWrhdr s = .next t
        ∧ DstAppended s t pre.flatten ∧ t = ioFailed { s with dst := t.dst, dstLen := t.dstLen }

/-- R112, R163, R189: HUF.ENCODE appends the codes of the source bytes in order, pads the last byte with
zero bits and completes the call; where a byte of the body does not fit, the call ends with IOFailure
(R79, R313) at the source byte whose code fills it, or at the padding. -/
def Obligations.HufEncodeWritesBody : Prop :=
  ∀ s : State, s.codec = .huf → s.mode = .compress → s.phase = .hHdrw → s.writerOk →
    (∀ bs : List Byte,
      Memory.readBytes s.src 0 s.srcLen.toNat = some bs →
      (∀ b ∈ bs, (tabGet s.huf.code b).isSome = true) →
      (s.room ((s.wcnt.toNat + (codedBits s.huf.code bs).length + 7) / 8) →
        ∃ t, exec .hufEncode s = .next t
          ∧ BitsFinished s t (codedBits s.huf.code bs)
          ∧ t = { written s t with
              srcPos := s.srcLen, compSize := t.dstLen, result := t.dstLen
              mode := .decompress, phase := .done })
      ∧ (s.room ((s.wcnt.toNat + (codedBits s.huf.code bs).length) / 8) →
        (s.wcnt.toNat + (codedBits s.huf.code bs).length) % 8 ≠ 0 →
        s.full ((s.wcnt.toNat + (codedBits s.huf.code bs).length) / 8 + 1) →
        ∃ t, exec .hufEncode s = .next t
          ∧ BitsAppended s t (codedBits s.huf.code bs)
          ∧ t = ioFailed { written s t with srcPos := s.srcLen }))
    ∧ ∀ (pre : List Byte) (b : Byte) (m : Nat),
      pre.length < s.srcLen.toNat → Memory.readBytes s.src 0 (pre.length + 1) = some (pre ++ [b]) →
      (∀ c ∈ pre ++ [b], (tabGet s.huf.code c).isSome = true) →
      (s.wcnt.toNat + (codedBits s.huf.code pre).length) / 8 ≤ m →
      m < (s.wcnt.toNat + (codedBits s.huf.code (pre ++ [b])).length) / 8 →
      s.room m → s.full (m + 1) →
      ∃ t, exec .hufEncode s = .next t
        ∧ BitsCutOff s t (codedBits s.huf.code (pre ++ [b])) m
        ∧ t = ioFailed { written s t with srcPos := BitVec.ofNat 64 (pre.length + 1) }

/-- R111, R162, R190: HUF.RDHDR reads the header's size and its leaf list, in the order of the records;
where SRC ends inside the header, it takes the fields that are there whole and ends with IOFailure (R79,
R313). -/
def Obligations.HufRdhdrReadsHeader : Prop :=
  ∀ s : State, s.codec = .huf → s.mode = .decompress → s.between →
    (∀ (size : BitVec 64) (ls : List Leaf),
      ls.length ≤ 256 → 12 + 5 * ls.length ≤ s.srcLen.toNat →
      Memory.readBytes s.src 0 (12 + 5 * ls.length) = some (hufHeader size ls) →
      ∃ t, exec .hufRdhdr s = .next t
        ∧ t.huf.leaves = ls ∧ t.huf.leafCnt.val = ls.length
        ∧ t = { s with
            err := .noError, result := 0#64, origSize := size, dstLen := 0#64
            srcPos := BitVec.ofNat 64 (12 + 5 * ls.length)
            wacc := 0#8, wcnt := 0#4, rbyte := 0#8, rcnt := 0#4, phase := .hHdrr
            huf := { s.huf with leaf := t.huf.leaf, leafCnt := t.huf.leafCnt } })
    ∧ (s.srcLen.toNat < 8 →
      exec .hufRdhdr s = .next (ioFailed { s with
        origSize := 0#64, srcPos := 0#64, dstLen := 0#64
        wacc := 0#8, wcnt := 0#4, rbyte := 0#8, rcnt := 0#4 }))
    ∧ (∀ size : Nat, 8 ≤ s.srcLen.toNat → s.srcLen.toNat < 12 → memRead s.src 0 8 = some size →
      exec .hufRdhdr s = .next (ioFailed { s with
        origSize := BitVec.ofNat 64 size, srcPos := 8#64, dstLen := 0#64
        wacc := 0#8, wcnt := 0#4, rbyte := 0#8, rcnt := 0#4 }))
    ∧ ∀ (size : BitVec 64) (n : Nat) (ls : List Leaf) (rest : List Byte),
      n ≤ 256 → ls.length < n → rest.length < 5 →
      Memory.readBytes s.src 0 s.srcLen.toNat
        = some (beBytes 8 size.toNat ++ beBytes 4 n
            ++ (ls.flatMap fun l => l.sym :: beBytes 4 l.weight.toNat) ++ rest) →
      ∃ t, exec .hufRdhdr s = .next t
        ∧ t.huf.leafCnt.val = n ∧ t.huf.leaf.toList = ls ++ s.huf.leaf.toList.drop ls.length
        ∧ t = ioFailed { s with
            origSize := size, dstLen := 0#64
            srcPos := BitVec.ofNat 64 (12 + 5 * ls.length + min rest.length 1)
            wacc := 0#8, wcnt := 0#4, rbyte := 0#8, rcnt := 0#4
            huf := { s.huf with leaf := t.huf.leaf, leafCnt := t.huf.leafCnt } }

/-- R164, R191: HUF.DECODE walks the tree by the bits of the body: where they are the codes of ORIG_SIZE -
DST_LEN symbols, it appends these symbols, reads no bit more and completes the call; where SRC ends
inside a code, or a symbol does not fit in DST, it appends the symbols before and ends with IOFailure
(R79, R313). -/
def Obligations.HufDecodeRecovers : Prop :=
  ∀ (s : State) (ps : List (List Bool × Byte)),
    s.codec = .huf → s.mode = .decompress → s.phase = .hRebuilt → ArenaOk s.huf.node s.huf.root →
    (∀ x ∈ ps, isCode s.huf.node s.huf.root x.2 x.1) → s.room ps.length →
    (ps.length = s.origSize.toNat - s.dstLen.toNat → s.nextBits (ps.flatMap Prod.fst) →
      ∃ t, exec .hufDecode s = .next t
        ∧ DstAppended s t (ps.map Prod.snd)
        ∧ BitsConsumed s t (ps.flatMap Prod.fst).length
        ∧ t = { consumed s t with
            dst := t.dst, dstLen := t.dstLen, result := s.origSize, phase := .done })
    ∧ (∀ (rest more : List Bool) (r : Nat) (x : Node),
      ps.length < s.origSize.toNat - s.dstLen.toNat → s.srcIntact →
      s.nextBits (ps.flatMap Prod.fst ++ rest) → s.bitsLeft = (ps.flatMap Prod.fst ++ rest).length →
      s.huf.root = some r → more ≠ [] → leadsTo s.huf.node r (rest ++ more) x →
      ∃ t, exec .hufDecode s = .next t
        ∧ DstAppended s t (ps.map Prod.snd)
        ∧ t = ioFailed { s.drained with dst := t.dst, dstLen := t.dstLen })
    ∧ (∀ (p : List Bool) (c : Byte),
      ps.length < s.origSize.toNat - s.dstLen.toNat → isCode s.huf.node s.huf.root c p →
      s.nextBits (ps.flatMap Prod.fst ++ p) → s.full (ps.length + 1) →
      ∃ t, exec .hufDecode s = .next t
        ∧ DstAppended s t (ps.map Prod.snd)
        ∧ BitsConsumed s t (ps.flatMap Prod.fst ++ p).length
        ∧ t = ioFailed { consumed s t with dst := t.dst, dstLen := t.dstLen })

/-- R194: for every source within the premises, COMPRESS completes, and DECOMPRESS of the archive gives
the source back.  Premise P_CAP: DST holds 1292 + 32 n bytes for a source of n bytes. -/
def Obligations.HuffmanRoundTrip : Prop :=
  ∀ (s : State) (bs : List Byte),
    s.codec = .huf → s.mode = .compress → s.between → s.srcLen.toNat ≤ 2 ^ 32 - 1 →
    Memory.readBytes s.src 0 s.srcLen.toNat = some bs →
    s.cfg.dstFits 0 (1292 + 32 * bs.length) = true →
    ∃ t, exec .compress s = .next t
      ∧ t.phase = .done ∧ t.err = .noError ∧ t.origSize = s.srcLen ∧ t.compSize = t.dstLen
      ∧ ∀ u : State, u.codec = .huf → u.mode = .decompress → u.between → u.srcLen = t.dstLen →
          Memory.readBytes u.src 0 u.srcLen.toNat = Memory.readBytes t.dst 0 t.dstLen.toNat →
          u.cfg.dstFits 0 bs.length = true →
          ∃ v, exec .decompress u = .next v
            ∧ v.phase = .done ∧ v.err = .noError ∧ v.result = s.srcLen ∧ v.dstLen = s.srcLen
            ∧ Memory.readBytes v.dst 0 v.dstLen.toNat = some bs

/-! ## The arithmetic unit -/

/-- R162, R223: ART.INIT sets every count to 1, the total to 256, the interval to (0, 1) and DIST[j] to
j/256 exactly. -/
def Obligations.ArtInitModel : Prop :=
  ∀ s : State, s.codec = .art → s.between →
    ∃ t, exec .artInit s = .next t
      ∧ (∀ c, tabGet t.art.acnt c = 1) ∧ t.art.atotal = 256
      ∧ (∀ j (h : j < 257), (t.art.dist[j]).units = j * 2 ^ 1066)
      ∧ t.art.low = F64.zero ∧ t.art.high = F64.one ∧ t.art.acc = F64.zero ∧ t.art.exp = 0
      ∧ t = { s with
          err := .noError, result := 0#64, srcPos := 0#64, dstLen := 0#64
          origSize := if s.mode = .compress then s.srcLen else 0#64
          wacc := 0#8, wcnt := 0#4, rbyte := 0#8, rcnt := 0#4, phase := .aInit, art := t.art }

/-- R224, R227: ART.WRHDR appends the size, big-endian; ART.RDHDR reads it, starts at a byte boundary and
clears ACC and EXP; without the room, or the bytes, for it they end with IOFailure (R79, R313). -/
def Obligations.ArtHeader : Prop :=
  ∀ s : State, s.codec = .art → s.phase = .aInit →
    (s.mode = .compress → s.room 8 →
      ∃ t, exec .artWrhdr s = .next t ∧ DstAppended s t (beBytes 8 s.origSize.toNat)
        ∧ t = { s with phase := .aEnc, dst := t.dst, dstLen := t.dstLen })
    ∧ (s.mode = .compress → s.full 8 → exec .artWrhdr s = .next (ioFailed s))
    ∧ (s.mode = .decompress → s.srcLen.toNat < s.srcPos.toNat + 8 →
      exec .artRdhdr s = .next (ioFailed s))
    ∧ (∀ size, s.mode = .decompress → s.srcPos.toNat + 8 ≤ s.srcLen.toNat →
      memRead s.src s.srcPos.toNat 8 = some size →
      exec .artRdhdr s = .next { s with
        origSize := BitVec.ofNat 64 size, srcPos := s.srcPos + 8#64, rbyte := 0#8, rcnt := 0#4
        art := { s.art with acc := F64.zero, exp := 0 }, phase := .aDec })

/-- R8, R15: a rounding gives the binary64 number nearest to the quotient, and of two equally near the one
with the even significand.  Binary64 is what the model takes "doubles" to be, notes/assumptions/7. -/
def Obligations.RoundsToNearestEven : Prop :=
  ∀ num den : Nat, 0 < den →
    (F64.round num den).Valid
    ∧ ∀ y : F64, y.Valid →
      ((num : Int) - (F64.round num den).units * den).natAbs ≤ ((num : Int) - y.units * den).natAbs
      ∧ (y ≠ F64.round num den →
          ((num : Int) - (F64.round num den).units * den).natAbs
            = ((num : Int) - y.units * den).natAbs →
          (F64.round num den).units / 2 ^ F64.excess (F64.round num den).units % 2 = 0)

/-- R222: the renormalizer, on an interval of positive width: it ends; with HIGH at 1 the bits are the
expansion of LOW and the interval becomes (0, 1); otherwise the interval is the old one doubled once a
bit, less the bits, and it lies in neither half. -/
def Obligations.RenormalizesExactly : Prop :=
  ∀ lo hi : F64, lo.Valid → hi.Valid → F64.lt lo hi = true →
    ∃ r, artRenorm lo hi = some r ∧ r.low.Valid ∧ r.high.Valid ∧ F64.lt r.low r.high = true
      ∧ (hi = F64.one → r.low = F64.zero ∧ r.high = F64.one ∧ expands lo r.bits)
      ∧ (hi ≠ F64.one →
          r.low.units + bitsNumber r.bits * F64.scale = lo.units * 2 ^ r.bits.length
          ∧ r.high.units + bitsNumber r.bits * F64.scale = hi.units * 2 ^ r.bits.length
          ∧ ¬(F64.lt r.low F64.half = true ∧ F64.lt r.high F64.half = true)
          ∧ ¬(F64.le F64.half r.low = true ∧ F64.lt r.high F64.one = true))

/-- R221, R225: ART.ENCSYM, on a symbol of positive width, appends the bits of the renormalization and
updates the model: the symbol's count and the total go up by one, the interval is the renormalized one,
and the distribution is laid out in it; where a byte does not fit, it ends with IOFailure, the source
byte taken and the model as it was (R79, R313). -/
def Obligations.ArtEncsymCodes : Prop :=
  ∀ (s : State) (b : Byte) (r : Renorm),
    s.codec = .art → s.mode = .compress → s.phase = .aEnc → s.writerOk →
    s.srcPos.toNat < s.srcLen.toNat → Memory.read s.src s.srcPos.toNat = some b →
    F64.lt (distLow s.art.dist b) (distHigh s.art.dist b) = true →
    artRenorm (distLow s.art.dist b) (distHigh s.art.dist b) = some r →
    (s.room ((s.wcnt.toNat + r.bits.length) / 8) →
      ∃ t, exec .artEncsym s = .next t
        ∧ BitsAppended s t r.bits ∧ modelAfter s.art t.art b r
        ∧ t.art.acc = s.art.acc ∧ t.art.exp = s.art.exp
        ∧ t = { written s t with srcPos := s.srcPos + 1#64, art := t.art })
    ∧ ∀ m, m < (s.wcnt.toNat + r.bits.length) / 8 → s.room m → s.full (m + 1) →
      ∃ t, exec .artEncsym s = .next t
        ∧ BitsCutOff s t r.bits m ∧ t = ioFailed { written s t with srcPos := s.srcPos + 1#64 }

/-- R312 with R225 and R229: a symbol of zero width ends the call with ModelPrecisionFailure, before any
bit or byte of it is written; the encoder has taken the source byte. -/
def Obligations.IntervalCollapse : Prop :=
  ∀ (s : State) (b : Byte),
    s.codec = .art → distLow s.art.dist b = distHigh s.art.dist b →
    (s.mode = .compress → s.phase = .aEnc → s.srcPos.toNat < s.srcLen.toNat →
      Memory.read s.src s.srcPos.toNat = some b →
      exec .artEncsym s = .next { s with
        srcPos := s.srcPos + 1#64, err := .modelPrecision, result := 0#64, phase := .fault })
    ∧ (s.mode = .decompress → s.phase = .aDec → s.dstLen ≠ s.origSize → searchGives s.art b →
      F64.le (F64.fadd s.art.acc (F64.pow2neg s.art.exp)) (distHigh s.art.dist b) = true →
      exec .artDecstep s = .next { s with
        err := .modelPrecision, result := 0#64, phase := .fault })

/-- R163, R226: ART.FLUSH, with the midpoint below 1, appends the binary expansion of the midpoint, pads
the last byte and completes the call; where a byte does not fit, it ends with IOFailure (R79, R313). -/
def Obligations.ArtFlushEnds : Prop :=
  ∀ s : State,
    s.codec = .art → s.mode = .compress → s.phase = .aEnc → s.srcPos = s.srcLen → s.writerOk →
    F64.lt (F64.fdiv (F64.fadd s.art.low s.art.high) F64.two) F64.one = true →
    (∃ bits, expands (F64.fdiv (F64.fadd s.art.low s.art.high) F64.two) bits)
    ∧ ∀ bits, expands (F64.fdiv (F64.fadd s.art.low s.art.high) F64.two) bits →
      (s.room ((s.wcnt.toNat + bits.length + 7) / 8) →
        ∃ t, exec .artFlush s = .next t
          ∧ BitsFinished s t bits
          ∧ t = { written s t with
              compSize := t.dstLen, result := t.dstLen, mode := .decompress, phase := .done })
      ∧ (∀ m, m < (s.wcnt.toNat + bits.length) / 8 → s.room m → s.full (m + 1) →
        ∃ t, exec .artFlush s = .next t ∧ BitsCutOff s t bits m ∧ t = ioFailed (written s t))
      ∧ (s.room ((s.wcnt.toNat + bits.length) / 8) → (s.wcnt.toNat + bits.length) % 8 ≠ 0 →
        s.full ((s.wcnt.toNat + bits.length) / 8 + 1) →
        ∃ t, exec .artFlush s = .next t ∧ BitsAppended s t bits ∧ t = ioFailed (written s t))

/-- R143, R164, R228, R229: ART.DECSTEP: with all symbols produced it completes the call; with a symbol
resolved it appends it, renormalizes, rescales ACC and updates the model, or, where DST has no room for
it, ends with IOFailure (R79, R313) and nothing else; else it folds one bit into ACC; and with no bit
left it completes the call. -/
def Obligations.ArtDecstepCases : Prop :=
  ∀ s : State, s.codec = .art → s.mode = .decompress → s.phase = .aDec →
    (s.dstLen = s.origSize → exec .artDecstep s = .next { s with result := s.origSize, phase := .done })
    ∧ ∀ i : Byte, s.dstLen ≠ s.origSize → searchGives s.art i →
      (∀ r, F64.le (F64.fadd s.art.acc (F64.pow2neg s.art.exp)) (distHigh s.art.dist i) = true →
        F64.lt (distLow s.art.dist i) (distHigh s.art.dist i) = true →
        artRenorm (distLow s.art.dist i) (distHigh s.art.dist i) = some r →
        r.bits.length ≤ s.art.exp → s.room 1 →
        ∃ t, exec .artDecstep s = .next t
          ∧ DstAppended s t [i] ∧ modelAfter s.art t.art i r
          ∧ t.art.acc = dropDouble^[r.bits.length] s.art.acc
          ∧ t.art.exp = s.art.exp - r.bits.length
          ∧ t = { s with dst := t.dst, dstLen := t.dstLen, art := t.art })
      ∧ (F64.le (F64.fadd s.art.acc (F64.pow2neg s.art.exp)) (distHigh s.art.dist i) = true →
        F64.lt (distLow s.art.dist i) (distHigh s.art.dist i) = true → s.full 1 →
        exec .artDecstep s = .next (ioFailed s))
      ∧ (∀ bit, F64.le (F64.fadd s.art.acc (F64.pow2neg s.art.exp)) (distHigh s.art.dist i) = false →
        s.srcBit 0 = some bit →
        ∃ t, exec .artDecstep s = .next t
          ∧ BitsConsumed s t 1
          ∧ t = { consumed s t with
              art := { s.art with
                exp := s.art.exp + 1
                acc := F64.fadd s.art.acc
                  (F64.fmul (F64.ofNat bit.toNat) (F64.pow2neg (s.art.exp + 1))) } })
      ∧ (F64.le (F64.fadd s.art.acc (F64.pow2neg s.art.exp)) (distHigh s.art.dist i) = false →
        s.rcnt = 0#4 → s.srcLen.toNat ≤ s.srcPos.toNat →
        exec .artDecstep s = .next { s with result := s.origSize, phase := .done })

/-- R231: the encoder and the decoder stay in lockstep: with equal models, where the decoder emits the
byte the encoder codes, the two leave equal counts, totals, distributions and intervals. -/
def Obligations.ModelsInLockstep : Prop :=
  ∀ (e d te td : State) (b : Byte),
    e.codec = .art → e.mode = .compress → e.phase = .aEnc → e.srcPos.toNat < e.srcLen.toNat →
    d.codec = .art → d.mode = .decompress → d.phase = .aDec →
    e.art.acnt = d.art.acnt → e.art.atotal = d.art.atotal → e.art.dist = d.art.dist →
    exec .artEncsym e = .next te → te.phase ≠ .fault →
    exec .artDecstep d = .next td → td.phase ≠ .fault → td.dstLen ≠ d.dstLen →
    Memory.read e.src e.srcPos.toNat = some b → Memory.read td.dst d.dstLen.toNat = some b →
    te.art.acnt = td.art.acnt ∧ te.art.atotal = td.art.atotal ∧ te.art.dist = td.art.dist
    ∧ te.art.low = td.art.low ∧ te.art.high = td.art.high

/-! ## The LZW unit -/

/-- R162, R272: LZW.INIT starts a call with an empty dictionary, phrase and code buffer; WIDTH stays. -/
def Obligations.LzwInitEmpty : Prop :=
  ∀ s : State, s.codec = .lzw → s.between →
    exec .lzwInit s = .next { s with
      err := .noError, result := 0#64, srcPos := 0#64, dstLen := 0#64
      origSize := if s.mode = .compress then s.srcLen else 0#64
      wacc := 0#8, wcnt := 0#4, rbyte := 0#8, rcnt := 0#4, phase := .lInit
      lzw := { s.lzw with dict := [], phrase := [], codebuf := [], prev := [], havePrev := false } }

/-- R271, R273: LZW.ENCBYTE starts the phrase, extends a known one, or collects the codeword of the
phrase, adds the extended phrase to the dictionary and starts again from the byte. -/
def Obligations.LzwEncbyteExtends : Prop :=
  ∀ (s : State) (c : Byte),
    s.codec = .lzw → s.mode = .compress → (s.phase = .lInit ∨ s.phase = .lScan) →
    s.srcPos.toNat < s.srcLen.toNat → Memory.read s.src s.srcPos.toNat = some c →
    (s.lzw.phrase = [] →
      exec .lzwEncbyte s = .next { s with
        srcPos := s.srcPos + 1#64, phase := .lScan, lzw := { s.lzw with phrase := [c] } })
    ∧ (s.lzw.phrase ≠ [] → s.lzw.phrase ++ [c] ∈ s.lzw.dict →
      exec .lzwEncbyte s = .next { s with
        srcPos := s.srcPos + 1#64, phase := .lScan
        lzw := { s.lzw with phrase := s.lzw.phrase ++ [c] } })
    ∧ (∀ code, s.lzw.phrase ++ [c] ∉ s.lzw.dict → codewordIs s.lzw s.lzw.phrase code →
      s.cfg.codebufFits s.lzw.codebuf.length = true → s.lzw.dict.length < s.cfg.dictLimit →
      exec .lzwEncbyte s = .next { s with
        srcPos := s.srcPos + 1#64, phase := .lScan
        lzw := { s.lzw with
          codebuf := s.lzw.codebuf ++ [code]
          dict := s.lzw.dict ++ [s.lzw.phrase ++ [c]]
          phrase := [c] } })

/-- R274: LZW.ENCEOF collects the codeword of the phrase that remains, if one does, and adds no entry. -/
def Obligations.LzwEnceofFlushes : Prop :=
  ∀ s : State,
    s.codec = .lzw → s.mode = .compress → (s.phase = .lInit ∨ s.phase = .lScan) →
    s.srcPos = s.srcLen →
    (s.lzw.phrase = [] → exec .lzwEnceof s = .next { s with phase := .lScanned })
    ∧ (∀ code, codewordIs s.lzw s.lzw.phrase code →
      s.cfg.codebufFits s.lzw.codebuf.length = true →
      exec .lzwEnceof s = .next { s with
        phase := .lScanned
        lzw := { s.lzw with codebuf := s.lzw.codebuf ++ [code], phrase := [] } })

/-- R118, R275: LZW.WIDTH takes the least k with 2^k at least DICTCNT + 256, rounded up to a multiple of
4; the width is one of LZW_WIDTHS. -/
def Obligations.LzwWidthRoundsUp : Prop :=
  ∀ s : State,
    s.codec = .lzw → s.mode = .compress → s.phase = .lScanned →
    s.lzw.dict.length ≤ 2 ^ 32 - 256 →
    ∃ t k, exec .lzwWidth s = .next t
      ∧ s.lzw.dict.length + 256 ≤ 2 ^ k ∧ (∀ j, j < k → 2 ^ j < s.lzw.dict.length + 256)
      ∧ t.lzw.width.toNat = 4 * ((k + 3) / 4) ∧ t.lzw.width.toNat ∈ [8, 12, 16, 20, 24, 28, 32]
      ∧ t = { s with phase := .lWidth, lzw := { s.lzw with width := t.lzw.width } }

/-- R114, R276, R278: LZW.WRHDR appends the size and the width, big-endian; LZW.RDHDR reads them and
starts at a byte boundary; where a field does not fit, or SRC ends before it, they keep to the fields
before it and end with IOFailure (R79, R313). -/
def Obligations.LzwHeader : Prop :=
  ∀ s : State, s.codec = .lzw →
    (s.mode = .compress → s.phase = .lWidth → s.room 12 →
      ∃ t, exec .lzwWrhdr s = .next t
        ∧ DstAppended s t (beBytes 8 s.origSize.toNat ++ beBytes 4 s.lzw.width.toNat)
        ∧ t = { s with phase := .lHdrw, dst := t.dst, dstLen := t.dstLen })
    ∧ (∀ pre, s.mode = .compress → s.phase = .lWidth →
      fieldsCut s [beBytes 8 s.origSize.toNat, beBytes 4 s.lzw.width.toNat] pre →
      ∃ t, exec .lzwWrhdr s = .next t
        ∧ DstAppended s t pre.flatten ∧ t = ioFailed { s with dst := t.dst, dstLen := t.dstLen })
    ∧ (s.mode = .decompress → s.phase = .lInit → s.srcLen.toNat < s.srcPos.toNat + 8 →
      exec .lzwRdhdr s = .next (ioFailed s))
    ∧ (∀ size, s.mode = .decompress → s.phase = .lInit → s.srcPos.toNat + 8 ≤ s.srcLen.toNat →
      s.srcLen.toNat < s.srcPos.toNat + 12 → memRead s.src s.srcPos.toNat 8 = some size →
      exec .lzwRdhdr s = .next (ioFailed { s with
        origSize := BitVec.ofNat 64 size, srcPos := s.srcPos + 8#64 }))
    ∧ (∀ size w, s.mode = .decompress → s.phase = .lInit →
      s.srcPos.toNat + 12 ≤ s.srcLen.toNat →
      memRead s.src s.srcPos.toNat 8 = some size →
      memRead s.src (s.srcPos.toNat + 8) 4 = some w → w ∈ [8, 12, 16, 20, 24, 28, 32] →
      exec .lzwRdhdr s = .next { s with
        origSize := BitVec.ofNat 64 size, srcPos := s.srcPos + 12#64, rbyte := 0#8, rcnt := 0#4
        phase := .lDec, lzw := { s.lzw with width := BitVec.ofNat 6 w } })

/-- R114, R163, R277: LZW.EMIT packs the collected codewords at WIDTH bits each, pads the last byte and
completes the call; where a byte does not fit, it ends with IOFailure (R79, R313). -/
def Obligations.LzwEmitPacks : Prop :=
  ∀ s : State, s.codec = .lzw → s.mode = .compress → s.phase = .lHdrw → s.writerOk →
    (s.room ((s.wcnt.toNat + s.lzw.width.toNat * s.lzw.codebuf.length + 7) / 8) →
      ∃ t, exec .lzwEmit s = .next t
        ∧ BitsFinished s t (packedBits s.lzw)
        ∧ t = { written s t with
            compSize := t.dstLen, result := t.dstLen, mode := .decompress, phase := .done })
    ∧ (∀ m, m < (s.wcnt.toNat + s.lzw.width.toNat * s.lzw.codebuf.length) / 8 → s.room m → s.full (m + 1) →
      ∃ t, exec .lzwEmit s = .next t
        ∧ BitsCutOff s t (packedBits s.lzw) m ∧ t = ioFailed (written s t))
    ∧ (s.room ((s.wcnt.toNat + s.lzw.width.toNat * s.lzw.codebuf.length) / 8) →
      (s.wcnt.toNat + s.lzw.width.toNat * s.lzw.codebuf.length) % 8 ≠ 0 →
      s.full ((s.wcnt.toNat + s.lzw.width.toNat * s.lzw.codebuf.length) / 8 + 1) →
      ∃ t, exec .lzwEmit s = .next t
        ∧ BitsAppended s t (packedBits s.lzw) ∧ t = ioFailed (written s t))

/-- R164, R271, R279: LZW.DECCODE: with ORIG_SIZE bytes out it completes the call; else it reads a
codeword, appends its phrase, adds the previous phrase and the first byte of this one to the
dictionary, and completes the call when ORIG_SIZE bytes are out; where SRC ends inside the codeword, or
a byte of the phrase does not fit, it ends with IOFailure, with nothing learnt (R79, R313). -/
def Obligations.LzwDeccodeDecodes : Prop :=
  ∀ s : State, s.codec = .lzw → s.mode = .decompress → s.phase = .lDec →
    (s.origSize.toNat ≤ s.dstLen.toNat →
      exec .lzwDeccode s = .next { s with result := s.origSize, phase := .done })
    ∧ (∀ (x : Byte) (xs : List Byte),
      s.lzw.width.toNat ∈ Config.lzwWidths →
      (∀ n, n < s.lzw.width.toNat → (s.srcBit n).isSome = true) →
      phraseIs s.lzw (s.codewordAt s.lzw.width.toNat) (x :: xs) →
      s.dstLen.toNat + (x :: xs).length ≤ s.origSize.toNat → s.room (x :: xs).length →
      (s.lzw.havePrev = true → s.lzw.dict.length < s.cfg.dictLimit) →
      ∃ t, exec .lzwDeccode s = .next t
        ∧ DstAppended s t (x :: xs) ∧ BitsConsumed s t s.lzw.width.toNat
        ∧ t = { consumed s t with
            dst := t.dst, dstLen := t.dstLen
            phase := if t.dstLen = s.origSize then .done else .lDec
            result := if t.dstLen = s.origSize then s.origSize else s.result
            lzw := { s.lzw with
              dict := if s.lzw.havePrev then s.lzw.dict ++ [s.lzw.prev ++ [x]] else s.lzw.dict
              prev := x :: xs, havePrev := true } })
    ∧ (s.dstLen.toNat < s.origSize.toNat → s.srcIntact → s.bitsLeft < s.lzw.width.toNat →
      exec .lzwDeccode s = .next (ioFailed s.drained))
    ∧ ∀ (x : Byte) (xs : List Byte) (m : Nat),
      s.lzw.width.toNat ∈ Config.lzwWidths →
      (∀ n, n < s.lzw.width.toNat → (s.srcBit n).isSome = true) →
      phraseIs s.lzw (s.codewordAt s.lzw.width.toNat) (x :: xs) →
      s.dstLen.toNat + (x :: xs).length ≤ s.origSize.toNat →
      m < (x :: xs).length → s.room m → s.full (m + 1) →
      ∃ t, exec .lzwDeccode s = .next t
        ∧ DstAppended s t ((x :: xs).take m) ∧ BitsConsumed s t s.lzw.width.toNat
        ∧ t = ioFailed { consumed s t with dst := t.dst, dstLen := t.dstLen }

/-- R280, R281: for every source within the premises, COMPRESS completes, and DECOMPRESS of the archive
gives the source back.  Premise P_CAP: dictionary and code buffer hold an entry for each source byte,
DST 12 + 4 n bytes. -/
def Obligations.LzwRoundTrip : Prop :=
  ∀ (s : State) (bs : List Byte),
    s.codec = .lzw → s.mode = .compress → s.between →
    Memory.readBytes s.src 0 s.srcLen.toNat = some bs →
    bs.length ≤ s.cfg.dictLimit → (∀ k, k < bs.length → s.cfg.codebufFits k = true) →
    s.cfg.dstFits 0 (12 + 4 * bs.length) = true →
    ∃ t, exec .compress s = .next t
      ∧ t.phase = .done ∧ t.err = .noError ∧ t.origSize = s.srcLen ∧ t.compSize = t.dstLen
      ∧ ∀ u : State, u.codec = .lzw → u.mode = .decompress → u.between → u.srcLen = t.dstLen →
          Memory.readBytes u.src 0 u.srcLen.toNat = Memory.readBytes t.dst 0 t.dstLen.toNat →
          bs.length ≤ u.cfg.dictLimit → u.cfg.dstFits 0 bs.length = true →
          ∃ v, exec .decompress u = .next v
            ∧ v.phase = .done ∧ v.err = .noError ∧ v.result = s.srcLen ∧ v.dstLen = s.srcLen
            ∧ Memory.readBytes v.dst 0 v.dstLen.toNat = some bs

/-! ## What every step keeps -/

/-- Every step keeps the memories in canonical form and the packer's registers as R35 and R36 describe
them. -/
def Obligations.StepKeepsStreams : Prop :=
  ∀ s t : State, memoryOk s → packerOk s → step s = .next t → memoryOk t ∧ packerOk t

/-- R24, R317, R323: every step keeps PHASE inside the session's codec and direction, and in FAULT the
error kind that caused it. -/
def Obligations.StepKeepsSession : Prop :=
  ∀ s t : State, sessionOk s → step s = .next t → sessionOk t

/-- R39, R40, R192: every step keeps the tree a tree and the codes paths of 1 to 255 bits. -/
def Obligations.StepKeepsTree : Prop :=
  ∀ s t : State, huffmanOk s.huf → step s = .next t → huffmanOk t.huf

/-- R41, R42, R43, R230: every step keeps the total the sum of the counts, DIST the non-decreasing layout
of the counts in [LOW, HIGH], and LOW at most HIGH. -/
def Obligations.StepKeepsArithmeticModel : Prop :=
  ∀ s t : State, modelOk s.art → step s = .next t → modelOk t.art

/-- R45 to R49, R275: every step keeps the dictionary's phrases at two bytes or more and within
DICT_CAP, PHRASE known, the collected codewords below NEXT and inside WIDTH bits, WIDTH legal. -/
def Obligations.StepKeepsDictionary : Prop :=
  ∀ s t : State, dictionaryOk s → step s = .next t → dictionaryOk t

/-- The state after reset meets every invariant.  It rests on the engine tables' values at reset, which
are the model's choice, notes/assumptions/4. -/
def Obligations.ResetMeetsInvariants : Prop :=
  memoryOk State.reset ∧ packerOk State.reset ∧ sessionOk State.reset ∧ huffmanOk State.reset.huf
  ∧ modelOk State.reset.art ∧ dictionaryOk State.reset

end
end

