-- ==== Sys2Proof/Laws/Memory.lean ====
section
/-! SUPPORT. The laws of the byte spaces: read after write, what a write leaves alone, and that every
operation keeps the canonical form. -/

namespace Sys2Proof.Machine

theorem Memory.read_write_same (m : Memory) (a : Nat) (b : Byte) :
    Memory.read (Memory.write m a b) a = some b := by
  induction m with
  | nil => simp [Memory.write, Memory.read]
  | cons c m ih =>
    obtain ⟨k, x⟩ := c
    by_cases h1 : a < k
    · simp [Memory.write, Memory.read, h1]
    · by_cases h2 : a = k
      · subst h2; simp [Memory.write, Memory.read]
      · simp [Memory.write, Memory.read, h1, h2, Ne.symm h2, ih]

theorem Memory.read_write_other (m : Memory) {a c : Nat} (b : Byte) (h : c ≠ a) :
    Memory.read (Memory.write m a b) c = Memory.read m c := by
  induction m with
  | nil => simp [Memory.write, Memory.read, Ne.symm h]
  | cons d m ih =>
    obtain ⟨k, x⟩ := d
    by_cases h1 : a < k
    · simp [Memory.write, Memory.read, h1, Ne.symm h]
    · by_cases h2 : a = k
      · subst h2; simp [Memory.write, Memory.read, Ne.symm h]
      · by_cases h3 : k = c
        · subst h3; simp [Memory.write, Memory.read, h1, h2]
        · simp [Memory.write, Memory.read, h1, h2, h3, ih]

/-- A write outside a block of `n` bytes that starts at `a` leaves it alone; inside, it is the byte
written. -/
theorem Memory.read_writeBytes (m : Memory) (a : Nat) (bs : List Byte) (c : Nat) :
    Memory.read (Memory.writeBytes m a bs) c
      = if a ≤ c ∧ c < a + bs.length then bs[c - a]? else Memory.read m c := by
  induction bs generalizing m a with
  | nil =>
    simp [Memory.writeBytes]
  | cons b bs ih =>
    simp only [Memory.writeBytes, ih, List.length_cons]
    by_cases h1 : c = a
    · subst h1
      simp [Memory.read_write_same]
    · rw [Memory.read_write_other _ _ h1]
      by_cases h2 : a + 1 ≤ c ∧ c < a + 1 + bs.length
      · have h3 : a ≤ c ∧ c < a + (bs.length + 1) := by omega
        obtain ⟨d, rfl⟩ : ∃ d, c = a + 1 + d := ⟨c - (a + 1), by omega⟩
        have h4 : a + 1 + d - (a + 1) = d := by omega
        have h5 : a + 1 + d - a = d + 1 := by omega
        simp only [h2, h3, if_true, and_self, h4, h5, List.getElem?_cons_succ]
      · have h3 : ¬(a ≤ c ∧ c < a + (bs.length + 1)) := by omega
        simp only [h2, h3, if_false]

theorem Memory.mem_write {m : Memory} {a : Nat} {b : Byte} {c : Host.Cell}
    (h : c ∈ Memory.write m a b) : c = (a, b) ∨ c ∈ m := by
  induction m with
  | nil => simpa [Memory.write] using h
  | cons d m ih =>
    obtain ⟨k, x⟩ := d
    by_cases h1 : a < k
    · simpa [Memory.write, h1] using h
    · by_cases h2 : a = k
      · have : c = (a, b) ∨ c ∈ m := by simpa [Memory.write, h2] using h
        exact this.imp_right (List.mem_cons_of_mem _)
      · have : c = (k, x) ∨ c ∈ Memory.write m a b := by simpa [Memory.write, h1, h2] using h
        rcases this with rfl | h'
        · exact .inr (List.mem_cons_self ..)
        · exact (ih h').imp_right (List.mem_cons_of_mem _)

/-- A write keeps the canonical form. -/
theorem Memory.wf_write {m : Memory} (h : Memory.wf m) {a : Nat} (ha : a < 2 ^ 64) (b : Byte) :
    Memory.wf (Memory.write m a b) := by
  obtain ⟨hs, hb⟩ := h
  refine ⟨?_, fun c hc => ?_⟩
  · clear hb
    induction m with
    | nil => simp [Memory.write]
    | cons d m ih =>
      obtain ⟨k, x⟩ := d
      rw [List.pairwise_cons] at hs
      by_cases h1 : a < k
      · simp only [Memory.write, h1, if_true]
        refine List.pairwise_cons.2 ⟨fun c hc => ?_, List.pairwise_cons.2 hs⟩
        rcases List.mem_cons.1 hc with rfl | hc
        · exact h1
        · exact Nat.lt_trans h1 (hs.1 c hc)
      · by_cases h2 : a = k
        · subst h2
          simpa [Memory.write] using hs
        · simp only [Memory.write, h1, h2, if_false]
          refine List.pairwise_cons.2 ⟨fun c hc => ?_, ih hs.2⟩
          rcases Memory.mem_write hc with rfl | hc
          · show k < a
            omega
          · exact hs.1 c hc
  · rcases Memory.mem_write hc with rfl | hc
    · exact ha
    · exact hb c hc

/-- Writing a block inside the address space keeps the canonical form. -/
theorem Memory.wf_writeBytes {m : Memory} (h : Memory.wf m) {a : Nat} (bs : List Byte)
    (ha : a + bs.length ≤ 2 ^ 64) : Memory.wf (Memory.writeBytes m a bs) := by
  induction bs generalizing m a with
  | nil => exact h
  | cons b bs ih =>
    simp only [List.length_cons] at ha
    exact ih (Memory.wf_write h (by omega) b) (by omega)

/-- The reset memories are canonical. -/
theorem Memory.wf_nil : Memory.wf [] := by simp [Memory.wf]

@[simp] theorem beBytes_length (n v : Nat) : (beBytes n v).length = n := by
  induction n generalizing v with
  | zero => rfl
  | succ n ih => simp [beBytes, ih]

/-- `MemWrite` writes exactly `n` bytes from `a` on. -/
theorem read_memWrite (m : Memory) (a n v c : Nat) :
    Memory.read (memWrite m a n v) c
      = if a ≤ c ∧ c < a + n then (beBytes n v)[c - a]? else Memory.read m c := by
  simp [memWrite, Memory.read_writeBytes]

theorem wf_memWrite {m : Memory} (h : Memory.wf m) {a n : Nat} (v : Nat) (ha : a + n ≤ 2 ^ 64) :
    Memory.wf (memWrite m a n v) :=
  Memory.wf_writeBytes h _ (by simpa using ha)

/-- `MemRead` reads a block exactly when every byte of it has been written. -/
theorem Memory.readBytes_isSome_iff (m : Memory) (a n : Nat) :
    (Memory.readBytes m a n).isSome ↔ ∀ k < n, (Memory.read m (a + k)).isSome := by
  induction n generalizing a with
  | zero => simp [Memory.readBytes]
  | succ n ih =>
    have key : (∀ k < n + 1, (Memory.read m (a + k)).isSome)
        ↔ (Memory.read m a).isSome ∧ ∀ k < n, (Memory.read m (a + 1 + k)).isSome := by
      constructor
      · intro h
        refine ⟨by simpa using h 0 (by omega), fun k hk => ?_⟩
        have := h (k + 1) (by omega)
        rwa [show a + (k + 1) = a + 1 + k by omega] at this
      · rintro ⟨h0, h1⟩ k hk
        cases k with
        | zero => simpa using h0
        | succ k =>
          rw [show a + (k + 1) = a + 1 + k by omega]
          exact h1 k (by omega)
    rw [key, ← ih]
    simp only [Memory.readBytes]
    cases Memory.read m a with
    | none => simp
    | some b => cases Memory.readBytes m (a + 1) n <;> simp

/-- One byte read as a block. -/
theorem memRead_one (m : Memory) (a : Nat) :
    memRead m a 1 = (Memory.read m a).map BitVec.toNat := by
  cases h : Memory.read m a <;> simp [memRead, Memory.readBytes, h, beValue]

end Sys2Proof.Machine
end

