-- ==== Sys2Proof/Laws/State.lean ====
section
/-! SUPPORT. Each field of the state after each named update (Machine/Flags.lean, Ops.lean, Session.lean):
one lemma per field per update, so that no proof unfolds a record update. -/

namespace Sys2Proof.Machine

@[simp] theorem State.setErr_codec (s : State) (k : ErrKind) : (s.setErr k).codec = s.codec := rfl
@[simp] theorem State.setErr_mode (s : State) (k : ErrKind) : (s.setErr k).mode = s.mode := rfl
@[simp] theorem State.setErr_phase (s : State) (k : ErrKind) : (s.setErr k).phase = s.phase := rfl
@[simp] theorem State.setErr_err (s : State) (k : ErrKind) : (s.setErr k).err = k := rfl
@[simp] theorem State.setErr_cmderr (s : State) (k : ErrKind) : (s.setErr k).cmderr = s.cmderr := rfl
@[simp] theorem State.setErr_result (s : State) (k : ErrKind) : (s.setErr k).result = s.result := rfl
@[simp] theorem State.setErr_origSize (s : State) (k : ErrKind) : (s.setErr k).origSize = s.origSize := rfl
@[simp] theorem State.setErr_compSize (s : State) (k : ErrKind) : (s.setErr k).compSize = s.compSize := rfl
@[simp] theorem State.setErr_srcLen (s : State) (k : ErrKind) : (s.setErr k).srcLen = s.srcLen := rfl
@[simp] theorem State.setErr_srcPos (s : State) (k : ErrKind) : (s.setErr k).srcPos = s.srcPos := rfl
@[simp] theorem State.setErr_dstLen (s : State) (k : ErrKind) : (s.setErr k).dstLen = s.dstLen := rfl
@[simp] theorem State.setErr_wacc (s : State) (k : ErrKind) : (s.setErr k).wacc = s.wacc := rfl
@[simp] theorem State.setErr_wcnt (s : State) (k : ErrKind) : (s.setErr k).wcnt = s.wcnt := rfl
@[simp] theorem State.setErr_rbyte (s : State) (k : ErrKind) : (s.setErr k).rbyte = s.rbyte := rfl
@[simp] theorem State.setErr_rcnt (s : State) (k : ErrKind) : (s.setErr k).rcnt = s.rcnt := rfl
@[simp] theorem State.setErr_huf (s : State) (k : ErrKind) : (s.setErr k).huf = s.huf := rfl
@[simp] theorem State.setErr_art (s : State) (k : ErrKind) : (s.setErr k).art = s.art := rfl
@[simp] theorem State.setErr_lzw (s : State) (k : ErrKind) : (s.setErr k).lzw = s.lzw := rfl
@[simp] theorem State.setErr_src (s : State) (k : ErrKind) : (s.setErr k).src = s.src := rfl
@[simp] theorem State.setErr_dst (s : State) (k : ErrKind) : (s.setErr k).dst = s.dst := rfl
@[simp] theorem State.setErr_cfg (s : State) (k : ErrKind) : (s.setErr k).cfg = s.cfg := rfl
@[simp] theorem State.setErr_port (s : State) (k : ErrKind) : (s.setErr k).port = s.port := rfl

@[simp] theorem State.clearErr_codec (s : State) : (s.clearErr).codec = s.codec := rfl
@[simp] theorem State.clearErr_mode (s : State) : (s.clearErr).mode = s.mode := rfl
@[simp] theorem State.clearErr_phase (s : State) : (s.clearErr).phase = s.phase := rfl
@[simp] theorem State.clearErr_err (s : State) : (s.clearErr).err = .noError := rfl
@[simp] theorem State.clearErr_cmderr (s : State) : (s.clearErr).cmderr = s.cmderr := rfl
@[simp] theorem State.clearErr_result (s : State) : (s.clearErr).result = s.result := rfl
@[simp] theorem State.clearErr_origSize (s : State) : (s.clearErr).origSize = s.origSize := rfl
@[simp] theorem State.clearErr_compSize (s : State) : (s.clearErr).compSize = s.compSize := rfl
@[simp] theorem State.clearErr_srcLen (s : State) : (s.clearErr).srcLen = s.srcLen := rfl
@[simp] theorem State.clearErr_srcPos (s : State) : (s.clearErr).srcPos = s.srcPos := rfl
@[simp] theorem State.clearErr_dstLen (s : State) : (s.clearErr).dstLen = s.dstLen := rfl
@[simp] theorem State.clearErr_wacc (s : State) : (s.clearErr).wacc = s.wacc := rfl
@[simp] theorem State.clearErr_wcnt (s : State) : (s.clearErr).wcnt = s.wcnt := rfl
@[simp] theorem State.clearErr_rbyte (s : State) : (s.clearErr).rbyte = s.rbyte := rfl
@[simp] theorem State.clearErr_rcnt (s : State) : (s.clearErr).rcnt = s.rcnt := rfl
@[simp] theorem State.clearErr_huf (s : State) : (s.clearErr).huf = s.huf := rfl
@[simp] theorem State.clearErr_art (s : State) : (s.clearErr).art = s.art := rfl
@[simp] theorem State.clearErr_lzw (s : State) : (s.clearErr).lzw = s.lzw := rfl
@[simp] theorem State.clearErr_src (s : State) : (s.clearErr).src = s.src := rfl
@[simp] theorem State.clearErr_dst (s : State) : (s.clearErr).dst = s.dst := rfl
@[simp] theorem State.clearErr_cfg (s : State) : (s.clearErr).cfg = s.cfg := rfl
@[simp] theorem State.clearErr_port (s : State) : (s.clearErr).port = s.port := rfl

@[simp] theorem State.setCmderr_codec (s : State) : (s.setCmderr).codec = s.codec := rfl
@[simp] theorem State.setCmderr_mode (s : State) : (s.setCmderr).mode = s.mode := rfl
@[simp] theorem State.setCmderr_phase (s : State) : (s.setCmderr).phase = s.phase := rfl
@[simp] theorem State.setCmderr_err (s : State) : (s.setCmderr).err = s.err := rfl
@[simp] theorem State.setCmderr_cmderr (s : State) : (s.setCmderr).cmderr = true := rfl
@[simp] theorem State.setCmderr_result (s : State) : (s.setCmderr).result = s.result := rfl
@[simp] theorem State.setCmderr_origSize (s : State) : (s.setCmderr).origSize = s.origSize := rfl
@[simp] theorem State.setCmderr_compSize (s : State) : (s.setCmderr).compSize = s.compSize := rfl
@[simp] theorem State.setCmderr_srcLen (s : State) : (s.setCmderr).srcLen = s.srcLen := rfl
@[simp] theorem State.setCmderr_srcPos (s : State) : (s.setCmderr).srcPos = s.srcPos := rfl
@[simp] theorem State.setCmderr_dstLen (s : State) : (s.setCmderr).dstLen = s.dstLen := rfl
@[simp] theorem State.setCmderr_wacc (s : State) : (s.setCmderr).wacc = s.wacc := rfl
@[simp] theorem State.setCmderr_wcnt (s : State) : (s.setCmderr).wcnt = s.wcnt := rfl
@[simp] theorem State.setCmderr_rbyte (s : State) : (s.setCmderr).rbyte = s.rbyte := rfl
@[simp] theorem State.setCmderr_rcnt (s : State) : (s.setCmderr).rcnt = s.rcnt := rfl
@[simp] theorem State.setCmderr_huf (s : State) : (s.setCmderr).huf = s.huf := rfl
@[simp] theorem State.setCmderr_art (s : State) : (s.setCmderr).art = s.art := rfl
@[simp] theorem State.setCmderr_lzw (s : State) : (s.setCmderr).lzw = s.lzw := rfl
@[simp] theorem State.setCmderr_src (s : State) : (s.setCmderr).src = s.src := rfl
@[simp] theorem State.setCmderr_dst (s : State) : (s.setCmderr).dst = s.dst := rfl
@[simp] theorem State.setCmderr_cfg (s : State) : (s.setCmderr).cfg = s.cfg := rfl
@[simp] theorem State.setCmderr_port (s : State) : (s.setCmderr).port = s.port := rfl

@[simp] theorem State.clearCmderr_codec (s : State) : (s.clearCmderr).codec = s.codec := rfl
@[simp] theorem State.clearCmderr_mode (s : State) : (s.clearCmderr).mode = s.mode := rfl
@[simp] theorem State.clearCmderr_phase (s : State) : (s.clearCmderr).phase = s.phase := rfl
@[simp] theorem State.clearCmderr_err (s : State) : (s.clearCmderr).err = s.err := rfl
@[simp] theorem State.clearCmderr_cmderr (s : State) : (s.clearCmderr).cmderr = false := rfl
@[simp] theorem State.clearCmderr_result (s : State) : (s.clearCmderr).result = s.result := rfl
@[simp] theorem State.clearCmderr_origSize (s : State) : (s.clearCmderr).origSize = s.origSize := rfl
@[simp] theorem State.clearCmderr_compSize (s : State) : (s.clearCmderr).compSize = s.compSize := rfl
@[simp] theorem State.clearCmderr_srcLen (s : State) : (s.clearCmderr).srcLen = s.srcLen := rfl
@[simp] theorem State.clearCmderr_srcPos (s : State) : (s.clearCmderr).srcPos = s.srcPos := rfl
@[simp] theorem State.clearCmderr_dstLen (s : State) : (s.clearCmderr).dstLen = s.dstLen := rfl
@[simp] theorem State.clearCmderr_wacc (s : State) : (s.clearCmderr).wacc = s.wacc := rfl
@[simp] theorem State.clearCmderr_wcnt (s : State) : (s.clearCmderr).wcnt = s.wcnt := rfl
@[simp] theorem State.clearCmderr_rbyte (s : State) : (s.clearCmderr).rbyte = s.rbyte := rfl
@[simp] theorem State.clearCmderr_rcnt (s : State) : (s.clearCmderr).rcnt = s.rcnt := rfl
@[simp] theorem State.clearCmderr_huf (s : State) : (s.clearCmderr).huf = s.huf := rfl
@[simp] theorem State.clearCmderr_art (s : State) : (s.clearCmderr).art = s.art := rfl
@[simp] theorem State.clearCmderr_lzw (s : State) : (s.clearCmderr).lzw = s.lzw := rfl
@[simp] theorem State.clearCmderr_src (s : State) : (s.clearCmderr).src = s.src := rfl
@[simp] theorem State.clearCmderr_dst (s : State) : (s.clearCmderr).dst = s.dst := rfl
@[simp] theorem State.clearCmderr_cfg (s : State) : (s.clearCmderr).cfg = s.cfg := rfl
@[simp] theorem State.clearCmderr_port (s : State) : (s.clearCmderr).port = s.port := rfl

@[simp] theorem State.fail_codec (s : State) (k : ErrKind) : (s.fail k).codec = s.codec := rfl
@[simp] theorem State.fail_mode (s : State) (k : ErrKind) : (s.fail k).mode = s.mode := rfl
@[simp] theorem State.fail_phase (s : State) (k : ErrKind) : (s.fail k).phase = .fault := rfl
@[simp] theorem State.fail_err (s : State) (k : ErrKind) : (s.fail k).err = k := rfl
@[simp] theorem State.fail_cmderr (s : State) (k : ErrKind) : (s.fail k).cmderr = s.cmderr := rfl
@[simp] theorem State.fail_result (s : State) (k : ErrKind) : (s.fail k).result = 0#64 := rfl
@[simp] theorem State.fail_origSize (s : State) (k : ErrKind) : (s.fail k).origSize = s.origSize := rfl
@[simp] theorem State.fail_compSize (s : State) (k : ErrKind) : (s.fail k).compSize = s.compSize := rfl
@[simp] theorem State.fail_srcLen (s : State) (k : ErrKind) : (s.fail k).srcLen = s.srcLen := rfl
@[simp] theorem State.fail_srcPos (s : State) (k : ErrKind) : (s.fail k).srcPos = s.srcPos := rfl
@[simp] theorem State.fail_dstLen (s : State) (k : ErrKind) : (s.fail k).dstLen = s.dstLen := rfl
@[simp] theorem State.fail_wacc (s : State) (k : ErrKind) : (s.fail k).wacc = s.wacc := rfl
@[simp] theorem State.fail_wcnt (s : State) (k : ErrKind) : (s.fail k).wcnt = s.wcnt := rfl
@[simp] theorem State.fail_rbyte (s : State) (k : ErrKind) : (s.fail k).rbyte = s.rbyte := rfl
@[simp] theorem State.fail_rcnt (s : State) (k : ErrKind) : (s.fail k).rcnt = s.rcnt := rfl
@[simp] theorem State.fail_huf (s : State) (k : ErrKind) : (s.fail k).huf = s.huf := rfl
@[simp] theorem State.fail_art (s : State) (k : ErrKind) : (s.fail k).art = s.art := rfl
@[simp] theorem State.fail_lzw (s : State) (k : ErrKind) : (s.fail k).lzw = s.lzw := rfl
@[simp] theorem State.fail_src (s : State) (k : ErrKind) : (s.fail k).src = s.src := rfl
@[simp] theorem State.fail_dst (s : State) (k : ErrKind) : (s.fail k).dst = s.dst := rfl
@[simp] theorem State.fail_cfg (s : State) (k : ErrKind) : (s.fail k).cfg = s.cfg := rfl
@[simp] theorem State.fail_port (s : State) (k : ErrKind) : (s.fail k).port = s.port := rfl

@[simp] theorem State.modeMismatch_codec (s : State) : (s.modeMismatch).codec = s.codec := rfl
@[simp] theorem State.modeMismatch_mode (s : State) : (s.modeMismatch).mode = s.mode := rfl
@[simp] theorem State.modeMismatch_phase (s : State) : (s.modeMismatch).phase = s.phase := rfl
@[simp] theorem State.modeMismatch_err (s : State) : (s.modeMismatch).err = .modeMismatch := rfl
@[simp] theorem State.modeMismatch_cmderr (s : State) : (s.modeMismatch).cmderr = s.cmderr := rfl
@[simp] theorem State.modeMismatch_result (s : State) : (s.modeMismatch).result = 0#64 := rfl
@[simp] theorem State.modeMismatch_origSize (s : State) : (s.modeMismatch).origSize = s.origSize := rfl
@[simp] theorem State.modeMismatch_compSize (s : State) : (s.modeMismatch).compSize = s.compSize := rfl
@[simp] theorem State.modeMismatch_srcLen (s : State) : (s.modeMismatch).srcLen = s.srcLen := rfl
@[simp] theorem State.modeMismatch_srcPos (s : State) : (s.modeMismatch).srcPos = s.srcPos := rfl
@[simp] theorem State.modeMismatch_dstLen (s : State) : (s.modeMismatch).dstLen = s.dstLen := rfl
@[simp] theorem State.modeMismatch_wacc (s : State) : (s.modeMismatch).wacc = s.wacc := rfl
@[simp] theorem State.modeMismatch_wcnt (s : State) : (s.modeMismatch).wcnt = s.wcnt := rfl
@[simp] theorem State.modeMismatch_rbyte (s : State) : (s.modeMismatch).rbyte = s.rbyte := rfl
@[simp] theorem State.modeMismatch_rcnt (s : State) : (s.modeMismatch).rcnt = s.rcnt := rfl
@[simp] theorem State.modeMismatch_huf (s : State) : (s.modeMismatch).huf = s.huf := rfl
@[simp] theorem State.modeMismatch_art (s : State) : (s.modeMismatch).art = s.art := rfl
@[simp] theorem State.modeMismatch_lzw (s : State) : (s.modeMismatch).lzw = s.lzw := rfl
@[simp] theorem State.modeMismatch_src (s : State) : (s.modeMismatch).src = s.src := rfl
@[simp] theorem State.modeMismatch_dst (s : State) : (s.modeMismatch).dst = s.dst := rfl
@[simp] theorem State.modeMismatch_cfg (s : State) : (s.modeMismatch).cfg = s.cfg := rfl
@[simp] theorem State.modeMismatch_port (s : State) : (s.modeMismatch).port = s.port := rfl

@[simp] theorem State.refuse_codec (s : State) : (s.refuse).codec = s.codec := rfl
@[simp] theorem State.refuse_mode (s : State) : (s.refuse).mode = s.mode := rfl
@[simp] theorem State.refuse_phase (s : State) : (s.refuse).phase = s.phase := rfl
@[simp] theorem State.refuse_err (s : State) : (s.refuse).err = s.err := rfl
@[simp] theorem State.refuse_cmderr (s : State) : (s.refuse).cmderr = true := rfl
@[simp] theorem State.refuse_result (s : State) : (s.refuse).result = s.result := rfl
@[simp] theorem State.refuse_origSize (s : State) : (s.refuse).origSize = s.origSize := rfl
@[simp] theorem State.refuse_compSize (s : State) : (s.refuse).compSize = s.compSize := rfl
@[simp] theorem State.refuse_srcLen (s : State) : (s.refuse).srcLen = s.srcLen := rfl
@[simp] theorem State.refuse_srcPos (s : State) : (s.refuse).srcPos = s.srcPos := rfl
@[simp] theorem State.refuse_dstLen (s : State) : (s.refuse).dstLen = s.dstLen := rfl
@[simp] theorem State.refuse_wacc (s : State) : (s.refuse).wacc = s.wacc := rfl
@[simp] theorem State.refuse_wcnt (s : State) : (s.refuse).wcnt = s.wcnt := rfl
@[simp] theorem State.refuse_rbyte (s : State) : (s.refuse).rbyte = s.rbyte := rfl
@[simp] theorem State.refuse_rcnt (s : State) : (s.refuse).rcnt = s.rcnt := rfl
@[simp] theorem State.refuse_huf (s : State) : (s.refuse).huf = s.huf := rfl
@[simp] theorem State.refuse_art (s : State) : (s.refuse).art = s.art := rfl
@[simp] theorem State.refuse_lzw (s : State) : (s.refuse).lzw = s.lzw := rfl
@[simp] theorem State.refuse_src (s : State) : (s.refuse).src = s.src := rfl
@[simp] theorem State.refuse_dst (s : State) : (s.refuse).dst = s.dst := rfl
@[simp] theorem State.refuse_cfg (s : State) : (s.refuse).cfg = s.cfg := rfl
@[simp] theorem State.refuse_port (s : State) : (s.refuse).port = s.port := rfl

@[simp] theorem State.clearStream_codec (s : State) : (s.clearStream).codec = s.codec := rfl
@[simp] theorem State.clearStream_mode (s : State) : (s.clearStream).mode = s.mode := rfl
@[simp] theorem State.clearStream_phase (s : State) : (s.clearStream).phase = s.phase := rfl
@[simp] theorem State.clearStream_err (s : State) : (s.clearStream).err = s.err := rfl
@[simp] theorem State.clearStream_cmderr (s : State) : (s.clearStream).cmderr = s.cmderr := rfl
@[simp] theorem State.clearStream_result (s : State) : (s.clearStream).result = s.result := rfl
@[simp] theorem State.clearStream_origSize (s : State) : (s.clearStream).origSize = s.origSize := rfl
@[simp] theorem State.clearStream_compSize (s : State) : (s.clearStream).compSize = s.compSize := rfl
@[simp] theorem State.clearStream_srcLen (s : State) : (s.clearStream).srcLen = s.srcLen := rfl
@[simp] theorem State.clearStream_srcPos (s : State) : (s.clearStream).srcPos = 0#64 := rfl
@[simp] theorem State.clearStream_dstLen (s : State) : (s.clearStream).dstLen = 0#64 := rfl
@[simp] theorem State.clearStream_wacc (s : State) : (s.clearStream).wacc = 0#8 := rfl
@[simp] theorem State.clearStream_wcnt (s : State) : (s.clearStream).wcnt = 0#4 := rfl
@[simp] theorem State.clearStream_rbyte (s : State) : (s.clearStream).rbyte = 0#8 := rfl
@[simp] theorem State.clearStream_rcnt (s : State) : (s.clearStream).rcnt = 0#4 := rfl
@[simp] theorem State.clearStream_huf (s : State) : (s.clearStream).huf = s.huf := rfl
@[simp] theorem State.clearStream_art (s : State) : (s.clearStream).art = s.art := rfl
@[simp] theorem State.clearStream_lzw (s : State) : (s.clearStream).lzw = s.lzw := rfl
@[simp] theorem State.clearStream_src (s : State) : (s.clearStream).src = s.src := rfl
@[simp] theorem State.clearStream_dst (s : State) : (s.clearStream).dst = s.dst := rfl
@[simp] theorem State.clearStream_cfg (s : State) : (s.clearStream).cfg = s.cfg := rfl
@[simp] theorem State.clearStream_port (s : State) : (s.clearStream).port = s.port := rfl

@[simp] theorem State.clearWriter_codec (s : State) : (s.clearWriter).codec = s.codec := rfl
@[simp] theorem State.clearWriter_mode (s : State) : (s.clearWriter).mode = s.mode := rfl
@[simp] theorem State.clearWriter_phase (s : State) : (s.clearWriter).phase = s.phase := rfl
@[simp] theorem State.clearWriter_err (s : State) : (s.clearWriter).err = s.err := rfl
@[simp] theorem State.clearWriter_cmderr (s : State) : (s.clearWriter).cmderr = s.cmderr := rfl
@[simp] theorem State.clearWriter_result (s : State) : (s.clearWriter).result = s.result := rfl
@[simp] theorem State.clearWriter_origSize (s : State) : (s.clearWriter).origSize = s.origSize := rfl
@[simp] theorem State.clearWriter_compSize (s : State) : (s.clearWriter).compSize = s.compSize := rfl
@[simp] theorem State.clearWriter_srcLen (s : State) : (s.clearWriter).srcLen = s.srcLen := rfl
@[simp] theorem State.clearWriter_srcPos (s : State) : (s.clearWriter).srcPos = s.srcPos := rfl
@[simp] theorem State.clearWriter_dstLen (s : State) : (s.clearWriter).dstLen = s.dstLen := rfl
@[simp] theorem State.clearWriter_wacc (s : State) : (s.clearWriter).wacc = 0#8 := rfl
@[simp] theorem State.clearWriter_wcnt (s : State) : (s.clearWriter).wcnt = 0#4 := rfl
@[simp] theorem State.clearWriter_rbyte (s : State) : (s.clearWriter).rbyte = s.rbyte := rfl
@[simp] theorem State.clearWriter_rcnt (s : State) : (s.clearWriter).rcnt = s.rcnt := rfl
@[simp] theorem State.clearWriter_huf (s : State) : (s.clearWriter).huf = s.huf := rfl
@[simp] theorem State.clearWriter_art (s : State) : (s.clearWriter).art = s.art := rfl
@[simp] theorem State.clearWriter_lzw (s : State) : (s.clearWriter).lzw = s.lzw := rfl
@[simp] theorem State.clearWriter_src (s : State) : (s.clearWriter).src = s.src := rfl
@[simp] theorem State.clearWriter_dst (s : State) : (s.clearWriter).dst = s.dst := rfl
@[simp] theorem State.clearWriter_cfg (s : State) : (s.clearWriter).cfg = s.cfg := rfl
@[simp] theorem State.clearWriter_port (s : State) : (s.clearWriter).port = s.port := rfl

@[simp] theorem State.clearReader_codec (s : State) : (s.clearReader).codec = s.codec := rfl
@[simp] theorem State.clearReader_mode (s : State) : (s.clearReader).mode = s.mode := rfl
@[simp] theorem State.clearReader_phase (s : State) : (s.clearReader).phase = s.phase := rfl
@[simp] theorem State.clearReader_err (s : State) : (s.clearReader).err = s.err := rfl
@[simp] theorem State.clearReader_cmderr (s : State) : (s.clearReader).cmderr = s.cmderr := rfl
@[simp] theorem State.clearReader_result (s : State) : (s.clearReader).result = s.result := rfl
@[simp] theorem State.clearReader_origSize (s : State) : (s.clearReader).origSize = s.origSize := rfl
@[simp] theorem State.clearReader_compSize (s : State) : (s.clearReader).compSize = s.compSize := rfl
@[simp] theorem State.clearReader_srcLen (s : State) : (s.clearReader).srcLen = s.srcLen := rfl
@[simp] theorem State.clearReader_srcPos (s : State) : (s.clearReader).srcPos = s.srcPos := rfl
@[simp] theorem State.clearReader_dstLen (s : State) : (s.clearReader).dstLen = s.dstLen := rfl
@[simp] theorem State.clearReader_wacc (s : State) : (s.clearReader).wacc = s.wacc := rfl
@[simp] theorem State.clearReader_wcnt (s : State) : (s.clearReader).wcnt = s.wcnt := rfl
@[simp] theorem State.clearReader_rbyte (s : State) : (s.clearReader).rbyte = 0#8 := rfl
@[simp] theorem State.clearReader_rcnt (s : State) : (s.clearReader).rcnt = 0#4 := rfl
@[simp] theorem State.clearReader_huf (s : State) : (s.clearReader).huf = s.huf := rfl
@[simp] theorem State.clearReader_art (s : State) : (s.clearReader).art = s.art := rfl
@[simp] theorem State.clearReader_lzw (s : State) : (s.clearReader).lzw = s.lzw := rfl
@[simp] theorem State.clearReader_src (s : State) : (s.clearReader).src = s.src := rfl
@[simp] theorem State.clearReader_dst (s : State) : (s.clearReader).dst = s.dst := rfl
@[simp] theorem State.clearReader_cfg (s : State) : (s.clearReader).cfg = s.cfg := rfl
@[simp] theorem State.clearReader_port (s : State) : (s.clearReader).port = s.port := rfl

@[simp] theorem State.beginCall_codec (s : State) : (s.beginCall).codec = s.codec := rfl
@[simp] theorem State.beginCall_mode (s : State) : (s.beginCall).mode = s.mode := rfl
@[simp] theorem State.beginCall_phase (s : State) : (s.beginCall).phase = s.phase := rfl
@[simp] theorem State.beginCall_err (s : State) : (s.beginCall).err = .noError := rfl
@[simp] theorem State.beginCall_cmderr (s : State) : (s.beginCall).cmderr = s.cmderr := rfl
@[simp] theorem State.beginCall_result (s : State) : (s.beginCall).result = 0#64 := rfl
@[simp] theorem State.beginCall_origSize (s : State) : (s.beginCall).origSize = (match s.mode with | .compress => s.srcLen | .decompress => 0#64) := rfl
@[simp] theorem State.beginCall_compSize (s : State) : (s.beginCall).compSize = s.compSize := rfl
@[simp] theorem State.beginCall_srcLen (s : State) : (s.beginCall).srcLen = s.srcLen := rfl
@[simp] theorem State.beginCall_srcPos (s : State) : (s.beginCall).srcPos = 0#64 := rfl
@[simp] theorem State.beginCall_dstLen (s : State) : (s.beginCall).dstLen = 0#64 := rfl
@[simp] theorem State.beginCall_wacc (s : State) : (s.beginCall).wacc = 0#8 := rfl
@[simp] theorem State.beginCall_wcnt (s : State) : (s.beginCall).wcnt = 0#4 := rfl
@[simp] theorem State.beginCall_rbyte (s : State) : (s.beginCall).rbyte = 0#8 := rfl
@[simp] theorem State.beginCall_rcnt (s : State) : (s.beginCall).rcnt = 0#4 := rfl
@[simp] theorem State.beginCall_huf (s : State) : (s.beginCall).huf = s.huf := rfl
@[simp] theorem State.beginCall_art (s : State) : (s.beginCall).art = s.art := rfl
@[simp] theorem State.beginCall_lzw (s : State) : (s.beginCall).lzw = s.lzw := rfl
@[simp] theorem State.beginCall_src (s : State) : (s.beginCall).src = s.src := rfl
@[simp] theorem State.beginCall_dst (s : State) : (s.beginCall).dst = s.dst := rfl
@[simp] theorem State.beginCall_cfg (s : State) : (s.beginCall).cfg = s.cfg := rfl
@[simp] theorem State.beginCall_port (s : State) : (s.beginCall).port = s.port := rfl

@[simp] theorem State.finishCompress_codec (s : State) : (s.finishCompress).codec = s.codec := rfl
@[simp] theorem State.finishCompress_mode (s : State) : (s.finishCompress).mode = .decompress := rfl
@[simp] theorem State.finishCompress_phase (s : State) : (s.finishCompress).phase = .done := rfl
@[simp] theorem State.finishCompress_err (s : State) : (s.finishCompress).err = s.err := rfl
@[simp] theorem State.finishCompress_cmderr (s : State) : (s.finishCompress).cmderr = s.cmderr := rfl
@[simp] theorem State.finishCompress_result (s : State) : (s.finishCompress).result = s.dstLen := rfl
@[simp] theorem State.finishCompress_origSize (s : State) : (s.finishCompress).origSize = s.origSize := rfl
@[simp] theorem State.finishCompress_compSize (s : State) : (s.finishCompress).compSize = s.dstLen := rfl
@[simp] theorem State.finishCompress_srcLen (s : State) : (s.finishCompress).srcLen = s.srcLen := rfl
@[simp] theorem State.finishCompress_srcPos (s : State) : (s.finishCompress).srcPos = s.srcPos := rfl
@[simp] theorem State.finishCompress_dstLen (s : State) : (s.finishCompress).dstLen = s.dstLen := rfl
@[simp] theorem State.finishCompress_wacc (s : State) : (s.finishCompress).wacc = s.wacc := rfl
@[simp] theorem State.finishCompress_wcnt (s : State) : (s.finishCompress).wcnt = s.wcnt := rfl
@[simp] theorem State.finishCompress_rbyte (s : State) : (s.finishCompress).rbyte = s.rbyte := rfl
@[simp] theorem State.finishCompress_rcnt (s : State) : (s.finishCompress).rcnt = s.rcnt := rfl
@[simp] theorem State.finishCompress_huf (s : State) : (s.finishCompress).huf = s.huf := rfl
@[simp] theorem State.finishCompress_art (s : State) : (s.finishCompress).art = s.art := rfl
@[simp] theorem State.finishCompress_lzw (s : State) : (s.finishCompress).lzw = s.lzw := rfl
@[simp] theorem State.finishCompress_src (s : State) : (s.finishCompress).src = s.src := rfl
@[simp] theorem State.finishCompress_dst (s : State) : (s.finishCompress).dst = s.dst := rfl
@[simp] theorem State.finishCompress_cfg (s : State) : (s.finishCompress).cfg = s.cfg := rfl
@[simp] theorem State.finishCompress_port (s : State) : (s.finishCompress).port = s.port := rfl

@[simp] theorem State.finishDecompress_codec (s : State) : (s.finishDecompress).codec = s.codec := rfl
@[simp] theorem State.finishDecompress_mode (s : State) : (s.finishDecompress).mode = s.mode := rfl
@[simp] theorem State.finishDecompress_phase (s : State) : (s.finishDecompress).phase = .done := rfl
@[simp] theorem State.finishDecompress_err (s : State) : (s.finishDecompress).err = s.err := rfl
@[simp] theorem State.finishDecompress_cmderr (s : State) : (s.finishDecompress).cmderr = s.cmderr := rfl
@[simp] theorem State.finishDecompress_result (s : State) : (s.finishDecompress).result = s.origSize := rfl
@[simp] theorem State.finishDecompress_origSize (s : State) : (s.finishDecompress).origSize = s.origSize := rfl
@[simp] theorem State.finishDecompress_compSize (s : State) : (s.finishDecompress).compSize = s.compSize := rfl
@[simp] theorem State.finishDecompress_srcLen (s : State) : (s.finishDecompress).srcLen = s.srcLen := rfl
@[simp] theorem State.finishDecompress_srcPos (s : State) : (s.finishDecompress).srcPos = s.srcPos := rfl
@[simp] theorem State.finishDecompress_dstLen (s : State) : (s.finishDecompress).dstLen = s.dstLen := rfl
@[simp] theorem State.finishDecompress_wacc (s : State) : (s.finishDecompress).wacc = s.wacc := rfl
@[simp] theorem State.finishDecompress_wcnt (s : State) : (s.finishDecompress).wcnt = s.wcnt := rfl
@[simp] theorem State.finishDecompress_rbyte (s : State) : (s.finishDecompress).rbyte = s.rbyte := rfl
@[simp] theorem State.finishDecompress_rcnt (s : State) : (s.finishDecompress).rcnt = s.rcnt := rfl
@[simp] theorem State.finishDecompress_huf (s : State) : (s.finishDecompress).huf = s.huf := rfl
@[simp] theorem State.finishDecompress_art (s : State) : (s.finishDecompress).art = s.art := rfl
@[simp] theorem State.finishDecompress_lzw (s : State) : (s.finishDecompress).lzw = s.lzw := rfl
@[simp] theorem State.finishDecompress_src (s : State) : (s.finishDecompress).src = s.src := rfl
@[simp] theorem State.finishDecompress_dst (s : State) : (s.finishDecompress).dst = s.dst := rfl
@[simp] theorem State.finishDecompress_cfg (s : State) : (s.finishDecompress).cfg = s.cfg := rfl
@[simp] theorem State.finishDecompress_port (s : State) : (s.finishDecompress).port = s.port := rfl

@[simp] theorem State.setPhase_codec (s : State) (p : Phase) : (s.setPhase p).codec = s.codec := rfl
@[simp] theorem State.setPhase_mode (s : State) (p : Phase) : (s.setPhase p).mode = s.mode := rfl
@[simp] theorem State.setPhase_phase (s : State) (p : Phase) : (s.setPhase p).phase = p := rfl
@[simp] theorem State.setPhase_err (s : State) (p : Phase) : (s.setPhase p).err = s.err := rfl
@[simp] theorem State.setPhase_cmderr (s : State) (p : Phase) : (s.setPhase p).cmderr = s.cmderr := rfl
@[simp] theorem State.setPhase_result (s : State) (p : Phase) : (s.setPhase p).result = s.result := rfl
@[simp] theorem State.setPhase_origSize (s : State) (p : Phase) : (s.setPhase p).origSize = s.origSize := rfl
@[simp] theorem State.setPhase_compSize (s : State) (p : Phase) : (s.setPhase p).compSize = s.compSize := rfl
@[simp] theorem State.setPhase_srcLen (s : State) (p : Phase) : (s.setPhase p).srcLen = s.srcLen := rfl
@[simp] theorem State.setPhase_srcPos (s : State) (p : Phase) : (s.setPhase p).srcPos = s.srcPos := rfl
@[simp] theorem State.setPhase_dstLen (s : State) (p : Phase) : (s.setPhase p).dstLen = s.dstLen := rfl
@[simp] theorem State.setPhase_wacc (s : State) (p : Phase) : (s.setPhase p).wacc = s.wacc := rfl
@[simp] theorem State.setPhase_wcnt (s : State) (p : Phase) : (s.setPhase p).wcnt = s.wcnt := rfl
@[simp] theorem State.setPhase_rbyte (s : State) (p : Phase) : (s.setPhase p).rbyte = s.rbyte := rfl
@[simp] theorem State.setPhase_rcnt (s : State) (p : Phase) : (s.setPhase p).rcnt = s.rcnt := rfl
@[simp] theorem State.setPhase_huf (s : State) (p : Phase) : (s.setPhase p).huf = s.huf := rfl
@[simp] theorem State.setPhase_art (s : State) (p : Phase) : (s.setPhase p).art = s.art := rfl
@[simp] theorem State.setPhase_lzw (s : State) (p : Phase) : (s.setPhase p).lzw = s.lzw := rfl
@[simp] theorem State.setPhase_src (s : State) (p : Phase) : (s.setPhase p).src = s.src := rfl
@[simp] theorem State.setPhase_dst (s : State) (p : Phase) : (s.setPhase p).dst = s.dst := rfl
@[simp] theorem State.setPhase_cfg (s : State) (p : Phase) : (s.setPhase p).cfg = s.cfg := rfl
@[simp] theorem State.setPhase_port (s : State) (p : Phase) : (s.setPhase p).port = s.port := rfl

@[simp] theorem State.openSession_codec (s : State) (c : Codec) (m : Mode) : (s.openSession c m).codec = c := rfl
@[simp] theorem State.openSession_mode (s : State) (c : Codec) (m : Mode) : (s.openSession c m).mode = m := rfl
@[simp] theorem State.openSession_phase (s : State) (c : Codec) (m : Mode) : (s.openSession c m).phase = .idle := rfl
@[simp] theorem State.openSession_err (s : State) (c : Codec) (m : Mode) : (s.openSession c m).err = .noError := rfl
@[simp] theorem State.openSession_cmderr (s : State) (c : Codec) (m : Mode) : (s.openSession c m).cmderr = false := rfl
@[simp] theorem State.openSession_result (s : State) (c : Codec) (m : Mode) : (s.openSession c m).result = 0#64 := rfl
@[simp] theorem State.openSession_origSize (s : State) (c : Codec) (m : Mode) : (s.openSession c m).origSize = 0#64 := rfl
@[simp] theorem State.openSession_compSize (s : State) (c : Codec) (m : Mode) : (s.openSession c m).compSize = 0#64 := rfl
@[simp] theorem State.openSession_srcLen (s : State) (c : Codec) (m : Mode) : (s.openSession c m).srcLen = s.srcLen := rfl
@[simp] theorem State.openSession_srcPos (s : State) (c : Codec) (m : Mode) : (s.openSession c m).srcPos = 0#64 := rfl
@[simp] theorem State.openSession_dstLen (s : State) (c : Codec) (m : Mode) : (s.openSession c m).dstLen = 0#64 := rfl
@[simp] theorem State.openSession_wacc (s : State) (c : Codec) (m : Mode) : (s.openSession c m).wacc = 0#8 := rfl
@[simp] theorem State.openSession_wcnt (s : State) (c : Codec) (m : Mode) : (s.openSession c m).wcnt = 0#4 := rfl
@[simp] theorem State.openSession_rbyte (s : State) (c : Codec) (m : Mode) : (s.openSession c m).rbyte = 0#8 := rfl
@[simp] theorem State.openSession_rcnt (s : State) (c : Codec) (m : Mode) : (s.openSession c m).rcnt = 0#4 := rfl
@[simp] theorem State.openSession_huf (s : State) (c : Codec) (m : Mode) : (s.openSession c m).huf = s.huf := rfl
@[simp] theorem State.openSession_art (s : State) (c : Codec) (m : Mode) : (s.openSession c m).art = s.art := rfl
@[simp] theorem State.openSession_lzw (s : State) (c : Codec) (m : Mode) : (s.openSession c m).lzw = s.lzw := rfl
@[simp] theorem State.openSession_src (s : State) (c : Codec) (m : Mode) : (s.openSession c m).src = s.src := rfl
@[simp] theorem State.openSession_dst (s : State) (c : Codec) (m : Mode) : (s.openSession c m).dst = s.dst := rfl
@[simp] theorem State.openSession_cfg (s : State) (c : Codec) (m : Mode) : (s.openSession c m).cfg = s.cfg := rfl
@[simp] theorem State.openSession_port (s : State) (c : Codec) (m : Mode) : (s.openSession c m).port = s.port := rfl

end Sys2Proof.Machine
end

