-- ==== Sys2Proof/Laws/Act.lean ====
section
/-! SUPPORT. How actions compose, what each access to SRC and DST can do, and how the acceptance
procedure answers: the lemmas later proofs cite instead of unfolding. -/

namespace Sys2Proof.Machine

/-! ## Composition -/

theorem Act.bind_apply {α β : Type} (m : Act α) (f : α → Act β) (s : State) :
    (m >>= f) s = match m s with
      | .ok a t => f a t
      | .error e t => .error e t := by
  show EStateM.bind m f s = _
  unfold EStateM.bind
  cases m s <;> rfl

@[simp] theorem Act.pure_apply {α : Type} (a : α) (s : State) :
    (pure a : Act α) s = .ok a s := rfl

@[simp] theorem Act.state_apply (s : State) : Act.state s = .ok s s := rfl

@[simp] theorem Act.write_apply (f : State → State) (s : State) : Act.write f s = .ok () (f s) := rfl

@[simp] theorem Act.raise_apply {α : Type} (k : ErrKind) (s : State) :
    (Act.raise k : Act α) s = .error (.raise k) s := rfl

@[simp] theorem Act.unspec_apply {α : Type} (r : Refusal) (s : State) :
    (Act.unspec r : Act α) s = .error (.unspec r) s := rfl

@[simp] theorem Act.broken_apply {α : Type} (f : Fault) (s : State) :
    (Act.broken f : Act α) s = .error (.broken f) s := rfl

/-- An action that went on: the first did, and then the second did. -/
theorem Act.bind_ok {α β : Type} {m : Act α} {f : α → Act β} {s t : State} {b : β}
    (h : (m >>= f) s = .ok b t) : ∃ a u, m s = .ok a u ∧ f a u = .ok b t := by
  rw [Act.bind_apply] at h
  cases hm : m s with
  | ok a u => exact ⟨a, u, rfl, by simpa [hm] using h⟩
  | error e u => simp [hm] at h

/-- An action that stopped: the first did, or the second after the first went on. -/
theorem Act.bind_error {α β : Type} {m : Act α} {f : α → Act β} {s t : State} {e : Stop}
    (h : (m >>= f) s = .error e t) :
    m s = .error e t ∨ ∃ a u, m s = .ok a u ∧ f a u = .error e t := by
  rw [Act.bind_apply] at h
  cases hm : m s with
  | ok a u => exact .inr ⟨a, u, rfl, by simpa [hm] using h⟩
  | error e u => left; simpa [hm] using h

/-- The first action went on: the rest runs from where it ended. -/
theorem Act.bind_of_ok {α β : Type} {m : Act α} {f : α → Act β} {s t : State} {a : α}
    (h : m s = .ok a t) : (m >>= f) s = f a t := by
  rw [Act.bind_apply, h]

/-- The first action stopped: so does the whole. -/
theorem Act.bind_of_error {α β : Type} {m : Act α} {f : α → Act β} {s t : State} {e : Stop}
    (h : m s = .error e t) : (m >>= f) s = .error e t := by
  rw [Act.bind_apply, h]

/-! ## What an action keeps -/

/-- Whether the action goes on or stops, the state it leaves is related to the one it began with. -/
def Act.Keeps {α : Type} (R : State → State → Prop) (m : Act α) : Prop :=
  ∀ s, match m s with
    | .ok _ t => R s t
    | .error _ t => R s t

section keeps
variable {α β : Type} {R : State → State → Prop}

theorem Act.Keeps.ok {m : Act α} (h : Act.Keeps R m) {s t : State} {a : α} (e : m s = .ok a t) :
    R s t := by
  have := h s
  simpa [e] using this

theorem Act.Keeps.error {m : Act α} (h : Act.Keeps R m) {s t : State} {e : Stop}
    (he : m s = .error e t) : R s t := by
  have := h s
  simpa [he] using this

theorem Act.Keeps.pure (hr : ∀ s, R s s) (a : α) : Act.Keeps R (pure a) := hr

theorem Act.Keeps.state (hr : ∀ s, R s s) : Act.Keeps R Act.state := hr

theorem Act.Keeps.raise (hr : ∀ s, R s s) (k : ErrKind) : Act.Keeps (α := α) R (Act.raise k) := hr

theorem Act.Keeps.unspec (hr : ∀ s, R s s) (r : Refusal) : Act.Keeps (α := α) R (Act.unspec r) := hr

theorem Act.Keeps.broken (hr : ∀ s, R s s) (f : Fault) : Act.Keeps (α := α) R (Act.broken f) := hr

theorem Act.Keeps.write {f : State → State} (h : ∀ s, R s (f s)) : Act.Keeps R (Act.write f) := h

theorem Act.Keeps.bind (ht : ∀ s t u, R s t → R t u → R s u) {m : Act α} {f : α → Act β}
    (hm : Act.Keeps R m) (hf : ∀ a, Act.Keeps R (f a)) : Act.Keeps R (m >>= f) := by
  intro s
  cases e : (m >>= f) s with
  | ok b t =>
    obtain ⟨a, u, h1, h2⟩ := Act.bind_ok e
    exact ht _ _ _ (hm.ok h1) ((hf a).ok h2)
  | error x t =>
    rcases Act.bind_error e with h | ⟨a, u, h1, h2⟩
    · exact hm.error h
    · exact ht _ _ _ (hm.ok h1) ((hf a).error h2)

theorem Act.Keeps.times (hr : ∀ s, R s s) (ht : ∀ s t u, R s t → R t u → R s u) {m : Act Unit}
    (hm : Act.Keeps R m) (n : Nat) : Act.Keeps R (Act.times m n) := by
  induction n with
  | zero => exact hr
  | succ n ih => exact Act.Keeps.bind ht hm fun _ => ih

theorem Act.Keeps.while (hr : ∀ s, R s s) (ht : ∀ s t u, R s t → R t u → R s u) {m : Act Unit}
    (hm : Act.Keeps R m) (go : State → Bool) (n : Nat) : Act.Keeps R (Act.while go m n) := by
  induction n with
  | zero =>
    refine Act.Keeps.bind ht (Act.Keeps.state hr) fun s => ?_
    by_cases h : go s
    · simpa only [h, if_true] using Act.Keeps.unspec (α := Unit) hr _
    · simpa only [h, Bool.false_eq_true, if_false] using Act.Keeps.pure (α := Unit) hr _
  | succ n ih =>
    refine Act.Keeps.bind ht (Act.Keeps.state hr) fun s => ?_
    by_cases h : go s
    · simpa only [h, if_true] using Act.Keeps.bind ht hm fun _ => ih
    · simpa only [h, Bool.false_eq_true, if_false] using Act.Keeps.pure (α := Unit) hr _

end keeps

/-! ## The accesses -/

/-- Everything `srcNext` can do (R10): short input, a byte never written, or the value. -/
theorem srcNext_apply (n : Nat) (s : State) :
    srcNext n s =
      if s.srcLen.toNat < s.srcPos.toNat + n then .error (.raise .ioFailure) s
      else match memRead s.src s.srcPos.toNat n with
        | none => .error (.broken .srcUnwritten) s
        | some v => .ok v { s with srcPos := s.srcPos + BitVec.ofNat 64 n } := by
  unfold srcNext
  rw [Act.bind_of_ok (Act.state_apply s)]
  split
  · rfl
  · cases memRead s.src s.srcPos.toNat n <;> rfl

/-- `srcNext` with its bytes there. -/
theorem srcNext_ok {n v : Nat} {s : State} (h : s.srcPos.toNat + n ≤ s.srcLen.toNat)
    (hv : memRead s.src s.srcPos.toNat n = some v) :
    srcNext n s = .ok v { s with srcPos := s.srcPos + BitVec.ofNat 64 n } := by
  rw [srcNext_apply, if_neg (by omega), hv]

/-- Everything `srcByte` can do. -/
theorem srcByte_apply (s : State) :
    srcByte s =
      if s.srcLen.toNat < s.srcPos.toNat + 1 then .error (.raise .ioFailure) s
      else match Memory.read s.src s.srcPos.toNat with
        | none => .error (.broken .srcUnwritten) s
        | some b => .ok b { s with srcPos := s.srcPos + 1#64 } := by
  unfold srcByte
  rw [Act.bind_apply, srcNext_apply, memRead_one]
  by_cases h : s.srcLen.toNat < s.srcPos.toNat + 1
  · simp [h]
  · cases hr : Memory.read s.src s.srcPos.toNat <;> simp [h]

/-- `srcByte` with its byte there. -/
theorem srcByte_ok {s : State} {b : Byte} (h : s.srcPos.toNat < s.srcLen.toNat)
    (hb : Memory.read s.src s.srcPos.toNat = some b) :
    srcByte s = .ok b { s with srcPos := s.srcPos + 1#64 } := by
  rw [srcByte_apply, if_neg (by omega), hb]

/-- Everything `dstPut` can do (R10): DST full, DST_LEN out of u64, or the bytes appended. -/
theorem dstPut_apply (n v : Nat) (s : State) :
    dstPut n v s =
      if s.cfg.dstFits s.dstLen.toNat n then
        if s.dstLen.toNat + n < 2 ^ 64 then
          .ok () { s with dst := memWrite s.dst s.dstLen.toNat n v, dstLen := s.dstLen + BitVec.ofNat 64 n }
        else .error (.unspec .dstLenOverflow) s
      else .error (.raise .ioFailure) s := by
  unfold dstPut
  rw [Act.bind_of_ok (Act.state_apply s)]
  split
  · split <;> rfl
  · rfl

/-- `dstPut` with room for its bytes. -/
theorem dstPut_ok {n v : Nat} {s : State} (h : s.cfg.dstFits s.dstLen.toNat n)
    (h64 : s.dstLen.toNat + n < 2 ^ 64) :
    dstPut n v s
      = .ok () { s with dst := memWrite s.dst s.dstLen.toNat n v, dstLen := s.dstLen + BitVec.ofNat 64 n } := by
  rw [dstPut_apply, if_pos h, if_pos h64]

/-! ## Acceptance -/

/-- The command's pseudocode runs when codec, phase, cursor and direction are as its guard asks. -/
theorem accept_run {g : Guard} {m : Act Unit} {s : State} (h4 : codecOk g s) (h5 : phaseOk g s)
    (h6 : dirOk g s) : accept g m s = runBody m s := by
  simp [accept, h4, h5, h6]

/-- Everything the acceptance procedure can do (R316 steps 4 to 7). -/
theorem accept_cases (g : Guard) (m : Act Unit) (s : State) :
    (accept g m s = .next s.refuse ∧ (codecOk g s && phaseOk g s) = false)
    ∨ (accept g m s = .next s.modeMismatch ∧ (codecOk g s && phaseOk g s) = true ∧ dirOk g s = false)
    ∨ (accept g m s = runBody m s ∧ (codecOk g s && phaseOk g s) = true ∧ dirOk g s = true) := by
  unfold accept
  cases codecOk g s <;> cases phaseOk g s <;> cases dirOk g s <;> simp

/-- Everything a command's pseudocode that answers a next state can have done: it went to its end, or
it raised an error kind and `fail` ran (R316 step 7, R317). -/
theorem runBody_next {m : Act Unit} {s t : State} (h : runBody m s = .next t) :
    m s = .ok () t ∨ ∃ k u, m s = .error (.raise k) u ∧ t = u.fail k := by
  unfold runBody at h
  split at h
  · rename_i u heq
    injection h with h
    subst h
    exact .inl heq
  · rename_i k u heq
    injection h with h
    exact .inr ⟨k, u, heq, h.symm⟩
  · cases h
  · cases h

theorem runBody_of_ok {m : Act Unit} {s t : State} (h : m s = .ok () t) : runBody m s = .next t := by
  simp [runBody, h]

theorem runBody_of_raise {m : Act Unit} {s t : State} {k : ErrKind}
    (h : m s = .error (.raise k) t) : runBody m s = .next (t.fail k) := by
  simp [runBody, h]

/-- What a pseudocode keeps, a command that runs it keeps, `fail` included. -/
theorem accept_keeps {R : State → State → Prop} (hr : ∀ s, R s s.refuse)
    (hm : ∀ s, R s s.modeMismatch) (hf : ∀ s u k, R s u → R s (u.fail k)) {g : Guard} {m : Act Unit}
    (h : Act.Keeps R m) {s t : State} (ht : accept g m s = .next t) : R s t := by
  rcases accept_cases g m s with ⟨e, -⟩ | ⟨e, -, -⟩ | ⟨e, -, -⟩
  · rw [e] at ht; injection ht with ht; subst ht; exact hr s
  · rw [e] at ht; injection ht with ht; subst ht; exact hm s
  · rw [e] at ht
    rcases runBody_next ht with h1 | ⟨k, u, h1, rfl⟩
    · exact h.ok h1
    · exact hf _ _ _ (h.error h1)

end Sys2Proof.Machine
end

