-- ==== Sys2Proof/Laws/Decode.lean ====
section
/-! SUPPORT. The fields of a packed command word: each is the value it was packed from (R101). -/

namespace Sys2Proof

/-- Which field each bit of a packed word belongs to (R101). -/
theorem getLsbD_packFields (opc a b z : BitVec 8) (imm : BitVec 32) (i : Nat) :
    (packFields opc a b z imm).getLsbD i =
      if i < 8 then opc.getLsbD i
      else if i < 16 then a.getLsbD (i - 8)
      else if i < 24 then b.getLsbD (i - 16)
      else if i < 32 then z.getLsbD (i - 24)
      else imm.getLsbD (i - 32) := by
  show BitVec.getLsbD (w := 32 + 8 + 8 + 8 + 8) (imm ++ z ++ b ++ a ++ opc) i = _
  simp only [BitVec.getLsbD_append, Nat.sub_sub]
  have h1 : i - 8 < 8 ↔ i < 16 := by omega
  have h2 : i - (8 + 8) < 8 ↔ i < 24 := by omega
  have h3 : i - (8 + (8 + 8)) < 8 ↔ i < 32 := by omega
  repeat' split
  all_goals first
    | rfl
    | (exfalso; omega)

theorem opcField_packFields (opc a b z : BitVec 8) (imm : BitVec 32) :
    opcField (packFields opc a b z imm) = opc := by
  apply BitVec.eq_of_getLsbD_eq
  intro i hi
  rw [opcField, BitVec.getLsbD_extractLsb', getLsbD_packFields]
  simp only [if_true, Nat.zero_add, hi, decide_true, Bool.true_and]

theorem aField_packFields (opc a b z : BitVec 8) (imm : BitVec 32) :
    aField (packFields opc a b z imm) = a := by
  apply BitVec.eq_of_getLsbD_eq
  intro i hi
  rw [aField, BitVec.getLsbD_extractLsb', getLsbD_packFields, if_neg (by omega), if_pos (by omega)]
  simp [hi]

theorem bField_packFields (opc a b z : BitVec 8) (imm : BitVec 32) :
    bField (packFields opc a b z imm) = b := by
  apply BitVec.eq_of_getLsbD_eq
  intro i hi
  rw [bField, BitVec.getLsbD_extractLsb', getLsbD_packFields, if_neg (by omega), if_neg (by omega),
    if_pos (by omega)]
  simp [hi]

theorem zField_packFields (opc a b z : BitVec 8) (imm : BitVec 32) :
    zField (packFields opc a b z imm) = z := by
  apply BitVec.eq_of_getLsbD_eq
  intro i hi
  rw [zField, BitVec.getLsbD_extractLsb', getLsbD_packFields, if_neg (by omega), if_neg (by omega),
    if_neg (by omega), if_pos (by omega)]
  simp [hi]

theorem immField_packFields (opc a b z : BitVec 8) (imm : BitVec 32) :
    immField (packFields opc a b z imm) = imm := by
  apply BitVec.eq_of_getLsbD_eq
  intro i hi
  rw [immField, BitVec.getLsbD_extractLsb', getLsbD_packFields, if_neg (by omega), if_neg (by omega),
    if_neg (by omega), if_neg (by omega)]
  simp [hi]

/-- The decoder sees exactly the fields a word was packed from. -/
theorem decode_packFields (opc a b z : BitVec 8) (imm : BitVec 32) :
    decode (packFields opc a b z imm) = decodeFields opc a b z imm := by
  simp only [decode, opcField_packFields, aField_packFields, bField_packFields, zField_packFields,
    immField_packFields]

/-- A word is the packing of its fields. -/
theorem packFields_fields (w : BitVec 64) :
    packFields (opcField w) (aField w) (bField w) (zField w) (immField w) = w := by
  apply BitVec.eq_of_getLsbD_eq
  intro i hi
  rw [getLsbD_packFields]
  simp only [opcField, aField, bField, zField, immField, BitVec.getLsbD_extractLsb']
  split
  · simp [*]
  · split
    · rw [show 8 + (i - 8) = i by omega]
      simp [show i - 8 < 8 by omega]
    · split
      · rw [show 16 + (i - 16) = i by omega]
        simp [show i - 16 < 8 by omega]
      · split
        · rw [show 24 + (i - 24) = i by omega]
          simp [show i - 24 < 8 by omega]
        · rw [show 32 + (i - 32) = i by omega]
          simp [show i - 32 < 32 by omega]

end Sys2Proof
end

