-- ==== Sys2Proof/Laws/Float.lean ====
section
/-! SUPPORT. Binary64 rounding: its results are binary64 numbers, it is monotone, and it is exact on
binary64 numbers (spec/00_scope.md rule R8). -/

namespace Sys2Proof

/-- Rounded to units of `2^e`, a quotient is within its floor and its floor plus one. -/
theorem F64.roundAt_bounds (num den e : Nat) :
    num / (den * 2 ^ e) ≤ F64.roundAt num den e ∧ F64.roundAt num den e ≤ num / (den * 2 ^ e) + 1 := by
  unfold F64.roundAt
  dsimp only
  split <;> omega

/-- A quotient below 2^53 units of its own last place. -/
theorem F64.quot_lt (q : Nat) : q / 2 ^ F64.excess q < 2 ^ 53 := by
  rw [Nat.div_lt_iff_lt_mul (by positivity), ← Nat.pow_add]
  refine Nat.lt_of_lt_of_le Nat.lt_log2_self (Nat.pow_le_pow_right (by omega) ?_)
  unfold F64.excess
  omega

/-- At most 53 significant bits, times a power of two: a binary64 number. -/
theorem F64.valid_of_scaled {m e : Nat} (hm : m ≤ 2 ^ 53) : F64.Valid ⟨m * 2 ^ e⟩ := by
  unfold F64.Valid
  dsimp only
  rcases Nat.lt_or_eq_of_le hm with h | rfl
  · have hle : F64.excess (m * 2 ^ e) ≤ e := by
      unfold F64.excess
      rcases Nat.eq_zero_or_pos m with rfl | hp
      · simp
      · have : m * 2 ^ e < 2 ^ (53 + e) := by
          rw [Nat.pow_add]
          exact Nat.mul_lt_mul_of_pos_right h (by positivity)
        have hne : m * 2 ^ e ≠ 0 := by positivity
        have := (Nat.log2_lt hne).2 this
        omega
    exact Nat.mod_eq_zero_of_dvd (Dvd.dvd.mul_left (Nat.pow_dvd_pow 2 hle) m)
  · rw [← Nat.pow_add]
    unfold F64.excess
    rw [Nat.log2_two_pow]
    exact Nat.mod_eq_zero_of_dvd (Nat.pow_dvd_pow 2 (by omega))

/-- Every result of a rounding is a binary64 number (R8). -/
theorem F64.round_valid (num den : Nat) : F64.Valid (F64.round num den) := by
  unfold F64.round
  dsimp only
  refine F64.valid_of_scaled ?_
  have h := (F64.roundAt_bounds num den (F64.excess (num / den))).2
  have := F64.quot_lt (num / den)
  rw [Nat.div_div_eq_div_mul] at this
  omega

/-- Rounding leaves a binary64 number as it is (R8). -/
theorem F64.round_of_valid {x : F64} (h : x.Valid) : F64.round x.units 1 = x := by
  unfold F64.Valid at h
  have hd : 2 ^ F64.excess x.units ∣ x.units := Nat.dvd_of_mod_eq_zero h
  have hp : 0 < 2 ^ F64.excess x.units := by positivity
  unfold F64.round F64.roundAt
  simp only [Nat.div_one, Nat.one_mul, h, Nat.mul_zero]
  have h1 : ¬(2 ^ F64.excess x.units < 0) := by omega
  have h2 : (2 ^ F64.excess x.units == 0) = false := by simp
  simp only [h1, h2, Bool.false_and, Bool.or_false, decide_false, Bool.false_eq_true, if_false]
  rw [Nat.div_mul_cancel hd]

theorem F64.zero_valid : F64.Valid F64.zero := by decide
theorem F64.fadd_valid (a b : F64) : (F64.fadd a b).Valid := F64.round_valid ..
theorem F64.fsub_valid (a b : F64) : (F64.fsub a b).Valid := F64.round_valid ..
theorem F64.fmul_valid (a b : F64) : (F64.fmul a b).Valid := F64.round_valid ..
theorem F64.fdiv_valid (a b : F64) : (F64.fdiv a b).Valid := F64.round_valid ..

/-- One coarser than the other: a larger quotient is not rounded in a finer unit. -/
theorem F64.excess_mono {p q : Nat} (h : p ≤ q) : F64.excess p ≤ F64.excess q := by
  unfold F64.excess
  have : p.log2 ≤ q.log2 := by
    rcases Nat.eq_zero_or_pos p with rfl | hp
    · simp
    · exact (Nat.le_log2 (by omega)).2 (Nat.le_trans (Nat.log2_self_le (by omega)) h)
  omega

/-- In one unit, rounding is monotone. -/
theorem F64.roundAt_mono {a b den e : Nat} (h : a ≤ b) :
    F64.roundAt a den e ≤ F64.roundAt b den e := by
  rcases Nat.eq_zero_or_pos (den * 2 ^ e) with hd | hd
  · unfold F64.roundAt
    simp only [hd, Nat.div_zero, Nat.mod_zero]
    split
    · rename_i ha
      simp only [Bool.or_eq_true, decide_eq_true_eq, Bool.and_eq_true, beq_iff_eq] at ha
      have : 0 < 2 * b := by omega
      simp [this]
    · exact Nat.zero_le _
  · have hq : a / (den * 2 ^ e) ≤ b / (den * 2 ^ e) := Nat.div_le_div_right h
    rcases Nat.lt_or_eq_of_le hq with hlt | heq
    · have h1 := (F64.roundAt_bounds a den e).2
      have h2 := (F64.roundAt_bounds b den e).1
      omega
    · have ha := Nat.div_add_mod a (den * 2 ^ e)
      have hb := Nat.div_add_mod b (den * 2 ^ e)
      have hr : a % (den * 2 ^ e) ≤ b % (den * 2 ^ e) := by rw [heq] at ha; omega
      unfold F64.roundAt
      dsimp only
      rw [heq]
      split
      · rename_i hc
        have : (decide (den * 2 ^ e < 2 * (b % (den * 2 ^ e))) ||
            den * 2 ^ e == 2 * (b % (den * 2 ^ e)) && b / (den * 2 ^ e) % 2 == 1) = true := by
          simp only [Bool.or_eq_true, decide_eq_true_eq, Bool.and_eq_true, beq_iff_eq] at hc ⊢
          omega
        rw [if_pos this]
      · split <;> omega

/-- Rounding is monotone in the number (R8): a larger quotient never rounds to a smaller number. -/
theorem F64.round_mono {a b den : Nat} (h : a ≤ b) :
    (F64.round a den).units ≤ (F64.round b den).units := by
  have hq : a / den ≤ b / den := Nat.div_le_div_right h
  have he := F64.excess_mono hq
  unfold F64.round
  dsimp only
  rcases Nat.lt_or_eq_of_le he with hlt | heq
  · have h1 := (F64.roundAt_bounds a den (F64.excess (a / den))).2
    have h2 := F64.quot_lt (a / den)
    rw [Nat.div_div_eq_div_mul] at h2
    have h3 := (F64.roundAt_bounds b den (F64.excess (b / den))).1
    rw [← Nat.div_div_eq_div_mul] at h3
    have hpos : 0 < F64.excess (b / den) := by omega
    have h4 : 2 ^ 52 ≤ b / den / 2 ^ F64.excess (b / den) := by
      rw [Nat.le_div_iff_mul_le (by positivity), ← Nat.pow_add]
      have hne : b / den ≠ 0 := by
        intro h0; rw [h0] at hpos; simp [F64.excess] at hpos
      have h5 : 52 + F64.excess (b / den) = (b / den).log2 := by unfold F64.excess at hpos ⊢; omega
      rw [h5]
      exact Nat.log2_self_le hne
    calc F64.roundAt a den (F64.excess (a / den)) * 2 ^ F64.excess (a / den)
        ≤ 2 ^ 53 * 2 ^ F64.excess (a / den) := Nat.mul_le_mul_right _ (by omega)
      _ = 2 ^ 52 * 2 ^ (F64.excess (a / den) + 1) := by rw [Nat.pow_succ]; ring
      _ ≤ 2 ^ 52 * 2 ^ F64.excess (b / den) :=
          Nat.mul_le_mul_left _ (Nat.pow_le_pow_right (by omega) (by omega))
      _ ≤ F64.roundAt b den (F64.excess (b / den)) * 2 ^ F64.excess (b / den) :=
          Nat.mul_le_mul_right _ (by omega)
  · rw [heq]
    exact Nat.mul_le_mul_right _ (F64.roundAt_mono h)

/-- Adding a non-negative number to a binary64 number never goes below it (R221). -/
theorem F64.le_fadd {a : F64} (h : a.Valid) (b : F64) : a.units ≤ (F64.fadd a b).units := by
  have := F64.round_mono (den := 1) (Nat.le_add_right a.units b.units)
  rwa [F64.round_of_valid h] at this

end Sys2Proof
end

