-- ==== Sys2Proof/Laws/Packer.lean ====
section
/-! SUPPORT. What the accesses and the packer can do to the state: they touch the stream registers and
DST only, and DST only grows (spec/20_memory.md rule R72). -/

namespace Sys2Proof.Machine

/-- `t` differs from `s` in the stream registers and in DST alone, and DST has only grown: every byte
outside the block between the two DST_LENs reads as before. -/
structure Streams (s t : State) : Prop where
  rest : t = { s with
    srcPos := t.srcPos, dstLen := t.dstLen, wacc := t.wacc, wcnt := t.wcnt, rbyte := t.rbyte,
    rcnt := t.rcnt, dst := t.dst }
  grows : s.dstLen.toNat ≤ t.dstLen.toNat
  outside : ∀ a, a < s.dstLen.toNat ∨ t.dstLen.toNat ≤ a → Memory.read t.dst a = Memory.read s.dst a

theorem Streams.refl (s : State) : Streams s s := ⟨rfl, Nat.le_refl _, fun _ _ => rfl⟩

theorem Streams.trans (s t u : State) (h : Streams s t) (k : Streams t u) : Streams s u := by
  refine ⟨?_, Nat.le_trans h.grows k.grows, fun a ha => ?_⟩
  · rw [k.rest, h.rest]
  · rw [k.outside a (by have := h.grows; omega), h.outside a (by have := k.grows; omega)]

/-- A change of the source cursor and the packer alone. -/
theorem Streams.of_regs (s : State) (p : U64) (wa : Byte) (wc : BitVec 4) (rb : Byte) (rc : BitVec 4) :
    Streams s { s with srcPos := p, wacc := wa, wcnt := wc, rbyte := rb, rcnt := rc } :=
  ⟨rfl, Nat.le_refl _, fun _ _ => rfl⟩

theorem dstLen_add {x : U64} {n : Nat} (h : x.toNat + n < 2 ^ 64) :
    (x + BitVec.ofNat 64 n).toNat = x.toNat + n := by
  rw [BitVec.toNat_add, BitVec.toNat_ofNat]
  have : n % 2 ^ 64 = n := Nat.mod_eq_of_lt (by omega)
  rw [this, Nat.mod_eq_of_lt h]

/-- `Streams` in the form `Act.Keeps` takes it, for an action that reads the state first. -/
theorem Act.Keeps.get {α : Type} {R : State → State → Prop} {f : State → Act α}
    (h : ∀ s, match f s s with
      | .ok _ t => R s t
      | .error _ t => R s t) : Act.Keeps R (Act.state >>= f) := by
  intro s
  rw [Act.bind_of_ok (Act.state_apply s)]
  exact h s

theorem srcNext_streams (n : Nat) : Act.Keeps Streams (srcNext n) := by
  intro s
  rw [srcNext_apply]
  by_cases h : s.srcLen.toNat < s.srcPos.toNat + n
  · simpa only [h, if_true] using Streams.refl s
  · rw [if_neg h]
    cases memRead s.src s.srcPos.toNat n with
    | none => exact Streams.refl s
    | some v => exact ⟨rfl, Nat.le_refl _, fun _ _ => rfl⟩

theorem srcByte_streams : Act.Keeps Streams srcByte :=
  Act.Keeps.bind Streams.trans (srcNext_streams 1) fun _ => Act.Keeps.pure Streams.refl _

theorem dstPut_streams (n v : Nat) : Act.Keeps Streams (dstPut n v) := by
  intro s
  rw [dstPut_apply]
  by_cases h : s.cfg.dstFits s.dstLen.toNat n
  · rw [if_pos h]
    by_cases h64 : s.dstLen.toNat + n < 2 ^ 64
    · rw [if_pos h64]
      refine ⟨rfl, ?_, fun a ha => ?_⟩
      · simp only [dstLen_add h64]; omega
      · simp only [dstLen_add h64] at ha
        simp only [read_memWrite]
        rw [if_neg (by omega)]
    · rw [if_neg h64]; exact Streams.refl s
  · rw [if_neg h]; exact Streams.refl s

theorem clearWriter_streams (s : State) : Streams s s.clearWriter :=
  ⟨rfl, Nat.le_refl _, fun _ _ => rfl⟩

theorem bwsPutBit_streams (b : Bool) : Act.Keeps Streams (bwsPutBit b) := by
  refine Act.Keeps.bind Streams.trans (Act.Keeps.write fun s => ?_) fun _ => ?_
  · exact ⟨rfl, Nat.le_refl _, fun _ _ => rfl⟩
  · refine Act.Keeps.bind Streams.trans (Act.Keeps.state Streams.refl) fun s => ?_
    split
    · exact Act.Keeps.bind Streams.trans (dstPut_streams _ _) fun _ =>
        Act.Keeps.write clearWriter_streams
    · exact Act.Keeps.pure Streams.refl _

theorem bwsPutBits_streams (bs : List Bool) : Act.Keeps Streams (bwsPutBits bs) := by
  induction bs with
  | nil => exact Act.Keeps.pure Streams.refl _
  | cons b bs ih => exact Act.Keeps.bind Streams.trans (bwsPutBit_streams b) fun _ => ih

theorem bwsWrite_streams (code : U32) (w : Nat) : Act.Keeps Streams (bwsWrite code w) :=
  bwsPutBits_streams _

theorem bwsFinish_streams : Act.Keeps Streams bwsFinish := by
  refine Act.Keeps.bind Streams.trans (Act.Keeps.state Streams.refl) fun s => ?_
  split
  · exact Act.Keeps.pure Streams.refl _
  · exact Act.Keeps.bind Streams.trans (dstPut_streams _ _) fun _ =>
      Act.Keeps.write clearWriter_streams

theorem bwsFetch_streams : Act.Keeps Streams bwsFetch := by
  refine Act.Keeps.bind Streams.trans (Act.Keeps.state Streams.refl) fun s => ?_
  split
  · exact Act.Keeps.bind Streams.trans srcByte_streams fun _ =>
      Act.Keeps.write fun _ => ⟨rfl, Nat.le_refl _, fun _ _ => rfl⟩
  · exact Act.Keeps.pure Streams.refl _

theorem bwsGetBit_streams : Act.Keeps Streams bwsGetBit :=
  Act.Keeps.bind Streams.trans bwsFetch_streams fun _ =>
    Act.Keeps.bind Streams.trans (Act.Keeps.state Streams.refl) fun _ =>
      Act.Keeps.bind Streams.trans
        (Act.Keeps.write fun _ => ⟨rfl, Nat.le_refl _, fun _ _ => rfl⟩) fun _ =>
        Act.Keeps.pure Streams.refl _

theorem bwsGetBits_streams (n : Nat) : Act.Keeps Streams (bwsGetBits n) := by
  induction n with
  | zero => exact Act.Keeps.pure Streams.refl _
  | succ n ih =>
    exact Act.Keeps.bind Streams.trans bwsGetBit_streams fun _ =>
      Act.Keeps.bind Streams.trans ih fun _ => Act.Keeps.pure Streams.refl _

theorem bwsRead_streams (w : Nat) : Act.Keeps Streams (bwsRead w) :=
  Act.Keeps.bind Streams.trans (bwsGetBits_streams w) fun _ => Act.Keeps.pure Streams.refl _

/-! ## What one bit does -/

/-- Everything `bwsPutBit` can do (R140). -/
theorem bwsPutBit_apply (b : Bool) (s : State) :
    bwsPutBit b s =
      (let u : State :=
        { s with wacc := s.wacc ||| (bitByte b <<< s.wcnt.toNat), wcnt := s.wcnt + 1#4 }
      if u.wcnt = 8#4 then
        match dstPut 1 u.wacc.toNat u with
        | .ok _ t => .ok () t.clearWriter
        | .error e t => .error e t
      else .ok () u) := by
  unfold bwsPutBit
  rw [Act.bind_of_ok (Act.write_apply _ s), Act.bind_of_ok (Act.state_apply _)]
  dsimp only
  split
  · rw [Act.bind_apply]
    cases dstPut 1 _ _ <;> rfl
  · rfl

/-- Everything `bwsFinish` can do (R141). -/
theorem bwsFinish_apply (s : State) :
    bwsFinish s =
      if s.wcnt = 0#4 then .ok () s
      else match dstPut 1 s.wacc.toNat s with
        | .ok _ t => .ok () t.clearWriter
        | .error e t => .error e t := by
  unfold bwsFinish
  rw [Act.bind_of_ok (Act.state_apply _)]
  split
  · rfl
  · rw [Act.bind_apply]
    cases dstPut 1 s.wacc.toNat s <;> rfl

/-- A bit left in RBYTE: it is taken, no byte is fetched (R142). -/
theorem bwsGetBit_held {s : State} (h : s.rcnt ≠ 0#4) :
    bwsGetBit s
      = .ok (s.rbyte.getLsbD 0) { s with rbyte := s.rbyte >>> 1, rcnt := s.rcnt - 1#4 } := by
  unfold bwsGetBit bwsFetch
  rw [Act.bind_apply, Act.bind_of_ok (Act.state_apply _)]
  simp only [h, if_false, Act.pure_apply]
  rfl

/-- No bit left in RBYTE: a byte is fetched first (R142). -/
theorem bwsGetBit_fetch {s : State} (h : s.rcnt = 0#4) :
    bwsGetBit s = match srcByte s with
      | .ok b t => .ok (b.getLsbD 0) { t with rbyte := b >>> 1, rcnt := 7#4 }
      | .error e t => .error e t := by
  unfold bwsGetBit bwsFetch
  rw [Act.bind_apply, Act.bind_of_ok (Act.state_apply _)]
  simp only [h, if_true]
  rw [Act.bind_apply]
  have h8 : (8#4 - 1#4 : BitVec 4) = 7#4 := by decide
  cases srcByte s with
  | ok b t => simp only [Act.write_apply, Act.bind_of_ok (Act.state_apply _),
      Act.bind_of_ok (Act.write_apply _ _), Act.pure_apply, h8]
  | error e t => rfl

end Sys2Proof.Machine
end

