-- ==== Sys2Proof/Laws/PerInstr.lean ====
section
/-! SUPPORT. A law of every command as syntax: its word carries its opcode and zero in Z, and its form
says which operand fields its word may carry (R101, R103). -/

namespace Sys2Proof.Laws.OpcodeField

/-- The word of the command has the command's opcode in OPC, zero in Z, and zero in every operand field
the command does not use. -/
def Statement (i : Instr) : Prop :=
  opcField (encode i) = opcodeOf i ∧ zField (encode i) = 0#8
  ∧ (usesA i = false → aField (encode i) = 0#8)
  ∧ (usesB i = false → bField (encode i) = 0#8)
  ∧ (usesImm i = false → immField (encode i) = 0#32)

theorem nop : Statement .nop := by unfold Statement; decide

theorem sopen (a b : BitVec 8) : Statement (.sopen a b) := by
  refine ⟨opcField_packFields .., zField_packFields .., ?_, ?_, fun _ => immField_packFields ..⟩
  · intro h; cases h
  · intro h; cases h

theorem compress : Statement .compress := by unfold Statement; decide

theorem decompress : Statement .decompress := by unfold Statement; decide

theorem bwsReset : Statement .bwsReset := by unfold Statement; decide

theorem bwsWrite (imm : BitVec 32) (a : BitVec 8) : Statement (.bwsWrite imm a) := by
  refine ⟨opcField_packFields .., zField_packFields .., ?_, fun _ => bField_packFields .., ?_⟩
  · intro h; cases h
  · intro h; cases h

theorem bwsFinish : Statement .bwsFinish := by unfold Statement; decide

theorem bwsRead (a : BitVec 8) : Statement (.bwsRead a) := by
  refine ⟨opcField_packFields .., zField_packFields .., ?_, fun _ => bField_packFields ..,
    fun _ => immField_packFields ..⟩
  intro h; cases h

theorem hufCount : Statement .hufCount := by unfold Statement; decide

theorem hufBuild : Statement .hufBuild := by unfold Statement; decide

theorem hufCodes : Statement .hufCodes := by unfold Statement; decide

theorem hufWrhdr : Statement .hufWrhdr := by unfold Statement; decide

theorem hufEncode : Statement .hufEncode := by unfold Statement; decide

theorem hufRdhdr : Statement .hufRdhdr := by unfold Statement; decide

theorem hufDecode : Statement .hufDecode := by unfold Statement; decide

theorem artInit : Statement .artInit := by unfold Statement; decide

theorem artWrhdr : Statement .artWrhdr := by unfold Statement; decide

theorem artEncsym : Statement .artEncsym := by unfold Statement; decide

theorem artFlush : Statement .artFlush := by unfold Statement; decide

theorem artRdhdr : Statement .artRdhdr := by unfold Statement; decide

theorem artDecstep : Statement .artDecstep := by unfold Statement; decide

theorem lzwInit : Statement .lzwInit := by unfold Statement; decide

theorem lzwEncbyte : Statement .lzwEncbyte := by unfold Statement; decide

theorem lzwEnceof : Statement .lzwEnceof := by unfold Statement; decide

theorem lzwWidth : Statement .lzwWidth := by unfold Statement; decide

theorem lzwWrhdr : Statement .lzwWrhdr := by unfold Statement; decide

theorem lzwEmit : Statement .lzwEmit := by unfold Statement; decide

theorem lzwRdhdr : Statement .lzwRdhdr := by unfold Statement; decide

theorem lzwDeccode : Statement .lzwDeccode := by unfold Statement; decide

end Sys2Proof.Laws.OpcodeField
end

