-- ==== Sys2Proof/Laws/Streams.lean ====
section
/-! SUPPORT. The packer as a bit stream: what a run of bits written or read does to the state, in the
terms of `BitsAppended`, `BitsFinished` and `BitsConsumed` (R75, R115, R140 to R142). -/

namespace Sys2Proof.Machine

/-! ## Room in DST -/

theorem Config.dstFits_mono {c : Config} {len m n : Nat} (h : c.dstFits len n = true) (hm : m ≤ n) :
    c.dstFits len m = true := by
  cases hc : c.dstCap with
  | none => simp [Config.dstFits, hc]
  | some cap => simp [Config.dstFits, hc] at *; omega

theorem Config.dstFits_add {c : Config} {len m n : Nat} (h : c.dstFits len (m + n) = true) :
    c.dstFits (len + m) n = true := by
  cases hc : c.dstCap with
  | none => simp [Config.dstFits, hc]
  | some cap => simp [Config.dstFits, hc] at *; omega

/-- Room for more bytes is room for fewer. -/
theorem State.room_mono {s : State} {m n : Nat} (h : s.room n) (hm : m ≤ n) : s.room m :=
  ⟨Config.dstFits_mono h.1 hm, by have := h.2; omega⟩

/-- Room left after the first bytes were appended. -/
theorem State.room_after {s t : State} {m n : Nat} (h : s.room (m + n)) (hc : t.cfg = s.cfg)
    (hl : t.dstLen.toNat = s.dstLen.toNat + m) : t.room n := by
  refine ⟨?_, ?_⟩
  · rw [hc, hl]; exact Config.dstFits_add h.1
  · rw [hl]; have := h.2; omega

/-! ## Writing bits -/

theorem State.pendingBits_length (s : State) : s.pendingBits.length = s.wcnt.toNat := by
  simp [State.pendingBits]

/-- After bits were appended, what is pending is what did not fill a byte. -/
theorem BitsAppended.pendingBits_eq {s t : State} {x : List Bool} (h : BitsAppended s t x) :
    t.pendingBits = (s.pendingBits ++ x).drop (8 * ((s.wcnt.toNat + x.length) / 8)) := by
  apply List.ext_getElem
  · simp only [State.pendingBits_length, h.count, List.length_drop, List.length_append]
    omega
  · intro j h1 h2
    rw [State.pendingBits_length] at h1
    simp only [State.pendingBits, List.getElem_map, List.getElem_range, List.getElem_drop, h.pending]
    rw [List.getD_eq_getElem]

/-- Two runs of bits one after the other. -/
theorem BitsAppended.trans {s u t : State} {x y : List Bool} (h : BitsAppended s u x)
    (k : BitsAppended u t y) : BitsAppended s t (x ++ y) := by
  have hp := h.pendingBits_eq
  have hlen : (s.pendingBits ++ x).length = s.wcnt.toNat + x.length := by
    simp [State.pendingBits_length]
  generalize hA : s.pendingBits ++ x = A at hp hlen
  generalize hN : s.wcnt.toNat + x.length = N at hp hlen
  have hc : u.wcnt.toNat = N % 8 := by rw [h.count, hN]
  have hl : u.dstLen.toNat = s.dstLen.toNat + N / 8 := by rw [h.len, hN]
  have hsum : s.wcnt.toNat + (x ++ y).length = N + y.length := by
    rw [List.length_append]; omega
  have hdiv : (N + y.length) / 8 = N / 8 + (u.wcnt.toNat + y.length) / 8 := by rw [hc]; omega
  have happ : s.pendingBits ++ (x ++ y) = A ++ y := by rw [← List.append_assoc, hA]
  have hdrop : ∀ m, (A ++ y)[8 * (N / 8) + m]? = (u.pendingBits ++ y)[m]? := by
    intro m
    rw [hp, ← List.drop_append_of_le_length (by rw [hlen]; omega), List.getElem?_drop]
  refine ⟨?_, ?_, ?_, ?_, ?_⟩
  · rw [k.len, hl, hsum, hdiv]; omega
  · rw [k.count, hsum, hc]; omega
  · rw [hsum, happ]
    intro n hn
    by_cases hn1 : n < 8 * (N / 8)
    · have hb := h.bytes n (by rw [hN]; exact hn1)
      have hlt : s.dstLen.toNat + n / 8 < u.dstLen.toNat := by rw [hl]; omega
      rw [k.outside _ (.inl hlt), hb, hA, List.getElem?_append_left (by rw [hlen]; omega)]
    · obtain ⟨m, rfl⟩ : ∃ m, n = 8 * (N / 8) + m := ⟨n - 8 * (N / 8), by omega⟩
      have e1 : s.dstLen.toNat + (8 * (N / 8) + m) / 8 = u.dstLen.toNat + m / 8 := by rw [hl]; omega
      have e2 : (8 * (N / 8) + m) % 8 = m % 8 := by omega
      rw [e1, e2, hdrop, k.bytes m (by omega)]
  · intro j
    rw [k.pending j, hsum, happ, hdiv, List.getD_eq_getElem?_getD, List.getD_eq_getElem?_getD,
      ← hdrop, Nat.mul_add, Nat.add_assoc]
  · intro a ha
    have h1 := h.len
    have h2 := k.len
    rw [k.outside a (by omega), h.outside a (by omega)]

/-- No bits. -/
theorem BitsAppended.nil {s : State} (h : s.writerOk) : BitsAppended s s [] := by
  obtain ⟨hc, ha⟩ := h
  have h0 : (s.wcnt.toNat + ([] : List Bool).length) / 8 = 0 := by simp; omega
  refine ⟨by omega, by simp; omega, ?_, ?_, fun _ _ => rfl⟩
  · intro n hn; omega
  · intro j
    rw [h0, List.append_nil, List.getD_eq_getElem?_getD]
    simp only [Nat.mul_zero, Nat.zero_add]
    by_cases hj : j < s.wcnt.toNat
    · rw [List.getElem?_eq_getElem (by rw [State.pendingBits_length]; exact hj)]
      simp [State.pendingBits]
    · rw [List.getElem?_eq_none (by rw [State.pendingBits_length]; omega)]
      have : s.wacc.toNat < 2 ^ j := Nat.lt_of_lt_of_le ha (Nat.pow_le_pow_right (by omega) (by omega))
      simp [BitVec.getLsbD, Nat.testBit_lt_two_pow this]

theorem getLsbD_bitByte_shift (b : Bool) (n j : Nat) (hn : n < 8) :
    (bitByte b <<< n).getLsbD j = (decide (j = n) && b) := by
  by_cases h : j = n
  · subst h
    cases b <;> simp [bitByte, hn]
  · simp only [h, decide_false, Bool.false_and]
    by_cases hj : j < n
    · simp [hj]
    · have : j - n ≠ 0 := by omega
      cases b <;> simp [bitByte, this]

/-- One bit with room for the byte it may complete (R140). -/
theorem bwsPutBit_ok {s : State} (b : Bool) (h : s.writerOk) (hr : s.room ((s.wcnt.toNat + 1) / 8)) :
    ∃ t, bwsPutBit b s = .ok () t ∧ BitsAppended s t [b] ∧ t = written s t ∧ t.writerOk := by
  obtain ⟨hc, ha⟩ := h
  have hcnt : (s.wcnt + 1#4).toNat = s.wcnt.toNat + 1 := by
    rw [BitVec.toNat_add]; simp; omega
  have hbit : ∀ j, (s.wacc ||| (bitByte b <<< s.wcnt.toNat)).getLsbD j
      = (s.pendingBits ++ [b]).getD j false := by
    intro j
    rw [BitVec.getLsbD_or, getLsbD_bitByte_shift _ _ _ hc, List.getD_eq_getElem?_getD]
    by_cases hj : j < s.wcnt.toNat
    · rw [List.getElem?_append_left (by rw [State.pendingBits_length]; exact hj),
        List.getElem?_eq_getElem (by rw [State.pendingBits_length]; exact hj)]
      simp [State.pendingBits, Nat.ne_of_lt hj]
    · have hz : s.wacc.getLsbD j = false := by
        have : s.wacc.toNat < 2 ^ j :=
          Nat.lt_of_lt_of_le ha (Nat.pow_le_pow_right (by omega) (by omega))
        simp [BitVec.getLsbD, Nat.testBit_lt_two_pow this]
      rw [List.getElem?_append_right (by rw [State.pendingBits_length]; omega), hz,
        State.pendingBits_length]
      by_cases he : j = s.wcnt.toNat
      · simp [he]
      · have : j - s.wcnt.toNat ≠ 0 := by omega
        obtain ⟨m, hm⟩ := Nat.exists_eq_succ_of_ne_zero this
        simp [he, hm]
  have hlen1 : ([b] : List Bool).length = 1 := rfl
  rw [bwsPutBit_apply]
  dsimp only
  by_cases h7 : s.wcnt.toNat = 7
  · have h8 : s.wcnt + 1#4 = 8#4 := BitVec.eq_of_toNat_eq (by rw [hcnt, h7]; rfl)
    have hq : (s.wcnt.toNat + 1) / 8 = 1 := by omega
    rw [hq] at hr
    rw [if_pos h8, dstPut_ok (by exact hr.1) (by exact hr.2)]
    have hd : (s.dstLen + 1#64).toNat = s.dstLen.toNat + 1 := dstLen_add hr.2
    refine ⟨_, rfl, ⟨?_, ?_, ?_, ?_, ?_⟩, rfl, ?_⟩
    · simp only [State.clearWriter_dstLen, hlen1, hq]; exact hd
    · simp only [State.clearWriter_wcnt, hlen1]; rw [h7]; rfl
    · intro n hn
      rw [hlen1, hq] at hn
      have h0 : n / 8 = 0 := by omega
      simp only [State.clearWriter_dst, h0, Nat.add_zero, read_memWrite]
      rw [if_pos ⟨Nat.le_refl _, by omega⟩, Nat.sub_self]
      have hb := hbit (n % 8)
      have hn8 : n % 8 = n := by omega
      rw [hn8] at hb ⊢
      have hin : n < (s.pendingBits ++ [b]).length := by
        rw [List.length_append, State.pendingBits_length, hlen1]; omega
      rw [List.getElem?_eq_getElem hin]
      rw [List.getD_eq_getElem _ _ hin] at hb
      simp only [beBytes, Nat.mul_zero, Nat.shiftRight_zero, BitVec.ofNat_toNat, BitVec.setWidth_eq,
        List.getElem?_cons_zero, Option.map_some, hb]
    · intro j
      simp only [State.clearWriter_wacc, hlen1, hq]
      rw [List.getD_eq_getElem?_getD, List.getElem?_eq_none]
      · simp
      · rw [List.length_append, State.pendingBits_length, hlen1]; omega
    · intro a haa
      simp only [State.clearWriter_dstLen, State.clearWriter_dst] at haa ⊢
      have haa' : a < s.dstLen.toNat ∨ s.dstLen.toNat + 1 ≤ a := by
        rw [← hd]; exact haa
      rw [read_memWrite, if_neg (by omega)]
    · exact ⟨by simp, by simp⟩
  · have h8 : s.wcnt + 1#4 ≠ 8#4 := by
      intro e
      have := congrArg BitVec.toNat e
      rw [hcnt] at this
      exact h7 (by simpa using this)
    have hq : (s.wcnt.toNat + 1) / 8 = 0 := by omega
    rw [if_neg h8]
    refine ⟨_, rfl, ⟨?_, ?_, ?_, ?_, fun _ _ => rfl⟩, rfl, ?_⟩
    · simp only [hlen1, hq, Nat.add_zero]
    · simp only [hlen1, hcnt]; omega
    · intro n hn; rw [hlen1, hq] at hn; omega
    · intro j
      rw [hlen1, hq, Nat.mul_zero, Nat.zero_add]
      exact hbit j
    · refine ⟨by simp only [hcnt]; omega, ?_⟩
      simp only [hcnt]
      apply Nat.lt_pow_two_of_testBit
      intro j hj
      have := hbit j
      rw [List.getD_eq_getElem?_getD, List.getElem?_eq_none] at this
      · simpa [BitVec.getLsbD] using this
      · rw [List.length_append, State.pendingBits_length, hlen1]; omega

theorem written_trans {s u t : State} (h : u = written s u) (k : t = written u t) : t = written s t := by
  rw [k, h]; rfl

/-- A run of bits with room for the bytes it completes (R115, R140). -/
theorem bwsPutBits_ok {bs : List Bool} {s : State} (h : s.writerOk)
    (hr : s.room ((s.wcnt.toNat + bs.length) / 8)) :
    ∃ t, bwsPutBits bs s = .ok () t ∧ BitsAppended s t bs ∧ t = written s t ∧ t.writerOk := by
  induction bs generalizing s with
  | nil => exact ⟨s, rfl, BitsAppended.nil h, rfl, h⟩
  | cons b bs ih =>
    simp only [List.length_cons] at hr
    obtain ⟨u, e1, a1, w1, k1⟩ := bwsPutBit_ok b h (State.room_mono hr (by omega))
    have hl := a1.len
    have hc := a1.count
    simp only [List.length_cons, List.length_nil] at hl hc
    have hr2 : u.room ((u.wcnt.toNat + bs.length) / 8) := by
      refine State.room_after (s := s) (m := (s.wcnt.toNat + 1) / 8) ?_ (by rw [w1]; rfl) hl
      refine State.room_mono hr ?_
      omega
    obtain ⟨t, e2, a2, w2, k2⟩ := ih k1 hr2
    refine ⟨t, ?_, ?_, written_trans w1 w2, k2⟩
    · show (bwsPutBit b >>= fun _ => bwsPutBits bs) s = _
      rw [Act.bind_of_ok e1, e2]
    · exact a1.trans a2

/-- Closing the stream (R141). -/
theorem bwsFinish_ok {s : State} (h : s.writerOk) (hr : s.room ((s.wcnt.toNat + 7) / 8)) :
    ∃ t, bwsFinish s = .ok () t ∧ BitsFinished s t [] ∧ t = written s t := by
  obtain ⟨hc, ha⟩ := h
  rw [bwsFinish_apply]
  have hz : ∀ j, s.wcnt.toNat ≤ j → s.wacc.getLsbD j = false := by
    intro j hj
    have : s.wacc.toNat < 2 ^ j := Nat.lt_of_lt_of_le ha (Nat.pow_le_pow_right (by omega) hj)
    simp [BitVec.getLsbD, Nat.testBit_lt_two_pow this]
  by_cases h0 : s.wcnt = 0#4
  · rw [if_pos h0]
    have hn0 : s.wcnt.toNat = 0 := by rw [h0]; rfl
    refine ⟨s, rfl, ⟨by simp [hn0], ⟨?_, h0⟩, ?_, fun _ _ => rfl⟩, rfl⟩
    · apply BitVec.eq_of_toNat_eq
      rw [hn0] at ha
      simp at ha ⊢; omega
    · intro n hn; simp [hn0] at hn
  · have hn0 : s.wcnt.toNat ≠ 0 := fun e => h0 (BitVec.eq_of_toNat_eq (by simpa using e))
    have hq : (s.wcnt.toNat + 7) / 8 = 1 := by omega
    rw [hq] at hr
    rw [if_neg h0, dstPut_ok hr.1 hr.2]
    have hd : (s.dstLen + 1#64).toNat = s.dstLen.toNat + 1 := dstLen_add hr.2
    refine ⟨_, rfl, ⟨?_, ⟨rfl, rfl⟩, ?_, ?_⟩, rfl⟩
    · simp only [State.clearWriter_dstLen, List.length_nil, Nat.add_zero, hq]; exact hd
    · intro n hn
      simp only [List.length_nil, Nat.add_zero, hq] at hn
      have e0 : n / 8 = 0 := by omega
      have e1 : n % 8 = n := by omega
      simp only [State.clearWriter_dst, e0, e1, Nat.add_zero, read_memWrite]
      rw [if_pos ⟨Nat.le_refl _, by omega⟩, Nat.sub_self, List.append_nil, List.getD_eq_getElem?_getD]
      simp only [beBytes, Nat.mul_zero, Nat.shiftRight_zero, BitVec.ofNat_toNat, BitVec.setWidth_eq,
        List.getElem?_cons_zero, Option.map_some, Option.some.injEq]
      by_cases hj : n < s.wcnt.toNat
      · rw [List.getElem?_eq_getElem (by rw [State.pendingBits_length]; exact hj)]
        simp [State.pendingBits]
      · rw [List.getElem?_eq_none (by rw [State.pendingBits_length]; omega), hz n (by omega)]
        rfl
    · intro a haa
      simp only [State.clearWriter_dstLen, State.clearWriter_dst] at haa ⊢
      have haa' : a < s.dstLen.toNat ∨ s.dstLen.toNat + 1 ≤ a := by rw [← hd]; exact haa
      rw [read_memWrite, if_neg (by omega)]

/-- Bits, then closing the stream: the bits padded with zeros. -/
theorem BitsAppended.finish {s u t : State} {x : List Bool} (h : BitsAppended s u x)
    (k : BitsFinished u t []) : BitsFinished s t x := by
  have hp := h.pendingBits_eq
  have hlen : (s.pendingBits ++ x).length = s.wcnt.toNat + x.length := by
    simp [State.pendingBits_length]
  generalize hA : s.pendingBits ++ x = A at hp hlen
  generalize hN : s.wcnt.toNat + x.length = N at hp hlen
  have hc : u.wcnt.toNat = N % 8 := by rw [h.count, hN]
  have hl : u.dstLen.toNat = s.dstLen.toNat + N / 8 := by rw [h.len, hN]
  have hkl := k.len
  simp only [List.length_nil, Nat.add_zero] at hkl
  refine ⟨?_, k.writer, ?_, ?_⟩
  · rw [hN, hkl, hl, hc]; omega
  · rw [hN, hA]
    intro n hn
    by_cases hn1 : n < 8 * (N / 8)
    · have hb := h.bytes n (by rw [hN]; exact hn1)
      have hlt : s.dstLen.toNat + n / 8 < u.dstLen.toNat := by rw [hl]; omega
      rw [k.outside _ (.inl hlt), hb, hA, List.getD_eq_getElem?_getD,
        List.getElem?_eq_getElem (by rw [hlen]; omega)]
      rfl
    · obtain ⟨m, rfl⟩ : ∃ m, n = 8 * (N / 8) + m := ⟨n - 8 * (N / 8), by omega⟩
      have e1 : s.dstLen.toNat + (8 * (N / 8) + m) / 8 = u.dstLen.toNat + m / 8 := by rw [hl]; omega
      have e2 : (8 * (N / 8) + m) % 8 = m % 8 := by omega
      rw [e1, e2, k.bytes m (by simp only [List.length_nil, Nat.add_zero]; rw [hc]; omega),
        List.append_nil, hp, List.getD_eq_getElem?_getD, List.getD_eq_getElem?_getD,
        List.getElem?_drop]
  · intro a haa
    have h1 := h.len
    rw [k.outside a (by omega), h.outside a (by omega)]

/-! ## Reading bits -/

/-- Nothing read. -/
theorem BitsConsumed.zero (s : State) : BitsConsumed s s 0 :=
  ⟨by omega, by omega, fun n => by rw [Nat.zero_add]⟩

/-- One read after another. -/
theorem BitsConsumed.trans {s u t : State} {v w : Nat} (h : BitsConsumed s u v)
    (k : BitsConsumed u t w) : BitsConsumed s t (v + w) := by
  have h1 := h.fetched
  have h2 := h.held
  have k1 := k.fetched
  have k2 := k.held
  refine ⟨by omega, by omega, fun n => ?_⟩
  rw [k.rest, h.rest, Nat.add_assoc]

/-- One bit of the stream, taken (R142). -/
theorem bwsGetBit_ok {s : State} {b : Bool} (h : s.srcBit 0 = some b) :
    ∃ t, bwsGetBit s = .ok b t ∧ BitsConsumed s t 1 ∧ t = consumed s t := by
  by_cases h0 : s.rcnt = 0#4
  · have hn : s.rcnt.toNat = 0 := by rw [h0]; rfl
    simp only [State.srcBit, hn, Nat.lt_irrefl, if_false, Nat.zero_div, Nat.add_zero,
      Nat.zero_mod, Nat.sub_zero] at h
    split at h
    · rename_i hlt
      cases hb : Memory.read s.src s.srcPos.toNat with
      | none => simp [hb] at h
      | some x =>
        simp only [hb, Option.map_some, Option.some.injEq] at h
        have hp : (s.srcPos + 1#64).toNat = s.srcPos.toNat + 1 := by
          have := s.srcLen.isLt
          exact dstLen_add (by omega)
        rw [bwsGetBit_fetch h0, srcByte_ok hlt hb]
        refine ⟨_, by rw [← h], ⟨?_, ?_, ?_⟩, rfl⟩
        · simp only [hp, hn]
        · simp only [hn]; rfl
        · intro n
          have h7 : (7#4).toNat = 7 := rfl
          simp only [State.srcBit, h7, hn, hp]
          by_cases hn7 : n < 7
          · have e0 : (1 + n - 0) / 8 = 0 := by omega
            have e1 : (1 + n - 0) % 8 = 1 + n := by omega
            rw [if_pos hn7, if_neg (show ¬1 + n < 0 by omega), e0, e1, Nat.add_zero, if_pos hlt, hb]
            simp
          · have e0 : s.srcPos.toNat + (1 + n - 0) / 8 = s.srcPos.toNat + 1 + (n - 7) / 8 := by omega
            have e1 : (1 + n - 0) % 8 = (n - 7) % 8 := by omega
            rw [if_neg hn7, if_neg (show ¬1 + n < 0 by omega), e0, e1]
    · cases h
  · have hn : s.rcnt.toNat ≠ 0 := fun e => h0 (BitVec.eq_of_toNat_eq (by simpa using e))
    have hb : s.rbyte.getLsbD 0 = b := by
      simpa [State.srcBit, Nat.pos_of_ne_zero hn] using h
    have hm : (s.rcnt - 1#4).toNat = s.rcnt.toNat - 1 := by
      have := s.rcnt.isLt
      rw [BitVec.toNat_sub]; simp; omega
    rw [bwsGetBit_held h0]
    refine ⟨_, by rw [hb], ⟨?_, ?_, ?_⟩, rfl⟩
    · simp only; omega
    · simp only [hm]; omega
    · intro n
      simp only [State.srcBit, hm]
      by_cases hlt : n < s.rcnt.toNat - 1
      · rw [if_pos hlt, if_pos (by omega)]
        simp
      · have e0 : n - (s.rcnt.toNat - 1) = 1 + n - s.rcnt.toNat := by omega
        rw [if_neg hlt, if_neg (show ¬1 + n < s.rcnt.toNat by omega), e0]

theorem consumed_trans {s u t : State} (h : u = consumed s u) (k : t = consumed u t) :
    t = consumed s t := by
  rw [k, h]; rfl

/-- A run of bits, taken (R142). -/
theorem bwsGetBits_ok {w : Nat} {s : State} (h : ∀ n, n < w → (s.srcBit n).isSome = true) :
    ∃ bs t, bwsGetBits w s = .ok bs t
      ∧ bs = (List.range w).map (fun n => (s.srcBit n).getD false)
      ∧ BitsConsumed s t w ∧ t = consumed s t := by
  induction w generalizing s with
  | zero => exact ⟨[], s, rfl, rfl, BitsConsumed.zero s, rfl⟩
  | succ w ih =>
    obtain ⟨b, hb⟩ := Option.isSome_iff_exists.1 (h 0 (by omega))
    obtain ⟨u, e1, c1, w1⟩ := bwsGetBit_ok hb
    obtain ⟨bs, t, e2, hbs, c2, w2⟩ := ih (s := u) (fun n hn => by
      rw [c1.rest, Nat.add_comm]; exact h (n + 1) (by omega))
    refine ⟨b :: bs, t, ?_, ?_, ?_, consumed_trans w1 w2⟩
    · show (bwsGetBit >>= fun b => bwsGetBits w >>= fun bs => pure (b :: bs)) s = _
      rw [Act.bind_of_ok e1, Act.bind_of_ok e2]
      rfl
    · rw [List.range_succ_eq_map, hbs]
      simp only [List.map_cons, hb, Option.getD_some, List.map_map, List.cons.injEq, true_and]
      apply List.map_congr_left
      intro n _
      simp only [Function.comp_apply, Nat.succ_eq_add_one, c1.rest, Nat.add_comm 1 n]
    · rw [Nat.add_comm]; exact c1.trans c2

/-- `bws_read(w)` with its bits there (R142): the codeword at the cursor. -/
theorem bwsRead_ok {w : Nat} {s : State} (h : ∀ n, n < w → (s.srcBit n).isSome = true) :
    ∃ t, bwsRead w s = .ok (BitVec.ofNat 32 (s.codewordAt w)) t
      ∧ BitsConsumed s t w ∧ t = consumed s t := by
  obtain ⟨bs, t, e, hbs, c, k⟩ := bwsGetBits_ok h
  refine ⟨t, ?_, c, k⟩
  show (bwsGetBits w >>= fun bs => pure (BitVec.ofNat 32 (bitsValue bs))) s = _
  rw [Act.bind_of_ok e, hbs]
  rfl

end Sys2Proof.Machine
end

