-- ==== Sys2Proof/Tests/Slice0.lean ====
section
/-! SUPPORT. The model's own tests: ill-formed commands, words written out from the spec's encoding, one
step of each command against the spec's vectors, and for each statement with hypotheses a state that
meets them. -/

namespace Sys2Proof.Tests

open Sys2Proof.Machine

/- The kernel evaluates the tests one after another, not all at once. -/
set_option Elab.async false

/-! ## Well-formedness (R102) -/

theorem test_wf_sopen_codec : (Instr.sopen 4#8 0#8).wellFormed = false := by decide
theorem test_wf_sopen_codec_zero : (Instr.sopen 0#8 0#8).wellFormed = false := by decide
theorem test_wf_sopen_mode : (Instr.sopen 1#8 2#8).wellFormed = false := by decide
theorem test_wf_write_width : (Instr.bwsWrite 1#32 5#8).wellFormed = false := by decide
theorem test_wf_read_width : (Instr.bwsRead 33#8).wellFormed = false := by decide
theorem test_wf_read_width_zero : (Instr.bwsRead 0#8).wellFormed = false := by decide
theorem test_wf_legal : (Instr.sopen 3#8 1#8).wellFormed = true ∧ (Instr.bwsRead 32#8).wellFormed = true := by
  decide

/-! ## Decoding: words written out from R101 and R103, IMM, Z, B, A, OPC -/

theorem test_dec_nop : decode 0x00000000_00_00_00_00#64 = .ok .nop := by decide
theorem test_dec_sopen : decode 0x00000000_00_01_03_01#64 = .ok (.sopen 3#8 1#8) := by decide
theorem test_dec_compress : decode 0x00000000_00_00_00_02#64 = .ok .compress := by decide
theorem test_dec_decompress : decode 0x00000000_00_00_00_03#64 = .ok .decompress := by decide
theorem test_dec_bwsReset : decode 0x00000000_00_00_00_10#64 = .ok .bwsReset := by decide
theorem test_dec_bwsWrite : decode 0xFFFF1234_00_00_20_11#64 = .ok (.bwsWrite 0xFFFF1234#32 32#8) := by decide
theorem test_dec_bwsFinish : decode 0x00000000_00_00_00_12#64 = .ok .bwsFinish := by decide
theorem test_dec_bwsRead : decode 0x00000000_00_00_1C_13#64 = .ok (.bwsRead 28#8) := by decide
theorem test_dec_hufCount : decode 0x00000000_00_00_00_20#64 = .ok .hufCount := by decide
theorem test_dec_hufBuild : decode 0x00000000_00_00_00_21#64 = .ok .hufBuild := by decide
theorem test_dec_hufCodes : decode 0x00000000_00_00_00_22#64 = .ok .hufCodes := by decide
theorem test_dec_hufWrhdr : decode 0x00000000_00_00_00_23#64 = .ok .hufWrhdr := by decide
theorem test_dec_hufEncode : decode 0x00000000_00_00_00_24#64 = .ok .hufEncode := by decide
theorem test_dec_hufRdhdr : decode 0x00000000_00_00_00_25#64 = .ok .hufRdhdr := by decide
theorem test_dec_hufDecode : decode 0x00000000_00_00_00_26#64 = .ok .hufDecode := by decide
theorem test_dec_artInit : decode 0x00000000_00_00_00_30#64 = .ok .artInit := by decide
theorem test_dec_artWrhdr : decode 0x00000000_00_00_00_31#64 = .ok .artWrhdr := by decide
theorem test_dec_artEncsym : decode 0x00000000_00_00_00_32#64 = .ok .artEncsym := by decide
theorem test_dec_artFlush : decode 0x00000000_00_00_00_33#64 = .ok .artFlush := by decide
theorem test_dec_artRdhdr : decode 0x00000000_00_00_00_34#64 = .ok .artRdhdr := by decide
theorem test_dec_artDecstep : decode 0x00000000_00_00_00_35#64 = .ok .artDecstep := by decide
theorem test_dec_lzwInit : decode 0x00000000_00_00_00_40#64 = .ok .lzwInit := by decide
theorem test_dec_lzwEncbyte : decode 0x00000000_00_00_00_41#64 = .ok .lzwEncbyte := by decide
theorem test_dec_lzwEnceof : decode 0x00000000_00_00_00_42#64 = .ok .lzwEnceof := by decide
theorem test_dec_lzwWidth : decode 0x00000000_00_00_00_43#64 = .ok .lzwWidth := by decide
theorem test_dec_lzwWrhdr : decode 0x00000000_00_00_00_44#64 = .ok .lzwWrhdr := by decide
theorem test_dec_lzwEmit : decode 0x00000000_00_00_00_45#64 = .ok .lzwEmit := by decide
theorem test_dec_lzwRdhdr : decode 0x00000000_00_00_00_46#64 = .ok .lzwRdhdr := by decide
theorem test_dec_lzwDeccode : decode 0x00000000_00_00_00_47#64 = .ok .lzwDeccode := by decide

/-- V-S4 to V-S7, V-S15, V-S16 and P1's commands 7 and 8: the illegal words. -/
theorem test_dec_illegal :
    decode 0x0000000000000100#64 = .error .fieldNotZero
    ∧ decode 0x0000000000000401#64 = .error .operandIllegal
    ∧ decode 0x0000000000020101#64 = .error .operandIllegal
    ∧ decode 0x0000000001000101#64 = .error .fieldNotZero
    ∧ decode 0x00000000000000FF#64 = .error .unknownOpcode
    ∧ decode 0x0000000000000513#64 = .error .operandIllegal
    ∧ decode 0x0000000100000002#64 = .error .fieldNotZero
    ∧ decode 0x0000000001000002#64 = .error .fieldNotZero := by decide

/-- The probe the host uses. -/
theorem test_table_word : decodeTableWord 64 0x10301 = some (.sopen 3#8 1#8) ∧ decodeTableWord 64 0xFF = none := by
  decide

/-! ## States and what a command leaves -/

/-- The state a command left, if it answered a next one. -/
def after (o : Host.Outcome State Fault Refusal) : Option State :=
  match o with
  | .next s => some s
  | .fault _ => none
  | .refused _ => none

/-- The reason a command was given no state. -/
def refusal (o : Host.Outcome State Fault Refusal) : Option Refusal :=
  match o with
  | .next _ => none
  | .fault _ => none
  | .refused r => some r

/-- A session with SRC loaded. -/
def session (c : Codec) (m : Mode) (p : Phase) (src : List Byte) : State :=
  { State.reset with
    codec := c, mode := m, phase := p, src := Memory.writeBytes [] 0 src
    srcLen := BitVec.ofNat 64 src.length }

/-- The bytes of DST. -/
def output (s : State) : Option (List Byte) := Memory.readBytes s.dst 0 s.dstLen.toNat

/-! ## One step of each command -/

/-- NOP (V-S3). -/
theorem test_nop : after (exec .nop State.reset) = some State.reset := rfl

/-- SOPEN LZW, D in FAULT (V-S8). -/
theorem test_sopen :
    (after (exec (.sopen 3#8 1#8)
      { session .huf .compress .fault [0x41#8] with err := .ioFailure, cmderr := true, dstLen := 9#64, wcnt := 3#4 })).map
      (fun t => ((t.codec, t.mode, t.phase, t.err), (t.cmderr, t.dstLen, t.wcnt, t.srcLen)))
      = some ((.lzw, .decompress, .idle, .noError), (false, 0#64, 0#4, 1#64)) := by decide +kernel

/-- SOPEN with codec 4 (V-S5). -/
theorem test_sopen_refused : after (exec (.sopen 4#8 0#8) State.reset) = some State.reset.refuse := rfl

/-- COMPRESS, Huffman, AAAB (V-H1). -/
theorem test_compress_huf :
    (after (exec .compress (session .huf .compress .idle [0x41#8, 0x41#8, 0x41#8, 0x42#8]))).map
      (fun t => (output t, t.mode, t.phase, t.compSize, t.result, t.srcPos))
      = some (some [0#8, 0#8, 0#8, 0#8, 0#8, 0#8, 0#8, 4#8, 0#8, 0#8, 0#8, 2#8,
          0x41#8, 0#8, 0#8, 0#8, 3#8, 0x42#8, 0#8, 0#8, 0#8, 1#8, 7#8],
        .decompress, .done, 23#64, 23#64, 4#64) := by decide +kernel

/-- COMPRESS, LZW, seven A (V-L4). -/
theorem test_compress_lzw :
    (after (exec .compress (session .lzw .compress .idle (List.replicate 7 0x41#8)))).map output
      = some (some [0#8, 0#8, 0#8, 0#8, 0#8, 0#8, 0#8, 7#8, 0#8, 0#8, 0#8, 12#8,
          0x41#8, 0#8, 0x10#8, 1#8, 0x11#8, 4#8]) := by decide +kernel

/-- DECOMPRESS of 22 bytes of V-H1: the body is missing (V-H7). -/
theorem test_decompress_truncated :
    (after (exec .decompress (session .huf .decompress .idle
      [0#8, 0#8, 0#8, 0#8, 0#8, 0#8, 0#8, 4#8, 0#8, 0#8, 0#8, 2#8,
        0x41#8, 0#8, 0#8, 0#8, 3#8, 0x42#8, 0#8, 0#8, 0#8, 1#8]))).map
      (fun t => ((t.err, t.result, t.phase), (t.origSize, t.srcPos, t.dstLen, t.mode)))
      = some ((.ioFailure, 0#64, .fault), (4#64, 22#64, 0#64, .decompress)) := by decide +kernel

/-- DECOMPRESS of V-L1: ABABABA, with the codeword not yet in the table. -/
theorem test_decompress_lzw :
    (after (exec .decompress (session .lzw .decompress .idle
      [0#8, 0#8, 0#8, 0#8, 0#8, 0#8, 0#8, 7#8, 0#8, 0#8, 0#8, 12#8,
        0x41#8, 0x20#8, 4#8, 0#8, 0x21#8, 0x10#8]))).map
      (fun t => (output t, t.result, t.srcPos, t.lzw.dict))
      = some (some [0x41#8, 0x42#8, 0x41#8, 0x42#8, 0x41#8, 0x42#8, 0x41#8], 7#64, 18#64,
        [[0x41#8, 0x42#8], [0x42#8, 0x41#8], [0x41#8, 0x42#8, 0x41#8]]) := by decide +kernel

/-- BWS.RESET discards a pending nibble (R144). -/
theorem test_bwsReset :
    (after (exec .bwsReset { State.reset with wacc := 5#8, wcnt := 4#4, dstLen := 2#64 })).map
      (fun t => (t.wacc, t.wcnt, t.dstLen)) = some (0#8, 0#4, 0#64) := by decide +kernel

/-- BWS.WRITE 0x041, 12 from a clean packer (V-B3). -/
theorem test_bwsWrite_nibble :
    (after (exec (.bwsWrite 0x041#32 12#8) State.reset)).map (fun t => (output t, t.wacc, t.wcnt))
      = some (some [0x41#8], 0#8, 4#4) := by decide +kernel

/-- BWS.WRITE 0x12345678, 32 with one bit pending (V-B6). -/
theorem test_bwsWrite_wide :
    (after (exec (.bwsWrite 0x12345678#32 32#8) { State.reset with wacc := 1#8, wcnt := 1#4 })).map
      (fun t => (output t, t.wacc, t.wcnt))
      = some (some [0xF1#8, 0xAC#8, 0x68#8, 0x24#8], 0#8, 1#4) := by decide +kernel

/-- BWS.FINISH of the bits 1, 1, 1, 0 (R146). -/
theorem test_bwsFinish :
    (after (exec .bwsFinish { State.reset with wacc := 7#8, wcnt := 4#4 })).map
      (fun t => (output t, t.wacc, t.wcnt)) = some (some [7#8], 0#8, 0#4) := by decide +kernel

/-- BWS.READ 12 of 41 20 04 (V-B14). -/
theorem test_bwsRead :
    (after (exec (.bwsRead 12#8) (session .closed .compress .idle [0x41#8, 0x20#8, 4#8]))).map
      (fun t => (t.result, t.srcPos, t.rbyte, t.rcnt)) = some (0x41#64, 2#64, 2#8, 4#4) := by decide +kernel

/-- BWS.READ 12 of the single byte 41 (V-B15). -/
theorem test_bwsRead_short :
    (after (exec (.bwsRead 12#8) (session .closed .compress .idle [0x41#8]))).map
      (fun t => (t.err, t.result, t.phase, t.srcPos, t.rcnt))
      = some (.ioFailure, 0#64, .fault, 1#64, 0#4) := by decide +kernel

/-- The leaf list of AAAB. -/
def leavesAAAB : HufUnit :=
  { HufUnit.reset with
    leaf := leafSetAll HufUnit.reset.leaf 0 [⟨0x41#8, 3#32⟩, ⟨0x42#8, 1#32⟩], leafCnt := 2 }

/-- The tree of AAAB (V-H1). -/
def treeAAAB : List Node :=
  [⟨true, false, 0x41#8, 3#32, 0, 0⟩, ⟨true, false, 0x42#8, 1#32, 0, 0⟩, ⟨false, false, 0#8, 4#32, 1, 0⟩]

/-- The codes of AAAB (V-H1). -/
def codesAAAB : Vector (Option (List Bool)) 256 :=
  tabSet (tabSet (Vector.replicate 256 none) 0x42#8 (some [false])) 0x41#8 (some [true])

/-- HUF.COUNT of AAAB (V-H1). -/
theorem test_hufCount :
    (after (exec .hufCount (session .huf .compress .idle [0x41#8, 0x41#8, 0x41#8, 0x42#8]))).map
      (fun t => (t.huf.leaves, tabGet t.huf.cnt 0x41#8, t.origSize, t.srcPos, t.phase))
      = some ([⟨0x41#8, 3#32⟩, ⟨0x42#8, 1#32⟩], 3#32, 4#64, 4#64, .hCounted) := by decide +kernel

/-- HUF.BUILD of AAAB (V-H1). -/
theorem test_hufBuild :
    (after (exec .hufBuild { session .huf .compress .hCounted [] with huf := leavesAAAB })).map
      (fun t => (t.huf.node, t.huf.root, t.phase)) = some (treeAAAB, some 2, .hBuilt) := by decide +kernel

/-- HUF.BUILD of four equal weights: the merged node loses the tie (V-H5). -/
theorem test_hufBuild_ties :
    (buildTree [⟨0x41#8, 1#32⟩, ⟨0x42#8, 1#32⟩, ⟨0x43#8, 1#32⟩, ⟨0x44#8, 1#32⟩]).toOption.map
      (fun x => (x.1.map (fun n => (n.left, n.right)), x.2))
      = some ([(0, 0), (0, 0), (0, 0), (0, 0), (0, 1), (2, 3), (4, 5)], some 6) := by decide +kernel

/-- HUF.CODES of AAAB (V-H1). -/
theorem test_hufCodes :
    (after (exec .hufCodes
      { session .huf .compress .hBuilt [] with huf := { HufUnit.reset with node := treeAAAB, root := some 2 } })).map
      (fun t => (tabGet t.huf.code 0x41#8, tabGet t.huf.code 0x42#8, tabGet t.huf.code 0#8))
      = some (some [true], some [false], none) := by decide +kernel

/-- HUF.WRHDR (R188). -/
theorem test_hufWrhdr :
    (after (exec .hufWrhdr { session .huf .compress .hCoded [] with huf := leavesAAAB, origSize := 4#64 })).map output
      = some (some [0#8, 0#8, 0#8, 0#8, 0#8, 0#8, 0#8, 4#8, 0#8, 0#8, 0#8, 2#8,
          0x41#8, 0#8, 0#8, 0#8, 3#8, 0x42#8, 0#8, 0#8, 0#8, 1#8]) := by decide +kernel

/-- HUF.WRHDR with DST_CAP 20: the last weight does not fit (V-H8). -/
theorem test_hufWrhdr_full :
    (after (exec .hufWrhdr { session .huf .compress .hCoded [] with
      huf := leavesAAAB, origSize := 4#64, cfg := { Config.widest with dstCap := some 20 } })).map
      (fun t => (t.dstLen, t.err, t.phase)) = some (18#64, .ioFailure, .fault) := by decide +kernel

/-- HUF.ENCODE of AAAB (R189). -/
theorem test_hufEncode :
    (after (exec .hufEncode { session .huf .compress .hHdrw [0x41#8, 0x41#8, 0x41#8, 0x42#8] with
      huf := { HufUnit.reset with code := codesAAAB } })).map
      (fun t => (output t, t.compSize, t.mode, t.phase))
      = some (some [7#8], 1#64, .decompress, .done) := by decide +kernel

/-- HUF.RDHDR of V-H1's header (R190). -/
theorem test_hufRdhdr :
    (after (exec .hufRdhdr (session .huf .decompress .done
      [0#8, 0#8, 0#8, 0#8, 0#8, 0#8, 0#8, 4#8, 0#8, 0#8, 0#8, 2#8,
        0x41#8, 0#8, 0#8, 0#8, 3#8, 0x42#8, 0#8, 0#8, 0#8, 1#8]))).map
      (fun t => (t.huf.leaves, t.origSize, t.srcPos, t.phase))
      = some ([⟨0x41#8, 3#32⟩, ⟨0x42#8, 1#32⟩], 4#64, 22#64, .hHdrr) := by decide +kernel

/-- HUF.DECODE of the body 07 (R191). -/
theorem test_hufDecode :
    (after (exec .hufDecode { session .huf .decompress .hRebuilt [7#8] with
      huf := { HufUnit.reset with node := treeAAAB, root := some 2 }, origSize := 4#64 })).map
      (fun t => (output t, t.result, t.srcPos, t.rcnt, t.phase))
      = some (some [0x41#8, 0x41#8, 0x41#8, 0x42#8], 4#64, 1#64, 4#4, .done) := by decide +kernel

/-- ART.INIT: DIST[0x41] is 0.25390625 (R223). -/
theorem test_artInit :
    (after (exec .artInit (session .art .decompress .idle [0x41#8]))).map
      (fun t => ((distLow t.art.dist 0x41#8).units, t.art.atotal, t.origSize, t.phase))
      = some (65 * 2 ^ 1066, 256, 0#64, .aInit) := by decide +kernel

/-- ART.WRHDR (R224). -/
theorem test_artWrhdr :
    (after (exec .artWrhdr { session .art .compress .aInit [] with origSize := 1#64 })).map
      (fun t => (output t, t.phase)) = some (some [0#8, 0#8, 0#8, 0#8, 0#8, 0#8, 0#8, 1#8], .aEnc) := by decide +kernel

/-- A distribution that holds the boundaries of the initial model next to 0x41 and 0xFF; in between it
stands at the next boundary above. -/
def fewBounds : ArtUnit :=
  { ArtUnit.reset with
    dist := ⟨⟨List.replicate 65 F64.zero ++ [⟨65 * 2 ^ 1066⟩] ++ List.replicate 189 ⟨66 * 2 ^ 1066⟩
      ++ [⟨255 * 2 ^ 1066⟩, F64.one]⟩, by decide +kernel⟩
    acnt := Vector.replicate 256 1, atotal := 256 }

/-- ART.ENCSYM of 0x41 (V-A2, P3's command 4). -/
theorem test_artEncsym :
    (after (exec .artEncsym { session .art .compress .aEnc [0x41#8] with art := fewBounds })).map
      (fun t => ((t.srcPos, t.wacc, t.wcnt), (t.art.low.units, t.art.high.units,
        tabGet t.art.acnt 0x41#8, t.art.atotal)))
      = some ((1#64, 2#8, 6#4), (2 ^ 1072, 2 ^ 1073, 2, 257)) := by decide +kernel

/-- ART.ENCSYM of 0xFF: the saturation flush (V-A3). -/
theorem test_artEncsym_saturates :
    (after (exec .artEncsym { session .art .compress .aEnc [0xFF#8] with art := fewBounds })).map
      (fun t => (output t, t.wcnt, t.art.low, t.art.high))
      = some (some [0xFF#8], 0#4, F64.zero, F64.one) := by decide +kernel

/-- ART.FLUSH after the symbol 0x41 (V-A2, P3's command 5). -/
theorem test_artFlush :
    (after (exec .artFlush { session .art .compress .aEnc [] with
      art := { ArtUnit.reset with low := ⟨2 ^ 1072⟩, high := ⟨2 ^ 1073⟩ }, wacc := 2#8, wcnt := 6#4 })).map
      (fun t => (output t, t.compSize, t.mode, t.phase))
      = some (some [0x82#8, 1#8], 2#64, .decompress, .done) := by decide +kernel

/-- ART.RDHDR (R227). -/
theorem test_artRdhdr :
    (after (exec .artRdhdr (session .art .decompress .aInit
      [0#8, 0#8, 0#8, 0#8, 0#8, 0#8, 0#8, 1#8, 0x82#8, 1#8]))).map
      (fun t => (t.origSize, t.srcPos, t.phase, t.art.exp)) = some (1#64, 8#64, .aDec, 0) := by decide +kernel

/-- ART.DECSTEP, the first pass of P3: a bit 0 is folded. -/
theorem test_artDecstep_fold :
    (after (exec .artDecstep { session .art .decompress .aDec [0x82#8, 1#8] with
      art := { fewBounds with acc := F64.zero, exp := 0 }, origSize := 1#64 })).map
      (fun t => (t.srcPos, t.rbyte, t.rcnt, t.art.exp, t.art.acc))
      = some (1#64, 0x41#8, 7#4, 1, F64.zero) := by decide +kernel

/-- ART.DECSTEP, pass 9 of V-A2: 0x41 is resolved, k = 6. -/
theorem test_artDecstep_emit :
    (after (exec .artDecstep { session .art .decompress .aDec [] with
      art := { fewBounds with acc := ⟨65 * 2 ^ 1066⟩, exp := 8 }, origSize := 1#64 })).map
      (fun t => (output t, t.art.exp, t.art.acc.units))
      = some (some [0x41#8], 2, 2 ^ 1072) := by decide +kernel

/-- LZW.INIT (P2's command 2). -/
theorem test_lzwInit :
    (after (exec .lzwInit { session .lzw .compress .done [0x41#8] with
      lzw := { LzwUnit.reset with dict := [[1#8, 2#8]], phrase := [1#8], width := 12#6 } })).map
      (fun t => ((t.lzw.dict, t.lzw.next, t.lzw.phrase), (t.lzw.width, t.phase, t.origSize)))
      = some (([], 256, []), (12#6, .lInit, 1#64)) := by decide +kernel

/-- LZW.ENCBYTE, the second byte of ABABABA (R273). -/
theorem test_lzwEncbyte :
    (after (exec .lzwEncbyte { session .lzw .compress .lScan [0x41#8, 0x42#8] with
      srcPos := 1#64, lzw := { LzwUnit.reset with phrase := [0x41#8] } })).map
      (fun t => (t.lzw.codebuf, t.lzw.dict, t.lzw.phrase, t.srcPos))
      = some ([65#32], [[0x41#8, 0x42#8]], [0x42#8], 2#64) := by decide +kernel

/-- LZW.ENCEOF with PHRASE = ABA (R274). -/
theorem test_lzwEnceof :
    (after (exec .lzwEnceof { session .lzw .compress .lScan [] with
      lzw := { LzwUnit.reset with
        dict := [[0x41#8, 0x42#8], [0x42#8, 0x41#8], [0x41#8, 0x42#8, 0x41#8]]
        phrase := [0x41#8, 0x42#8, 0x41#8], codebuf := [65#32, 66#32, 256#32] } })).map
      (fun t => (t.lzw.codebuf, t.lzw.phrase, t.lzw.dict.length, t.phase))
      = some ([65#32, 66#32, 256#32, 258#32], [], 3, .lScanned) := by decide +kernel

/-- LZW.WIDTH with three entries (R275). -/
theorem test_lzwWidth :
    (after (exec .lzwWidth { session .lzw .compress .lScanned [] with
      lzw := { LzwUnit.reset with dict := List.replicate 3 [1#8, 2#8] } })).map
      (fun t => (t.lzw.width, t.phase)) = some (12#6, .lWidth) := by decide +kernel

/-- The width boundaries of V-L7. -/
theorem test_lzwWidth_bounds :
    [0, 1, 3840, 3841, 65280, 65281].map lzwWidthFor = [8, 12, 12, 16, 16, 20] := by decide +kernel

/-- LZW.WRHDR (R276). -/
theorem test_lzwWrhdr :
    (after (exec .lzwWrhdr { session .lzw .compress .lWidth [] with
      origSize := 7#64, lzw := { LzwUnit.reset with width := 12#6 } })).map output
      = some (some [0#8, 0#8, 0#8, 0#8, 0#8, 0#8, 0#8, 7#8, 0#8, 0#8, 0#8, 12#8]) := by decide +kernel

/-- LZW.EMIT (R277). -/
theorem test_lzwEmit :
    (after (exec .lzwEmit { session .lzw .compress .lHdrw [] with
      lzw := { LzwUnit.reset with width := 12#6, codebuf := [65#32, 66#32, 256#32, 258#32] } })).map
      (fun t => (output t, t.result, t.mode))
      = some (some [0x41#8, 0x20#8, 4#8, 0#8, 0x21#8, 0x10#8], 6#64, .decompress) := by decide +kernel

/-- LZW.RDHDR (R278). -/
theorem test_lzwRdhdr :
    (after (exec .lzwRdhdr (session .lzw .decompress .lInit
      [0#8, 0#8, 0#8, 0#8, 0#8, 0#8, 0#8, 7#8, 0#8, 0#8, 0#8, 12#8]))).map
      (fun t => (t.origSize, t.lzw.width, t.srcPos, t.phase)) = some (7#64, 12#6, 12#64, .lDec) := by
  decide +kernel

/-- LZW.DECCODE of the codeword about to be defined (R279's last codeword). -/
theorem test_lzwDeccode_new :
    (after (exec .lzwDeccode { session .lzw .decompress .lDec [2#8, 1#8] with
      origSize := 7#64, dstLen := 4#64
      lzw := { LzwUnit.reset with
        width := 12#6, dict := [[0x41#8, 0x42#8], [0x42#8, 0x41#8]]
        prev := [0x41#8, 0x42#8], havePrev := true } })).map
      (fun t => (Memory.readBytes t.dst 4 3, t.lzw.dict.length, t.lzw.prev, t.phase, t.result))
      = some (some [0x41#8, 0x42#8, 0x41#8], 3, [0x41#8, 0x42#8, 0x41#8], .done, 7#64) := by decide +kernel

/-- LZW.DECCODE of 0x100 as the first codeword is UNSPEC (V-L9). -/
theorem test_lzwDeccode_unspec :
    refusal (exec .lzwDeccode { session .lzw .decompress .lDec [0#8, 1#8] with
      origSize := 2#64, lzw := { LzwUnit.reset with width := 12#6 } }) = some .lzwCodeUndefined := by
  decide +kernel

/-! ## The step and the host -/

/-- The word SOPEN HUF, C placed at the port is the next thing step performs. -/
theorem test_step_word :
    (after (step (State.reset.withFetchWord 64 0x101))).map (fun t => (t.codec, t.mode, t.port))
      = some (.huf, .compress, []) := by decide +kernel

/-- An unassigned opcode is refused (V-S15). -/
theorem test_step_illegal :
    after (step (State.reset.withFetchWord 64 0xFF)) = some State.reset.refuse := rfl

/-- The host writes SRC at IDLE, not during a call (R81). -/
theorem test_step_host :
    (after (step { State.reset with port := [.writeSrc 0#64 7#8] })).map (fun t => Memory.read t.src 0)
        = some (some 7#8)
    ∧ after (step { State.reset with phase := .aEnc, port := [.writeSrcLen 7#64] }) = none := by decide +kernel

/-- The host reads DST below DST_LEN, between calls (R81). -/
theorem test_host_reads :
    hostReadDst 0 { State.reset with dst := [(0, 7#8), (1, 8#8)], dstLen := 1#64 } = some 7#8
    ∧ hostReadDst 1 { State.reset with dst := [(0, 7#8), (1, 8#8)], dstLen := 1#64 } = none
    ∧ hostReadDst 0 { State.reset with dst := [(0, 7#8)], dstLen := 1#64, phase := .aEnc } = none := by
  decide +kernel

/-! ## The hypotheses of the statements are met -/

/-- A command that answers a next state with a property. -/
theorem next_of {o : Host.Outcome State Fault Refusal} {P : State → Bool}
    (h : (after o).map P = some true) : ∃ t, o = .next t ∧ P t = true := by
  cases o with
  | next t => exact ⟨t, rfl, by simpa [after] using h⟩
  | fault f => simp [after] at h
  | refused r => simp [after] at h

/-- DecodeEncodeRoundTrip: operands at the ends of their sets. -/
theorem witness_DecodeEncodeRoundTrip :
    (Instr.sopen 1#8 0#8).wellFormed = true ∧ (Instr.sopen 3#8 1#8).wellFormed = true
    ∧ (Instr.bwsWrite 0xFFFFFFFF#32 32#8).wellFormed = true ∧ (Instr.bwsRead 1#8).wellFormed = true := by
  decide

/-- DecodeSelectsRow: a word that matches a row, and the commands of that row. -/
theorem witness_DecodeSelectsRow :
    decode 0x0000000000010301#64 = .ok (.sopen 3#8 1#8)
    ∧ 0x0000000000010301#64 &&& maskOf (.sopen 3#8 1#8) = matchOf (.sopen 3#8 1#8)
    ∧ 0x0000000000010301#64 &&& maskOf (.sopen 1#8 0#8) = matchOf (.sopen 1#8 0#8) := by decide

/-- IllegalWordRefused: a word for each way to be illegal, and one that is legal. -/
theorem witness_IllegalWordRefused :
    illegalWord 0xFF#64 ∧ illegalWord 0x0000000001000101#64 ∧ illegalWord 0x0000000100000002#64
    ∧ illegalWord 0x0000000000010111#64 ∧ illegalWord 0x0000000000000100#64
    ∧ illegalWord 0x0000000000000401#64 ∧ illegalWord 0x0000000000020101#64
    ∧ illegalWord 0x0000000000000513#64 ∧ ¬illegalWord 0x0000000000010301#64 := by
  simp only [illegalWord]
  refine ⟨?_, ?_, ?_, ?_, ?_, ?_, ?_, ?_, ?_⟩ <;> decide +kernel

/-- StepRunsCommand. -/
theorem witness_StepRunsCommand :
    (State.reset.withFetchWord 64 0x101).port = .command 0x101#64 :: []
    ∧ decode 0x101#64 = .ok (.sopen 1#8 0#8) ∧ State.reset.port = [] := by decide +kernel

/-- HostActions: each action between calls, in FAULT and during a call; a read below DST_LEN is
test_host_reads. -/
theorem witness_HostActions :
    ((∃ s : State, s.port = [.writeSrc 0xFFFFFFFFFFFFFFFF#64 1#8] ∧ (s.between ∨ s.phase = .fault))
      ∧ (∃ s : State, s.port = [.writeSrcLen 0#64] ∧ s.phase = .fault))
    ∧ (∃ s : State, s.port = [.writeSrcLen 1#64] ∧ ¬(s.between ∨ s.phase = .fault))
    ∧ (∃ s : State, s.port = [.writeSrc 0#64 1#8] ∧ ¬(s.between ∨ s.phase = .fault))
    ∧ ∃ s : State, s.port = [.reset] :=
  ⟨⟨⟨{ State.reset with port := [.writeSrc 0xFFFFFFFFFFFFFFFF#64 1#8] }, by decide +kernel⟩,
      ⟨{ State.reset with phase := .fault, port := [.writeSrcLen 0#64] }, by decide +kernel⟩⟩,
    ⟨{ State.reset with phase := .lDec, port := [.writeSrcLen 1#64] }, by decide +kernel⟩,
    ⟨{ State.reset with phase := .aInit, port := [.writeSrc 0#64 1#8] }, by decide +kernel⟩,
    ⟨{ State.reset with port := [.reset] }, rfl⟩⟩

/-- RegisterMap, ResetValues: register numbers at the bounds of the clauses. -/
theorem witness_RegisterMap : (0x0C : Nat) < 0x0D ∧ (0x01 : Nat) ≠ 0x02 ∧ (0x03 : Nat) ≠ 0x02 := by decide

/-- RefusedOutOfPlace: each ground for a refusal alone. -/
theorem witness_RefusedOutOfPlace :
    (Instr.bwsRead 33#8).wellFormed = false
    ∧ (session .huf .compress .aInit []).codec ∉ codecsFor .artWrhdr
    ∧ (session .art .compress .aEnc []).phase ∉ phasesFor .artWrhdr
    ∧ ¬cursorFor .artEncsym (session .art .compress .aEnc [])
    ∧ ¬cursorFor .lzwEnceof (session .lzw .compress .lScan [1#8]) := by
  unfold cursorFor
  decide +kernel

/-- WrongDirection: HUF.COUNT in a decompress session, ART.ENCSYM likewise. -/
theorem witness_WrongDirection :
    (∃ s : State, directionFor .hufCount = some .compress ∧ .compress ≠ s.mode ∧ s.codec ∈ codecsFor .hufCount
      ∧ s.phase ∈ phasesFor .hufCount ∧ cursorFor .hufCount s)
    ∧ (∃ s : State, directionFor .artEncsym = some .compress ∧ .compress ≠ s.mode ∧ s.codec ∈ codecsFor .artEncsym
      ∧ s.phase ∈ phasesFor .artEncsym ∧ cursorFor .artEncsym s)
    ∧ ∃ s : State, directionFor .lzwRdhdr = some .decompress ∧ .decompress ≠ s.mode
      ∧ s.codec ∈ codecsFor .lzwRdhdr ∧ s.phase ∈ phasesFor .lzwRdhdr ∧ cursorFor .lzwRdhdr s := by
  unfold cursorFor
  exact ⟨⟨session .huf .decompress .idle [], by decide +kernel⟩,
    ⟨session .art .decompress .aEnc [1#8], by decide +kernel⟩,
    ⟨session .lzw .compress .lInit [], by decide +kernel⟩⟩

/-- EnteringFault: with either error kind. -/
theorem witness_EnteringFault :
    (∃ t, exec (.bwsRead 12#8) (session .closed .compress .idle [0x41#8]) = .next t
      ∧ decide (t.phase = .fault ∧ t.err = .ioFailure) = true)
    ∧ ∃ t, exec .artEncsym { session .art .compress .aEnc [0x43#8] with art := fewBounds } = .next t
      ∧ decide (t.phase = .fault ∧ t.err = .modelPrecision) = true :=
  ⟨next_of (by decide +kernel), next_of (by decide +kernel)⟩

/-- UnspecPoints, the Huffman unit. -/
theorem witness_UnspecPoints_huf :
    (∃ s : State, s.codec = .huf ∧ s.mode = .compress ∧ s.between ∧ 2 ^ 32 - 1 < s.srcLen.toNat)
    ∧ (∃ s : State, s.codec = .huf ∧ s.mode = .decompress ∧ s.between ∧ 12 ≤ s.srcLen.toNat
      ∧ memRead s.src 0 8 = some 0 ∧ memRead s.src 8 4 = some 257)
    ∧ ∃ s : State, s.codec = .huf ∧ s.mode = .decompress ∧ s.phase = .hRebuilt ∧ s.huf.root = none
      ∧ s.dstLen.toNat < s.origSize.toNat :=
  ⟨⟨{ session .huf .compress .idle [] with srcLen := 0x100000000#64 }, by decide +kernel⟩,
    ⟨session .huf .decompress .idle [0#8, 0#8, 0#8, 0#8, 0#8, 0#8, 0#8, 0#8, 0#8, 0#8, 1#8, 1#8],
      by decide +kernel⟩,
    ⟨{ session .huf .decompress .hRebuilt [] with origSize := 1#64 }, by decide +kernel⟩⟩

/-- UnspecPoints, the arithmetic unit. -/
theorem witness_UnspecPoints_art :
    (∃ s : State, s.codec = .art ∧ s.mode = .compress ∧ s.phase = .aEnc ∧ s.srcPos = s.srcLen
      ∧ F64.le F64.one (F64.fdiv (F64.fadd s.art.low s.art.high) F64.two) = true)
    ∧ ∃ s : State, s.codec = .art ∧ s.mode = .decompress ∧ s.phase = .aDec ∧ s.dstLen ≠ s.origSize
      ∧ F64.lt s.art.acc s.art.dist[0] = true :=
  ⟨⟨{ session .art .compress .aEnc [] with art := { ArtUnit.reset with low := F64.one, high := F64.one } },
      by decide +kernel⟩,
    ⟨{ session .art .decompress .aDec [] with
        origSize := 1#64, art := { ArtUnit.reset with dist := Vector.replicate 257 ⟨1⟩ } }, by decide +kernel⟩⟩

/-- UnspecPoints, the LZW unit: a width outside the set, the codeword after the last, and the next one
without a previous phrase. -/
theorem witness_UnspecPoints_lzw :
    (∃ s : State, s.codec = .lzw ∧ s.mode = .decompress ∧ s.phase = .lInit
      ∧ s.srcPos.toNat + 12 ≤ s.srcLen.toNat ∧ memRead s.src s.srcPos.toNat 8 = some 0
      ∧ memRead s.src (s.srcPos.toNat + 8) 4 = some 9 ∧ 9 ∉ [8, 12, 16, 20, 24, 28, 32])
    ∧ (∃ s : State, s.codec = .lzw ∧ s.mode = .decompress ∧ s.phase = .lDec ∧ s.dstLen.toNat < s.origSize.toNat
      ∧ s.lzw.width.toNat ∈ Config.lzwWidths ∧ (∀ n, n < s.lzw.width.toNat → (s.srcBit n).isSome = true)
      ∧ 256 + s.lzw.dict.length < s.codewordAt s.lzw.width.toNat)
    ∧ ∃ s : State, s.codec = .lzw ∧ s.mode = .decompress ∧ s.phase = .lDec ∧ s.dstLen.toNat < s.origSize.toNat
      ∧ s.lzw.width.toNat ∈ Config.lzwWidths ∧ (∀ n, n < s.lzw.width.toNat → (s.srcBit n).isSome = true)
      ∧ 256 + s.lzw.dict.length = s.codewordAt s.lzw.width.toNat ∧ s.lzw.havePrev = false :=
  ⟨⟨session .lzw .decompress .lInit [0#8, 0#8, 0#8, 0#8, 0#8, 0#8, 0#8, 0#8, 0#8, 0#8, 0#8, 9#8],
      by decide +kernel⟩,
    ⟨{ session .lzw .decompress .lDec [1#8, 1#8] with
        origSize := 1#64, lzw := { LzwUnit.reset with width := 12#6, havePrev := true } }, by decide +kernel⟩,
    ⟨{ session .lzw .decompress .lDec [0#8, 1#8] with
        origSize := 1#64, lzw := { LzwUnit.reset with width := 12#6 } }, by decide +kernel⟩⟩

/-- CommandFrame, SessionWriters, FlagWriters, CursorsAndAppend: a command that appends, one that ends a
compress call, one that begins a call and is refused, one that starts the packer again, a mismatch. -/
theorem witness_CommandFrame :
    (∃ t, exec (.bwsWrite 0x41#32 12#8) State.reset = .next t ∧ decide (t.dstLen = 1#64) = true)
    ∧ (∃ t, exec .lzwEmit (session .lzw .compress .lHdrw []) = .next t
        ∧ decide (t.mode = .decompress ∧ t.phase = .done) = true)
    ∧ (∃ t, exec .lzwInit (session .lzw .compress .done [1#8]) = .next t
        ∧ decide (t.phase = .lInit ∧ t.srcPos.toNat ≤ t.srcLen.toNat) = true)
    ∧ (∃ t, exec .compress State.reset = .next t ∧ t.cmderr = true)
    ∧ (∃ t, exec .bwsReset State.reset = .next t ∧ decide (t.dst = []) = true)
    ∧ ∃ t, exec .compress (session .lzw .decompress .idle []) = .next t
        ∧ decide (t.err = .modeMismatch) = true :=
  ⟨next_of (by decide +kernel), next_of (by decide +kernel), next_of (by decide +kernel),
    next_of (by decide +kernel), next_of (by decide +kernel), next_of (by decide +kernel)⟩

/-- CursorsAndAppend: which commands start a call. -/
theorem witness_CursorsAndAppend : beginsCall .decompress ∧ ¬beginsCall .bwsFinish ∧ ¬beginsCall .hufBuild := by
  unfold beginsCall
  decide

/-- BigEndianAccess: two bytes of SRC. -/
theorem witness_BigEndianAccess :
    [1#8, 2#8].length = 2
    ∧ ∀ k, k < 2 → Memory.read (Memory.writeBytes [] 5 [1#8, 2#8]) (5 + k) = [1#8, 2#8][k]? := by
  decide +kernel

/-- BwsResetClears, BwsWriteAppends, BwsFinishPads: no bit pending and seven, the narrowest write and the
widest, DST with exactly the room needed. -/
theorem witness_BwsWriteAppends :
    (∃ s : State, s.between ∧ s.writerOk ∧ (1 : Nat) ∈ Config.bwsWidths ∧ s.room ((s.wcnt.toNat + 1) / 8)
      ∧ s.wcnt = 0#4)
    ∧ ∃ s : State, s.between ∧ s.writerOk ∧ (32 : Nat) ∈ Config.bwsWidths ∧ s.room ((s.wcnt.toNat + 32) / 8)
      ∧ s.wcnt ≠ 0#4 ∧ s.room 1 :=
  ⟨⟨{ State.reset with cfg := { Config.widest with dstCap := some 0 } }, by decide +kernel⟩,
    ⟨{ State.reset with phase := .done, wacc := 0x7F#8, wcnt := 7#4
                        cfg := { Config.widest with dstCap := some 4 } }, by decide +kernel⟩⟩

/-- BwsReadTakes: the bits span RBYTE and SRC, and lie in RBYTE alone. -/
theorem witness_BwsReadTakes :
    (∃ s : State, (12 : Nat) ∈ Config.bwsWidths ∧ s.between ∧ ∀ n, n < 12 → (s.srcBit n).isSome = true)
    ∧ ∃ s : State, (1 : Nat) ∈ Config.bwsWidths ∧ s.between ∧ s.rcnt = 1#4
      ∧ ∀ n, n < 1 → (s.srcBit n).isSome = true :=
  ⟨⟨{ session .closed .compress .idle [0xFF#8] with rbyte := 5#8, rcnt := 4#4 }, by decide +kernel⟩,
    ⟨{ State.reset with rbyte := 1#8, rcnt := 1#4 }, by decide +kernel⟩⟩

/-- PackerOutOfRoom: a write of which one byte fits, a full DST at the end, a read one bit short. -/
theorem witness_PackerOutOfRoom :
    (∃ s : State, (12 : Nat) ∈ Config.bwsWidths ∧ s.between ∧ s.writerOk ∧ 1 < (s.wcnt.toNat + 12) / 8
      ∧ s.room 1 ∧ s.full (1 + 1))
    ∧ (∃ s : State, s.between ∧ s.wcnt ≠ 0#4 ∧ s.full 1)
    ∧ ∃ s : State, (12 : Nat) ∈ Config.bwsWidths ∧ s.between ∧ s.srcIntact ∧ s.bitsLeft < 12 :=
  ⟨⟨{ State.reset with wacc := 1#8, wcnt := 4#4, cfg := { Config.widest with dstCap := some 1 } },
      by decide +kernel⟩,
    ⟨{ State.reset with wacc := 1#8, wcnt := 4#4, cfg := { Config.widest with dstCap := some 0 } },
      by decide +kernel⟩,
    ⟨{ session .closed .compress .idle [0xFF#8] with rbyte := 1#8, rcnt := 3#4 },
      by decide +kernel, by decide +kernel,
      ⟨by decide +kernel, by decide +kernel, fun k _ h => (by decide +kernel :
        ∀ k, k < (1 : Nat) → (Memory.read (session .closed .compress .idle [0xFF#8]).src k).isSome = true) k h⟩,
      by decide +kernel⟩⟩

/-- PackerRoundTrip: a nibble and a bit. -/
theorem witness_PackerRoundTrip :
    ∃ (s t u : State),
      (∀ x ∈ [(0xABC#32, 12#8), (1#32, 1#8)], x.2.toNat ∈ Config.bwsWidths)
      ∧ s.between ∧ s.wacc = 0#8 ∧ s.wcnt = 0#4 ∧ s.dstLen = 0#64
      ∧ runSteps ([(0xABC#32, 12#8), (1#32, 1#8)].map (fun x => .bwsWrite x.1 x.2) ++ [.bwsFinish]) s = .next t
      ∧ t.phase ≠ .fault ∧ u.between ∧ u.srcPos = 0#64 ∧ u.rcnt = 0#4 ∧ u.srcLen = t.dstLen
      ∧ Memory.readBytes u.src 0 u.srcLen.toNat = Memory.readBytes t.dst 0 t.dstLen.toNat := by
  obtain ⟨t, ht, hp⟩ := next_of
    (o := runSteps ([(0xABC#32, 12#8), (1#32, 1#8)].map (fun x => .bwsWrite x.1 x.2) ++ [.bwsFinish]) State.reset)
    (P := fun t => decide (t.phase ≠ .fault ∧ t.dstLen = 2#64
      ∧ Memory.readBytes t.dst 0 2 = some [0xBC#8, 0x1A#8])) (by decide +kernel)
  obtain ⟨h1, h2, h3⟩ := of_decide_eq_true hp
  refine ⟨State.reset, t, session .closed .compress .idle [0xBC#8, 0x1A#8], ?_, by decide +kernel,
    rfl, rfl, rfl, ht, h1, by decide +kernel, rfl, rfl, by rw [h2]; rfl, ?_⟩
  · intro x hx
    rcases List.mem_pair.mp hx with rfl | rfl <;> decide
  · rw [h2]
    exact Eq.trans (by decide +kernel : _ = some [0xBC#8, 0x1A#8]) h3.symm

/-- SopenOpensSession: operands at the ends of their sets and just outside. -/
theorem witness_SopenOpensSession :
    (1#8 ∈ [1#8, 2#8, 3#8] ∧ 0#8 ∈ [0#8, 1#8]) ∧ (3#8 ∈ [1#8, 2#8, 3#8] ∧ 1#8 ∈ [0#8, 1#8])
    ∧ ¬(0#8 ∈ [1#8, 2#8, 3#8] ∧ 0#8 ∈ [0#8, 1#8]) ∧ ¬(3#8 ∈ [1#8, 2#8, 3#8] ∧ 2#8 ∈ [0#8, 1#8]) := by decide

/-- EmptyCalls: an empty source with exactly the room needed, and V-A1 to read. -/
theorem witness_EmptyCalls :
    (∃ s : State, s.between ∧ s.codec = .huf ∧ s.mode = .compress ∧ s.srcLen = 0#64
      ∧ s.cfg.dstFits 0 (List.replicate 12 0#8).length = true)
    ∧ (∃ s : State, s.between ∧ s.codec = .art ∧ s.mode = .compress ∧ s.srcLen = 0#64
      ∧ s.cfg.dstFits 0 (List.replicate 8 0#8 ++ [1#8]).length = true)
    ∧ (∃ s : State, s.between ∧ s.codec = .lzw ∧ s.mode = .compress ∧ s.srcLen = 0#64
      ∧ s.cfg.dstFits 0 (List.replicate 11 0#8 ++ [8#8]).length = true)
    ∧ (∃ s : State, s.between ∧ s.codec = .huf ∧ s.mode = .decompress ∧ 12 ≤ s.srcLen.toNat
      ∧ Memory.readBytes s.src 0 12 = some (List.replicate 12 0#8))
    ∧ (∃ s : State, s.between ∧ s.codec = .art ∧ s.mode = .decompress ∧ 8 ≤ s.srcLen.toNat
      ∧ Memory.readBytes s.src 0 8 = some (List.replicate 8 0#8))
    ∧ ∃ s : State, s.between ∧ s.codec = .lzw ∧ s.mode = .decompress ∧ 12 ≤ s.srcLen.toNat
      ∧ Memory.readBytes s.src 0 12 = some (List.replicate 11 0#8 ++ [8#8]) :=
  ⟨⟨{ session .huf .compress .done [] with cfg := { Config.widest with dstCap := some 12 } }, by decide +kernel⟩,
    ⟨{ session .art .compress .idle [] with cfg := { Config.widest with dstCap := some 9 } }, by decide +kernel⟩,
    ⟨{ session .lzw .compress .idle [] with cfg := { Config.widest with dstCap := some 12 } }, by decide +kernel⟩,
    ⟨session .huf .decompress .idle (List.replicate 12 0#8), by decide +kernel⟩,
    ⟨session .art .decompress .done (List.replicate 8 0#8 ++ [1#8]), by decide +kernel⟩,
    ⟨session .lzw .decompress .idle (List.replicate 11 0#8 ++ [8#8]), by decide +kernel⟩⟩

/-- CompressIsItsSteps, DecompressIsItsSteps, ModeFlipsOnce. -/
theorem witness_CompressIsItsSteps :
    (∃ s : State, s.codec ≠ .closed ∧ s.mode = .compress ∧ s.between
      ∧ ∃ t, exec .compress s = .next t ∧ decide (t.phase ≠ .fault) = true)
    ∧ ∃ s : State, s.codec ≠ .closed ∧ s.mode = .decompress ∧ s.between
      ∧ ∃ t, exec .decompress s = .next t ∧ decide (t.phase = .done) = true :=
  ⟨⟨session .lzw .compress .idle [0x41#8], by decide +kernel, rfl, by decide +kernel, next_of (by decide +kernel)⟩,
    ⟨session .lzw .decompress .idle [0#8, 0#8, 0#8, 0#8, 0#8, 0#8, 0#8, 1#8, 0#8, 0#8, 0#8, 8#8, 0x41#8],
      by decide +kernel, rfl, by decide +kernel, next_of (by decide +kernel)⟩⟩

/-- HufCountTallies. -/
theorem witness_HufCountTallies :
    ∃ s : State, s.codec = .huf ∧ s.mode = .compress ∧ s.between ∧ s.srcLen.toNat ≤ 2 ^ 32 - 1
      ∧ Memory.readBytes s.src 0 s.srcLen.toNat = some [0#8, 0xFF#8, 0#8] :=
  ⟨session .huf .compress .idle [0#8, 0xFF#8, 0#8], by decide +kernel⟩

/-- HufBuildMakesTree: in either direction, with no leaf, and with the largest sum. -/
theorem witness_HufBuildMakesTree :
    (∃ s : State, s.codec = .huf ∧ s.phase = .hHdrr ∧ (s.huf.leaves.map fun l => l.weight.toNat).sum < 2 ^ 32)
    ∧ ∃ s : State, s.codec = .huf ∧ s.phase = .hCounted ∧ s.huf.leafCnt = 2
      ∧ (s.huf.leaves.map fun l => l.weight.toNat).sum = 2 ^ 32 - 1 :=
  ⟨⟨session .huf .decompress .hHdrr [], by decide +kernel⟩,
    ⟨{ session .huf .compress .hCounted [] with
        huf := { HufUnit.reset with
          leaf := leafSetAll HufUnit.reset.leaf 0 [⟨0#8, 0xFFFFFFFE#32⟩, ⟨1#8, 1#32⟩], leafCnt := 2 } },
      by decide +kernel⟩⟩

/-- The tree of AAAB is an ordered arena. -/
theorem treeAAAB_ok : ArenaOk treeAAAB (some 2) where
  older := by
    rintro i x hx hl
    match i, hx with
    | 0, hx => simp [treeAAAB] at hx; subst hx; simp at hl
    | 1, hx => simp [treeAAAB] at hx; subst hx; simp at hl
    | 2, hx => simp [treeAAAB] at hx; subst hx; simp
    | n + 3, hx => simp [treeAAAB] at hx
  top := by
    rintro r hr
    obtain rfl : 2 = r := by simpa using hr
    exact ⟨_, rfl, rfl⟩
  few := by decide

/-- HufCodesArePaths, HufWrhdrWritesHeader: the tree of AAAB; a full leaf list with exactly the room. -/
theorem witness_HufCodesArePaths :
    (∃ s : State, s.codec = .huf ∧ s.mode = .compress ∧ s.phase = .hBuilt ∧ ArenaOk s.huf.node s.huf.root)
    ∧ ∃ s : State, s.codec = .huf ∧ s.mode = .compress ∧ s.phase = .hCoded ∧ s.huf.leafCnt = 256
      ∧ s.room (12 + 5 * s.huf.leafCnt.val) :=
  ⟨⟨{ session .huf .compress .hBuilt [] with huf := { HufUnit.reset with node := treeAAAB, root := some 2 } },
      rfl, rfl, rfl, treeAAAB_ok⟩,
    ⟨{ session .huf .compress .hCoded [] with
        huf := { HufUnit.reset with leafCnt := 256 }, cfg := { Config.widest with dstCap := some 1292 } },
      by decide +kernel⟩⟩

/-- HufEncodeWritesBody: AAAB, one byte of DST left. -/
theorem witness_HufEncodeWritesBody :
    ∃ s : State, s.codec = .huf ∧ s.mode = .compress ∧ s.phase = .hHdrw ∧ s.writerOk
      ∧ Memory.readBytes s.src 0 s.srcLen.toNat = some [0x41#8, 0x41#8, 0x41#8, 0x42#8]
      ∧ (∀ b ∈ [0x41#8, 0x41#8, 0x41#8, 0x42#8], (tabGet s.huf.code b).isSome = true)
      ∧ s.room ((s.wcnt.toNat + (codedBits s.huf.code [0x41#8, 0x41#8, 0x41#8, 0x42#8]).length + 7) / 8) :=
  ⟨{ session .huf .compress .hHdrw [0x41#8, 0x41#8, 0x41#8, 0x42#8] with
      huf := { HufUnit.reset with code := codesAAAB }, cfg := { Config.widest with dstCap := some 1 } },
    by decide +kernel⟩

/-- HufRdhdrReadsHeader: the header of AAAB. -/
theorem witness_HufRdhdrReadsHeader :
    ∃ (s : State) (ls : List Leaf), s.codec = .huf ∧ s.mode = .decompress ∧ s.between ∧ ls.length ≤ 256
      ∧ ls.length = 2 ∧ 12 + 5 * ls.length ≤ s.srcLen.toNat
      ∧ Memory.readBytes s.src 0 (12 + 5 * ls.length) = some (hufHeader 4#64 ls) :=
  ⟨session .huf .decompress .idle [0#8, 0#8, 0#8, 0#8, 0#8, 0#8, 0#8, 4#8, 0#8, 0#8, 0#8, 2#8,
      0x41#8, 0#8, 0#8, 0#8, 3#8, 0x42#8, 0#8, 0#8, 0#8, 1#8],
    [⟨0x41#8, 3#32⟩, ⟨0x42#8, 1#32⟩], by decide +kernel⟩

/-- HufDecodeRecovers: the body of V-H1, from its third bit on, in the tree of AAAB. -/
theorem witness_HufDecodeRecovers :
    ∃ s : State, s.codec = .huf ∧ s.mode = .decompress ∧ s.phase = .hRebuilt
      ∧ ArenaOk s.huf.node s.huf.root
      ∧ (∀ x ∈ [([true], 0x41#8), ([false], 0x42#8)], isCode s.huf.node s.huf.root x.2 x.1)
      ∧ [([true], 0x41#8), ([false], 0x42#8)].length = s.origSize.toNat - s.dstLen.toNat
      ∧ s.nextBits ([([true], 0x41#8), ([false], 0x42#8)].flatMap Prod.fst)
      ∧ s.room [([true], 0x41#8), ([false], 0x42#8)].length := by
  refine ⟨{ session .huf .decompress .hRebuilt [7#8] with
      huf := { HufUnit.reset with node := treeAAAB, root := some 2 }, origSize := 4#64, dstLen := 2#64
      srcPos := 1#64, rbyte := 1#8, rcnt := 6#4 },
    rfl, rfl, rfl, treeAAAB_ok, ?_, by decide, by unfold State.nextBits; decide +kernel, by decide +kernel⟩
  intro x hx
  fin_cases hx
  · exact ⟨2, _, rfl, ⟨_, rfl, rfl, rfl, rfl⟩, rfl, rfl⟩
  · exact ⟨2, _, rfl, ⟨_, rfl, rfl, rfl, rfl⟩, rfl, rfl⟩

/-- HuffmanRoundTrip: one byte; its archive is V-H2. -/
theorem witness_HuffmanRoundTrip :
    ∃ s t u : State, s.codec = .huf ∧ s.mode = .compress ∧ s.between ∧ s.srcLen.toNat ≤ 2 ^ 32 - 1
      ∧ Memory.readBytes s.src 0 s.srcLen.toNat = some [0x41#8]
      ∧ s.cfg.dstFits 0 (1292 + 32 * [0x41#8].length) = true
      ∧ exec .compress s = .next t ∧ u.codec = .huf ∧ u.mode = .decompress ∧ u.between ∧ u.srcLen = t.dstLen
      ∧ Memory.readBytes u.src 0 u.srcLen.toNat = Memory.readBytes t.dst 0 t.dstLen.toNat
      ∧ u.cfg.dstFits 0 [0x41#8].length = true := by
  obtain ⟨t, ht, hp⟩ := next_of (o := exec .compress (session .huf .compress .idle [0x41#8]))
    (P := fun t => decide (t.dstLen = 18#64 ∧ Memory.readBytes t.dst 0 18
      = some [0#8, 0#8, 0#8, 0#8, 0#8, 0#8, 0#8, 1#8, 0#8, 0#8, 0#8, 1#8, 0x41#8, 0#8, 0#8, 0#8, 1#8, 1#8]))
    (by decide +kernel)
  obtain ⟨h1, h2⟩ := of_decide_eq_true hp
  refine ⟨session .huf .compress .idle [0x41#8], t, session .huf .decompress .idle
    [0#8, 0#8, 0#8, 0#8, 0#8, 0#8, 0#8, 1#8, 0#8, 0#8, 0#8, 1#8, 0x41#8, 0#8, 0#8, 0#8, 1#8, 1#8],
    rfl, rfl, by decide +kernel, by decide +kernel, by decide +kernel, by decide +kernel, ht, rfl, rfl,
    by decide +kernel, by rw [h1]; rfl, ?_, by decide +kernel⟩
  rw [h1]
  exact Eq.trans (by decide +kernel) h2.symm

/-- ArtInitModel, ArtHeader: a size to write with exactly the room, and V-A1 to read. -/
theorem witness_ArtHeader :
    (∃ s : State, s.codec = .art ∧ s.between)
    ∧ (∃ s : State, s.codec = .art ∧ s.phase = .aInit ∧ s.mode = .compress ∧ s.room 8)
    ∧ ∃ s : State, s.codec = .art ∧ s.phase = .aInit ∧ s.mode = .decompress
      ∧ s.srcPos.toNat + 8 ≤ s.srcLen.toNat ∧ memRead s.src s.srcPos.toNat 8 = some 0x0100000000000001 :=
  ⟨⟨session .art .compress .idle [], by decide +kernel⟩,
    ⟨{ session .art .compress .aInit [] with cfg := { Config.widest with dstCap := some 8 } }, by decide +kernel⟩,
    ⟨session .art .decompress .aInit [1#8, 0#8, 0#8, 0#8, 0#8, 0#8, 0#8, 1#8], by decide +kernel⟩⟩

/-- RoundsToNearestEven: a tie. -/
theorem witness_RoundsToNearestEven :
    0 < 1 ∧ (⟨2 ^ 53 + 2⟩ : F64).Valid ∧ (⟨2 ^ 53 + 2⟩ : F64) ≠ F64.round (2 ^ 53 + 1) 1
    ∧ (((2 ^ 53 + 1 : Nat) : Int) - (F64.round (2 ^ 53 + 1) 1).units * (1 : Nat)).natAbs
      = (((2 ^ 53 + 1 : Nat) : Int) - (⟨2 ^ 53 + 2⟩ : F64).units * (1 : Nat)).natAbs := by decide +kernel

/-- RenormalizesExactly: with HIGH at 1 and below. -/
theorem witness_RenormalizesExactly :
    ((⟨255 * 2 ^ 1066⟩ : F64).Valid ∧ F64.one.Valid ∧ F64.lt ⟨255 * 2 ^ 1066⟩ F64.one = true)
    ∧ (⟨65 * 2 ^ 1066⟩ : F64).Valid ∧ (⟨66 * 2 ^ 1066⟩ : F64).Valid
      ∧ F64.lt ⟨65 * 2 ^ 1066⟩ ⟨66 * 2 ^ 1066⟩ = true ∧ (⟨66 * 2 ^ 1066⟩ : F64) ≠ F64.one := by decide +kernel

/-- The bits of 0x41 in the initial model, as the renormalizer gives them (V-A2). -/
def renorm41 : Renorm := ⟨⟨2 ^ 1072⟩, ⟨2 ^ 1073⟩, [false, true, false, false, false, false]⟩

/-- ArtEncsymCodes: a symbol inside, with two bits pending and exactly the room. -/
theorem witness_ArtEncsymCodes :
    ∃ s : State, s.codec = .art ∧ s.mode = .compress ∧ s.phase = .aEnc ∧ s.writerOk
      ∧ s.srcPos.toNat < s.srcLen.toNat ∧ Memory.read s.src s.srcPos.toNat = some 0x41#8
      ∧ F64.lt (distLow s.art.dist 0x41#8) (distHigh s.art.dist 0x41#8) = true
      ∧ artRenorm (distLow s.art.dist 0x41#8) (distHigh s.art.dist 0x41#8) = some renorm41
      ∧ s.room ((s.wcnt.toNat + renorm41.bits.length) / 8) :=
  ⟨{ session .art .compress .aEnc [0x41#8] with
      art := fewBounds, wacc := 1#8, wcnt := 2#4, cfg := { Config.widest with dstCap := some 1 } },
    by decide +kernel⟩

/-- IntervalCollapse: a symbol of zero width, in either direction. -/
theorem witness_IntervalCollapse :
    (∃ s : State, s.codec = .art ∧ distLow s.art.dist 0x43#8 = distHigh s.art.dist 0x43#8 ∧ s.mode = .compress
      ∧ s.phase = .aEnc ∧ s.srcPos.toNat < s.srcLen.toNat ∧ Memory.read s.src s.srcPos.toNat = some 0x43#8)
    ∧ ∃ s : State, s.codec = .art ∧ distLow s.art.dist 0xFF#8 = distHigh s.art.dist 0xFF#8
      ∧ s.mode = .decompress ∧ s.phase = .aDec ∧ s.dstLen ≠ s.origSize ∧ searchGives s.art 0xFF#8
      ∧ F64.le (F64.fadd s.art.acc (F64.pow2neg s.art.exp)) (distHigh s.art.dist 0xFF#8) = true := by
  unfold searchGives
  exact ⟨⟨{ session .art .compress .aEnc [0x43#8] with art := fewBounds }, by decide +kernel⟩,
    ⟨{ session .art .decompress .aDec [] with origSize := 1#64, art := { ArtUnit.reset with exp := 1075 } },
      by decide +kernel⟩⟩

/-- ArtFlushEnds: the midpoint of [1/4, 1/2), with six bits pending. -/
theorem witness_ArtFlushEnds :
    ∃ s : State, s.codec = .art ∧ s.mode = .compress ∧ s.phase = .aEnc ∧ s.srcPos = s.srcLen ∧ s.writerOk
      ∧ F64.lt (F64.fdiv (F64.fadd s.art.low s.art.high) F64.two) F64.one = true
      ∧ expands (F64.fdiv (F64.fadd s.art.low s.art.high) F64.two) [false, true, true]
      ∧ s.room ((s.wcnt.toNat + [false, true, true].length + 7) / 8) := by
  unfold expands
  exact ⟨{ session .art .compress .aEnc [] with
      art := { ArtUnit.reset with low := ⟨2 ^ 1072⟩, high := ⟨2 ^ 1073⟩ }, wacc := 2#8, wcnt := 6#4
      cfg := { Config.widest with dstCap := some 2 } }, by decide +kernel⟩

/-- ArtDecstepCases: all symbols produced; 0x41 resolved with ACC + 2^-EXP at the boundary. -/
theorem witness_ArtDecstepCases_resolved :
    (∃ s : State, s.codec = .art ∧ s.mode = .decompress ∧ s.phase = .aDec ∧ s.dstLen = s.origSize)
    ∧ (∃ s : State, s.codec = .art ∧ s.mode = .decompress ∧ s.phase = .aDec ∧ s.dstLen ≠ s.origSize
      ∧ searchGives s.art 0x41#8
      ∧ F64.le (F64.fadd s.art.acc (F64.pow2neg s.art.exp)) (distHigh s.art.dist 0x41#8) = true
      ∧ F64.lt (distLow s.art.dist 0x41#8) (distHigh s.art.dist 0x41#8) = true
      ∧ artRenorm (distLow s.art.dist 0x41#8) (distHigh s.art.dist 0x41#8) = some renorm41
      ∧ renorm41.bits.length ≤ s.art.exp ∧ s.room 1)
    ∧ ∃ s : State, s.codec = .art ∧ s.mode = .decompress ∧ s.phase = .aDec ∧ s.dstLen ≠ s.origSize
      ∧ searchGives s.art 0xFF#8
      ∧ F64.le (F64.fadd s.art.acc (F64.pow2neg s.art.exp)) (distHigh s.art.dist 0xFF#8) = true
      ∧ F64.lt (distLow s.art.dist 0xFF#8) (distHigh s.art.dist 0xFF#8) = true
      ∧ artRenorm (distLow s.art.dist 0xFF#8) (distHigh s.art.dist 0xFF#8)
          = some ⟨F64.zero, F64.one, List.replicate 8 true⟩
      ∧ (List.replicate 8 true).length ≤ s.art.exp ∧ s.room 1 := by
  unfold searchGives
  exact ⟨⟨session .art .decompress .aDec [], by decide +kernel⟩,
    ⟨{ session .art .decompress .aDec [] with
        origSize := 1#64, art := { fewBounds with acc := ⟨65 * 2 ^ 1066⟩, exp := 8 } }, by decide +kernel⟩,
    ⟨{ session .art .decompress .aDec [] with
        origSize := 1#64, art := { fewBounds with acc := ⟨255 * 2 ^ 1066⟩, exp := 8 } }, by decide +kernel⟩⟩

/-- ArtDecstepCases: no symbol resolved, with a bit left and with none. -/
theorem witness_ArtDecstepCases_fold :
    (∃ s : State, s.codec = .art ∧ s.mode = .decompress ∧ s.phase = .aDec ∧ s.dstLen ≠ s.origSize
      ∧ searchGives s.art 0x40#8
      ∧ F64.le (F64.fadd s.art.acc (F64.pow2neg s.art.exp)) (distHigh s.art.dist 0x40#8) = false
      ∧ s.srcBit 0 = some true)
    ∧ ∃ s : State, s.codec = .art ∧ s.mode = .decompress ∧ s.phase = .aDec ∧ s.dstLen ≠ s.origSize
      ∧ searchGives s.art 0x40#8
      ∧ F64.le (F64.fadd s.art.acc (F64.pow2neg s.art.exp)) (distHigh s.art.dist 0x40#8) = false
      ∧ s.rcnt = 0#4 ∧ s.srcLen.toNat ≤ s.srcPos.toNat := by
  unfold searchGives
  exact ⟨⟨{ session .art .decompress .aDec [1#8] with origSize := 1#64, art := fewBounds }, by decide +kernel⟩,
    ⟨{ session .art .decompress .aDec [] with origSize := 1#64, art := fewBounds }, by decide +kernel⟩⟩

/-- An encoder about to code 0x41. -/
def lockEncoder : State :=
  { session .art .compress .aEnc [0x41#8] with art := { fewBounds with acc := ⟨65 * 2 ^ 1066⟩, exp := 8 } }

/-- A decoder about to give 0x41. -/
def lockDecoder : State :=
  { session .art .decompress .aDec [] with
    origSize := 1#64, art := { fewBounds with acc := ⟨65 * 2 ^ 1066⟩, exp := 8 } }

/-- ModelsInLockstep: 0x41 coded and decoded. -/
theorem witness_ModelsInLockstep :
    ∃ te td : State,
      (lockEncoder.codec = .art ∧ lockEncoder.mode = .compress ∧ lockEncoder.phase = .aEnc
        ∧ lockEncoder.srcPos.toNat < lockEncoder.srcLen.toNat)
      ∧ (lockDecoder.codec = .art ∧ lockDecoder.mode = .decompress ∧ lockDecoder.phase = .aDec)
      ∧ (lockEncoder.art.acnt = lockDecoder.art.acnt ∧ lockEncoder.art.atotal = lockDecoder.art.atotal
        ∧ lockEncoder.art.dist = lockDecoder.art.dist)
      ∧ exec .artEncsym lockEncoder = .next te ∧ te.phase ≠ .fault
      ∧ exec .artDecstep lockDecoder = .next td ∧ td.phase ≠ .fault ∧ td.dstLen ≠ lockDecoder.dstLen
      ∧ Memory.read lockEncoder.src lockEncoder.srcPos.toNat = some 0x41#8
      ∧ Memory.read td.dst lockDecoder.dstLen.toNat = some 0x41#8 := by
  obtain ⟨te, he, hp⟩ := next_of (o := exec .artEncsym lockEncoder)
    (P := fun t => decide (t.phase ≠ .fault)) (by decide +kernel)
  obtain ⟨td, hd, hq⟩ := next_of (o := exec .artDecstep lockDecoder)
    (P := fun t => decide (t.phase ≠ .fault ∧ t.dstLen ≠ 0#64 ∧ Memory.read t.dst 0 = some 0x41#8))
    (by decide +kernel)
  obtain ⟨h1, h2, h3⟩ := of_decide_eq_true hq
  exact ⟨te, td, by decide +kernel, by decide +kernel, ⟨rfl, rfl, rfl⟩, he, of_decide_eq_true hp, hd, h1, h2,
    by decide +kernel, h3⟩

/-- LzwInitEmpty, LzwEncbyteExtends: no phrase yet, a known extension, a new one in a dictionary with one
place left. -/
theorem witness_LzwEncbyteExtends :
    (∃ s : State, s.codec = .lzw ∧ s.between)
    ∧ (∃ s : State, s.codec = .lzw ∧ s.mode = .compress ∧ s.phase = .lInit ∧ s.srcPos.toNat < s.srcLen.toNat
      ∧ Memory.read s.src s.srcPos.toNat = some 0x41#8 ∧ s.lzw.phrase = [])
    ∧ (∃ s : State, s.codec = .lzw ∧ s.mode = .compress ∧ s.phase = .lScan ∧ s.srcPos.toNat < s.srcLen.toNat
      ∧ Memory.read s.src s.srcPos.toNat = some 0x42#8 ∧ s.lzw.phrase ≠ []
      ∧ s.lzw.phrase ++ [0x42#8] ∈ s.lzw.dict)
    ∧ ∃ s : State, s.codec = .lzw ∧ s.mode = .compress ∧ s.phase = .lScan ∧ s.srcPos.toNat < s.srcLen.toNat
      ∧ Memory.read s.src s.srcPos.toNat = some 0x41#8 ∧ s.lzw.phrase ++ [0x41#8] ∉ s.lzw.dict
      ∧ codewordIs s.lzw s.lzw.phrase 256#32
      ∧ s.cfg.codebufFits s.lzw.codebuf.length = true ∧ s.lzw.dict.length < s.cfg.dictLimit := by
  refine ⟨⟨session .lzw .compress .idle [], by decide +kernel⟩,
    ⟨session .lzw .compress .lInit [0x41#8], by decide +kernel⟩,
    ⟨{ session .lzw .compress .lScan [0x42#8] with
        lzw := { LzwUnit.reset with dict := [[0x41#8, 0x42#8]], phrase := [0x41#8] } }, by decide +kernel⟩,
    ⟨{ session .lzw .compress .lScan [0x41#8] with
        lzw := { LzwUnit.reset with dict := [[0x41#8, 0x42#8]], phrase := [0x41#8, 0x42#8] }
        cfg := ⟨none, 2, some 1⟩ }, rfl, rfl, rfl, by decide +kernel, by decide +kernel, by decide +kernel,
      .inr ⟨by decide, 0, rfl, by omega, by decide⟩, by decide +kernel, by decide +kernel⟩⟩

/-- LzwEnceofFlushes: no phrase left, and a byte left with one place in the code buffer. -/
theorem witness_LzwEnceofFlushes :
    (∃ s : State, s.codec = .lzw ∧ s.mode = .compress ∧ s.phase = .lInit ∧ s.srcPos = s.srcLen
      ∧ s.lzw.phrase = [])
    ∧ ∃ s : State, s.codec = .lzw ∧ s.mode = .compress ∧ s.phase = .lScan ∧ s.srcPos = s.srcLen
      ∧ codewordIs s.lzw s.lzw.phrase 0xFF#32 ∧ s.cfg.codebufFits s.lzw.codebuf.length = true :=
  ⟨⟨session .lzw .compress .lInit [], by decide +kernel⟩,
    ⟨{ session .lzw .compress .lScan [] with
        lzw := { LzwUnit.reset with phrase := [0xFF#8] }, cfg := ⟨none, 0, some 1⟩ },
      rfl, rfl, rfl, rfl, .inl ⟨0xFF#8, rfl, by decide⟩, by decide +kernel⟩⟩

/-- LzwWidthRoundsUp, LzwHeader, LzwEmitPacks: exactly the room needed; a legal width to read. -/
theorem witness_LzwHeader :
    (∃ s : State, s.codec = .lzw ∧ s.mode = .compress ∧ s.phase = .lScanned
      ∧ s.lzw.dict.length ≤ 2 ^ 32 - 256)
    ∧ (∃ s : State, s.codec = .lzw ∧ s.mode = .compress ∧ s.phase = .lWidth ∧ s.room 12)
    ∧ (∃ s : State, s.codec = .lzw ∧ s.mode = .decompress ∧ s.phase = .lInit
      ∧ s.srcPos.toNat + 12 ≤ s.srcLen.toNat ∧ memRead s.src s.srcPos.toNat 8 = some 7
      ∧ memRead s.src (s.srcPos.toNat + 8) 4 = some 32 ∧ 32 ∈ [8, 12, 16, 20, 24, 28, 32])
    ∧ ∃ s : State, s.codec = .lzw ∧ s.mode = .compress ∧ s.phase = .lHdrw ∧ s.writerOk
      ∧ s.lzw.codebuf.length = 1
      ∧ s.room ((s.wcnt.toNat + s.lzw.width.toNat * s.lzw.codebuf.length + 7) / 8) :=
  ⟨⟨session .lzw .compress .lScanned [], by decide +kernel⟩,
    ⟨{ session .lzw .compress .lWidth [] with cfg := { Config.widest with dstCap := some 12 } }, by decide +kernel⟩,
    ⟨session .lzw .decompress .lInit [0#8, 0#8, 0#8, 0#8, 0#8, 0#8, 0#8, 7#8, 0#8, 0#8, 0#8, 32#8],
      by decide +kernel⟩,
    ⟨{ session .lzw .compress .lHdrw [] with
        lzw := { LzwUnit.reset with codebuf := [65#32], width := 12#6 }
        cfg := { Config.widest with dstCap := some 2 } }, by decide +kernel⟩⟩

/-- LzwDeccodeDecodes: nothing due; a literal, a stored phrase and the phrase about to be defined, with
exactly the bytes due. -/
theorem witness_LzwDeccodeDecodes :
    (∃ s : State, s.codec = .lzw ∧ s.mode = .decompress ∧ s.phase = .lDec ∧ s.origSize.toNat ≤ s.dstLen.toNat)
    ∧ (∃ s : State, s.codec = .lzw ∧ s.mode = .decompress ∧ s.phase = .lDec
      ∧ s.lzw.width.toNat ∈ Config.lzwWidths ∧ (∀ n, n < s.lzw.width.toNat → (s.srcBit n).isSome = true)
      ∧ phraseIs s.lzw (s.codewordAt s.lzw.width.toNat) [0xFF#8]
      ∧ s.dstLen.toNat + [0xFF#8].length ≤ s.origSize.toNat ∧ s.room [0xFF#8].length)
    ∧ (∃ s : State, s.codec = .lzw ∧ s.mode = .decompress ∧ s.phase = .lDec
      ∧ s.lzw.width.toNat ∈ Config.lzwWidths ∧ (∀ n, n < s.lzw.width.toNat → (s.srcBit n).isSome = true)
      ∧ phraseIs s.lzw (s.codewordAt s.lzw.width.toNat) [0x41#8, 0x42#8]
      ∧ s.dstLen.toNat + [0x41#8, 0x42#8].length ≤ s.origSize.toNat ∧ s.room [0x41#8, 0x42#8].length
      ∧ s.lzw.havePrev = true ∧ s.lzw.dict.length < s.cfg.dictLimit)
    ∧ ∃ s : State, s.codec = .lzw ∧ s.mode = .decompress ∧ s.phase = .lDec
      ∧ s.lzw.width.toNat ∈ Config.lzwWidths ∧ (∀ n, n < s.lzw.width.toNat → (s.srcBit n).isSome = true)
      ∧ phraseIs s.lzw (s.codewordAt s.lzw.width.toNat) [0x41#8, 0x41#8]
      ∧ s.dstLen.toNat + [0x41#8, 0x41#8].length ≤ s.origSize.toNat ∧ s.room [0x41#8, 0x41#8].length
      ∧ s.lzw.havePrev = true ∧ s.lzw.dict.length < s.cfg.dictLimit :=
  ⟨⟨session .lzw .decompress .lDec [], by decide +kernel⟩,
    ⟨{ session .lzw .decompress .lDec [0xFF#8] with
        origSize := 1#64, lzw := { LzwUnit.reset with width := 8#6 }, cfg := ⟨some 1, 0, none⟩ },
      rfl, rfl, rfl, by decide +kernel, by decide +kernel, .inl ⟨by decide +kernel, by decide +kernel⟩,
      by decide +kernel, by decide +kernel⟩,
    ⟨{ session .lzw .decompress .lDec [0#8, 1#8] with
        origSize := 2#64
        lzw := { LzwUnit.reset with
          width := 12#6, dict := [[0x41#8, 0x42#8]], prev := [0x43#8], havePrev := true }
        cfg := ⟨some 2, 2, none⟩ },
      rfl, rfl, rfl, by decide +kernel, by decide +kernel, .inr (.inl ⟨by decide +kernel, by decide +kernel⟩),
      by decide +kernel, by decide +kernel, rfl, by decide +kernel⟩,
    ⟨{ session .lzw .decompress .lDec [0#8, 1#8] with
        origSize := 2#64
        lzw := { LzwUnit.reset with width := 12#6, prev := [0x41#8], havePrev := true }
        cfg := ⟨some 2, 1, none⟩ },
      rfl, rfl, rfl, by decide +kernel, by decide +kernel,
      .inr (.inr ⟨by decide +kernel, rfl, 0x41#8, [], rfl, rfl⟩),
      by decide +kernel, by decide +kernel, rfl, by decide +kernel⟩⟩

/-- LzwRoundTrip: one byte; its archive has width 8. -/
theorem witness_LzwRoundTrip :
    ∃ s t u : State, s.codec = .lzw ∧ s.mode = .compress ∧ s.between
      ∧ Memory.readBytes s.src 0 s.srcLen.toNat = some [0x41#8]
      ∧ [0x41#8].length ≤ s.cfg.dictLimit ∧ (∀ k, k < [0x41#8].length → s.cfg.codebufFits k = true)
      ∧ s.cfg.dstFits 0 (12 + 4 * [0x41#8].length) = true
      ∧ exec .compress s = .next t ∧ u.codec = .lzw ∧ u.mode = .decompress ∧ u.between ∧ u.srcLen = t.dstLen
      ∧ Memory.readBytes u.src 0 u.srcLen.toNat = Memory.readBytes t.dst 0 t.dstLen.toNat
      ∧ [0x41#8].length ≤ u.cfg.dictLimit ∧ u.cfg.dstFits 0 [0x41#8].length = true := by
  obtain ⟨t, ht, hp⟩ := next_of (o := exec .compress (session .lzw .compress .idle [0x41#8]))
    (P := fun t => decide (t.dstLen = 13#64 ∧ Memory.readBytes t.dst 0 13
      = some [0#8, 0#8, 0#8, 0#8, 0#8, 0#8, 0#8, 1#8, 0#8, 0#8, 0#8, 8#8, 0x41#8])) (by decide +kernel)
  obtain ⟨h1, h2⟩ := of_decide_eq_true hp
  refine ⟨session .lzw .compress .idle [0x41#8], t, session .lzw .decompress .idle
    [0#8, 0#8, 0#8, 0#8, 0#8, 0#8, 0#8, 1#8, 0#8, 0#8, 0#8, 8#8, 0x41#8],
    rfl, rfl, by decide +kernel, by decide +kernel, by decide +kernel, by decide +kernel, by decide +kernel,
    ht, rfl, rfl, by decide +kernel, by rw [h1]; rfl, ?_, by decide +kernel, by decide +kernel⟩
  rw [h1]
  exact Eq.trans (by decide +kernel) h2.symm

/-- StepKeepsStreams: pending bits, a byte of SRC, a write at the port. -/
theorem witness_StepKeepsStreams :
    ∃ s : State, memoryOk s ∧ packerOk s ∧ ∃ t, step s = .next t ∧ decide (t.wcnt = 3#4) = true :=
  ⟨{ session .closed .compress .idle [0x41#8, 0#8] with
      wacc := 5#8, wcnt := 3#4, rbyte := 0x3F#8, rcnt := 6#4, port := [.command 0x0000005500000811#64] },
    by decide +kernel, by decide +kernel, next_of (by decide +kernel)⟩

/-- StepKeepsSession: a call under way, and a call that failed. -/
theorem witness_StepKeepsSession :
    (∃ s : State, sessionOk s ∧ s.phase = .hCounted ∧ ∃ t, step s = .next t ∧ decide (t.phase = .hBuilt) = true)
    ∧ ∃ s : State, sessionOk s ∧ s.phase = .fault ∧ ∃ t, step s = .next t ∧ t.cmderr = true :=
  ⟨⟨{ session .huf .compress .hCounted [] with port := [.command 0x21#64] }, ⟨rfl, rfl⟩, rfl,
      next_of (by decide +kernel)⟩,
    ⟨{ session .huf .compress .fault [] with err := .ioFailure, port := [.command 0x02#64] }, .inr rfl, rfl,
      next_of (by decide +kernel)⟩⟩

/-- StepKeepsTree: the tree of AAAB, its codes about to be made. -/
theorem witness_StepKeepsTree :
    ∃ s : State, huffmanOk s.huf ∧ s.huf.root = some 2
      ∧ ∃ t, step s = .next t ∧ decide (tabGet t.huf.code 0x41#8 = some [true]) = true := by
  refine ⟨{ session .huf .compress .hBuilt [] with
      huf := { HufUnit.reset with node := treeAAAB, root := some 2 }, port := [.command 0x22#64] },
    ⟨by decide, treeAAAB_ok, fun c p h => ?_⟩, rfl, next_of (by decide +kernel)⟩
  simp [tabGet, HufUnit.reset] at h

/-- StepKeepsArithmeticModel: the initial counts in an empty interval, ART.INIT at the port. -/
theorem witness_StepKeepsArithmeticModel :
    ∃ s : State, modelOk s.art ∧ s.art.atotal = 256
      ∧ ∃ t, step s = .next t ∧ decide (t.art.high = F64.one) = true := by
  refine ⟨{ session .art .compress .idle [0x41#8] with
      art := { ArtUnit.reset with acnt := Vector.replicate 256 1, atotal := 256 }, port := [.command 0x30#64] },
    ?_, rfl, next_of (by decide +kernel)⟩
  refine ⟨by decide +kernel, ⟨by decide +kernel, fun j h => ?_⟩, fun j h => ?_, fun j h => ?_, by decide +kernel,
    by decide +kernel, by decide +kernel, by decide +kernel⟩
  all_goals
    simp only [ArtUnit.reset, Vector.getElem_replicate]
    decide +kernel

/-- StepKeepsDictionary: a dictionary, a phrase of it, a codeword. -/
theorem witness_StepKeepsDictionary :
    ∃ s : State, dictionaryOk s ∧ s.lzw.dict ≠ []
      ∧ ∃ t, step s = .next t ∧ decide (t.lzw.dict.length = 2) = true := by
  refine ⟨{ session .lzw .compress .lScan [0x41#8] with
      lzw := { LzwUnit.reset with
        dict := [[0x41#8, 0x42#8]], phrase := [0x41#8, 0x42#8], codebuf := [65#32, 66#32] }
      port := [.command 0x41#64] }, ?_, by decide +kernel, next_of (by decide +kernel)⟩
  refine ⟨by decide +kernel, by decide +kernel, by decide +kernel, fun c hc => ?_, by decide +kernel,
    by decide +kernel, by decide +kernel, by decide +kernel⟩
  rcases List.mem_pair.mp hc with rfl | rfl <;> decide +kernel

/-! ### UNSPEC points and calls that end with IOFailure -/

/-- The tree of one symbol: its leaf, the dummy, the root. -/
def treeLone : List Node :=
  [⟨true, false, 0x41#8, 1#32, 0, 0⟩, ⟨true, true, 0#8, 0#32, 0, 0⟩, ⟨false, false, 0#8, 1#32, 1, 0⟩]

/-- The tree of one symbol is an ordered arena. -/
theorem treeLone_ok : ArenaOk treeLone (some 2) where
  older := by
    rintro i x hx hl
    match i, hx with
    | 0, hx => simp [treeLone] at hx; subst hx; simp at hl
    | 1, hx => simp [treeLone] at hx; subst hx; simp at hl
    | 2, hx => simp [treeLone] at hx; subst hx; simp
    | n + 3, hx => simp [treeLone] at hx
  top := by
    rintro r hr
    obtain rfl : 2 = r := by simpa using hr
    exact ⟨_, rfl, rfl⟩
  few := by decide

/-- UnspecPoints, HUF.BUILD: the least sum that leaves u32. -/
theorem witness_UnspecPoints_overflow :
    ∃ s : State, s.codec = .huf ∧ (s.phase = .hCounted ∨ s.phase = .hHdrr)
      ∧ (s.huf.leaves.map fun l => l.weight.toNat).sum = 2 ^ 32 :=
  ⟨{ session .huf .decompress .hHdrr [] with
      huf := { HufUnit.reset with
        leaf := leafSetAll HufUnit.reset.leaf 0 [⟨0#8, 0xFFFFFFFF#32⟩, ⟨1#8, 1#32⟩], leafCnt := 2 } },
    by decide +kernel⟩

/-- UnspecPoints, HUF.ENCODE: the second byte has no code. -/
theorem witness_UnspecPoints_uncoded :
    ∃ s : State, s.codec = .huf ∧ s.mode = .compress ∧ s.phase = .hHdrw ∧ s.writerOk
      ∧ [0x41#8].length < s.srcLen.toNat
      ∧ Memory.readBytes s.src 0 ([0x41#8].length + 1) = some ([0x41#8] ++ [0x43#8])
      ∧ (∀ c ∈ [0x41#8], (tabGet s.huf.code c).isSome = true) ∧ tabGet s.huf.code 0x43#8 = none
      ∧ s.room ((s.wcnt.toNat + (codedBits s.huf.code [0x41#8]).length) / 8) :=
  ⟨{ session .huf .compress .hHdrw [0x41#8, 0x43#8] with
      huf := { HufUnit.reset with code := codesAAAB }, cfg := { Config.widest with dstCap := some 0 } },
    by decide +kernel⟩

/-- UnspecPoints, HUF.DECODE: a bit 0 leads to the dummy. -/
theorem witness_UnspecPoints_dummy :
    ∃ (s : State) (x : Node), s.codec = .huf ∧ s.mode = .decompress ∧ s.phase = .hRebuilt
      ∧ ArenaOk s.huf.node s.huf.root
      ∧ (∀ y ∈ [([true], 0x41#8)], isCode s.huf.node s.huf.root y.2 y.1)
      ∧ s.huf.root = some 2 ∧ leadsTo s.huf.node 2 [false] x ∧ x.dummy = true
      ∧ [([true], 0x41#8)].length < s.origSize.toNat - s.dstLen.toNat
      ∧ s.nextBits ([([true], 0x41#8)].flatMap Prod.fst ++ [false]) ∧ s.room [([true], 0x41#8)].length := by
  refine ⟨{ session .huf .decompress .hRebuilt [1#8] with
      huf := { HufUnit.reset with node := treeLone, root := some 2 }, origSize := 2#64 },
    _, rfl, rfl, rfl, treeLone_ok, ?_, rfl, ⟨_, rfl, rfl, rfl, rfl⟩, rfl, by decide,
    by unfold State.nextBits; decide +kernel, by decide +kernel⟩
  intro y hy
  obtain rfl := List.mem_singleton.mp hy
  exact ⟨2, _, rfl, ⟨_, rfl, rfl, rfl, rfl⟩, rfl, rfl⟩

/-- UnspecPoints, ART.DECSTEP: LOW has a longer expansion than the bits folded. -/
theorem witness_UnspecPoints_count :
    ∃ s : State, s.codec = .art ∧ s.mode = .decompress ∧ s.phase = .aDec ∧ s.dstLen ≠ s.origSize
      ∧ searchGives s.art 0xFF#8
      ∧ F64.le (F64.fadd s.art.acc (F64.pow2neg s.art.exp)) (distHigh s.art.dist 0xFF#8) = true
      ∧ F64.lt (distLow s.art.dist 0xFF#8) (distHigh s.art.dist 0xFF#8) = true
      ∧ artRenorm (distLow s.art.dist 0xFF#8) (distHigh s.art.dist 0xFF#8)
          = some ⟨F64.zero, F64.one, [true, false, true]⟩
      ∧ s.art.exp < [true, false, true].length ∧ s.room 1 := by
  unfold searchGives
  exact ⟨{ session .art .decompress .aDec [] with
      origSize := 1#64
      art := { ArtUnit.reset with
        dist := ⟨⟨List.replicate 255 F64.zero ++ [⟨5 * 2 ^ 1071⟩, F64.one]⟩, by decide +kernel⟩
        acc := ⟨5 * 2 ^ 1071⟩, exp := 2 } }, by decide +kernel⟩

/-- UnspecPoints, LZW.ENCBYTE and LZW.ENCEOF: a full dictionary, a full code buffer. -/
theorem witness_UnspecPoints_capacity :
    (∃ s : State, s.codec = .lzw ∧ s.mode = .compress ∧ (s.phase = .lInit ∨ s.phase = .lScan)
      ∧ s.srcPos.toNat < s.srcLen.toNat ∧ Memory.read s.src s.srcPos.toNat = some 0x41#8
      ∧ s.lzw.phrase ++ [0x41#8] ∉ s.lzw.dict ∧ codewordIs s.lzw s.lzw.phrase 0x42#32
      ∧ s.cfg.codebufFits s.lzw.codebuf.length = true ∧ s.cfg.dictLimit ≤ s.lzw.dict.length)
    ∧ (∃ s : State, s.codec = .lzw ∧ s.mode = .compress ∧ (s.phase = .lInit ∨ s.phase = .lScan)
      ∧ s.srcPos.toNat < s.srcLen.toNat ∧ Memory.read s.src s.srcPos.toNat = some 0x41#8
      ∧ s.lzw.phrase ≠ [] ∧ s.lzw.phrase ++ [0x41#8] ∉ s.lzw.dict
      ∧ s.cfg.codebufFits s.lzw.codebuf.length = false)
    ∧ ∃ s : State, s.codec = .lzw ∧ s.mode = .compress ∧ (s.phase = .lInit ∨ s.phase = .lScan)
      ∧ s.srcPos = s.srcLen ∧ s.lzw.phrase ≠ [] ∧ s.cfg.codebufFits s.lzw.codebuf.length = false :=
  ⟨⟨{ session .lzw .compress .lScan [0x41#8] with
        lzw := { LzwUnit.reset with phrase := [0x42#8] }, cfg := ⟨none, 0, some 1⟩ },
      rfl, rfl, by decide, by decide +kernel, by decide +kernel, by decide +kernel,
      .inl ⟨0x42#8, rfl, by decide⟩, by decide +kernel, by decide +kernel⟩,
    ⟨{ session .lzw .compress .lScan [0x41#8] with
        lzw := { LzwUnit.reset with phrase := [0x42#8], codebuf := [1#32] }, cfg := ⟨none, 0, some 1⟩ },
      by decide +kernel⟩,
    ⟨{ session .lzw .compress .lScan [] with
        lzw := { LzwUnit.reset with phrase := [0x42#8] }, cfg := ⟨none, 0, some 0⟩ }, by decide +kernel⟩⟩

/-- UnspecPoints, LZW.DECCODE: a phrase one byte past ORIG_SIZE, and a full dictionary. -/
theorem witness_UnspecPoints_deccode :
    (∃ s : State, s.codec = .lzw ∧ s.mode = .decompress ∧ s.phase = .lDec ∧ s.dstLen.toNat < s.origSize.toNat
      ∧ s.lzw.width.toNat ∈ Config.lzwWidths ∧ (∀ n, n < s.lzw.width.toNat → (s.srcBit n).isSome = true)
      ∧ phraseIs s.lzw (s.codewordAt s.lzw.width.toNat) [0x41#8, 0x42#8]
      ∧ s.origSize.toNat + 1 = s.dstLen.toNat + [0x41#8, 0x42#8].length)
    ∧ ∃ s : State, s.codec = .lzw ∧ s.mode = .decompress ∧ s.phase = .lDec ∧ s.dstLen.toNat < s.origSize.toNat
      ∧ s.lzw.width.toNat ∈ Config.lzwWidths ∧ (∀ n, n < s.lzw.width.toNat → (s.srcBit n).isSome = true)
      ∧ phraseIs s.lzw (s.codewordAt s.lzw.width.toNat) [0x41#8, 0x42#8]
      ∧ s.dstLen.toNat + [0x41#8, 0x42#8].length ≤ s.origSize.toNat ∧ s.room [0x41#8, 0x42#8].length
      ∧ s.lzw.havePrev = true ∧ s.cfg.dictLimit ≤ s.lzw.dict.length :=
  ⟨⟨{ session .lzw .decompress .lDec [0#8, 1#8] with
        origSize := 1#64, lzw := { LzwUnit.reset with width := 12#6, dict := [[0x41#8, 0x42#8]] } },
      rfl, rfl, rfl, by decide, by decide +kernel, by decide +kernel,
      .inr (.inl ⟨by decide +kernel, by decide +kernel⟩), by decide +kernel⟩,
    ⟨{ session .lzw .decompress .lDec [0#8, 1#8] with
        origSize := 2#64
        lzw := { LzwUnit.reset with
          width := 12#6, dict := [[0x41#8, 0x42#8]], prev := [0x43#8], havePrev := true }
        cfg := ⟨some 2, 1, none⟩ },
      rfl, rfl, rfl, by decide, by decide +kernel, by decide +kernel,
      .inr (.inl ⟨by decide +kernel, by decide +kernel⟩), by decide +kernel, by decide +kernel, rfl,
      by decide +kernel⟩⟩

/-- HufWrhdrWritesHeader, ArtHeader, LzwHeader: the last field does not fit, or not even the first. -/
theorem witness_HeaderOutOfRoom :
    (∃ s : State, s.codec = .huf ∧ s.mode = .compress ∧ s.phase = .hCoded
      ∧ fieldsCut s (hufFields s.origSize s.huf.leaves) ((hufFields 4#64 [⟨0x41#8, 3#32⟩, ⟨0x42#8, 1#32⟩]).take 5))
    ∧ (∃ s : State, s.codec = .huf ∧ s.mode = .compress ∧ s.phase = .hCoded
      ∧ fieldsCut s (hufFields s.origSize s.huf.leaves) [])
    ∧ (∃ s : State, s.codec = .art ∧ s.mode = .compress ∧ s.phase = .aInit ∧ s.full 8)
    ∧ ∃ s : State, s.codec = .lzw ∧ s.mode = .compress ∧ s.phase = .lWidth
      ∧ fieldsCut s [beBytes 8 s.origSize.toNat, beBytes 4 s.lzw.width.toNat] [beBytes 8 s.origSize.toNat] :=
  ⟨⟨{ session .huf .compress .hCoded [] with
        huf := leavesAAAB, origSize := 4#64, cfg := { Config.widest with dstCap := some 21 } },
      rfl, rfl, rfl, [0#8, 0#8, 0#8, 1#8], [], by decide +kernel, by decide +kernel, by decide +kernel⟩,
    ⟨{ session .huf .compress .hCoded [] with cfg := { Config.widest with dstCap := some 7 } },
      rfl, rfl, rfl, List.replicate 8 0#8, [List.replicate 4 0#8], by decide +kernel, by decide +kernel,
      by decide +kernel⟩,
    ⟨{ session .art .compress .aInit [] with cfg := { Config.widest with dstCap := some 7 } }, by decide +kernel⟩,
    ⟨{ session .lzw .compress .lWidth [] with cfg := { Config.widest with dstCap := some 11 } },
      rfl, rfl, rfl, _, [], rfl, by decide +kernel, by decide +kernel⟩⟩

/-- HufEncodeWritesBody, ArtEncsymCodes, ArtFlushEnds, LzwEmitPacks: the first byte of the body does not
fit. -/
theorem witness_BodyOutOfRoom :
    (∃ s : State, s.codec = .huf ∧ s.mode = .compress ∧ s.phase = .hHdrw ∧ s.writerOk
      ∧ (List.replicate 7 0x41#8).length < s.srcLen.toNat
      ∧ Memory.readBytes s.src 0 ((List.replicate 7 0x41#8).length + 1)
          = some (List.replicate 7 0x41#8 ++ [0x42#8])
      ∧ (∀ c ∈ List.replicate 7 0x41#8 ++ [0x42#8], (tabGet s.huf.code c).isSome = true)
      ∧ (s.wcnt.toNat + (codedBits s.huf.code (List.replicate 7 0x41#8)).length) / 8 ≤ 0
      ∧ 0 < (s.wcnt.toNat + (codedBits s.huf.code (List.replicate 7 0x41#8 ++ [0x42#8])).length) / 8
      ∧ s.room 0 ∧ s.full (0 + 1))
    ∧ (∃ s : State, s.codec = .art ∧ s.mode = .compress ∧ s.phase = .aEnc ∧ s.writerOk
      ∧ s.srcPos.toNat < s.srcLen.toNat ∧ Memory.read s.src s.srcPos.toNat = some 0x41#8
      ∧ F64.lt (distLow s.art.dist 0x41#8) (distHigh s.art.dist 0x41#8) = true
      ∧ artRenorm (distLow s.art.dist 0x41#8) (distHigh s.art.dist 0x41#8) = some renorm41
      ∧ 0 < (s.wcnt.toNat + renorm41.bits.length) / 8 ∧ s.room 0 ∧ s.full (0 + 1))
    ∧ (∃ s : State, s.codec = .art ∧ s.mode = .compress ∧ s.phase = .aEnc ∧ s.srcPos = s.srcLen ∧ s.writerOk
      ∧ F64.lt (F64.fdiv (F64.fadd s.art.low s.art.high) F64.two) F64.one = true
      ∧ expands (F64.fdiv (F64.fadd s.art.low s.art.high) F64.two) [false, true, true]
      ∧ 0 < (s.wcnt.toNat + [false, true, true].length) / 8 ∧ s.room 0 ∧ s.full (0 + 1))
    ∧ ∃ s : State, s.codec = .lzw ∧ s.mode = .compress ∧ s.phase = .lHdrw ∧ s.writerOk
      ∧ 0 < (s.wcnt.toNat + s.lzw.width.toNat * s.lzw.codebuf.length) / 8 ∧ s.room 0 ∧ s.full (0 + 1) := by
  unfold expands
  exact ⟨⟨{ session .huf .compress .hHdrw (List.replicate 7 0x41#8 ++ [0x42#8]) with
        huf := { HufUnit.reset with code := codesAAAB }, cfg := { Config.widest with dstCap := some 0 } },
      by decide +kernel⟩,
    ⟨{ session .art .compress .aEnc [0x41#8] with
        art := fewBounds, wacc := 1#8, wcnt := 2#4, cfg := { Config.widest with dstCap := some 0 } },
      by decide +kernel⟩,
    ⟨{ session .art .compress .aEnc [] with
        art := { ArtUnit.reset with low := ⟨2 ^ 1072⟩, high := ⟨2 ^ 1073⟩ }, wacc := 2#8, wcnt := 6#4
        cfg := { Config.widest with dstCap := some 0 } }, by decide +kernel⟩,
    ⟨{ session .lzw .compress .lHdrw [] with
        lzw := { LzwUnit.reset with codebuf := [65#32], width := 12#6 }
        cfg := { Config.widest with dstCap := some 0 } }, by decide +kernel⟩⟩

/-- HufEncodeWritesBody, ArtFlushEnds, LzwEmitPacks: the padded last byte alone does not fit. -/
theorem witness_PaddingOutOfRoom :
    (∃ s : State, s.codec = .huf ∧ s.mode = .compress ∧ s.phase = .hHdrw ∧ s.writerOk
      ∧ Memory.readBytes s.src 0 s.srcLen.toNat = some [0x41#8]
      ∧ (∀ b ∈ [0x41#8], (tabGet s.huf.code b).isSome = true)
      ∧ s.room ((s.wcnt.toNat + (codedBits s.huf.code [0x41#8]).length) / 8)
      ∧ (s.wcnt.toNat + (codedBits s.huf.code [0x41#8]).length) % 8 ≠ 0
      ∧ s.full ((s.wcnt.toNat + (codedBits s.huf.code [0x41#8]).length) / 8 + 1))
    ∧ (∃ s : State, s.codec = .art ∧ s.mode = .compress ∧ s.phase = .aEnc ∧ s.srcPos = s.srcLen ∧ s.writerOk
      ∧ F64.lt (F64.fdiv (F64.fadd s.art.low s.art.high) F64.two) F64.one = true
      ∧ expands (F64.fdiv (F64.fadd s.art.low s.art.high) F64.two) [false, true, true]
      ∧ s.room ((s.wcnt.toNat + [false, true, true].length) / 8)
      ∧ (s.wcnt.toNat + [false, true, true].length) % 8 ≠ 0
      ∧ s.full ((s.wcnt.toNat + [false, true, true].length) / 8 + 1))
    ∧ ∃ s : State, s.codec = .lzw ∧ s.mode = .compress ∧ s.phase = .lHdrw ∧ s.writerOk
      ∧ s.room ((s.wcnt.toNat + s.lzw.width.toNat * s.lzw.codebuf.length) / 8)
      ∧ (s.wcnt.toNat + s.lzw.width.toNat * s.lzw.codebuf.length) % 8 ≠ 0
      ∧ s.full ((s.wcnt.toNat + s.lzw.width.toNat * s.lzw.codebuf.length) / 8 + 1) := by
  unfold expands
  exact ⟨⟨{ session .huf .compress .hHdrw [0x41#8] with
        huf := { HufUnit.reset with code := codesAAAB }, cfg := { Config.widest with dstCap := some 0 } },
      by decide +kernel⟩,
    ⟨{ session .art .compress .aEnc [] with
        art := { ArtUnit.reset with low := ⟨2 ^ 1072⟩, high := ⟨2 ^ 1073⟩ }, wacc := 2#8, wcnt := 6#4
        cfg := { Config.widest with dstCap := some 1 } }, by decide +kernel⟩,
    ⟨{ session .lzw .compress .lHdrw [] with
        lzw := { LzwUnit.reset with codebuf := [65#32], width := 12#6 }
        cfg := { Config.widest with dstCap := some 1 } }, by decide +kernel⟩⟩

/-- HufRdhdrReadsHeader, ArtHeader, LzwHeader: one byte short of the size, of the next field, of a record;
no byte of a record. -/
theorem witness_HeaderTruncated :
    (∃ s : State, s.codec = .huf ∧ s.mode = .decompress ∧ s.between ∧ s.srcLen.toNat < 8)
    ∧ (∃ s : State, s.codec = .huf ∧ s.mode = .decompress ∧ s.between ∧ 8 ≤ s.srcLen.toNat
      ∧ s.srcLen.toNat < 12 ∧ memRead s.src 0 8 = some 4)
    ∧ (∃ (s : State) (ls : List Leaf) (rest : List Byte), s.codec = .huf ∧ s.mode = .decompress ∧ s.between
      ∧ 2 ≤ 256 ∧ ls.length < 2 ∧ rest.length < 5 ∧ rest.length = 4
      ∧ Memory.readBytes s.src 0 s.srcLen.toNat
        = some (beBytes 8 (4#64).toNat ++ beBytes 4 2
            ++ (ls.flatMap fun l => l.sym :: beBytes 4 l.weight.toNat) ++ rest))
    ∧ (∃ s : State, s.codec = .huf ∧ s.mode = .decompress ∧ s.between
      ∧ Memory.readBytes s.src 0 s.srcLen.toNat
        = some (beBytes 8 (4#64).toNat ++ beBytes 4 1
            ++ (([] : List Leaf).flatMap fun l => l.sym :: beBytes 4 l.weight.toNat) ++ []))
    ∧ (∃ s : State, s.codec = .art ∧ s.mode = .decompress ∧ s.phase = .aInit
      ∧ s.srcLen.toNat < s.srcPos.toNat + 8)
    ∧ (∃ s : State, s.codec = .lzw ∧ s.mode = .decompress ∧ s.phase = .lInit
      ∧ s.srcLen.toNat < s.srcPos.toNat + 8)
    ∧ ∃ s : State, s.codec = .lzw ∧ s.mode = .decompress ∧ s.phase = .lInit
      ∧ s.srcPos.toNat + 8 ≤ s.srcLen.toNat ∧ s.srcLen.toNat < s.srcPos.toNat + 12
      ∧ memRead s.src s.srcPos.toNat 8 = some 4 :=
  ⟨⟨session .huf .decompress .idle (List.replicate 7 0#8), by decide +kernel⟩,
    ⟨session .huf .decompress .idle (beBytes 8 4 ++ [0#8, 0#8, 0#8]), by decide +kernel⟩,
    ⟨session .huf .decompress .done (beBytes 8 4 ++ [0#8, 0#8, 0#8, 2#8, 0x41#8, 0#8, 0#8, 0#8, 3#8]
        ++ [0x42#8, 0#8, 0#8, 0#8]), [⟨0x41#8, 3#32⟩], [0x42#8, 0#8, 0#8, 0#8], by decide +kernel⟩,
    ⟨session .huf .decompress .idle (beBytes 8 4 ++ [0#8, 0#8, 0#8, 1#8]), by decide +kernel⟩,
    ⟨session .art .decompress .aInit (List.replicate 7 0#8), by decide +kernel⟩,
    ⟨session .lzw .decompress .lInit (List.replicate 7 0#8), by decide +kernel⟩,
    ⟨session .lzw .decompress .lInit (beBytes 8 4 ++ [0#8, 0#8, 0#8]), by decide +kernel⟩⟩

/-- SRC with no byte left can be read to its end. -/
theorem srcIntact_of_atEnd {s : State} (hr : s.readerOk) (he : s.srcPos = s.srcLen) : s.srcIntact :=
  ⟨hr, by rw [he], fun k h1 h2 => absurd h2 (by rw [he] at h1; omega)⟩

/-- HufDecodeRecovers, LzwDeccodeDecodes: SRC ends after one symbol, and inside a codeword. -/
theorem witness_BodyTruncated :
    (∃ (s : State) (x : Node), s.codec = .huf ∧ s.mode = .decompress ∧ s.phase = .hRebuilt
      ∧ ArenaOk s.huf.node s.huf.root
      ∧ (∀ y ∈ [([true], 0x41#8)], isCode s.huf.node s.huf.root y.2 y.1) ∧ s.room [([true], 0x41#8)].length
      ∧ [([true], 0x41#8)].length < s.origSize.toNat - s.dstLen.toNat ∧ s.srcIntact
      ∧ s.nextBits ([([true], 0x41#8)].flatMap Prod.fst ++ [])
      ∧ s.bitsLeft = ([([true], 0x41#8)].flatMap Prod.fst ++ []).length
      ∧ s.huf.root = some 2 ∧ [true] ≠ [] ∧ leadsTo s.huf.node 2 ([] ++ [true]) x)
    ∧ ∃ s : State, s.codec = .lzw ∧ s.mode = .decompress ∧ s.phase = .lDec ∧ s.dstLen.toNat < s.origSize.toNat
      ∧ s.srcIntact ∧ s.bitsLeft < s.lzw.width.toNat := by
  refine ⟨⟨{ session .huf .decompress .hRebuilt [] with
      huf := { HufUnit.reset with node := treeLone, root := some 2 }, origSize := 2#64, rbyte := 1#8, rcnt := 1#4 },
      _, rfl, rfl, rfl, treeLone_ok, ?_, by decide +kernel, by decide,
      srcIntact_of_atEnd (by decide +kernel) (by decide +kernel), by unfold State.nextBits; decide +kernel,
      by decide +kernel, rfl, by decide, ⟨_, rfl, rfl, rfl, rfl⟩⟩,
    ⟨{ session .lzw .decompress .lDec [] with
        origSize := 1#64, rbyte := 1#8, rcnt := 4#4, lzw := { LzwUnit.reset with width := 12#6 } },
      rfl, rfl, rfl, by decide, srcIntact_of_atEnd (by decide +kernel) (by decide +kernel), by decide +kernel⟩⟩
  intro y hy
  obtain rfl := List.mem_singleton.mp hy
  exact ⟨2, _, rfl, ⟨_, rfl, rfl, rfl, rfl⟩, rfl, rfl⟩

/-- HufDecodeRecovers, ArtDecstepCases, LzwDeccodeDecodes: the symbol, or the second byte of the phrase,
does not fit. -/
theorem witness_SymbolOutOfRoom :
    (∃ s : State, s.codec = .huf ∧ s.mode = .decompress ∧ s.phase = .hRebuilt ∧ ArenaOk s.huf.node s.huf.root
      ∧ s.room 0 ∧ 0 < s.origSize.toNat - s.dstLen.toNat ∧ isCode s.huf.node s.huf.root 0x41#8 [true]
      ∧ s.nextBits [true] ∧ s.full (0 + 1))
    ∧ (∃ s : State, s.codec = .art ∧ s.mode = .decompress ∧ s.phase = .aDec ∧ s.dstLen ≠ s.origSize
      ∧ searchGives s.art 0x41#8
      ∧ F64.le (F64.fadd s.art.acc (F64.pow2neg s.art.exp)) (distHigh s.art.dist 0x41#8) = true
      ∧ F64.lt (distLow s.art.dist 0x41#8) (distHigh s.art.dist 0x41#8) = true ∧ s.full 1)
    ∧ ∃ s : State, s.codec = .lzw ∧ s.mode = .decompress ∧ s.phase = .lDec
      ∧ s.lzw.width.toNat ∈ Config.lzwWidths ∧ (∀ n, n < s.lzw.width.toNat → (s.srcBit n).isSome = true)
      ∧ phraseIs s.lzw (s.codewordAt s.lzw.width.toNat) [0x41#8, 0x42#8]
      ∧ s.dstLen.toNat + [0x41#8, 0x42#8].length ≤ s.origSize.toNat
      ∧ 1 < [0x41#8, 0x42#8].length ∧ s.room 1 ∧ s.full (1 + 1) := by
  unfold searchGives
  exact ⟨⟨{ session .huf .decompress .hRebuilt [1#8] with
        huf := { HufUnit.reset with node := treeLone, root := some 2 }, origSize := 1#64
        cfg := { Config.widest with dstCap := some 0 } },
      rfl, rfl, rfl, treeLone_ok, by decide +kernel, by decide, ⟨2, _, rfl, ⟨_, rfl, rfl, rfl, rfl⟩, rfl, rfl⟩,
      by unfold State.nextBits; decide +kernel, by decide +kernel⟩,
    ⟨{ session .art .decompress .aDec [] with
        origSize := 1#64, art := { fewBounds with acc := ⟨65 * 2 ^ 1066⟩, exp := 8 }
        cfg := { Config.widest with dstCap := some 0 } }, by decide +kernel⟩,
    ⟨{ session .lzw .decompress .lDec [0#8, 1#8] with
        origSize := 2#64, lzw := { LzwUnit.reset with width := 12#6, dict := [[0x41#8, 0x42#8]] }
        cfg := ⟨some 1, 2, none⟩ },
      rfl, rfl, rfl, by decide +kernel, by decide +kernel, .inr (.inl ⟨by decide +kernel, by decide +kernel⟩),
      by decide +kernel, by decide, by decide +kernel, by decide +kernel⟩⟩

end Sys2Proof.Tests
end

section
/-! A rounding is the nearest binary64 number, ties to even (spec/00_scope.md rules R8, R15).  The
rounding takes the nearest multiple of `2^e`, where `e` is the excess of the quotient; a binary64 number
that is no such multiple lies below `2^52 * 2^e`, the lowest multiple with 53 significant bits, which
the quotient reaches. -/

namespace Sys2Proof

/-- How far `u` units lie from the quotient `num / den`, in units of `1 / den`. -/
def F64.gap (num den u : Nat) : Nat := ((num : Int) - u * den).natAbs

/-- The gap of a multiple of `2^e`, measured from the quotient and remainder by that unit. -/
theorem F64.gap_scaled (num den e k : Nat) :
    F64.gap num den (k * 2 ^ e)
      = (((num / (den * 2 ^ e) : Nat) - k : Int) * (den * 2 ^ e : Nat)
          + (num % (den * 2 ^ e) : Nat)).natAbs := by
  have hnum : ((den * 2 ^ e : Nat) : Int) * (num / (den * 2 ^ e) : Nat) + (num % (den * 2 ^ e) : Nat)
      = num := by exact_mod_cast Nat.div_add_mod num (den * 2 ^ e)
  unfold F64.gap
  rw [← hnum]
  congr 1
  push_cast
  ring

/-- The rounded quotient is less than half a unit away, or half a unit away and even. -/
theorem F64.roundAt_gap {num den : Nat} (e : Nat) (hden : 0 < den) :
    2 * F64.gap num den (F64.roundAt num den e * 2 ^ e) < den * 2 ^ e
    ∨ 2 * F64.gap num den (F64.roundAt num den e * 2 ^ e) = den * 2 ^ e
      ∧ F64.roundAt num den e % 2 = 0 := by
  rw [F64.gap_scaled]
  unfold F64.roundAt
  dsimp only
  have hr : num % (den * 2 ^ e) < den * 2 ^ e := Nat.mod_lt _ (by positivity)
  generalize den * 2 ^ e = d at hr ⊢
  generalize num / d = q, num % d = r at hr ⊢
  split
  case isTrue hup =>
    simp only [Bool.or_eq_true, decide_eq_true_eq, Bool.and_eq_true, beq_iff_eq] at hup
    rw [show ((q : Int) - (q + 1 : Nat)) * d + r = r - d by push_cast; ring]
    omega
  case isFalse hdown =>
    simp only [Bool.or_eq_true, decide_eq_true_eq, Bool.and_eq_true, beq_iff_eq] at hdown
    rw [show ((q : Int) - q) * d + r = r by ring]
    omega

/-- Two different multiples of `2^e` are at least one unit apart, so their gaps add up to a unit. -/
theorem F64.unit_le_gap_add_gap (num den e : Nat) {j k : Nat} (h : j ≠ k) :
    den * 2 ^ e ≤ F64.gap num den (j * 2 ^ e) + F64.gap num den (k * 2 ^ e) := by
  have hapart : den * 2 ^ e ≤ (((j : Int) - k) * (den * 2 ^ e : Nat)).natAbs := by
    rw [Int.natAbs_mul]
    exact Nat.le_mul_of_pos_left _ (by omega)
  have hdiff : ((j : Int) - k) * (den * 2 ^ e : Nat)
      = ((num : Int) - (k * 2 ^ e : Nat) * den) - ((num : Int) - (j * 2 ^ e : Nat) * den) := by
    push_cast
    ring
  unfold F64.gap
  omega

/-- Among the multiples of `2^e` the rounded quotient is nearest, and even where another is as near. -/
theorem F64.roundAt_nearest {num den : Nat} (e k : Nat) (hden : 0 < den) :
    F64.gap num den (F64.roundAt num den e * 2 ^ e) ≤ F64.gap num den (k * 2 ^ e)
    ∧ (k ≠ F64.roundAt num den e →
        F64.gap num den (F64.roundAt num den e * 2 ^ e) = F64.gap num den (k * 2 ^ e) →
        F64.roundAt num den e % 2 = 0) := by
  have hhalf := F64.roundAt_gap (num := num) e hden
  by_cases hk : k = F64.roundAt num den e
  · subst hk
    exact ⟨Nat.le_refl _, fun hne => absurd rfl hne⟩
  · have hunit := F64.unit_le_gap_add_gap num den e hk
    omega

/-- A quotient that is shortened keeps 53 significant bits. -/
theorem F64.le_of_excess_pos {q : Nat} (h : 0 < F64.excess q) : 2 ^ 52 * 2 ^ F64.excess q ≤ q := by
  have hne : q ≠ 0 := by
    rintro rfl
    simp [F64.excess] at h
  have hlog : 52 + F64.excess q = q.log2 := by
    unfold F64.excess at h ⊢
    omega
  rw [← Nat.pow_add, hlog]
  exact Nat.log2_self_le hne

/-- A binary64 number from `2^52 * 2^e` up is a multiple of `2^e`. -/
theorem F64.Valid.dvd_of_le {y : F64} {e : Nat} (hy : y.Valid) (h : 2 ^ 52 * 2 ^ e ≤ y.units) :
    2 ^ e ∣ y.units := by
  have he : e ≤ F64.excess y.units := by
    have hmono := F64.excess_mono h
    rw [← Nat.pow_add] at hmono
    unfold F64.excess at hmono ⊢
    rw [Nat.log2_two_pow] at hmono
    omega
  exact (Nat.pow_dvd_pow 2 he).trans (Nat.dvd_of_mod_eq_zero hy)

/-- At most 53 significant bits in units of `2^e` are not shortened beyond `2^e`. -/
theorem F64.excess_scaled_le {n : Nat} (e : Nat) (h : n < 2 ^ 53) : F64.excess (n * 2 ^ e) ≤ e := by
  rcases Nat.eq_zero_or_pos n with rfl | hpos
  · simp [F64.excess]
  · have hlt : n * 2 ^ e < 2 ^ (53 + e) := by
      rw [Nat.pow_add]
      exact Nat.mul_lt_mul_of_pos_right h (by positivity)
    have hlog := (Nat.log2_lt (by positivity)).2 hlt
    unfold F64.excess
    omega

/-- An even number of units of `2^e` has an even significand, also where it has carried to `2^53`. -/
theorem F64.significand_even {n : Nat} (e : Nat) (hn : n ≤ 2 ^ 53) (heven : n % 2 = 0) :
    n * 2 ^ e / 2 ^ F64.excess (n * 2 ^ e) % 2 = 0 := by
  rcases Nat.lt_or_eq_of_le hn with hlt | rfl
  · have hle := F64.excess_scaled_le e hlt
    rw [Nat.mul_div_assoc _ (Nat.pow_dvd_pow 2 hle), Nat.mul_mod, heven, Nat.zero_mul, Nat.zero_mod]
  · have hexc : F64.excess (2 ^ (53 + e)) = e + 1 := by
      unfold F64.excess
      rw [Nat.log2_two_pow]
      omega
    rw [← Nat.pow_add, hexc, Nat.pow_div (by omega) (by omega), show 53 + e - (e + 1) = 52 by omega]

/-- A rounding leaves at most 53 significant bits, `2^53` included. -/
theorem F64.roundAt_le_two_pow (num den : Nat) :
    F64.roundAt num den (F64.excess (num / den)) ≤ 2 ^ 53 := by
  have hup := (F64.roundAt_bounds num den (F64.excess (num / den))).2
  have hlt := F64.quot_lt (num / den)
  rw [Nat.div_div_eq_div_mul] at hlt
  omega

/-- Below the quotient, a smaller number is farther away. -/
theorem F64.gap_lt_gap {num den u v : Nat} (hden : 0 < den) (huv : u < v) (hv : v ≤ num / den) :
    F64.gap num den v < F64.gap num den u := by
  have hnum : v * den ≤ num := (Nat.le_div_iff_mul_le hden).1 hv
  have hlt : u * den < v * den := Nat.mul_lt_mul_of_pos_right huv hden
  unfold F64.gap
  omega

/-- A binary64 number that is no multiple of the rounding's unit is farther away than the rounded one. -/
theorem F64.gap_round_lt_of_not_dvd {num den : Nat} {y : F64} (hden : 0 < den) (hy : y.Valid)
    (hdvd : ¬2 ^ F64.excess (num / den) ∣ y.units) :
    F64.gap num den (F64.round num den).units < F64.gap num den y.units := by
  have hpos : 0 < F64.excess (num / den) := by
    refine Nat.pos_of_ne_zero fun h0 => hdvd ?_
    rw [h0]
    exact Nat.one_dvd _
  have hbelow : y.units < 2 ^ 52 * 2 ^ F64.excess (num / den) :=
    Nat.lt_of_not_le fun h => hdvd (hy.dvd_of_le h)
  calc F64.gap num den (F64.round num den).units
      ≤ F64.gap num den (2 ^ 52 * 2 ^ F64.excess (num / den)) := (F64.roundAt_nearest _ _ hden).1
    _ < F64.gap num den y.units := F64.gap_lt_gap hden hbelow (F64.le_of_excess_pos hpos)

/-- No binary64 number is nearer than the rounded one, and where another is as near, the rounded one has
the even significand. -/
theorem F64.round_nearest {num den : Nat} {y : F64} (hden : 0 < den) (hy : y.Valid) :
    F64.gap num den (F64.round num den).units ≤ F64.gap num den y.units
    ∧ (y ≠ F64.round num den →
        F64.gap num den (F64.round num den).units = F64.gap num den y.units →
        (F64.round num den).units / 2 ^ F64.excess (F64.round num den).units % 2 = 0) := by
  by_cases hdvd : 2 ^ F64.excess (num / den) ∣ y.units
  · obtain ⟨k, hk⟩ := hdvd
    rw [Nat.mul_comm] at hk
    obtain ⟨hnear, heven⟩ := F64.roundAt_nearest (num := num) (F64.excess (num / den)) k hden
    rw [← hk] at hnear heven
    refine ⟨hnear, fun hne heq => ?_⟩
    refine F64.significand_even _ (F64.roundAt_le_two_pow num den) (heven ?_ heq)
    rintro rfl
    exact hne (congrArg F64.mk hk)
  · have hfar := F64.gap_round_lt_of_not_dvd hden hy hdvd
    exact ⟨hfar.le, fun _ heq => absurd heq hfar.ne⟩

/-- Settles O40: the rounded number is nearest among the multiples of its unit, and every other binary64
number is farther away. -/
theorem roundsToNearestEven : Obligations.RoundsToNearestEven := by
  unfold Obligations.RoundsToNearestEven
  intro num den hden
  exact ⟨F64.round_valid num den, fun y hy => F64.round_nearest hden hy⟩

end Sys2Proof
end

section
/-! What an action of the sequencer leads to, in the words of a postcondition: one for the state at its
end and one for the state at a `raise`.  A stop at an UNSPEC point or on a broken rule gives no next state,
so nothing is said about it (spec/60_exceptions.md rules R316, R317, R319). -/

namespace Sys2Proof.Machine

variable {α β : Type}

/-- From `s`, the action ends with `Q` or raises with `E`, or no next state comes of it.  The lemmas below say
what it is for each action; no proof evaluates the action. -/
@[irreducible] def Act.Leads (m : Act α) (Q : α → State → Prop) (E : ErrKind → State → Prop) (s : State) : Prop :=
  match m s with
  | .ok a t => Q a t
  | .error (.raise k) t => E k t
  | .error _ _ => True

section leads
variable {Q Q' : α → State → Prop} {E E' : ErrKind → State → Prop} {s t : State}

@[simp] theorem Act.leads_pure (a : α) : (pure a : Act α).Leads Q E s ↔ Q a s := by
  simp [Act.Leads]

@[simp] theorem Act.leads_state {Q : State → State → Prop} : Act.state.Leads Q E s ↔ Q s s := by
  simp [Act.Leads]

@[simp] theorem Act.leads_write {Q : Unit → State → Prop} (f : State → State) :
    (Act.write f).Leads Q E s ↔ Q () (f s) := by
  simp [Act.Leads]

@[simp] theorem Act.leads_raise (k : ErrKind) : (Act.raise k : Act α).Leads Q E s ↔ E k s := by
  simp [Act.Leads]

@[simp] theorem Act.leads_unspec (r : Refusal) : (Act.unspec r : Act α).Leads Q E s := by
  simp [Act.Leads]

@[simp] theorem Act.leads_broken (f : Fault) : (Act.broken f : Act α).Leads Q E s := by
  simp [Act.Leads]

/-- Two actions, one after the other: what the first leads to leads on to the rest. -/
@[simp] theorem Act.leads_bind {Q : β → State → Prop} (m : Act α) (f : α → Act β) :
    (m >>= f).Leads Q E s ↔ m.Leads (fun a t => (f a).Leads Q E t) E s := by
  unfold Act.Leads
  rw [Act.bind_apply]
  cases m s with
  | ok a t => rfl
  | error e t => cases e <;> rfl

theorem Act.Leads.mono {m : Act α} (h : m.Leads Q E s) (hq : ∀ a t, Q a t → Q' a t)
    (he : ∀ k t, E k t → E' k t) : m.Leads Q' E' s := by
  unfold Act.Leads at h ⊢
  split
  · rename_i e
    rw [e] at h
    exact hq _ _ h
  · rename_i e
    rw [e] at h
    exact he _ _ h
  · trivial

/-- Two actions that do the same from `s` lead to the same. -/
theorem Act.leads_congr {m m' : Act α} (h : m s = m' s) : m.Leads Q E s ↔ m'.Leads Q E s := by
  unfold Act.Leads
  rw [h]

theorem Act.Leads.of_ok {m : Act α} (h : m.Leads Q E s) {a : α} (e : m s = .ok a t) : Q a t := by
  unfold Act.Leads at h
  rwa [e] at h

theorem Act.Leads.of_raise {m : Act α} (h : m.Leads Q E s) {k : ErrKind}
    (e : m s = .error (.raise k) t) : E k t := by
  unfold Act.Leads at h
  rwa [e] at h

/-- What an action keeps, it leads to. -/
theorem Act.Keeps.leads {R : State → State → Prop} {m : Act α} (h : Act.Keeps R m) (s : State) :
    m.Leads (fun _ t => R s t) (fun _ t => R s t) s := by
  have hs := h s
  unfold Act.Leads
  cases e : m s with
  | ok a t => simpa [e] using hs
  | error x t => cases x <;> simp_all

end leads

/-! ### Invariants of actions -/

/-- The action keeps the invariant `P`, at its end as at a `raise`. -/
structure Act.Preserves (P : State → Prop) (m : Act α) : Prop where
  leads : ∀ s, P s → m.Leads (fun _ => P) (fun _ => P) s

section preserves
variable {P : State → Prop}

theorem Act.Preserves.pure (a : α) : Act.Preserves P (pure a : Act α) :=
  ⟨fun _ h => (Act.leads_pure a).2 h⟩

theorem Act.Preserves.unspec (r : Refusal) : Act.Preserves P (Act.unspec r : Act α) := 
  ⟨fun _ _ => Act.leads_unspec r⟩

theorem Act.Preserves.write {f : State → State} (h : ∀ s, P s → P (f s)) :
    Act.Preserves P (Act.write f) := ⟨fun s hs => (Act.leads_write f).2 (h s hs)⟩

theorem Act.Preserves.bind {m : Act α} {f : α → Act β} (hm : Act.Preserves P m)
    (hf : ∀ a, Act.Preserves P (f a)) : Act.Preserves P (m >>= f) := ⟨fun s h => by
  rw [Act.leads_bind]
  exact (hm.leads s h).mono (fun a t ht => (hf a).leads t ht) fun _ _ ht => ht⟩

/-- An action that reads the state first: the rest may rest on the state it read. -/
theorem Act.Preserves.get {f : State → Act α}
    (h : ∀ s, P s → (f s).Leads (fun _ => P) (fun _ => P) s) : Act.Preserves P (Act.state >>= f) :=
  ⟨fun s hs => by
    rw [Act.leads_bind, Act.leads_state]
    exact h s hs⟩

/-- An action that reads the state first and needs nothing of what it read. -/
theorem Act.Preserves.read {f : State → Act α} (h : ∀ s, Act.Preserves P (f s)) :
    Act.Preserves P (Act.state >>= f) := .get fun s hs => (h s).leads s hs

theorem Act.Preserves.times {m : Act Unit} (hm : Act.Preserves P m) (n : Nat) :
    Act.Preserves P (Act.times m n) := by
  induction n with
  | zero => exact .pure ()
  | succ n ih => exact .bind hm fun _ => ih

theorem Act.Preserves.loop {m : Act Unit} (hm : Act.Preserves P m) (go : State → Bool) (n : Nat) :
    Act.Preserves P (Act.while go m n) := by
  induction n with
  | zero =>
    refine .get fun s hs => ?_
    split
    · exact Act.leads_unspec _
    · exact (Act.leads_pure _).2 hs
  | succ n ih =>
    refine .get fun s hs => ?_
    split
    · exact (Act.Preserves.bind hm fun _ => ih).leads s hs
    · exact (Act.leads_pure _).2 hs

/-- What an action keeps carries the invariant on. -/
theorem Act.Keeps.preserves {R : State → State → Prop} {m : Act α} (h : Act.Keeps R m)
    (hp : ∀ s t, R s t → P s → P t) : Act.Preserves P m := ⟨fun s hs =>
  (h.leads s).mono (fun _ t ht => hp s t ht hs) fun _ t ht => hp s t ht hs⟩

end preserves

end Sys2Proof.Machine
end

section
/-! What the pseudocode of a command may do between the begin and the end of a call, said once for every
command: which registers stay, that DST only grows (R72), that SRC_POS stays within SRC (R32), that the
memories and the packer stay sound (R35, R36, R70), and which errors may be raised (R312, R313). -/

namespace Sys2Proof.Machine

/-- Between the begin and the end of a call of codec `c`: the session, the errors, COMP_SIZE, SRC, SRC_LEN,
the parameters, the port and the units of the other codecs stay; DST is only appended to; SRC_POS stays
within SRC; DST stays canonical and the read side of the packer sound. -/
structure CallPart (c : Codec) (s t : State) : Prop where
  rest : t = { s with
    phase := t.phase, result := t.result, origSize := t.origSize, srcPos := t.srcPos, dstLen := t.dstLen,
    wacc := t.wacc, wcnt := t.wcnt, rbyte := t.rbyte, rcnt := t.rcnt, huf := t.huf, art := t.art,
    lzw := t.lzw, dst := t.dst }
  huf : c ≠ .huf → t.huf = s.huf
  art : c ≠ .art → t.art = s.art
  lzw : c ≠ .lzw → t.lzw = s.lzw
  grows : s.dstLen.toNat ≤ t.dstLen.toNat
  outside : DstOutside s t
  cursor : s.srcPos.toNat ≤ s.srcLen.toNat → t.srcPos.toNat ≤ t.srcLen.toNat
  canonical : Memory.wf s.dst → Memory.wf t.dst
  reader : s.readerOk → t.readerOk

namespace CallPart
variable {c : Codec} {s t u : State}

theorem codec (h : CallPart c s t) : t.codec = s.codec := by rw [h.rest]
theorem mode (h : CallPart c s t) : t.mode = s.mode := by rw [h.rest]
theorem err (h : CallPart c s t) : t.err = s.err := by rw [h.rest]
theorem cmderr (h : CallPart c s t) : t.cmderr = s.cmderr := by rw [h.rest]
theorem compSize (h : CallPart c s t) : t.compSize = s.compSize := by rw [h.rest]
theorem srcLen (h : CallPart c s t) : t.srcLen = s.srcLen := by rw [h.rest]
theorem src (h : CallPart c s t) : t.src = s.src := by rw [h.rest]
theorem cfg (h : CallPart c s t) : t.cfg = s.cfg := by rw [h.rest]

theorem refl (c : Codec) (s : State) : CallPart c s s where
  rest := rfl
  huf _ := rfl
  art _ := rfl
  lzw _ := rfl
  grows := Nat.le_refl _
  outside _ _ := rfl
  cursor := id
  canonical := id
  reader := id

theorem trans (h : CallPart c s t) (k : CallPart c t u) : CallPart c s u where
  rest := by rw [k.rest, h.rest]
  huf hc := (k.huf hc).trans (h.huf hc)
  art hc := (k.art hc).trans (h.art hc)
  lzw hc := (k.lzw hc).trans (h.lzw hc)
  grows := h.grows.trans k.grows
  outside a ha := by
    have hg := h.grows
    have kg := k.grows
    rw [k.outside a (by omega), h.outside a (by omega)]
  cursor := k.cursor ∘ h.cursor
  canonical := k.canonical ∘ h.canonical
  reader := k.reader ∘ h.reader

/-- What a stream operation does, with the soundness of cursor, memory and reader. -/
theorem of_streams (h : Streams s t) (hcur : s.srcPos.toNat ≤ s.srcLen.toNat → t.srcPos.toNat ≤ s.srcLen.toNat)
    (hwf : Memory.wf s.dst → Memory.wf t.dst) (hrd : s.readerOk → t.readerOk) : CallPart c s t where
  rest := by rw [h.rest]
  huf _ := by rw [h.rest]
  art _ := by rw [h.rest]
  lzw _ := by rw [h.rest]
  grows := h.grows
  outside := h.outside
  cursor := by rw [show t.srcLen = s.srcLen by rw [h.rest]]; exact hcur
  canonical := hwf
  reader := hrd


/-- A change of PHASE, RESULT and ORIG_SIZE, and of the codec's own unit. -/
theorem of_registers {s : State} (p : Phase) (r o : U64) {h : HufUnit} {a : ArtUnit} {l : LzwUnit}
    (hh : c ≠ .huf → h = s.huf) (ha : c ≠ .art → a = s.art) (hl : c ≠ .lzw → l = s.lzw) :
    CallPart c s { s with phase := p, result := r, origSize := o, huf := h, art := a, lzw := l } where
  rest := rfl
  huf := hh
  art := ha
  lzw := hl
  grows := Nat.le_refl _
  outside _ _ := rfl
  cursor := id
  canonical := id
  reader := id

theorem clearReader (c : Codec) (s : State) : CallPart c s s.clearReader :=
  of_streams ⟨rfl, Nat.le_refl _, fun _ _ => rfl⟩ id id fun _ => ⟨by simp, by simp⟩

/-- The packer's own commands and accesses are part of a call of every codec. -/
theorem of_closed (h : CallPart .closed s t) : CallPart c s t :=
  { h with
    huf := fun _ => h.huf nofun
    art := fun _ => h.art nofun
    lzw := fun _ => h.lzw nofun }

end CallPart

/-- The error kinds that end a call (R312, R313). -/
def ErrKind.fatal (k : ErrKind) : Prop := k = .modelPrecision ∨ k = .ioFailure

/-- The action is part of a call of codec `c`, it keeps the write side of the packer sound when it goes to
its end, and it raises only what ends a call. -/
structure Act.Part {α : Type} (c : Codec) (m : Act α) : Prop where
  leads : ∀ s, m.Leads (fun _ t => CallPart c s t ∧ (s.writerOk → t.writerOk))
    (fun k t => k.fatal ∧ CallPart c s t) s

namespace Act.Part
variable {α β : Type} {c : Codec}

theorem pure (a : α) : Act.Part c (pure a : Act α) :=
  ⟨fun s => (Act.leads_pure a).2 ⟨CallPart.refl c s, id⟩⟩

theorem state : Act.Part c Act.state := ⟨fun s => Act.leads_state.2 ⟨CallPart.refl c s, id⟩⟩

theorem raise {k : ErrKind} (hk : k.fatal) : Act.Part c (Act.raise k : Act α) :=
  ⟨fun s => (Act.leads_raise k).2 ⟨hk, CallPart.refl c s⟩⟩

theorem unspec (r : Refusal) : Act.Part c (Act.unspec r : Act α) := ⟨fun _ => Act.leads_unspec r⟩

theorem write {f : State → State} (h : ∀ s, CallPart c s (f s)) (hw : ∀ s, s.writerOk → (f s).writerOk) :
    Act.Part c (Act.write f) :=
  ⟨fun s => (Act.leads_write f).2 ⟨h s, hw s⟩⟩

theorem bind {m : Act α} {f : α → Act β} (hm : Act.Part c m) (hf : ∀ a, Act.Part c (f a)) :
    Act.Part c (m >>= f) := ⟨fun s => by
  rw [Act.leads_bind]
  refine (hm.leads s).mono (fun a t ⟨ht, hw⟩ => ?_) fun _ _ h => h
  exact ((hf a).leads t).mono (fun _ u ⟨hu, hw'⟩ => ⟨ht.trans hu, hw' ∘ hw⟩)
    fun _ u ⟨hk, hu⟩ => ⟨hk, ht.trans hu⟩⟩

theorem get {f : State → Act α} (h : ∀ s, Act.Part c (f s)) : Act.Part c (Act.state >>= f) :=
  bind state h

theorem times {m : Act Unit} (hm : Act.Part c m) (n : Nat) : Act.Part c (Act.times m n) := by
  induction n with
  | zero => exact pure ()
  | succ n ih => exact bind hm fun _ => ih

theorem loop {m : Act Unit} (hm : Act.Part c m) (go : State → Bool) (n : Nat) :
    Act.Part c (Act.while go m n) := by
  induction n with
  | zero =>
    refine get fun s => ?_
    split
    · exact unspec _
    · exact pure ()
  | succ n ih =>
    refine get fun s => ?_
    split
    · exact bind hm fun _ => ih
    · exact pure ()

theorem of_closed {m : Act α} (h : Act.Part .closed m) : Act.Part c m := ⟨fun s =>
  (h.leads s).mono (fun _ _ ⟨ht, hw⟩ => ⟨ht.of_closed, hw⟩) fun _ _ ⟨hk, ht⟩ => ⟨hk, ht.of_closed⟩⟩

/-! ### Registers -/

theorem setPhase (f : State → Phase) : Act.Part c (Act.write fun s => s.setPhase (f s)) :=
  write (fun s => .of_registers _ s.result s.origSize (fun _ => rfl) (fun _ => rfl) fun _ => rfl) fun _ => id

theorem origSize (n : U64) : Act.Part c (Act.write fun s => { s with origSize := n }) :=
  write (fun s => .of_registers s.phase s.result n (fun _ => rfl) (fun _ => rfl) fun _ => rfl) fun _ => id

theorem finishDecompress : Act.Part c (Act.write State.finishDecompress) :=
  write (fun s => .of_registers .done s.origSize s.origSize (fun _ => rfl) (fun _ => rfl) fun _ => rfl)
    fun _ => id

theorem clearReader : Act.Part c (Act.write State.clearReader) := write (.clearReader c) fun _ => id

theorem huf (f : State → HufUnit) : Act.Part .huf (Act.write fun s => { s with huf := f s }) :=
  write (fun s => .of_registers s.phase s.result s.origSize nofun (fun _ => rfl) fun _ => rfl) fun _ => id

theorem art (f : State → ArtUnit) : Act.Part .art (Act.write fun s => { s with art := f s }) :=
  write (fun s => .of_registers s.phase s.result s.origSize (fun _ => rfl) nofun fun _ => rfl) fun _ => id

theorem lzw (f : State → LzwUnit) : Act.Part .lzw (Act.write fun s => { s with lzw := f s }) :=
  write (fun s => .of_registers s.phase s.result s.origSize (fun _ => rfl) (fun _ => rfl) nofun) fun _ => id

end Act.Part

/-! ### The accesses and the packer -/

theorem srcNext_part (c : Codec) (n : Nat) : Act.Part c (srcNext n) := by
  refine ⟨fun s => ?_⟩
  have hs := (srcNext_streams n).leads s
  unfold Act.Leads at hs ⊢
  rw [srcNext_apply] at hs ⊢
  by_cases hlen : s.srcLen.toNat < s.srcPos.toNat + n
  · rw [if_pos hlen]
    exact ⟨.inr rfl, CallPart.refl c s⟩
  · rw [if_neg hlen] at hs ⊢
    cases hv : memRead s.src s.srcPos.toNat n with
    | none => trivial
    | some v =>
      rw [hv] at hs
      refine ⟨.of_streams hs (fun _ => ?_) id id, id⟩
      have hadd : (s.srcPos + BitVec.ofNat 64 n).toNat = s.srcPos.toNat + n :=
        dstLen_add (by have := s.srcLen.isLt; omega)
      show (s.srcPos + BitVec.ofNat 64 n).toNat ≤ _
      omega

theorem srcByte_part (c : Codec) : Act.Part c srcByte := .bind (srcNext_part c 1) fun _ => .pure _

theorem dstPut_part (c : Codec) (n v : Nat) : Act.Part c (dstPut n v) := by
  refine ⟨fun s => ?_⟩
  have hs := (dstPut_streams n v).leads s
  unfold Act.Leads at hs ⊢
  rw [dstPut_apply] at hs ⊢
  by_cases hfits : s.cfg.dstFits s.dstLen.toNat n
  · rw [if_pos hfits] at hs ⊢
    by_cases h64 : s.dstLen.toNat + n < 2 ^ 64
    · rw [if_pos h64] at hs ⊢
      exact ⟨.of_streams hs id (fun hwf => wf_memWrite hwf v h64.le) id, id⟩
    · rw [if_neg h64]
      trivial
  · rw [if_neg hfits]
    exact ⟨.inr rfl, CallPart.refl c s⟩

/-- The packer with one bit more in WACC, as `bws_write` leaves it before a full byte is appended (R140). -/
def State.pushBit (s : State) (b : Bool) : State :=
  { s with wacc := s.wacc ||| (bitByte b <<< s.wcnt.toNat), wcnt := s.wcnt + 1#4 }

/-- A bit more leaves the write side sound, short of a full byte. -/
theorem State.writerOk_pushBit {s : State} (b : Bool) (h : s.writerOk) (h8 : s.wcnt + 1#4 ≠ 8#4) :
    (s.pushBit b).writerOk := by
  obtain ⟨hcnt, hacc⟩ := h
  have hsum : (s.wcnt + 1#4).toNat = s.wcnt.toNat + 1 := by
    rw [BitVec.toNat_add]
    simp
    omega
  have hne : s.wcnt.toNat + 1 ≠ 8 := fun e => h8 (BitVec.eq_of_toNat_eq (by rw [hsum, e]; rfl))
  refine ⟨show (s.wcnt + 1#4).toNat < 8 by omega, ?_⟩
  show (s.wacc ||| bitByte b <<< s.wcnt.toNat).toNat < 2 ^ (s.wcnt + 1#4).toNat
  rw [hsum, BitVec.toNat_or]
  refine Nat.or_lt_two_pow (by rw [Nat.pow_succ]; omega) ?_
  have hbit : (bitByte b).toNat ≤ 1 := by cases b <;> decide
  calc (bitByte b <<< s.wcnt.toNat).toNat
      ≤ (bitByte b).toNat * 2 ^ s.wcnt.toNat := by
        rw [BitVec.toNat_shiftLeft, Nat.shiftLeft_eq]
        exact Nat.mod_le _ _
    _ ≤ 1 * 2 ^ s.wcnt.toNat := Nat.mul_le_mul_right _ hbit
    _ < 2 ^ (s.wcnt.toNat + 1) := by rw [Nat.pow_succ]; have := Nat.two_pow_pos s.wcnt.toNat; omega

theorem CallPart.pushBit (c : Codec) (s : State) (b : Bool) : CallPart c s (s.pushBit b) :=
  .of_streams ⟨rfl, Nat.le_refl _, fun _ _ => rfl⟩ id id id

theorem CallPart.clearWriter (c : Codec) (s : State) : CallPart c s s.clearWriter :=
  .of_streams (clearWriter_streams s) id id id

theorem State.writerOk_clearWriter (s : State) : s.clearWriter.writerOk := ⟨by simp, by simp⟩

/-- A byte appended from WACC, and the write side cleared (R140, R141): sound from any write side. -/
theorem appendByte_leads (c : Codec) (v : Nat) (s : State) :
    (dstPut 1 v >>= fun _ => Act.write State.clearWriter).Leads
      (fun _ t => CallPart c s t ∧ t.writerOk) (fun k t => k.fatal ∧ CallPart c s t) s := by
  rw [Act.leads_bind]
  exact ((dstPut_part c 1 v).leads s).mono
    (fun _ t ⟨ht, _⟩ => (Act.leads_write _).2 ⟨ht.trans (.clearWriter c t), t.writerOk_clearWriter⟩) fun _ _ h => h

theorem bwsPutBit_part (c : Codec) (b : Bool) : Act.Part c (bwsPutBit b) := by
  refine ⟨fun s => ?_⟩
  have hpush := CallPart.pushBit c s b
  show (Act.write (fun s => s.pushBit b) >>= fun _ => Act.state >>= fun u =>
    if u.wcnt = 8#4 then dstPut 1 u.wacc.toNat >>= fun _ => Act.write State.clearWriter
    else pure ()).Leads _ _ s
  rw [Act.leads_bind, Act.leads_write, Act.leads_bind, Act.leads_state]
  by_cases h8 : (s.pushBit b).wcnt = 8#4
  · rw [if_pos h8]
    exact (appendByte_leads c _ _).mono (fun _ t ⟨ht, hw⟩ => ⟨hpush.trans ht, fun _ => hw⟩)
      fun _ t ⟨hk, ht⟩ => ⟨hk, hpush.trans ht⟩
  · rw [if_neg h8]
    exact (Act.leads_pure _).2 ⟨hpush, fun hw => State.writerOk_pushBit b hw h8⟩

theorem bwsPutBits_part (c : Codec) (bs : List Bool) : Act.Part c (bwsPutBits bs) := by
  induction bs with
  | nil => exact .pure ()
  | cons b bs ih => exact .bind (bwsPutBit_part c b) fun _ => ih

theorem bwsWrite_part (c : Codec) (code : U32) (w : Nat) : Act.Part c (bwsWrite code w) :=
  bwsPutBits_part c _

theorem bwsFinish_part (c : Codec) : Act.Part c bwsFinish := by
  refine .get fun s => ?_
  split
  · exact .pure ()
  · exact ⟨fun t => (appendByte_leads c _ t).mono (fun _ _ ⟨ht, hw⟩ => ⟨ht, fun _ => hw⟩) fun _ _ h => h⟩

/-- A byte shifted right by one bit holds one bit less. -/
theorem toNat_shiftRight_one_lt {x : Byte} {n : Nat} (h : x.toNat < 2 ^ (n + 1)) :
    (x >>> 1).toNat < 2 ^ n := by
  rw [BitVec.toNat_ushiftRight, Nat.shiftRight_eq_div_pow, Nat.pow_one]
  rw [Nat.pow_succ] at h
  omega

theorem bwsGetBit_part (c : Codec) : Act.Part c bwsGetBit := by
  refine ⟨fun s => ?_⟩
  have hs := bwsGetBit_streams.leads s
  unfold Act.Leads at hs ⊢
  by_cases h0 : s.rcnt = 0#4
  · have hb := (srcByte_part c).leads s
    unfold Act.Leads at hb
    rw [bwsGetBit_fetch h0] at hs ⊢
    cases e : srcByte s with
    | error x t => rw [e] at hb; cases x <;> exact hb
    | ok b t =>
      rw [e] at hb hs
      obtain ⟨ht, hw⟩ := hb
      exact ⟨.of_streams hs (fun hp => by rw [← ht.srcLen]; exact ht.cursor hp) ht.canonical
        fun _ => ⟨show (7#4).toNat < 8 by decide, toNat_shiftRight_one_lt b.isLt⟩, hw⟩
  · rw [bwsGetBit_held h0] at hs ⊢
    refine ⟨.of_streams hs id id fun hr => ?_, id⟩
    obtain ⟨hcnt, hbyte⟩ := hr
    have hne : s.rcnt.toNat ≠ 0 := fun e => h0 (BitVec.eq_of_toNat_eq (by simpa using e))
    have hsub : (s.rcnt - 1#4).toNat = s.rcnt.toNat - 1 := by
      rw [BitVec.toNat_sub]
      simp
      omega
    refine ⟨show (s.rcnt - 1#4).toNat < 8 by omega, ?_⟩
    show (s.rbyte >>> 1).toNat < 2 ^ (s.rcnt - 1#4).toNat
    rw [hsub]
    exact toNat_shiftRight_one_lt (by rwa [Nat.sub_add_cancel (by omega)])

theorem bwsGetBits_part (c : Codec) (n : Nat) : Act.Part c (bwsGetBits n) := by
  induction n with
  | zero => exact .pure _
  | succ n ih => exact .bind (bwsGetBit_part c) fun _ => .bind ih fun _ => .pure _

theorem bwsRead_part (c : Codec) (w : Nat) : Act.Part c (bwsRead w) :=
  .bind (bwsGetBits_part c w) fun _ => .pure _

end Sys2Proof.Machine
end

section
/-! Every command's pseudocode is part of a call between an optional begin and an optional end of one
(spec/41_session.md rules R162, R163), also COMPRESS and DECOMPRESS, which run the others' (R108). -/

namespace Sys2Proof.Machine

/-- The action first brings the state to `st`, then is part of a call of codec `c`, and last applies `fin`;
it raises only in between. -/
structure Act.Runs {α : Type} (c : Codec) (st fin : State → State) (m : Act α) : Prop where
  leads : ∀ s, m.Leads
    (fun _ t => ∃ u, CallPart c (st s) u ∧ ((st s).writerOk → u.writerOk) ∧ t = fin u)
    (fun k t => k.fatal ∧ CallPart c (st s) t) s

namespace Act.Runs
variable {α β : Type} {c : Codec} {st fin : State → State}

theorem of_part {m : Act α} (h : Act.Part c m) : Act.Runs c id id m := ⟨fun s =>
  (h.leads s).mono (fun _ t ⟨ht, hw⟩ => ⟨t, ht, hw, rfl⟩) fun _ _ hk => hk⟩

/-- One action that begins, and one that ends. -/
theorem seq {m : Act α} {f : α → Act β} (hm : Act.Runs c st id m)
    (hf : ∀ a, Act.Runs c id fin (f a)) : Act.Runs c st fin (m >>= f) := ⟨fun s => by
  rw [Act.leads_bind]
  refine (hm.leads s).mono ?_ fun _ _ h => h
  rintro a t ⟨v, ht, hw, e⟩
  obtain rfl : t = v := e
  refine ((hf a).leads t).mono ?_ fun _ u ⟨hk, hu⟩ => ⟨hk, ht.trans hu⟩
  rintro b _ ⟨u, hu, hw', rfl⟩
  exact ⟨u, ht.trans hu, hw' ∘ hw, rfl⟩⟩

theorem start (f : State → State) : Act.Runs c f id (Act.write f) :=
  ⟨fun s => (Act.leads_write f).2 ⟨f s, CallPart.refl c _, id, rfl⟩⟩

theorem finish (f : State → State) : Act.Runs c id f (Act.write f) :=
  ⟨fun s => (Act.leads_write f).2 ⟨s, CallPart.refl c s, id, rfl⟩⟩

theorem get {f : State → Act α} (h : ∀ s, Act.Runs c id fin (f s)) :
    Act.Runs c id fin (Act.state >>= f) := seq (of_part .state) h

theorem unspec (r : Refusal) : Act.Runs c id fin (Act.unspec r : Act α) := ⟨fun _ => Act.leads_unspec r⟩

/-- A call begun, and the rest of it. -/
theorem begun {f : Unit → Act β} (h : ∀ a, Act.Part c (f a)) :
    Act.Runs c State.beginCall id (Act.write State.beginCall >>= f) :=
  seq (start _) fun a => of_part (h a)

end Act.Runs

/-! ### The Huffman unit -/

theorem hufTally_part (n : Nat) : Act.Part .huf (hufTally n) := by
  induction n with
  | zero => exact .pure ()
  | succ n ih => exact .bind (srcByte_part _) fun _ => .bind (.huf _) fun _ => ih

theorem hufCountBody_runs : Act.Runs .huf State.beginCall id hufCountBody := by
  refine .begun fun _ => .get fun s => ?_
  split
  · exact .unspec _
  · exact .bind (.huf _) fun _ => .bind (hufTally_part _) fun _ => .bind (.huf _) fun _ => .setPhase _

theorem hufBuildBody_part : Act.Part .huf hufBuildBody := by
  refine .get fun s => ?_
  split
  · exact .unspec _
  · exact .bind (.huf _) fun _ => .setPhase _

theorem hufCodesBody_part : Act.Part .huf hufCodesBody := by
  refine .get fun s => ?_
  split
  · exact .unspec _
  · exact .bind (.huf _) fun _ => .setPhase _

theorem putLeaves_part (c : Codec) (ls : List Leaf) : Act.Part c (putLeaves ls) := by
  induction ls with
  | nil => exact .pure ()
  | cons l ls ih => exact .bind (dstPut_part c _ _) fun _ => .bind (dstPut_part c _ _) fun _ => ih

theorem hufWrhdrBody_part : Act.Part .huf hufWrhdrBody :=
  .get fun _ => .bind (dstPut_part _ _ _) fun _ => .bind (dstPut_part _ _ _) fun _ =>
    .bind (putLeaves_part _ _) fun _ => .setPhase _

theorem hufEncodeBytes_part (c : Codec) (n : Nat) : Act.Part c (hufEncodeBytes n) := by
  induction n with
  | zero => exact .pure ()
  | succ n ih =>
    refine .bind (srcByte_part c) fun b => .get fun s => ?_
    split
    · exact .bind (.unspec _) fun _ => ih
    · exact .bind (bwsPutBits_part c _) fun _ => ih

/-- SRC_POS back at the first byte of SRC (R189). -/
theorem rewind_part (c : Codec) : Act.Part c (Act.write fun s => { s with srcPos := 0#64 }) :=
  .write (fun _ => .of_streams ⟨rfl, Nat.le_refl _, fun _ _ => rfl⟩ (fun _ => Nat.zero_le _) id id)
    fun _ => id

theorem hufEncodeBody_runs : Act.Runs .huf id State.finishCompress hufEncodeBody :=
  .seq (.of_part (rewind_part _)) fun _ => .get fun _ =>
    .seq (.of_part (hufEncodeBytes_part _ _)) fun _ => .seq (.of_part (bwsFinish_part _)) fun _ => .finish _

theorem getLeaves_part (k n : Nat) : Act.Part .huf (getLeaves k n) := by
  induction n generalizing k with
  | zero => exact .pure ()
  | succ n ih =>
    exact .bind (srcByte_part _) fun _ => .bind (srcNext_part _ _) fun _ => .bind (.huf _) fun _ => ih _

theorem hufRdhdrBody_runs : Act.Runs .huf State.beginCall id hufRdhdrBody := by
  refine .begun fun _ => .bind (srcNext_part _ _) fun _ => .bind (.origSize _) fun _ =>
    .bind (srcNext_part _ _) fun n => ?_
  split
  · exact .unspec _
  · exact .bind (.huf _) fun _ => .bind (getLeaves_part _ _) fun _ => .bind .clearReader fun _ => .setPhase _

theorem walkLeaf_part (c : Codec) (ns : List Node) (d i : Nat) : Act.Part c (walkLeaf ns d i) := by
  induction d generalizing i with
  | zero =>
    unfold walkLeaf
    split
    · exact .unspec _
    · split
      · exact .pure _
      · exact .unspec _
  | succ d ih =>
    unfold walkLeaf
    split
    · exact .unspec _
    · split
      · exact .pure _
      · exact .bind (bwsGetBit_part c) fun _ => ih _

theorem hufDecodeByte_part (c : Codec) : Act.Part c hufDecodeByte := by
  refine .get fun s => ?_
  split
  · exact .unspec _
  · refine .bind (walkLeaf_part c _ _ _) fun n => ?_
    split
    · exact .unspec _
    · exact dstPut_part c _ _

theorem hufDecodeBody_part : Act.Part .huf hufDecodeBody :=
  .get fun _ => .bind (.times (hufDecodeByte_part _) _) fun _ => .finishDecompress

/-! ### The arithmetic unit -/

theorem artInitBody_runs : Act.Runs .art State.beginCall id artInitBody :=
  .begun fun _ => .bind (.art _) fun _ => .setPhase _

theorem artWrhdrBody_part : Act.Part .art artWrhdrBody :=
  .get fun _ => .bind (dstPut_part _ _ _) fun _ => .setPhase _

theorem artEncsymBody_part : Act.Part .art artEncsymBody := by
  refine .bind (srcByte_part _) fun b => .get fun s => ?_
  dsimp only
  split
  · exact .raise (.inl rfl)
  · split
    · exact .unspec _
    · split
      · exact .unspec _
      · exact .bind (bwsPutBits_part _ _) fun _ => .art _

theorem artFlushBody_runs : Act.Runs .art id State.finishCompress artFlushBody := by
  refine .get fun s => ?_
  split
  · exact .unspec _
  · split
    · exact .unspec _
    · exact .seq (.of_part (bwsPutBits_part _ _)) fun _ => .seq (.of_part (bwsFinish_part _)) fun _ => .finish _

theorem artRdhdrBody_part : Act.Part .art artRdhdrBody :=
  .bind (srcNext_part _ _) fun _ => .bind (.origSize _) fun _ => .bind .clearReader fun _ =>
    .bind (.art _) fun _ => .setPhase _

theorem artEmit_part (i : Byte) : Act.Part .art (artEmit i) := by
  refine .get fun s => ?_
  dsimp only
  split
  · exact .raise (.inl rfl)
  · split
    · exact .unspec _
    · refine .bind (dstPut_part _ _ _) fun _ => ?_
      split
      · exact .unspec _
      · split
        · exact .unspec _
        · exact .art _

theorem artDecstepBody_part : Act.Part .art artDecstepBody := by
  refine .get fun s => ?_
  split
  · exact .finishDecompress
  · split
    · exact .unspec _
    · split
      · exact artEmit_part _
      · split
        · exact .bind (bwsGetBit_part _) fun _ => .art _
        · exact .finishDecompress

/-! ### The LZW unit -/

theorem dictAdd_part (p : List Byte) : Act.Part .lzw (dictAdd p) := by
  refine .get fun s => ?_
  split
  · exact .lzw _
  · exact .unspec _

theorem collectPhrase_part : Act.Part .lzw collectPhrase := by
  refine .get fun s => ?_
  split
  · split
    · exact .unspec _
    · exact .lzw _
  · exact .unspec _

theorem lzwInitBody_runs : Act.Runs .lzw State.beginCall id lzwInitBody :=
  .begun fun _ => .bind (.lzw _) fun _ => .setPhase _

theorem lzwExtend_part (b : Byte) : Act.Part .lzw (lzwExtend b) := by
  refine .get fun s => ?_
  split
  · exact .lzw _
  · split
    · exact .lzw _
    · exact .bind collectPhrase_part fun _ => .bind (dictAdd_part _) fun _ => .lzw _

theorem lzwEncbyteBody_part : Act.Part .lzw lzwEncbyteBody :=
  .bind (srcByte_part _) fun _ => .bind (lzwExtend_part _) fun _ => .setPhase _

theorem lzwEnceofBody_part : Act.Part .lzw lzwEnceofBody := by
  refine .get fun s => ?_
  split
  · exact .setPhase _
  · exact .bind collectPhrase_part fun _ => .bind (.lzw _) fun _ => .setPhase _

theorem lzwWidthBody_part : Act.Part .lzw lzwWidthBody := by
  refine .get fun s => ?_
  split
  · exact .unspec _
  · exact .bind (.lzw _) fun _ => .setPhase _

theorem lzwWrhdrBody_part (c : Codec) : Act.Part c lzwWrhdrBody :=
  .get fun _ => .bind (dstPut_part _ _ _) fun _ => .bind (dstPut_part _ _ _) fun _ => .setPhase _

theorem putCodes_part (c : Codec) (w : Nat) (cs : List U32) : Act.Part c (putCodes w cs) := by
  induction cs with
  | nil => exact .pure ()
  | cons x cs ih => exact .bind (bwsWrite_part c _ _) fun _ => ih

theorem lzwEmitBody_runs : Act.Runs .lzw id State.finishCompress lzwEmitBody :=
  .get fun _ => .seq (.of_part (putCodes_part _ _ _)) fun _ => .seq (.of_part (bwsFinish_part _)) fun _ => .finish _

theorem lzwRdhdrBody_part : Act.Part .lzw lzwRdhdrBody := by
  refine .bind (srcNext_part _ _) fun _ => .bind (.origSize _) fun _ => .bind (srcNext_part _ _) fun w => ?_
  split
  · exact .bind (.lzw _) fun _ => .bind .clearReader fun _ => .setPhase _
  · exact .unspec _

theorem putPhrase_part (c : Codec) (p : List Byte) : Act.Part c (putPhrase p) := by
  induction p with
  | nil => exact .pure ()
  | cons x xs ih => exact .bind (dstPut_part c _ _) fun _ => ih

theorem decodeInsert_part (x : Byte) : Act.Part .lzw (decodeInsert x) := by
  refine .get fun s => ?_
  split
  · exact dictAdd_part _
  · exact .pure ()

theorem lzwEmitPhrase_part (p : List Byte) : Act.Part .lzw (lzwEmitPhrase p) := by
  refine .get fun s => ?_
  split
  · exact .unspec _
  · split
    · exact .unspec _
    · refine .bind (putPhrase_part _ _) fun _ => .bind (decodeInsert_part _) fun _ => .bind (.lzw _) fun _ =>
        .get fun t => ?_
      split
      · exact .finishDecompress
      · exact .pure ()

theorem lzwDeccodeBody_part : Act.Part .lzw lzwDeccodeBody := by
  refine .get fun s => ?_
  split
  · exact .finishDecompress
  · refine .bind (bwsRead_part _ _) fun c => ?_
    split
    · exact .unspec _
    · exact lzwEmitPhrase_part _

/-! ### COMPRESS and DECOMPRESS -/

theorem compressHuf_runs : Act.Runs .huf State.beginCall State.finishCompress compressHuf :=
  .seq hufCountBody_runs fun _ => .seq (.of_part hufBuildBody_part) fun _ =>
    .seq (.of_part hufCodesBody_part) fun _ => .seq (.of_part hufWrhdrBody_part) fun _ => hufEncodeBody_runs

theorem compressArt_runs : Act.Runs .art State.beginCall State.finishCompress compressArt :=
  .seq artInitBody_runs fun _ => .seq (.of_part artWrhdrBody_part) fun _ => .get fun _ =>
    .seq (.of_part (.times artEncsymBody_part _)) fun _ => artFlushBody_runs

theorem compressLzw_runs : Act.Runs .lzw State.beginCall State.finishCompress compressLzw :=
  .seq lzwInitBody_runs fun _ => .get fun _ => .seq (.of_part (.times lzwEncbyteBody_part _)) fun _ =>
    .seq (.of_part lzwEnceofBody_part) fun _ => .seq (.of_part lzwWidthBody_part) fun _ =>
      .seq (.of_part (lzwWrhdrBody_part _)) fun _ => lzwEmitBody_runs

theorem decompressHuf_runs : Act.Runs .huf State.beginCall id decompressHuf :=
  .seq hufRdhdrBody_runs fun _ => .of_part (.bind hufBuildBody_part fun _ => hufDecodeBody_part)

theorem decompressArt_runs : Act.Runs .art State.beginCall id decompressArt :=
  .seq artInitBody_runs fun _ => .of_part (.bind artRdhdrBody_part fun _ => .get fun _ =>
    .loop artDecstepBody_part _ _)

theorem decompressLzw_runs : Act.Runs .lzw State.beginCall id decompressLzw :=
  .seq lzwInitBody_runs fun _ => .of_part (.bind lzwRdhdrBody_part fun _ => .get fun _ =>
    .loop lzwDeccodeBody_part _ _)

end Sys2Proof.Machine
end

section
/-! What a command can answer, said once for all of them: it is refused, has the wrong direction, opens a
session, or runs its pseudocode to the end or to a `raise` (spec/60_exceptions.md rule R316); and what a
step of the machine can be (spec/10_state.md rule R20, spec/20_memory.md rule R81). -/

namespace Sys2Proof.Machine

/-- The cursor condition of the command's guard (R316 step 5). -/
def cursorOf : Instr → Cursor
  | .artEncsym | .lzwEncbyte => .bytesLeft
  | .artFlush | .lzwEnceof => .atEnd
  | _ => .any

/-- The command's guard, read off the tables of R103 and R24. -/
def guardOf (i : Instr) : Guard := ⟨codecsFor i, phasesFor i, cursorOf i, directionFor i⟩

/-- The pseudocode of each command; NOP and SOPEN have none that could stop. -/
def bodyOf : Instr → Act Unit
  | .nop | .sopen _ _ => pure ()
  | .compress => compressBody
  | .decompress => decompressBody
  | .bwsReset => Act.write State.clearStream
  | .bwsWrite imm a => bwsWrite imm a.toNat
  | .bwsFinish => bwsFinish
  | .bwsRead a => do
    let v ← bwsRead a.toNat
    Act.write fun s => { s with result := v.setWidth 64 }
  | .hufCount => hufCountBody
  | .hufBuild => hufBuildBody
  | .hufCodes => hufCodesBody
  | .hufWrhdr => hufWrhdrBody
  | .hufEncode => hufEncodeBody
  | .hufRdhdr => hufRdhdrBody
  | .hufDecode => hufDecodeBody
  | .artInit => artInitBody
  | .artWrhdr => artWrhdrBody
  | .artEncsym => artEncsymBody
  | .artFlush => artFlushBody
  | .artRdhdr => artRdhdrBody
  | .artDecstep => artDecstepBody
  | .lzwInit => lzwInitBody
  | .lzwEncbyte => lzwEncbyteBody
  | .lzwEnceof => lzwEnceofBody
  | .lzwWidth => lzwWidthBody
  | .lzwWrhdr => lzwWrhdrBody
  | .lzwEmit => lzwEmitBody
  | .lzwRdhdr => lzwRdhdrBody
  | .lzwDeccode => lzwDeccodeBody

/-- The command passes the acceptance procedure, the cursor condition left out (R316 steps 4 to 6). -/
structure Accepted (i : Instr) (s : State) : Prop where
  codec : s.codec ∈ codecsFor i
  phase : s.phase ∈ phasesFor i
  mode : ∀ m, directionFor i = some m → s.mode = m
  alive : s.phase ≠ .fault

/-- The next states a command can answer. -/
inductive Answer (i : Instr) (s : State) : State → Prop
  | nop (hi : i = .nop) : Answer i s s
  | opened (a b : BitVec 8) (c : Codec) (m : Mode) (hi : i = .sopen a b) : Answer i s (s.openSession c m)
  | refused : Answer i s s.refuse
  | mismatched (hp : s.phase ≠ .fault) : Answer i s s.modeMismatch
  | ended (t : State) (h : Accepted i s) (e : bodyOf i s = .ok () t) : Answer i s t
  | failed (k : ErrKind) (u : State) (h : Accepted i s) (e : bodyOf i s = .error (.raise k) u) :
    Answer i s (u.fail k)

/-- The acceptance procedure in the terms of the guard tables, for a command that is refused in FAULT. -/
theorem answer_of_accept {i : Instr} {s t : State} (hi : .fault ∉ phasesFor i)
    (h : accept (guardOf i) (bodyOf i) s = .next t) : Answer i s t := by
  have passed : (codecOk (guardOf i) s && phaseOk (guardOf i) s) = true →
      s.codec ∈ codecsFor i ∧ s.phase ∈ phasesFor i ∧ s.phase ≠ .fault := by
    intro hg
    simp only [codecOk, phaseOk, guardOf, Bool.and_eq_true, List.contains_iff_mem] at hg
    exact ⟨hg.1, hg.2.1, fun e => hi (e ▸ hg.2.1)⟩
  rcases accept_cases (guardOf i) (bodyOf i) s with ⟨e, -⟩ | ⟨e, hg, hd⟩ | ⟨e, hg, hd⟩
  · rw [e] at h
    injection h with h
    exact h ▸ .refused
  · rw [e] at h
    injection h with h
    exact h ▸ .mismatched (passed hg).2.2
  · rw [e] at h
    obtain ⟨hcodec, hphase, halive⟩ := passed hg
    have ha : Accepted i s :=
      ⟨hcodec, hphase, fun m hm => by simpa [dirOk, guardOf, hm] using hd, halive⟩
    rcases runBody_next h with e | ⟨k, u, e, rfl⟩
    · exact .ended t ha e
    · exact .failed k u ha e

theorem widthOperand_eq_some {a : BitVec 8} {w : Nat} (h : widthOperand a = some w) : w = a.toNat := by
  unfold widthOperand at h
  split at h
  · injection h with h
    exact h.symm
  · cases h

/-- Everything a command that answers a next state can have done. -/
theorem answer_of_exec {i : Instr} {s t : State} (h : exec i s = .next t) : Answer i s t := by
  cases i with
  | nop =>
    injection h with h
    exact h ▸ .nop rfl
  | sopen a b =>
    change execSopen a b s = _ at h
    unfold execSopen at h
    split at h
    · injection h with h
      exact h ▸ .opened a b _ _ rfl
    · injection h with h
      exact h ▸ .refused
  | bwsWrite imm a =>
    change execBwsWrite imm a s = _ at h
    unfold execBwsWrite at h
    split at h
    · injection h with h
      exact h ▸ .refused
    · rename_i w hw
      obtain rfl := widthOperand_eq_some hw
      exact answer_of_accept (by simp [phasesFor]) h
  | bwsRead a =>
    change execBwsRead a s = _ at h
    unfold execBwsRead at h
    split at h
    · injection h with h
      exact h ▸ .refused
    · rename_i w hw
      obtain rfl := widthOperand_eq_some hw
      exact answer_of_accept (by simp [phasesFor]) h
  | _ => exact answer_of_accept (by simp [phasesFor]) h

/-! ### The pseudocode of an accepted command is part of a call -/

/-- The unit a command may touch in a session of codec `c`: the packer's commands touch none. -/
def unitOf (i : Instr) (c : Codec) : Codec :=
  match i with
  | .bwsReset | .bwsWrite _ _ | .bwsFinish | .bwsRead _ => .closed
  | _ => c

/-- The state a command's work starts from: BWS.RESET clears the stream, and the commands that begin a call
begin it (R144, R162). -/
def startOf (i : Instr) (s : State) : State :=
  match i with
  | .bwsReset => s.clearStream
  | .hufCount | .hufRdhdr | .artInit | .lzwInit | .compress | .decompress => s.beginCall
  | _ => s

/-- What a command's work ends with: `finish_compress` for the commands that complete a compress call (R163). -/
def finishOf (i : Instr) (u : State) : State :=
  match i with
  | .hufEncode | .artFlush | .lzwEmit | .compress => u.finishCompress
  | _ => u

theorem bwsReadBody_part (w : Nat) : Act.Part .closed
    (bwsRead w >>= fun v => Act.write fun s => { s with result := v.setWidth 64 }) :=
  .bind (bwsRead_part _ w) fun v => .write
    (fun s => .of_registers s.phase (v.setWidth 64) s.origSize (fun _ => rfl) (fun _ => rfl) fun _ => rfl)
    fun _ => id

/-- A pseudocode that runs for codec `c`, in a session of that codec. -/
theorem leads_of_runs {c : Codec} {st fin : State → State} {m : Act Unit} {s : State} (hc : s.codec ∈ [c])
    (h : Act.Runs c st fin m) :
    m.Leads (fun _ t => ∃ u, CallPart s.codec (st s) u ∧ ((st s).writerOk → u.writerOk) ∧ t = fin u)
      (fun k t => k.fatal ∧ CallPart s.codec (st s) t) s := by
  rw [List.mem_singleton.1 hc]
  exact h.leads s

/-- The expansion of COMPRESS for each codec (R108). -/
def compressOf : Codec → Act Unit
  | .closed => pure ()
  | .huf => compressHuf
  | .art => compressArt
  | .lzw => compressLzw

/-- The expansion of DECOMPRESS for each codec (R108). -/
def decompressOf : Codec → Act Unit
  | .closed => pure ()
  | .huf => decompressHuf
  | .art => decompressArt
  | .lzw => decompressLzw

theorem compressBody_apply (s : State) : compressBody s = compressOf s.codec s := by
  refine (Act.bind_of_ok (Act.state_apply s)).trans ?_
  cases s.codec <;> rfl

theorem decompressBody_apply (s : State) : decompressBody s = decompressOf s.codec s := by
  refine (Act.bind_of_ok (Act.state_apply s)).trans ?_
  cases s.codec <;> rfl

/-- What the expansion for the session's codec leads to, COMPRESS does. -/
theorem compressBody_leads {Q : Unit → State → Prop} {E : ErrKind → State → Prop} {s : State} {c : Codec}
    (hc : s.codec = c) (h : (compressOf c).Leads Q E s) : compressBody.Leads Q E s :=
  (Act.leads_congr (compressBody_apply s)).2 (hc ▸ h)

/-- What the expansion for the session's codec leads to, DECOMPRESS does. -/
theorem decompressBody_leads {Q : Unit → State → Prop} {E : ErrKind → State → Prop} {s : State} {c : Codec}
    (hc : s.codec = c) (h : (decompressOf c).Leads Q E s) : decompressBody.Leads Q E s :=
  (Act.leads_congr (decompressBody_apply s)).2 (hc ▸ h)

theorem compressOf_runs {c : Codec} (hc : c ∈ codecsFor .compress) :
    Act.Runs c State.beginCall State.finishCompress (compressOf c) := by
  cases c with
  | closed => simp [codecsFor] at hc
  | huf => exact compressHuf_runs
  | art => exact compressArt_runs
  | lzw => exact compressLzw_runs

theorem decompressOf_runs {c : Codec} (hc : c ∈ codecsFor .decompress) :
    Act.Runs c State.beginCall id (decompressOf c) := by
  cases c with
  | closed => simp [codecsFor] at hc
  | huf => exact decompressHuf_runs
  | art => exact decompressArt_runs
  | lzw => exact decompressLzw_runs

/-- An accepted command's pseudocode: begin of the call, part of the call, end of the call. -/
theorem bodyOf_leads {i : Instr} {s : State} (hc : s.codec ∈ codecsFor i) :
    (bodyOf i).Leads
      (fun _ t => ∃ u, CallPart (unitOf i s.codec) (startOf i s) u
        ∧ ((startOf i s).writerOk → u.writerOk) ∧ t = finishOf i u)
      (fun k t => k.fatal ∧ CallPart (unitOf i s.codec) (startOf i s) t) s := by
  cases i with
  | nop | sopen => exact (Act.leads_pure ()).2 ⟨s, CallPart.refl _ s, id, rfl⟩
  | compress => exact compressBody_leads rfl ((compressOf_runs hc).leads s)
  | decompress => exact decompressBody_leads rfl ((decompressOf_runs hc).leads s)
  | bwsReset => exact (Act.Runs.start State.clearStream).leads s
  | bwsWrite => exact (Act.Runs.of_part (bwsWrite_part .closed _ _)).leads s
  | bwsFinish => exact (Act.Runs.of_part (bwsFinish_part .closed)).leads s
  | bwsRead => exact (Act.Runs.of_part (bwsReadBody_part _)).leads s
  | hufCount => exact leads_of_runs hc hufCountBody_runs
  | hufBuild => exact leads_of_runs hc (.of_part hufBuildBody_part)
  | hufCodes => exact leads_of_runs hc (.of_part hufCodesBody_part)
  | hufWrhdr => exact leads_of_runs hc (.of_part hufWrhdrBody_part)
  | hufEncode => exact leads_of_runs hc hufEncodeBody_runs
  | hufRdhdr => exact leads_of_runs hc hufRdhdrBody_runs
  | hufDecode => exact leads_of_runs hc (.of_part hufDecodeBody_part)
  | artInit => exact leads_of_runs hc artInitBody_runs
  | artWrhdr => exact leads_of_runs hc (.of_part artWrhdrBody_part)
  | artEncsym => exact leads_of_runs hc (.of_part artEncsymBody_part)
  | artFlush => exact leads_of_runs hc artFlushBody_runs
  | artRdhdr => exact leads_of_runs hc (.of_part artRdhdrBody_part)
  | artDecstep => exact leads_of_runs hc (.of_part artDecstepBody_part)
  | lzwInit => exact leads_of_runs hc lzwInitBody_runs
  | lzwEncbyte => exact leads_of_runs hc (.of_part lzwEncbyteBody_part)
  | lzwEnceof => exact leads_of_runs hc (.of_part lzwEnceofBody_part)
  | lzwWidth => exact leads_of_runs hc (.of_part lzwWidthBody_part)
  | lzwWrhdr => exact leads_of_runs hc (.of_part (lzwWrhdrBody_part _))
  | lzwEmit => exact leads_of_runs hc lzwEmitBody_runs
  | lzwRdhdr => exact leads_of_runs hc (.of_part lzwRdhdrBody_part)
  | lzwDeccode => exact leads_of_runs hc (.of_part lzwDeccodeBody_part)

/-- The same from the end of the pseudocode. -/
theorem Accepted.ended {i : Instr} {s t : State} (h : Accepted i s) (e : bodyOf i s = .ok () t) :
    ∃ u, CallPart (unitOf i s.codec) (startOf i s) u ∧ ((startOf i s).writerOk → u.writerOk)
      ∧ t = finishOf i u := (bodyOf_leads h.codec).of_ok e

/-- The same from a `raise`. -/
theorem Accepted.failed {i : Instr} {s t : State} {k : ErrKind} (h : Accepted i s)
    (e : bodyOf i s = .error (.raise k) t) : k.fatal ∧ CallPart (unitOf i s.codec) (startOf i s) t :=
  (bodyOf_leads h.codec).of_raise e

/-! ### A step -/

/-- An invariant of the machine: kept when an action is taken off the port, when the host writes SRC or
SRC_LEN or asserts reset, and by everything a command can answer. -/
structure KeptByAnswers (P : State → Prop) : Prop where
  port : ∀ s rest, P s → P { s with port := rest }
  writeSrc : ∀ s (a : U64) b, P s → P { s with src := Memory.write s.src a.toNat b }
  writeSrcLen : ∀ s n, P s → P { s with srcLen := n }
  reset : ∀ s : State, P s → P { State.reset with cfg := s.cfg, port := s.port }
  command : ∀ i s t, P s → Answer i s t → P t

/-- Every step keeps such an invariant. -/
theorem KeptByAnswers.step {P : State → Prop} (h : KeptByAnswers P) {s t : State} (hs : P s)
    (e : step s = .next t) : P t := by
  unfold Machine.step at e
  split at e
  · injection e with e
    exact e ▸ hs
  · rename_i a rest _
    have hp := h.port s rest hs
    generalize { s with port := rest } = u at e hp
    cases a with
    | command w =>
      change hostCommand w u = _ at e
      unfold hostCommand at e
      split at e
      · exact h.command _ _ _ hp (answer_of_exec e)
      · injection e with e
        exact e ▸ h.command .nop _ _ hp .refused
    | writeSrc addr b =>
      change hostWriteSrc addr b u = _ at e
      unfold hostWriteSrc at e
      split at e
      · injection e with e
        exact e ▸ h.writeSrc u addr b hp
      · cases e
    | writeSrcLen n =>
      change hostWriteSrcLen n u = _ at e
      unfold hostWriteSrcLen at e
      split at e
      · injection e with e
        exact e ▸ h.writeSrcLen u n hp
      · cases e
    | reset =>
      injection e with e
      exact e ▸ h.reset u hp

end Sys2Proof.Machine
end

section
/-! What a command keeps, from what its answer can be: the streams, the session registers, the flags and the
cursors (spec/10_state.md rules R22 to R36). -/

namespace Sys2Proof.Machine

/-! ### Where a command's work starts and ends -/

section ends
variable (i : Instr) (s : State)

@[simp] theorem startOf_codec : (startOf i s).codec = s.codec := by cases i <;> rfl
@[simp] theorem startOf_mode : (startOf i s).mode = s.mode := by cases i <;> rfl
@[simp] theorem startOf_cmderr : (startOf i s).cmderr = s.cmderr := by cases i <;> rfl
@[simp] theorem startOf_compSize : (startOf i s).compSize = s.compSize := by cases i <;> rfl
@[simp] theorem startOf_srcLen : (startOf i s).srcLen = s.srcLen := by cases i <;> rfl
@[simp] theorem startOf_src : (startOf i s).src = s.src := by cases i <;> rfl
@[simp] theorem startOf_dst : (startOf i s).dst = s.dst := by cases i <;> rfl
@[simp] theorem startOf_cfg : (startOf i s).cfg = s.cfg := by cases i <;> rfl
@[simp] theorem startOf_huf : (startOf i s).huf = s.huf := by cases i <;> rfl
@[simp] theorem startOf_art : (startOf i s).art = s.art := by cases i <;> rfl
@[simp] theorem startOf_lzw : (startOf i s).lzw = s.lzw := by cases i <;> rfl

@[simp] theorem finishOf_codec : (finishOf i s).codec = s.codec := by cases i <;> rfl
@[simp] theorem finishOf_err : (finishOf i s).err = s.err := by cases i <;> rfl
@[simp] theorem finishOf_cmderr : (finishOf i s).cmderr = s.cmderr := by cases i <;> rfl
@[simp] theorem finishOf_srcLen : (finishOf i s).srcLen = s.srcLen := by cases i <;> rfl
@[simp] theorem finishOf_srcPos : (finishOf i s).srcPos = s.srcPos := by cases i <;> rfl
@[simp] theorem finishOf_dstLen : (finishOf i s).dstLen = s.dstLen := by cases i <;> rfl
@[simp] theorem finishOf_src : (finishOf i s).src = s.src := by cases i <;> rfl
@[simp] theorem finishOf_dst : (finishOf i s).dst = s.dst := by cases i <;> rfl
@[simp] theorem finishOf_cfg : (finishOf i s).cfg = s.cfg := by cases i <;> rfl
@[simp] theorem finishOf_huf : (finishOf i s).huf = s.huf := by cases i <;> rfl
@[simp] theorem finishOf_art : (finishOf i s).art = s.art := by cases i <;> rfl
@[simp] theorem finishOf_lzw : (finishOf i s).lzw = s.lzw := by cases i <;> rfl
@[simp] theorem finishOf_wacc : (finishOf i s).wacc = s.wacc := by cases i <;> rfl
@[simp] theorem finishOf_wcnt : (finishOf i s).wcnt = s.wcnt := by cases i <;> rfl
@[simp] theorem finishOf_rbyte : (finishOf i s).rbyte = s.rbyte := by cases i <;> rfl
@[simp] theorem finishOf_rcnt : (finishOf i s).rcnt = s.rcnt := by cases i <;> rfl

/-- ERR is cleared by the begin of a call alone. -/
theorem startOf_err : (startOf i s).err = s.err ∨ beginsCall i ∧ (startOf i s).err = .noError := by
  cases i with
  | hufCount | hufRdhdr | artInit | lzwInit | compress | decompress => exact .inr ⟨by simp [beginsCall], rfl⟩
  | _ => exact .inl rfl

variable {i s} in
/-- A command that begins no call and is not BWS.RESET starts from the state as it is. -/
theorem startOf_eq_self (h : ¬beginsCall i) (hr : i ≠ .bwsReset) : startOf i s = s := by
  cases i with
  | bwsReset => exact absurd rfl hr
  | hufCount | hufRdhdr | artInit | lzwInit | compress | decompress => exact absurd (by simp [beginsCall]) h
  | _ => rfl

/-- The work starts from the state as it is, or with the stream cleared. -/
theorem startOf_stream : startOf i s = s
    ∨ (startOf i s).srcPos = 0#64 ∧ (startOf i s).dstLen = 0#64
      ∧ (startOf i s).writerOk ∧ (startOf i s).readerOk := by
  have hbegin : s.beginCall.writerOk ∧ s.beginCall.readerOk := by simp [State.writerOk, State.readerOk]
  have hclear : s.clearStream.writerOk ∧ s.clearStream.readerOk := by simp [State.writerOk, State.readerOk]
  cases i with
  | bwsReset => exact .inr ⟨rfl, rfl, hclear⟩
  | hufCount | hufRdhdr | artInit | lzwInit | compress | decompress => exact .inr ⟨rfl, rfl, hbegin⟩
  | _ => exact .inl rfl

variable {i s}

theorem startOf_writerOk (h : s.writerOk) : (startOf i s).writerOk := by
  rcases startOf_stream i s with e | ⟨-, -, hw, -⟩
  · rwa [e]
  · exact hw

theorem startOf_readerOk (h : s.readerOk) : (startOf i s).readerOk := by
  rcases startOf_stream i s with e | ⟨-, -, -, hr⟩
  · rwa [e]
  · exact hr

end ends

/-! ### Invariants of one unit -/

/-- An invariant of the unit of codec `c`: it rests on nothing a command of another codec or the packer
changes, and the pseudocodes of its own codec keep it. -/
structure UnitInvariant (c : Codec) (P : State → Prop) : Prop where
  other : ∀ d s t, d ≠ c → CallPart d s t → P s → P t
  start : ∀ i s, P s → P (startOf i s)
  finish : ∀ i u, P u → P (finishOf i u)
  fail : ∀ s k, P s → P (s.fail k)
  refuse : ∀ s : State, P s → P s.refuse
  modeMismatch : ∀ s : State, P s → P s.modeMismatch
  openSession : ∀ s d m, P s → P (s.openSession d m)
  own : ∀ i s, s.codec ∈ codecsFor i → unitOf i s.codec = c → P s →
    (bodyOf i).Leads (fun _ => P) (fun _ => P) s

/-- Everything a command can answer keeps an invariant of one unit. -/
theorem UnitInvariant.answer {c : Codec} {P : State → Prop} (h : UnitInvariant c P) {i : Instr} {s t : State}
    (hs : P s) (ha : Answer i s t) : P t := by
  cases ha with
  | nop => exact hs
  | refused => exact h.refuse s hs
  | mismatched => exact h.modeMismatch s hs
  | opened a b d m => exact h.openSession s d m hs
  | failed k u ha e =>
    refine h.fail u k ?_
    by_cases hu : unitOf i s.codec = c
    · exact (h.own i s ha.codec hu hs).of_raise e
    · exact h.other _ _ _ hu (ha.failed e).2 (h.start i s hs)
  | ended _ ha e =>
    by_cases hu : unitOf i s.codec = c
    · exact (h.own i s ha.codec hu hs).of_ok e
    · obtain ⟨u, hpart, -, rfl⟩ := ha.ended e
      exact h.finish i u (h.other _ _ _ hu hpart (h.start i s hs))

/-! ### The memories and the packer -/

theorem reset_streamsOk : memoryOk State.reset ∧ packerOk State.reset :=
  ⟨⟨Memory.wf_nil, Memory.wf_nil⟩, .inr ⟨by decide, by decide⟩, by decide, by decide⟩

/-- Everything a command can answer keeps the memories canonical and the packer sound. -/
theorem streamsOk_kept : KeptByAnswers fun s => memoryOk s ∧ packerOk s where
  port _ _ h := h
  writeSrc _ _ b h := ⟨⟨Memory.wf_write h.1.1 (BitVec.isLt _) b, h.1.2⟩, h.2⟩
  writeSrcLen _ _ h := h
  reset _ _ := reset_streamsOk
  command i s t h ha := by
    obtain ⟨⟨hsrc, hdst⟩, hwriter, hreader⟩ := h
    cases ha with
    | nop | refused | mismatched => exact ⟨⟨hsrc, hdst⟩, hwriter, hreader⟩
    | opened => exact ⟨⟨hsrc, hdst⟩, .inr ⟨by simp, by simp⟩, by simp, by simp⟩
    | ended _ ha e =>
      obtain ⟨u, hu, hw, rfl⟩ := ha.ended e
      have huw := hw (startOf_writerOk (hwriter.resolve_left ha.alive))
      have hur := hu.reader (startOf_readerOk hreader)
      refine ⟨⟨?_, ?_⟩, .inr ?_, ?_⟩
      · rwa [finishOf_src, hu.src, startOf_src]
      · rw [finishOf_dst]
        exact hu.canonical (by rwa [startOf_dst])
      · simpa [State.writerOk] using huw
      · simpa [State.readerOk] using hur
    | failed k u ha e =>
      obtain ⟨-, hu⟩ := ha.failed e
      refine ⟨⟨?_, ?_⟩, .inl rfl, hu.reader (startOf_readerOk hreader)⟩
      · rwa [State.fail_src, hu.src, startOf_src]
      · rw [State.fail_dst]
        exact hu.canonical (by rwa [startOf_dst])

/-- Settles O55: every pseudocode is part of a call, which keeps the memories and the packer; a failed
append leaves FAULT, where the write side is free. -/
theorem stepKeepsStreams : Obligations.StepKeepsStreams := by
  unfold Obligations.StepKeepsStreams
  intro s t hm hp e
  exact streamsOk_kept.step ⟨hm, hp⟩ e

/-- Settles O14: MODE and COMP_SIZE move only at the end of a call that completes. -/
theorem sessionWriters : Obligations.SessionWriters := by
  unfold Obligations.SessionWriters
  intro i s t h hi
  cases answer_of_exec h with
  | nop | refused | mismatched => exact ⟨rfl, .inl ⟨rfl, rfl⟩⟩
  | opened a b c m e => exact absurd e (hi a b)
  | failed k u ha e =>
    obtain ⟨-, hu⟩ := ha.failed e
    exact ⟨by simpa using hu.codec, .inl ⟨by simpa using hu.mode, by simpa using hu.compSize⟩⟩
  | ended _ ha e =>
    obtain ⟨u, hu, -, rfl⟩ := ha.ended e
    refine ⟨by simpa using hu.codec, ?_⟩
    have hmode := hu.mode
    have hcomp := hu.compSize
    rw [startOf_mode] at hmode
    rw [startOf_compSize] at hcomp
    cases i with
    | compress => exact .inr ⟨.inl rfl, ha.mode _ rfl, rfl, rfl, rfl, rfl⟩
    | hufEncode => exact .inr ⟨.inr (.inl rfl), ha.mode _ rfl, rfl, rfl, rfl, rfl⟩
    | artFlush => exact .inr ⟨.inr (.inr (.inl rfl)), ha.mode _ rfl, rfl, rfl, rfl, rfl⟩
    | lzwEmit => exact .inr ⟨.inr (.inr (.inr rfl)), ha.mode _ rfl, rfl, rfl, rfl, rfl⟩
    | _ => exact .inl ⟨hmode, hcomp⟩

/-- Settles O15: a pseudocode touches CMDERR nowhere and ERR where a call begins; `fail` sets ERR and enters
FAULT. -/
theorem flagWriters : Obligations.FlagWriters := by
  unfold Obligations.FlagWriters
  intro i s t h
  cases answer_of_exec h with
  | nop => exact ⟨.inl rfl, .inl rfl⟩
  | refused => exact ⟨.inr (.inl rfl), .inl rfl⟩
  | mismatched => exact ⟨.inl rfl, .inr (.inl rfl)⟩
  | opened a b c m e => exact ⟨.inr (.inr ⟨⟨a, b, e⟩, rfl⟩), .inr (.inr (.inr ⟨rfl, .inr ⟨a, b, e⟩⟩))⟩
  | failed k u ha e =>
    obtain ⟨hk, hu⟩ := ha.failed e
    exact ⟨.inl (by simpa using hu.cmderr), .inr (.inr (.inl ⟨rfl, rfl, hk⟩))⟩
  | ended _ ha e =>
    obtain ⟨u, hu, -, rfl⟩ := ha.ended e
    refine ⟨.inl (by simpa using hu.cmderr), ?_⟩
    rw [finishOf_err, hu.err]
    rcases startOf_err i s with e | ⟨hb, e⟩
    · exact .inl e
    · exact .inr (.inr (.inr ⟨e, .inl hb⟩))

/-! ### DST and the source cursor -/

/-- What R32 and R72 ask of a command that answers `t`: SRC_POS stays within SRC, DST is appended to unless a
call, a session or the packer starts, and its bytes from DST_LEN on stay. -/
structure Appends (i : Instr) (s t : State) : Prop where
  cursor : s.srcPos.toNat ≤ s.srcLen.toNat → t.srcPos.toNat ≤ t.srcLen.toNat
  appended : ¬beginsCall i → (∀ a b, i ≠ .sopen a b) → i ≠ .bwsReset →
    s.dstLen.toNat ≤ t.dstLen.toNat ∧ DstOutside s t
  above : ∀ a, t.dstLen.toNat ≤ a → Memory.read t.dst a = Memory.read s.dst a

theorem Appends.refl (i : Instr) (s : State) : Appends i s s :=
  ⟨id, fun _ _ _ => ⟨Nat.le_refl _, fun _ _ => rfl⟩, fun _ _ => rfl⟩

/-- Part of a call, from where the command's work starts. -/
theorem Appends.of_part {c : Codec} {i : Instr} {s u : State} (h : CallPart c (startOf i s) u) :
    Appends i s u where
  cursor hs := by
    refine h.cursor ?_
    rcases startOf_stream i s with e | ⟨e, -⟩
    · rwa [e]
    · rw [e]
      exact Nat.zero_le _
  appended hb _ hr := by
    rw [startOf_eq_self hb hr] at h
    exact ⟨h.grows, h.outside⟩
  above a ha := by rw [h.outside a (.inr ha), startOf_dst]

/-- The end of a call moves neither cursor and no byte. -/
theorem Appends.of_finish {i : Instr} {s u : State} (h : Appends i s u) : Appends i s (finishOf i u) := by
  have hout : DstOutside s (finishOf i u) = DstOutside s u := by simp [DstOutside]
  exact ⟨by simpa using h.cursor, by simpa [hout] using h.appended, by simpa using h.above⟩

theorem Answer.appends {i : Instr} {s t : State} (h : Answer i s t) : Appends i s t := by
  cases h with
  | nop | refused | mismatched =>
    obtain ⟨hcursor, happ, habove⟩ := Appends.refl i s
    exact ⟨hcursor, happ, habove⟩
  | opened a b c m e => exact ⟨fun _ => Nat.zero_le _, fun _ hi _ => absurd e (hi a b), fun _ _ => rfl⟩
  | failed k u ha e =>
    obtain ⟨hcursor, happ, habove⟩ := Appends.of_part (ha.failed e).2
    exact ⟨hcursor, happ, habove⟩
  | ended _ ha e =>
    obtain ⟨u, hu, -, rfl⟩ := ha.ended e
    exact (Appends.of_part hu).of_finish

/-- SOPEN and BWS.RESET touch no byte of DST. -/
theorem Answer.dst_eq {i : Instr} {s t : State} (h : Answer i s t)
    (hi : (∃ a b, i = .sopen a b) ∨ i = .bwsReset) : t.dst = s.dst := by
  have hbody : ∃ f : State → State, bodyOf i s = .ok () (f s) ∧ (f s).dst = s.dst := by
    rcases hi with ⟨a, b, rfl⟩ | rfl
    · exact ⟨id, rfl, rfl⟩
    · exact ⟨State.clearStream, rfl, rfl⟩
  obtain ⟨f, hf, hdst⟩ := hbody
  cases h with
  | nop | refused | mismatched | opened => rfl
  | failed k u _ e =>
    rw [hf] at e
    cases e
  | ended _ _ e =>
    rw [hf] at e
    injection e with _ e
    exact e ▸ hdst

/-- Settles O16: a pseudocode only appends from where its work starts, and only the begin of a call, SOPEN and
BWS.RESET bring DST_LEN back. -/
theorem cursorsAndAppend : Obligations.CursorsAndAppend := by
  unfold Obligations.CursorsAndAppend
  intro i s t h
  obtain ⟨hcursor, happ, habove⟩ := (answer_of_exec h).appends
  exact ⟨hcursor, happ, fun _ => habove, (answer_of_exec h).dst_eq⟩

/-! ### The port, the read port and reset -/

/-- Settles O5: a step is the action at the head of the port, on the rest of it. -/
theorem stepRunsCommand : Obligations.StepRunsCommand := by
  unfold Obligations.StepRunsCommand
  refine ⟨fun s w rest i hport hdec => ?_, fun s hport => ?_⟩
  · unfold step
    rw [hport]
    show hostCommand w { s with port := rest } = _
    unfold hostCommand
    rw [hdec]
  · unfold step
    rw [hport]

/-- Settles O7: the register read port, number by number. -/
theorem registerMap : Obligations.RegisterMap := by
  unfold Obligations.RegisterMap
  intro s
  refine ⟨?_, ?_, ?_, ?_, ?_, rfl, rfl, rfl, rfl, rfl, rfl, ?_, ?_, ?_⟩
  · unfold hostReadReg
    cases s.codec <;> rfl
  · unfold hostReadReg
    cases s.mode <;> rfl
  · unfold hostReadReg
    cases s.phase <;> rfl
  · unfold hostReadReg
    cases s.err <;> rfl
  · unfold hostReadReg
    cases s.cmderr <;> rfl
  · exact BitVec.toNat_setWidth_of_le (by omega)
  · have hcnt := s.huf.leafCnt.isLt
    show (BitVec.ofNat 64 s.huf.leafCnt.val).toNat = _
    rw [BitVec.toNat_ofNat]
    omega
  · intro n hn
    obtain ⟨k, rfl⟩ : ∃ k, n = k + 13 := ⟨n - 13, by omega⟩
    rfl

/-- Settles O8: the reset values, and the same through the read port, number by number. -/
theorem resetValues : Obligations.ResetValues := by
  unfold Obligations.ResetValues
  refine ⟨rfl, rfl, rfl, rfl, rfl, rfl, rfl, rfl, rfl, rfl, rfl, rfl, rfl, rfl, rfl, rfl, rfl, ?_⟩
  intro n hn
  match n with
  | 2 => exact absurd rfl hn
  | 0 | 1 | 3 | 4 | 5 | 6 | 7 | 8 | 9 | 10 | 11 | 12 | _ + 13 => rfl

end Sys2Proof.Machine
end

section
/-! PHASE after each command (spec/10_state.md rule R24), and that it stays inside the session's codec and
direction (R323). -/

namespace Sys2Proof.Machine

variable {α β : Type}

/-- Where the action goes to its end, it leaves a state with `Q`. -/
structure Act.Ends (Q : State → Prop) (m : Act α) : Prop where
  ok : ∀ s a t, m s = .ok a t → Q t

section ends
variable {Q : State → Prop}

/-- The last action decides. -/
theorem Act.Ends.bind {m : Act α} {f : α → Act β} (h : ∀ a, Act.Ends Q (f a)) : Act.Ends Q (m >>= f) :=
  ⟨fun _ _ _ e => by
    obtain ⟨a, u, -, e⟩ := Act.bind_ok e
    exact (h a).ok _ _ _ e⟩

theorem Act.Ends.write {f : State → State} (h : ∀ s, Q (f s)) : Act.Ends Q (Act.write f) :=
  ⟨fun s _ t e => by
    rw [Act.write_apply] at e
    injection e with _ e
    exact e ▸ h s⟩

theorem Act.Ends.unspec (r : Refusal) : Act.Ends Q (Act.unspec r : Act α) := ⟨fun _ _ _ e => by cases e⟩

theorem Act.Preserves.ends {m : Act α} (h : Act.Preserves Q m) {s t : State} {a : α} (hs : Q s)
    (e : m s = .ok a t) : Q t := (h.leads s hs).of_ok e

/-- A loop that went to its end: its invariant holds there, and its condition no longer. -/
theorem Act.while_ends {go : State → Bool} {m : Act Unit} (hm : Act.Preserves Q m) {n : Nat} {s t : State}
    (hs : Q s) (e : Act.while go m n s = .ok () t) : Q t ∧ go t = false := by
  induction n generalizing s with
  | zero =>
    change (if go s then Act.unspec .macroUnbounded else pure ()) s = _ at e
    split at e
    · cases e
    · rename_i hgo
      injection e with _ e
      exact e ▸ ⟨hs, by simpa using hgo⟩
  | succ n ih =>
    change (if go s then m >>= fun _ => Act.while go m n else pure ()) s = _ at e
    split at e
    · obtain ⟨_, u, em, e⟩ := Act.bind_ok e
      exact ih (hm.ends hs em) e
    · rename_i hgo
      injection e with _ e
      exact e ▸ ⟨hs, by simpa using hgo⟩

end ends

/-! ### The phase each pseudocode leaves -/

/-- A stream operation leaves PHASE alone. -/
theorem Act.Keeps.phase {m : Act α} (h : Act.Keeps Streams m) (Q : Phase → Prop) :
    Act.Preserves (fun s => Q s.phase) m := h.preserves fun s t hst hs => by rwa [hst.rest]

/-- PHASE is `p`. -/
abbrev State.phaseIs (p : Phase) (s : State) : Prop := s.phase = p

/-- A step of a decode loop stays in its phase or ends the call. -/
abbrev State.inLoop (p : Phase) (s : State) : Prop := s.phase = p ∨ s.phase = .done

theorem hufCountBody_ends : Act.Ends (State.phaseIs .hCounted) hufCountBody := by
  refine .bind fun _ => .bind fun s => ?_
  split
  · exact .unspec _
  · exact .bind fun _ => .bind fun _ => .bind fun _ => .write fun _ => rfl

theorem hufCodesBody_ends : Act.Ends (State.phaseIs .hCoded) hufCodesBody := by
  refine .bind fun s => ?_
  split
  · exact .unspec _
  · exact .bind fun _ => .write fun _ => rfl

theorem hufWrhdrBody_ends : Act.Ends (State.phaseIs .hHdrw) hufWrhdrBody :=
  .bind fun _ => .bind fun _ => .bind fun _ => .bind fun _ => .write fun _ => rfl

theorem hufEncodeBody_ends : Act.Ends (State.phaseIs .done) hufEncodeBody :=
  .bind fun _ => .bind fun _ => .bind fun _ => .bind fun _ => .write fun _ => rfl

theorem hufRdhdrBody_ends : Act.Ends (State.phaseIs .hHdrr) hufRdhdrBody := by
  refine .bind fun _ => .bind fun _ => .bind fun _ => .bind fun n => ?_
  split
  · exact .unspec _
  · exact .bind fun _ => .bind fun _ => .bind fun _ => .write fun _ => rfl

theorem hufDecodeBody_ends : Act.Ends (State.phaseIs .done) hufDecodeBody :=
  .bind fun _ => .bind fun _ => .write fun _ => rfl

theorem hufBuildBody_phase (s : State) :
    hufBuildBody.Leads (fun _ t => t.phase = builtPhase s.phase) (fun _ _ => True) s := by
  unfold hufBuildBody
  rw [Act.leads_bind, Act.leads_state]
  split
  · exact Act.leads_unspec _
  · rw [Act.leads_bind, Act.leads_write, Act.leads_write]
    rfl

theorem artInitBody_ends : Act.Ends (State.phaseIs .aInit) artInitBody :=
  .bind fun _ => .bind fun _ => .write fun _ => rfl

theorem artWrhdrBody_ends : Act.Ends (State.phaseIs .aEnc) artWrhdrBody :=
  .bind fun _ => .bind fun _ => .write fun _ => rfl

theorem artEncsymBody_phase (Q : Phase → Prop) : Act.Preserves (fun s => Q s.phase) artEncsymBody := by
  refine .bind (srcByte_streams.phase Q) fun b => .get fun s hs => ?_
  dsimp only
  split
  · exact (Act.leads_raise _).2 hs
  · split
    · exact Act.leads_unspec _
    · split
      · exact Act.leads_unspec _
      · refine Act.Preserves.leads ?_ s hs
        exact .bind ((bwsPutBits_streams _).phase Q) fun _ => .write fun _ hs => hs

theorem artFlushBody_ends : Act.Ends (State.phaseIs .done) artFlushBody := by
  refine .bind fun s => ?_
  split
  · exact .unspec _
  · split
    · exact .unspec _
    · exact .bind fun _ => .bind fun _ => .write fun _ => rfl

theorem artRdhdrBody_ends : Act.Ends (State.phaseIs .aDec) artRdhdrBody :=
  .bind fun _ => .bind fun _ => .bind fun _ => .bind fun _ => .write fun _ => rfl

theorem finishDecompress_inLoop (p : Phase) :
    Act.Preserves (State.inLoop p) (Act.write State.finishDecompress) := .write fun _ _ => .inr rfl

theorem artEmit_phase (Q : Phase → Prop) (i : Byte) : Act.Preserves (fun s => Q s.phase) (artEmit i) := by
  refine .get fun s hs => ?_
  dsimp only
  split
  · exact (Act.leads_raise _).2 hs
  · split
    · exact Act.leads_unspec _
    · refine (Act.Preserves.bind ((dstPut_streams _ _).phase Q) fun _ => ?_).leads s hs
      split
      · exact .unspec _
      · split
        · exact .unspec _
        · exact .write fun _ hs => hs

theorem artDecstepBody_inLoop (p : Phase) : Act.Preserves (State.inLoop p) artDecstepBody := by
  refine .get fun s hs => ?_
  split
  · exact (finishDecompress_inLoop p).leads s hs
  · split
    · exact Act.leads_unspec _
    · split
      · exact (artEmit_phase (fun q => q = p ∨ q = .done) _).leads s hs
      · split
        · refine Act.Preserves.leads ?_ s hs
          exact .bind (bwsGetBit_streams.phase fun q => q = p ∨ q = .done) fun _ => .write fun _ hs => hs
        · exact (finishDecompress_inLoop p).leads s hs

theorem lzwInitBody_ends : Act.Ends (State.phaseIs .lInit) lzwInitBody :=
  .bind fun _ => .bind fun _ => .write fun _ => rfl

theorem lzwEncbyteBody_ends : Act.Ends (State.phaseIs .lScan) lzwEncbyteBody :=
  .bind fun _ => .bind fun _ => .write fun _ => rfl

theorem lzwEnceofBody_ends : Act.Ends (State.phaseIs .lScanned) lzwEnceofBody := by
  refine .bind fun s => ?_
  split
  · exact .write fun _ => rfl
  · exact .bind fun _ => .bind fun _ => .write fun _ => rfl

theorem lzwWidthBody_ends : Act.Ends (State.phaseIs .lWidth) lzwWidthBody := by
  refine .bind fun s => ?_
  split
  · exact .unspec _
  · exact .bind fun _ => .write fun _ => rfl

theorem lzwWrhdrBody_ends : Act.Ends (State.phaseIs .lHdrw) lzwWrhdrBody :=
  .bind fun _ => .bind fun _ => .bind fun _ => .write fun _ => rfl

theorem lzwEmitBody_ends : Act.Ends (State.phaseIs .done) lzwEmitBody :=
  .bind fun _ => .bind fun _ => .bind fun _ => .write fun _ => rfl

theorem lzwRdhdrBody_ends : Act.Ends (State.phaseIs .lDec) lzwRdhdrBody := by
  refine .bind fun _ => .bind fun _ => .bind fun w => ?_
  split
  · exact .bind fun _ => .bind fun _ => .write fun _ => rfl
  · exact .unspec _

theorem putPhrase_streams (p : List Byte) : Act.Keeps Streams (putPhrase p) := by
  induction p with
  | nil => exact .pure Streams.refl ()
  | cons x xs ih => exact .bind Streams.trans (dstPut_streams _ _) fun _ => ih

theorem decodeInsert_phase (Q : Phase → Prop) (x : Byte) :
    Act.Preserves (fun s => Q s.phase) (decodeInsert x) := by
  refine .get fun s hs => ?_
  split
  · refine Act.Preserves.leads (.get fun u hu => ?_) s hs
    split
    · exact (Act.leads_write _).2 hu
    · exact Act.leads_unspec _
  · exact (Act.leads_pure _).2 hs

theorem lzwEmitPhrase_inLoop (p : Phase) (cur : List Byte) :
    Act.Preserves (State.inLoop p) (lzwEmitPhrase cur) := by
  refine .get fun s hs => ?_
  split
  · exact Act.leads_unspec _
  · split
    · exact Act.leads_unspec _
    · refine Act.Preserves.leads ?_ s hs
      refine .bind ((putPhrase_streams _).phase fun q => q = p ∨ q = .done) fun _ =>
        .bind (decodeInsert_phase (fun q => q = p ∨ q = .done) _) fun _ =>
        .bind (.write fun _ hs => hs) fun _ => .get fun t ht => ?_
      split
      · exact (finishDecompress_inLoop p).leads t ht
      · exact (Act.leads_pure _).2 ht

theorem lzwDeccodeBody_inLoop (p : Phase) : Act.Preserves (State.inLoop p) lzwDeccodeBody := by
  refine .get fun s hs => ?_
  split
  · exact (finishDecompress_inLoop p).leads s hs
  · refine Act.Preserves.leads (.bind ((bwsRead_streams _).phase fun q => q = p ∨ q = .done) fun c => ?_) s hs
    split
    · exact .unspec _
    · exact lzwEmitPhrase_inLoop p _

/-- A decode loop begun in its phase leaves the call only at DONE. -/
theorem loop_ends_done {m : Act Unit} {p : Phase} (h : Act.Ends (State.phaseIs p) m) {body : Act Unit}
    (hb : Act.Preserves (State.inLoop p) body) (bound : State → Nat) :
    Act.Ends (State.phaseIs .done)
      (m >>= fun _ => Act.state >>= fun s => Act.while (fun s => s.phase == p) body (bound s)) := by
  refine ⟨fun s _ t e => ?_⟩
  obtain ⟨_, u, eu, e⟩ := Act.bind_ok e
  obtain ⟨_, v, ev, e⟩ := Act.bind_ok e
  injection ev with _ ev
  subst ev
  obtain ⟨hin, hgo⟩ := Act.while_ends hb (.inl (h.ok _ _ _ eu)) e
  exact hin.resolve_left (by simpa using hgo)

theorem compressOf_ends {c : Codec} (hc : c ∈ codecsFor .compress) :
    Act.Ends (State.phaseIs .done) (compressOf c) := by
  cases c with
  | closed => simp [codecsFor] at hc
  | huf => exact .bind fun _ => .bind fun _ => .bind fun _ => .bind fun _ => hufEncodeBody_ends
  | art => exact .bind fun _ => .bind fun _ => .bind fun _ => .bind fun _ => artFlushBody_ends
  | lzw =>
    exact .bind fun _ => .bind fun _ => .bind fun _ => .bind fun _ => .bind fun _ => .bind fun _ =>
      lzwEmitBody_ends

theorem decompressOf_ends {c : Codec} (hc : c ∈ codecsFor .decompress) :
    Act.Ends (State.phaseIs .done) (decompressOf c) := by
  cases c with
  | closed => simp [codecsFor] at hc
  | huf => exact .bind fun _ => .bind fun _ => hufDecodeBody_ends
  | art => exact .bind fun _ => loop_ends_done artRdhdrBody_ends (artDecstepBody_inLoop _) _
  | lzw => exact .bind fun _ => loop_ends_done lzwRdhdrBody_ends (lzwDeccodeBody_inLoop _) _

/-! ### The phase after an accepted command -/

/-- The PHASEs a command leaves at its end, from PHASE `p` (the command rules of R144 to R279). -/
def phasesAfter (i : Instr) (p : Phase) : List Phase :=
  match i with
  | .nop | .sopen _ _ | .bwsReset | .bwsWrite _ _ | .bwsFinish | .bwsRead _ | .artEncsym => [p]
  | .compress | .decompress | .hufEncode | .hufDecode | .artFlush | .lzwEmit => [.done]
  | .hufCount => [.hCounted]
  | .hufBuild => [builtPhase p]
  | .hufCodes => [.hCoded]
  | .hufWrhdr => [.hHdrw]
  | .hufRdhdr => [.hHdrr]
  | .artInit => [.aInit]
  | .artWrhdr => [.aEnc]
  | .artRdhdr => [.aDec]
  | .artDecstep | .lzwDeccode => [p, .done]
  | .lzwInit => [.lInit]
  | .lzwEncbyte => [.lScan]
  | .lzwEnceof => [.lScanned]
  | .lzwWidth => [.lWidth]
  | .lzwWrhdr => [.lHdrw]
  | .lzwRdhdr => [.lDec]

theorem Accepted.phase_after {i : Instr} {s t : State} (h : Accepted i s) (e : bodyOf i s = .ok () t) :
    t.phase ∈ phasesAfter i s.phase := by
  have one {p q : Phase} (hq : q = p) : q ∈ [p] := List.mem_singleton.2 hq
  have two {p q : Phase} (hq : q = p ∨ q = .done) : q ∈ [p, .done] := by simpa using hq
  cases i with
  | nop | sopen | bwsReset =>
    injection e with _ e
    exact one (e ▸ rfl)
  | bwsWrite => exact one (((bwsWrite_streams _ _).phase (· = s.phase)).ends rfl e)
  | bwsFinish => exact one ((bwsFinish_streams.phase (· = s.phase)).ends rfl e)
  | bwsRead a =>
    have hread : Act.Preserves (fun t => t.phase = s.phase) (bodyOf (.bwsRead a)) :=
      .bind ((bwsRead_streams _).phase (· = s.phase)) fun _ => .write fun _ hs => hs
    exact one (hread.ends rfl e)
  | compress => exact one ((compressOf_ends h.codec).ok _ _ _ ((compressBody_apply s).symm.trans e))
  | decompress => exact one ((decompressOf_ends h.codec).ok _ _ _ ((decompressBody_apply s).symm.trans e))
  | hufCount => exact one (hufCountBody_ends.ok _ _ _ e)
  | hufBuild => exact one ((hufBuildBody_phase s).of_ok e)
  | hufCodes => exact one (hufCodesBody_ends.ok _ _ _ e)
  | hufWrhdr => exact one (hufWrhdrBody_ends.ok _ _ _ e)
  | hufEncode => exact one (hufEncodeBody_ends.ok _ _ _ e)
  | hufRdhdr => exact one (hufRdhdrBody_ends.ok _ _ _ e)
  | hufDecode => exact one (hufDecodeBody_ends.ok _ _ _ e)
  | artInit => exact one (artInitBody_ends.ok _ _ _ e)
  | artWrhdr => exact one (artWrhdrBody_ends.ok _ _ _ e)
  | artEncsym => exact one ((artEncsymBody_phase (· = s.phase)).ends rfl e)
  | artFlush => exact one (artFlushBody_ends.ok _ _ _ e)
  | artRdhdr => exact one (artRdhdrBody_ends.ok _ _ _ e)
  | artDecstep => exact two ((artDecstepBody_inLoop s.phase).ends (.inl rfl) e)
  | lzwInit => exact one (lzwInitBody_ends.ok _ _ _ e)
  | lzwEncbyte => exact one (lzwEncbyteBody_ends.ok _ _ _ e)
  | lzwEnceof => exact one (lzwEnceofBody_ends.ok _ _ _ e)
  | lzwWidth => exact one (lzwWidthBody_ends.ok _ _ _ e)
  | lzwWrhdr => exact one (lzwWrhdrBody_ends.ok _ _ _ e)
  | lzwEmit => exact one (lzwEmitBody_ends.ok _ _ _ e)
  | lzwRdhdr => exact one (lzwRdhdrBody_ends.ok _ _ _ e)
  | lzwDeccode => exact two ((lzwDeccodeBody_inLoop s.phase).ends (.inl rfl) e)

/-! ### PHASE and the session -/

/-- `sessionOk` from the fields it reads. -/
theorem sessionOk_of_eq {s t : State} (h : sessionOk s) (hp : t.phase = s.phase) (hc : t.codec = s.codec)
    (hm : t.mode = s.mode) (he : t.phase = .fault → t.err = s.err) : sessionOk t := by
  unfold sessionOk at h ⊢
  rw [hp] at he ⊢
  rw [hc, hm]
  split <;> simp_all

/-- HUF.BUILD leaves the phase of the direction it began in (R183). -/
theorem sessionOk_built {s t : State} (h : sessionOk s) (hs : s.phase = .hCounted ∨ s.phase = .hHdrr)
    (hp : t.phase = builtPhase s.phase) (hc : t.codec = s.codec) (hm : t.mode = s.mode) : sessionOk t := by
  unfold sessionOk at h ⊢
  rcases hs with e | e <;> simp_all [builtPhase]

/-- The phase an accepted command leaves belongs to the session it was accepted in. -/
theorem sessionOk_after {i : Instr} {s t : State} (h : sessionOk s) (ha : Accepted i s)
    (hp : t.phase ∈ phasesAfter i s.phase) (hc : t.codec = s.codec) (hm : t.phase ≠ .done → t.mode = s.mode) :
    sessionOk t := by
  by_cases hdone : t.phase = .done
  · unfold sessionOk
    rw [hdone]
    trivial
  have hmode := hm hdone
  have same (e : t.phase = s.phase) : sessionOk t :=
    sessionOk_of_eq h e hc hmode fun hf => absurd (e ▸ hf) ha.alive
  have hcodec : t.codec ∈ codecsFor i := hc ▸ ha.codec
  have hdir : ∀ m, directionFor i = some m → t.mode = m := fun m e => hmode.trans (ha.mode m e)
  cases i with
  | nop | sopen | bwsReset | bwsWrite | bwsFinish | bwsRead | artEncsym => exact same (List.mem_singleton.1 hp)
  | artDecstep | lzwDeccode =>
    exact same ((List.mem_cons.1 hp).resolve_right fun e => hdone (List.mem_singleton.1 e))
  | compress | decompress | hufEncode | hufDecode | artFlush | lzwEmit =>
    exact absurd (List.mem_singleton.1 hp) hdone
  | hufBuild =>
    exact sessionOk_built h (by simpa [phasesFor] using ha.phase) (List.mem_singleton.1 hp) hc hmode
  | artInit | lzwInit =>
    unfold sessionOk
    rw [List.mem_singleton.1 hp]
    exact List.mem_singleton.1 hcodec
  | _ =>
    unfold sessionOk
    rw [List.mem_singleton.1 hp]
    exact ⟨List.mem_singleton.1 hcodec, hdir _ rfl⟩

/-- The end of a call leaves MODE alone or PHASE at DONE. -/
theorem finishOf_mode (i : Instr) (u : State) (h : (finishOf i u).phase ≠ .done) :
    (finishOf i u).mode = u.mode := by
  cases i with
  | hufEncode | artFlush | lzwEmit | compress => exact absurd rfl h
  | _ => rfl

/-- Everything a command can answer keeps PHASE inside the session. -/
theorem sessionOk_kept : KeptByAnswers sessionOk where
  port _ _ h := h
  writeSrc _ _ _ h := h
  writeSrcLen _ _ h := h
  reset _ _ := trivial
  command i s t h ha := by
    cases ha with
    | nop => exact h
    | refused => exact sessionOk_of_eq h rfl rfl rfl fun _ => rfl
    | mismatched hp => exact sessionOk_of_eq h rfl rfl rfl fun hf => absurd hf hp
    | opened => trivial
    | failed k u ha e => exact (ha.failed e).1
    | ended _ ha e =>
      have hafter := ha.phase_after e
      obtain ⟨u, hu, -, rfl⟩ := ha.ended e
      refine sessionOk_after h ha hafter (by simpa using hu.codec) fun hn => ?_
      rw [finishOf_mode i u hn, hu.mode, startOf_mode]

/-- Settles O56: each pseudocode leaves a phase of the session it was accepted in, and only the two fatal kinds
are raised. -/
theorem stepKeepsSession : Obligations.StepKeepsSession := by
  unfold Obligations.StepKeepsSession
  intro s t h e
  exact sessionOk_kept.step h e

end Sys2Proof.Machine
end

section
/-! The Huffman tree: merging makes an ordered arena with the last node as its root (R183 to R186, R192), the
walk over an ordered arena gives codes of 1 to 255 bits (R187, R192), and no other pseudocode touches the
arena or the codes. -/

namespace Sys2Proof.Machine

/-! ### The merge loop -/

/-- How many of the nodes are internal. -/
def internals (ns : List Node) : Nat := ns.countP (fun x : Node => !x.leaf)

/-- Children are older than their node (R39). -/
def Ordered (ns : List Node) : Prop :=
  ∀ i (x : Node), ns[i]? = some x → x.leaf = false → x.left < i ∧ x.right < i

theorem leastOf_mem (ns : List Node) (i : Nat) (q : List Nat) : leastOf ns i q ∈ i :: q := by
  induction q generalizing i with
  | nil => exact List.mem_singleton.2 rfl
  | cons j q ih =>
    unfold leastOf
    split
    · exact List.mem_cons_of_mem _ (ih j)
    · rcases List.mem_cons.1 (ih i) with e | e
      · rw [e]
        exact List.mem_cons_self
      · exact List.mem_cons_of_mem _ (List.mem_cons_of_mem _ e)

/-- `popmin` takes one waiting index and leaves the others (R184). -/
theorem popMin_some {ns : List Node} {q q' : List Nat} {a : Nat} (h : popMin ns q = some (a, q')) :
    a ∈ q ∧ q' ⊆ q ∧ q'.length + 1 = q.length := by
  cases q with
  | nil => cases h
  | cons i q =>
    simp only [popMin, Option.some.injEq, Prod.mk.injEq] at h
    obtain ⟨rfl, rfl⟩ := h
    have hmem := leastOf_mem ns i q
    refine ⟨hmem, List.erase_subset, ?_⟩
    rw [List.length_erase_of_mem hmem, List.length_cons, Nat.add_sub_cancel]

theorem popMin_none {ns : List Node} {q : List Nat} (h : popMin ns q = none) : q = [] := by
  cases q with
  | nil => rfl
  | cons i q => cases h

/-- One merge appends a node over two waiting indices, and that node waits in their place (R183). -/
theorem mergeStep_some {ns ns' : List Node} {q q' : List Nat}
    (h : mergeStep ns q = .ok (some (ns', q'))) :
    ∃ a b w q2, a ∈ q ∧ b ∈ q ∧ q2 ⊆ q ∧ q2.length + 2 = q.length
      ∧ ns' = ns ++ [joinNode w a b] ∧ q' = q2 ++ [ns.length] := by
  unfold mergeStep at h
  split at h
  · cases h
  · rename_i a q1 h1
    obtain ⟨ha, hsub1, hlen1⟩ := popMin_some h1
    split at h
    · cases h
    · rename_i b q2 h2
      obtain ⟨hb, hsub2, hlen2⟩ := popMin_some h2
      dsimp only at h
      split at h
      · injection h with h
        injection h with h
        injection h with hn hq
        exact ⟨a, b, _, q2, ha, hsub1 hb, List.Subset.trans hsub2 hsub1, by omega, hn.symm, hq.symm⟩
      · cases h

theorem mergeStep_none {ns : List Node} {q : List Nat} (h : mergeStep ns q = .ok none) : q.length ≤ 1 := by
  unfold mergeStep at h
  split at h
  · rename_i h1
    rw [popMin_none h1]
    exact Nat.zero_le _
  · rename_i a q1 h1
    obtain ⟨-, -, hlen1⟩ := popMin_some h1
    split at h
    · rename_i h2
      rw [popMin_none h2] at hlen1
      exact hlen1.ge
    · dsimp only at h
      split at h
      · injection h with h
        cases h
      · cases h

/-- The arena and the waiting indices while `k` leaves are merged. -/
structure Merging (k : Nat) (ns : List Node) (q : List Nat) : Prop where
  size : ns.length = k + internals ns
  waiting : q.length + internals ns = k
  inside : ∀ i ∈ q, i < ns.length
  ordered : Ordered ns
  newest : internals ns = 0 ∨ ∃ q0 x, q = q0 ++ [ns.length - 1] ∧ ns[ns.length - 1]? = some x ∧ x.leaf = false

theorem Merging.waiting_pos {k : Nat} {ns : List Node} {q : List Nat} (h : Merging k ns q) :
    internals ns = 0 ∨ 1 ≤ q.length := by
  refine h.newest.imp_right ?_
  rintro ⟨q0, x, rfl, -, -⟩
  simp

theorem Ordered.append_join {ns : List Node} (h : Ordered ns) {a b : Nat} (w : U32) (ha : a < ns.length)
    (hb : b < ns.length) : Ordered (ns ++ [joinNode w a b]) := by
  intro i x hx hl
  rcases Nat.lt_trichotomy i ns.length with hi | rfl | hi
  · rw [List.getElem?_append_left hi] at hx
    exact h i x hx hl
  · rw [List.getElem?_concat_length] at hx
    injection hx with hx
    subst hx
    exact ⟨ha, hb⟩
  · rw [List.getElem?_eq_none (by simp; omega)] at hx
    cases hx

theorem Merging.step {k : Nat} {ns ns' : List Node} {q q' : List Nat} (h : Merging k ns q)
    (e : mergeStep ns q = .ok (some (ns', q'))) : Merging k ns' q' ∧ q'.length < q.length := by
  obtain ⟨a, b, w, q2, ha, hb, hsub, hlen, rfl, rfl⟩ := mergeStep_some e
  have hint : internals (ns ++ [joinNode w a b]) = internals ns + 1 := by
    simp [internals, List.countP_append, joinNode]
  have hsize := h.size
  have hwait := h.waiting
  refine ⟨⟨?_, ?_, ?_, ?_, .inr ⟨q2, joinNode w a b, ?_, ?_, rfl⟩⟩, ?_⟩
  · rw [hint, List.length_append, List.length_singleton]
    omega
  · rw [hint, List.length_append, List.length_singleton]
    omega
  · intro i hi
    rw [List.length_append, List.length_singleton]
    rcases List.mem_append.1 hi with hi | hi
    · exact Nat.lt_succ_of_lt (h.inside i (hsub hi))
    · rw [List.mem_singleton.1 hi]
      exact Nat.lt_succ_self _
  · exact h.ordered.append_join w (h.inside a ha) (h.inside b hb)
  · rw [List.length_append, List.length_singleton, Nat.add_sub_cancel]
  · rw [List.length_append, List.length_singleton, Nat.add_sub_cancel, List.getElem?_concat_length]
  · rw [List.length_append, List.length_singleton]
    omega

/-- The merge loop ends with at most one index waiting. -/
theorem Merging.all {k n : Nat} {ns ns' : List Node} {q q' : List Nat} (h : Merging k ns q)
    (hn : q.length ≤ n) (e : mergeAll n ns q = .ok (ns', q')) : Merging k ns' q' ∧ q'.length ≤ 1 := by
  induction n generalizing ns q with
  | zero =>
    injection e with e
    injection e with en eq
    subst en eq
    exact ⟨h, by omega⟩
  | succ n ih =>
    unfold mergeAll at e
    split at e
    · cases e
    · rename_i hm
      injection e with e
      injection e with en eq
      subst en eq
      exact ⟨h, mergeStep_none hm⟩
    · rename_i hm
      obtain ⟨hs, hlt⟩ := h.step hm
      exact ih hs (by omega) e

/-- The leaves the merge loop starts from: none is internal, and there is not just one (R185). -/
theorem startNodes_leaf (ls : List Leaf) : ∀ x ∈ startNodes ls, x.leaf = true := by
  have hmap : ∀ x ∈ ls.map leafNode, x.leaf = true := by
    intro x hx
    obtain ⟨l, -, rfl⟩ := List.mem_map.1 hx
    rfl
  unfold startNodes
  split
  · intro x hx
    rcases List.mem_append.1 hx with hx | hx
    · exact hmap x hx
    · rw [List.mem_singleton.1 hx]
      rfl
  · exact hmap

theorem startNodes_length (ls : List Leaf) : (startNodes ls).length = firstInternal ls := by
  unfold startNodes firstInternal
  split
  · rename_i h
    simp [h]
  · simp

theorem firstInternal_ne_one (ls : List Leaf) : firstInternal ls ≠ 1 := by
  unfold firstInternal
  split <;> omega

theorem merging_start (ls : List Leaf) :
    Merging (firstInternal ls) (startNodes ls) (List.range (startNodes ls).length) := by
  have hleaf := startNodes_leaf ls
  have hint : internals (startNodes ls) = 0 := by
    unfold internals
    rw [List.countP_eq_zero]
    intro x hx
    simp [hleaf x hx]
  refine ⟨?_, ?_, fun i hi => List.mem_range.1 hi, ?_, .inl hint⟩
  · rw [hint, startNodes_length, Nat.add_zero]
  · rw [hint, List.length_range, startNodes_length, Nat.add_zero]
  · intro i x hx hl
    rw [hleaf x (List.mem_of_getElem? hx)] at hl
    cases hl

/-- The tree of at most 256 leaves: 511 nodes at most, in order, its root the last merge (R192). -/
theorem buildTree_ok {ls : List Leaf} (hls : ls.length ≤ 256) {ns : List Node} {root : Option Nat}
    (e : buildTree ls = .ok (ns, root)) : ns.length ≤ 511 ∧ ArenaOk ns root := by
  unfold buildTree at e
  dsimp only at e
  split at e
  · cases e
  · rename_i ns' q hm
    injection e with e
    injection e with en er
    subst en er
    obtain ⟨h, hq⟩ := (merging_start ls).all (by rw [List.length_range]) hm
    have hk : firstInternal ls ≤ 256 := by
      unfold firstInternal
      split <;> omega
    have hk1 := firstInternal_ne_one ls
    have hsize := h.size
    have hwait := h.waiting
    have hcount : internals ns' ≤ 255 := by
      have hpos := h.waiting_pos
      omega
    refine ⟨by omega, h.ordered, fun r hr => ?_, hcount⟩
    obtain ⟨q0, rfl⟩ : ∃ q0, q = r :: q0 := by
      cases q with
      | nil => cases hr
      | cons i q0 => exact ⟨q0, by injection hr with hr; rw [hr]⟩
    rcases h.newest with h0 | ⟨q1, x, hq1, hx, hl⟩
    · rw [List.length_cons] at hq hwait
      omega
    · have hlen := congrArg List.length hq1
      rw [List.length_append, List.length_cons, List.length_singleton] at hlen
      rw [List.length_cons] at hq
      obtain rfl : q1 = [] := List.eq_nil_of_length_eq_zero (by omega)
      injection hq1 with hr1
      exact ⟨x, hr1 ▸ hx, hl⟩

/-! ### The walk -/

theorem tabGet_tabSet {α : Type} (t : Vector α 256) (b c : Byte) (v : α) :
    tabGet (tabSet t b v) c = if c = b then v else tabGet t c := by
  unfold tabGet tabSet
  rw [Vector.getElem_set]
  by_cases h : c = b
  · rw [if_pos h, if_pos (congrArg BitVec.toNat h.symm)]
  · rw [if_neg h, if_neg fun e => h (BitVec.eq_of_toNat_eq e.symm)]

/-- Every code has 1 to 255 bits (R40, R192). -/
def CodesOk (t : Vector (Option (List Bool)) 256) : Prop :=
  ∀ c p, tabGet t c = some p → 1 ≤ p.length ∧ p.length ≤ 255

theorem codesOk_none : CodesOk (Vector.replicate 256 none) := by
  intro c p h
  simp [tabGet] at h

theorem CodesOk.set {t : Vector (Option (List Bool)) 256} (h : CodesOk t) (b : Byte) {path : List Bool}
    (h1 : 1 ≤ path.length) (h2 : path.length ≤ 255) : CodesOk (tabSet t b (some path)) := by
  intro c p hp
  rw [tabGet_tabSet] at hp
  split at hp
  · injection hp with hp
    exact hp ▸ ⟨h1, h2⟩
  · exact h c p hp

/-- An internal node is one more than the internal nodes older than it. -/
theorem internals_take_succ {ns : List Node} {i : Nat} {x : Node} (hx : ns[i]? = some x)
    (hl : x.leaf = false) : internals (ns.take (i + 1)) = internals (ns.take i) + 1 := by
  unfold internals
  rw [List.take_add_one, hx, List.countP_append]
  simp [hl]

theorem internals_take_mono (ns : List Node) {i j : Nat} (h : i ≤ j) :
    internals (ns.take i) ≤ internals (ns.take j) :=
  ((List.take_sublist_take_left h).countP_le)

/-- What the walk can do at node `i` (R187): a leaf's code, or the left subtree and then the right one. -/
theorem walkCodes_some {ns : List Node} {d i : Nat} {path : List Bool}
    {t t' : Vector (Option (List Bool)) 256} (e : walkCodes ns d i path t = some t') :
    ∃ x, ns[i]? = some x
      ∧ (x.leaf = true ∧ t' = (if x.dummy then t else tabSet t x.sym (some path))
        ∨ x.leaf = false ∧ ∃ d' u, d = d' + 1 ∧ walkCodes ns d' x.left (path ++ [false]) t = some u
          ∧ walkCodes ns d' x.right (path ++ [true]) u = some t') := by
  unfold walkCodes at e
  split at e
  · cases e
  · rename_i x hx
    refine ⟨x, hx, ?_⟩
    split at e
    · rename_i hl
      injection e with e
      exact .inl ⟨hl, e.symm⟩
    · rename_i hl
      split at e
      · cases e
      · rename_i d'
        split at e
        · cases e
        · rename_i u hu
          exact .inr ⟨by simpa using hl, d', u, rfl, hu, e⟩

/-- The walk below node `i` of an ordered arena: each edge of the path has left an internal node behind, so a
code is no longer than there are internal nodes. -/
theorem walkCodes_ok {ns : List Node} (ho : Ordered ns) {d i : Nat} {path : List Bool}
    {t t' : Vector (Option (List Bool)) 256} (ht : CodesOk t)
    (hpath : path.length + internals (ns.take (i + 1)) ≤ 255)
    (htop : 1 ≤ path.length ∨ ∃ x : Node, ns[i]? = some x ∧ x.leaf = false)
    (e : walkCodes ns d i path t = some t') : CodesOk t' := by
  induction d using Nat.strong_induction_on generalizing i path t t' with
  | _ d ih =>
  obtain ⟨x, hx, ⟨hl, rfl⟩ | ⟨hl, d', u, rfl, hleft, hright⟩⟩ := walkCodes_some e
  · have hpos : 1 ≤ path.length := by
      refine htop.resolve_right ?_
      rintro ⟨y, hy, hyl⟩
      obtain rfl : x = y := Option.some.inj (hx.symm.trans hy)
      rw [hl] at hyl
      cases hyl
    split
    · exact ht
    · exact ht.set x.sym hpos (by omega)
  · have hchild {j : Nat} (b : Bool) (hj : j < i) :
        (path ++ [b]).length + internals (ns.take (j + 1)) ≤ 255 := by
      have hmono : internals (ns.take (j + 1)) ≤ internals (ns.take i) := internals_take_mono ns hj
      rw [internals_take_succ hx hl] at hpath
      rw [List.length_append, List.length_singleton]
      omega
    have hdeep (b : Bool) : 1 ≤ (path ++ [b]).length := by simp
    obtain ⟨hlt, hrt⟩ := ho i x hx hl
    have hu := ih d' (Nat.lt_succ_self d') ht (hchild false hlt) (.inl (hdeep false)) hleft
    exact ih d' (Nat.lt_succ_self d') hu (hchild true hrt) (.inl (hdeep true)) hright

/-- The codes of an ordered arena have 1 to 255 bits (R187, R192). -/
theorem codeTable_ok {ns : List Node} {root : Option Nat} (h : ArenaOk ns root)
    {t : Vector (Option (List Bool)) 256} (e : codeTable ns root = some t) : CodesOk t := by
  unfold codeTable at e
  split at e
  · injection e with e
    exact e ▸ codesOk_none
  · rename_i r
    have hall : internals (ns.take (r + 1)) ≤ internals ns := (List.take_sublist _ _).countP_le
    have hfew : internals ns ≤ 255 := h.few
    refine walkCodes_ok h.older codesOk_none ?_ (.inr (h.top r rfl)) e
    simp only [List.length_nil]
    omega

/-! ### The pseudocodes and the unit -/

/-- The action keeps the tree a tree and the codes short. -/
abbrev Act.KeepsTree {α : Type} (m : Act α) : Prop := Act.Preserves (fun s => huffmanOk s.huf) m

/-- The packer and the accesses touch no unit. -/
theorem Act.Part.keepsTree {α : Type} {m : Act α} (h : Act.Part .closed m) : m.KeepsTree :=
  ⟨fun s hs => (h.leads s).mono (fun _ t ⟨ht, _⟩ => by rwa [ht.huf nofun])
    fun _ t ⟨_, ht⟩ => by rwa [ht.huf nofun]⟩

theorem hufTally_keepsTree (n : Nat) : (hufTally n).KeepsTree := by
  induction n with
  | zero => exact .pure ()
  | succ n ih => exact .bind (srcByte_part _).keepsTree fun _ => .bind (.write fun _ h => h) fun _ => ih

theorem hufCountBody_keepsTree : hufCountBody.KeepsTree := by
  refine .bind (.write fun _ h => h) fun _ => .get fun s hs => ?_
  split
  · exact Act.leads_unspec _
  · refine Act.Preserves.leads ?_ s hs
    exact .bind (.write fun _ h => h) fun _ => .bind (hufTally_keepsTree _) fun _ =>
      .bind (.write fun _ h => h) fun _ => .write fun _ h => h

/-- LEAF[0..LEAFCNT-1] has at most 256 places. -/
theorem HufUnit.leaves_length (u : HufUnit) : u.leaves.length ≤ 256 := by
  unfold HufUnit.leaves
  rw [List.length_take, Vector.length_toList]
  exact Nat.min_le_right _ _

theorem hufBuildBody_keepsTree : hufBuildBody.KeepsTree := by
  refine .get fun s hs => ?_
  split
  · exact Act.leads_unspec _
  · rename_i hb
    rw [Act.leads_bind, Act.leads_write, Act.leads_write]
    obtain ⟨-, -, hcodes⟩ := hs
    obtain ⟨hlen, harena⟩ := buildTree_ok s.huf.leaves_length hb
    exact ⟨hlen, harena, hcodes⟩

theorem hufCodesBody_keepsTree : hufCodesBody.KeepsTree := by
  refine .get fun s hs => ?_
  split
  · exact Act.leads_unspec _
  · rename_i hc
    rw [Act.leads_bind, Act.leads_write, Act.leads_write]
    obtain ⟨hlen, harena, -⟩ := hs
    exact ⟨hlen, harena, codeTable_ok harena hc⟩

theorem hufWrhdrBody_keepsTree : hufWrhdrBody.KeepsTree :=
  .read fun _ => .bind (dstPut_part _ _ _).keepsTree fun _ => .bind (dstPut_part _ _ _).keepsTree fun _ =>
    .bind (putLeaves_part _ _).keepsTree fun _ => .write fun _ h => h

theorem hufEncodeBody_keepsTree : hufEncodeBody.KeepsTree :=
  .bind (.write fun _ h => h) fun _ => .read fun _ => .bind (hufEncodeBytes_part _ _).keepsTree fun _ =>
    .bind (bwsFinish_part _).keepsTree fun _ => .write fun _ h => h

theorem getLeaves_keepsTree (k n : Nat) : (getLeaves k n).KeepsTree := by
  induction n generalizing k with
  | zero => exact .pure ()
  | succ n ih =>
    exact .bind (srcByte_part _).keepsTree fun _ => .bind (srcNext_part _ _).keepsTree fun _ =>
      .bind (.write fun _ h => h) fun _ => ih _

theorem hufRdhdrBody_keepsTree : hufRdhdrBody.KeepsTree := by
  refine .bind (.write fun _ h => h) fun _ => .bind (srcNext_part _ _).keepsTree fun _ =>
    .bind (.write fun _ h => h) fun _ => .bind (srcNext_part _ _).keepsTree fun n => ?_
  split
  · exact .unspec _
  · exact .bind (.write fun _ h => h) fun _ => .bind (getLeaves_keepsTree _ _) fun _ =>
      .bind (.write fun _ h => h) fun _ => .write fun _ h => h

theorem hufDecodeBody_keepsTree : hufDecodeBody.KeepsTree :=
  .read fun _ => .bind (.times (hufDecodeByte_part _).keepsTree _) fun _ => .write fun _ h => h

theorem compressHuf_keepsTree : compressHuf.KeepsTree :=
  .bind hufCountBody_keepsTree fun _ => .bind hufBuildBody_keepsTree fun _ =>
    .bind hufCodesBody_keepsTree fun _ => .bind hufWrhdrBody_keepsTree fun _ => hufEncodeBody_keepsTree

theorem decompressHuf_keepsTree : decompressHuf.KeepsTree :=
  .bind hufRdhdrBody_keepsTree fun _ => .bind hufBuildBody_keepsTree fun _ => hufDecodeBody_keepsTree

/-- A command of a Huffman session keeps the tree. -/
theorem bodyOf_keepsTree {i : Instr} {s : State} (hc : s.codec ∈ codecsFor i)
    (hu : unitOf i s.codec = .huf) (h : huffmanOk s.huf) :
    (bodyOf i).Leads (fun _ t => huffmanOk t.huf) (fun _ t => huffmanOk t.huf) s := by
  cases i with
  | nop | sopen => exact (Act.leads_pure ()).2 h
  | bwsReset | bwsWrite | bwsFinish | bwsRead => cases hu
  | compress => exact compressBody_leads hu (compressHuf_keepsTree.leads s h)
  | decompress => exact decompressBody_leads hu (decompressHuf_keepsTree.leads s h)
  | hufCount => exact hufCountBody_keepsTree.leads s h
  | hufBuild => exact hufBuildBody_keepsTree.leads s h
  | hufCodes => exact hufCodesBody_keepsTree.leads s h
  | hufWrhdr => exact hufWrhdrBody_keepsTree.leads s h
  | hufEncode => exact hufEncodeBody_keepsTree.leads s h
  | hufRdhdr => exact hufRdhdrBody_keepsTree.leads s h
  | hufDecode => exact hufDecodeBody_keepsTree.leads s h
  | _ => exact absurd ((List.mem_singleton.1 hc).symm.trans hu) nofun

theorem reset_huffmanOk : huffmanOk State.reset.huf := by
  refine ⟨Nat.zero_le _, ⟨fun i x hx => ?_, nofun, Nat.zero_le _⟩, codesOk_none⟩
  cases hx

theorem huffmanOk_unitInvariant : UnitInvariant .huf fun s => huffmanOk s.huf where
  other _ _ _ hd hpart h := by rwa [hpart.huf hd]
  start _ _ h := by rwa [startOf_huf]
  finish _ _ h := by rwa [finishOf_huf]
  fail _ _ h := h
  refuse _ h := h
  modeMismatch _ h := h
  openSession _ _ _ h := h
  own _ _ hc hu h := bodyOf_keepsTree hc hu h

theorem huffmanOk_kept : KeptByAnswers fun s => huffmanOk s.huf where
  port _ _ h := h
  writeSrc _ _ _ h := h
  writeSrcLen _ _ h := h
  reset _ _ := reset_huffmanOk
  command _ _ _ h ha := huffmanOk_unitInvariant.answer h ha

/-- Settles O57: HUF.BUILD makes an ordered arena, HUF.CODES its paths, and nothing else touches either. -/
theorem stepKeepsTree : Obligations.StepKeepsTree := by
  unfold Obligations.StepKeepsTree
  intro s t h e
  exact huffmanOk_kept.step h e

end Sys2Proof.Machine
end

section
/-! The arithmetic model: the layout of R221 is laid out, valid and non-decreasing; the renormalization of R222
keeps an interval an interval; so every pseudocode keeps the model (R41 to R44, R230). -/

namespace Sys2Proof

/-! ### Binary64 -/

theorem F64.one_valid : F64.one.Valid := by
  have h : F64.one = ⟨1 * 2 ^ 1074⟩ := congrArg F64.mk (Nat.one_mul _).symm
  rw [h]
  exact F64.valid_of_scaled (by decide)

theorem F64.le_iff {a b : F64} : F64.le a b = true ↔ a.units ≤ b.units := decide_eq_true_iff

theorem F64.fmul_mono (c : F64) {a b : F64} (h : a.units ≤ b.units) :
    (F64.fmul c a).units ≤ (F64.fmul c b).units := F64.round_mono (Nat.mul_le_mul_left _ h)

theorem F64.fsub_mono (c : F64) {a b : F64} (h : a.units ≤ b.units) :
    (F64.fsub a c).units ≤ (F64.fsub b c).units := F64.round_mono (Nat.sub_le_sub_right h _)

theorem F64.round_zero (den : Nat) : F64.round 0 den = F64.zero := by
  simp [F64.round, F64.roundAt, F64.zero]

end Sys2Proof

namespace Sys2Proof.Machine

/-! ### The layout -/

theorem boundaries_zero (total width prev : F64) (cs : List Nat) :
    (boundaries total width prev cs)[0]? = some prev := by
  cases cs <;> rfl

/-- Each boundary is the one before plus the symbol's share of the width (R221). -/
theorem boundaries_succ (total width prev : F64) {cs : List Nat} {j c : Nat} {d : F64} (hc : cs[j]? = some c)
    (hd : (boundaries total width prev cs)[j]? = some d) :
    (boundaries total width prev cs)[j + 1]?
      = some (F64.fadd d (F64.fmul (F64.fdiv (F64.ofNat c) total) width)) := by
  induction cs generalizing prev j with
  | nil => cases hc
  | cons x cs ih =>
    cases j with
    | zero =>
      injection hc with hc
      injection hd with hd
      subst hc hd
      exact boundaries_zero total width _ cs
    | succ j => exact ih _ hc hd

theorem artRelayout_getElem? (acnt : Vector Nat 256) (atotal : Nat) (low high : F64) (j : Nat) :
    (artRelayout acnt atotal low high)[j]?
      = (boundaries (F64.ofNat atotal) (F64.fsub high low) low acnt.toList)[j]? := by
  simp [artRelayout]

/-- `art_relayout` lays the counts out (R221). -/
theorem laidOut_of_relayout {u : ArtUnit} (h : u.dist = artRelayout u.acnt u.atotal u.low u.high) :
    laidOut u := by
  have hget : ∀ j (hj : j < 257), (boundaries (F64.ofNat u.atotal) (F64.fsub u.high u.low) u.low
      u.acnt.toList)[j]? = some u.dist[j] := by
    intro j hj
    rw [← artRelayout_getElem?, ← h, Vector.getElem?_eq_getElem]
  refine ⟨?_, fun j hj => ?_⟩
  · have h0 := hget 0 (by omega)
    rw [boundaries_zero] at h0
    exact (Option.some.inj h0).symm
  · have hc : u.acnt.toList[j]? = some u.acnt[j] := by simp
    have hnext := boundaries_succ _ _ _ hc (hget j (by omega))
    rw [hget (j + 1) (by omega)] at hnext
    exact Option.some.inj hnext

theorem laidOut.valid {u : ArtUnit} (h : laidOut u) (hlow : u.low.Valid) :
    ∀ j (hj : j < 257), (u.dist[j]).Valid := by
  intro j hj
  cases j with
  | zero =>
    rw [h.1]
    exact hlow
  | succ j =>
    rw [h.2 j (by omega)]
    exact F64.fadd_valid _ _

/-- The layout does not decrease, the rounding being monotone. -/
theorem laidOut.mono {u : ArtUnit} (h : laidOut u) (hlow : u.low.Valid) (j : Nat) (hj : j < 256) :
    F64.le (u.dist[j]'(Nat.lt_succ_of_lt hj)) (u.dist[j + 1]'(Nat.succ_lt_succ hj)) = true := by
  rw [h.2 j hj, F64.le_iff]
  exact F64.le_fadd (h.valid hlow j (by omega)) _

/-- An interval of binary64 numbers that is not inverted. -/
structure Span (low high : F64) : Prop where
  lowValid : low.Valid
  highValid : high.Valid
  le : low.units ≤ high.units

/-- `modelOk` from the parts that do not follow from the layout. -/
theorem modelOk_of_laidOut {u : ArtUnit} (hsum : u.acnt.toList.sum = u.atotal) (h : laidOut u)
    (hi : Span u.low u.high) (hacc : u.acc.Valid) : modelOk u :=
  ⟨hsum, h, h.mono hi.lowValid, h.valid hi.lowValid, F64.le_iff.2 hi.le, hi.lowValid, hi.highValid, hacc⟩

/-- The interval of a symbol (R225, R229). -/
theorem modelOk.span {u : ArtUnit} (h : modelOk u) (b : Byte) :
    Span (distLow u.dist b) (distHigh u.dist b) := by
  obtain ⟨-, -, hmono, hvalid, -, -, -, -⟩ := h
  exact ⟨hvalid _ _, hvalid _ _, F64.le_iff.1 (hmono b.toNat b.isLt)⟩

theorem modelOk.acc {u : ArtUnit} (h : modelOk u) : u.acc.Valid := by
  obtain ⟨-, -, -, -, -, -, -, hacc⟩ := h
  exact hacc

/-- ACC and EXP are outside the layout. -/
theorem modelOk.set_acc {u : ArtUnit} (h : modelOk u) {x : F64} (hx : x.Valid) (n : Nat) :
    modelOk { u with acc := x, exp := n } := by
  obtain ⟨hsum, hlaid, hmono, hvalid, hle, hlow, hhigh, -⟩ := h
  exact ⟨hsum, hlaid, hmono, hvalid, hle, hlow, hhigh, hx⟩

/-- A count that goes up by one takes the sum with it. -/
theorem sum_tabSet_succ (t : Vector Nat 256) (b : Byte) :
    (tabSet t b (tabGet t b + 1)).toList.sum = t.toList.sum + 1 := by
  have hb : b.toNat < t.toList.length := by simpa using b.isLt
  have hget : tabGet t b = t.toList[b.toNat] := by simp [tabGet]
  have hset : (tabSet t b (tabGet t b + 1)).toList = t.toList.set b.toNat (tabGet t b + 1) := by
    simp [tabSet, Vector.toList_set]
  have hsplit : (t.toList.set b.toNat t.toList[b.toNat]).sum = t.toList.sum := by rw [List.set_getElem_self]
  rw [List.sum_set, if_pos hb] at hsplit
  rw [hset, List.sum_set, if_pos hb, hget]
  omega

/-- Step 3 of R225 keeps the model, in any interval. -/
theorem modelOk.update {u : ArtUnit} (h : modelOk u) (b : Byte) {low high : F64} (hi : Span low high) :
    modelOk (u.update b low high) := by
  refine modelOk_of_laidOut ?_ (laidOut_of_relayout rfl) hi h.acc
  obtain ⟨hsum, -⟩ := h
  exact (sum_tabSet_succ u.acnt b).trans (congrArg (· + 1) hsum)

theorem start_sum : (Vector.replicate 256 Config.artInitCount).toList.sum = Config.artInitTotal := by
  rw [Vector.toList_replicate, List.sum_replicate]
  rfl

theorem span_zero_one : Span F64.zero F64.one := ⟨F64.zero_valid, F64.one_valid, Nat.zero_le _⟩

theorem start_modelOk : modelOk ArtUnit.start :=
  modelOk_of_laidOut start_sum (laidOut_of_relayout rfl) span_zero_one F64.zero_valid

/-! ### Renormalization -/

theorem doubleDrop_valid (x : F64) : (doubleDrop x).2.Valid := by
  unfold doubleDrop
  dsimp only
  split
  · exact F64.fsub_valid _ _
  · exact F64.fmul_valid _ _

theorem rescale_valid (k : Nat) {x : F64} (h : x.Valid) : (rescale k x).Valid := by
  induction k generalizing x with
  | zero => exact h
  | succ k ih => exact ih (doubleDrop_valid x)

theorem Span.double {low high : F64} (h : Span low high) :
    Span (F64.fmul F64.two low) (F64.fmul F64.two high) :=
  ⟨F64.fmul_valid _ _, F64.fmul_valid _ _, F64.fmul_mono _ h.le⟩

theorem Span.sub_one {low high : F64} (h : Span low high) :
    Span (F64.fsub low F64.one) (F64.fsub high F64.one) :=
  ⟨F64.fsub_valid _ _, F64.fsub_valid _ _, F64.fsub_mono _ h.le⟩

/-- The flush of an interval that ends at 1.0 (R222): [0, 1) again, with the bits of its low end. -/
def flushed (low : F64) : Option Renorm :=
  (fractionBits Config.artLoopBound low).map fun bits => ⟨F64.zero, F64.one, bits⟩

/-- A pass that goes on: its bit before those of the rest. -/
def emitted (b : Bool) (r : Option Renorm) : Option Renorm := r.map fun r => { r with bits := b :: r.bits }

theorem renormLoop_zero (low high : F64) :
    renormLoop 0 low high =
      if high = F64.one then flushed low
      else if F64.lt low F64.half && F64.lt high F64.half then none
      else if F64.le F64.half low && F64.lt high F64.one then none
      else some ⟨low, high, []⟩ := by
  have hmatch : flushed low = match fractionBits Config.artLoopBound low with
      | none => none
      | some bits => some ⟨F64.zero, F64.one, bits⟩ := by
    unfold flushed
    cases fractionBits Config.artLoopBound low <;> rfl
  rw [hmatch]
  rfl

theorem renormLoop_succ (n : Nat) (low high : F64) :
    renormLoop (n + 1) low high =
      if high = F64.one then flushed low
      else if F64.lt low F64.half && F64.lt high F64.half then
        emitted false (renormLoop n (F64.fmul F64.two low) (F64.fmul F64.two high))
      else if F64.le F64.half low && F64.lt high F64.one then
        emitted true (renormLoop n (F64.fsub (F64.fmul F64.two low) F64.one)
          (F64.fsub (F64.fmul F64.two high) F64.one))
      else some ⟨low, high, []⟩ := by
  have hflush : flushed low = match fractionBits Config.artLoopBound low with
      | none => none
      | some bits => some ⟨F64.zero, F64.one, bits⟩ := by
    unfold flushed
    cases fractionBits Config.artLoopBound low <;> rfl
  have hemit : ∀ b r, emitted b r = match r with
      | none => none
      | some r => some { r with bits := b :: r.bits } := by
    intro b r
    cases r <;> rfl
  rw [hflush, hemit, hemit]
  rfl

theorem flushed_span {low : F64} {r : Renorm} (e : flushed low = some r) : Span r.low r.high := by
  obtain ⟨bits, -, rfl⟩ := Option.map_eq_some_iff.1 e
  exact span_zero_one

theorem emitted_some {b : Bool} {o : Option Renorm} {r : Renorm} (e : emitted b o = some r) :
    ∃ q, o = some q ∧ r.low = q.low ∧ r.high = q.high := by
  obtain ⟨q, hq, rfl⟩ := Option.map_eq_some_iff.1 e
  exact ⟨q, hq, rfl, rfl⟩

/-- A renormalized interval is an interval (R222): it was doubled, shifted down, or flushed to [0, 1). -/
theorem renormLoop_span {n : Nat} {low high : F64} (h : Span low high) {r : Renorm}
    (e : renormLoop n low high = some r) : Span r.low r.high := by
  induction n generalizing low high r with
  | zero =>
    rw [renormLoop_zero] at e
    split at e
    · exact flushed_span e
    · split at e
      · cases e
      · split at e
        · cases e
        · injection e with e
          subst e
          exact h
  | succ n ih =>
    rw [renormLoop_succ] at e
    split at e
    · exact flushed_span e
    · split at e
      · obtain ⟨q, hq, elow, ehigh⟩ := emitted_some e
        rw [elow, ehigh]
        exact ih h.double hq
      · split at e
        · obtain ⟨q, hq, elow, ehigh⟩ := emitted_some e
          rw [elow, ehigh]
          exact ih h.double.sub_one hq
        · injection e with e
          subst e
          exact h

/-! ### The pseudocodes and the unit -/

/-- The action keeps the arithmetic model. -/
abbrev Act.KeepsModel {α : Type} (m : Act α) : Prop := Act.Preserves (fun s => modelOk s.art) m

/-- The packer and the accesses touch no unit. -/
theorem Act.Part.keepsModel {α : Type} {m : Act α} (h : Act.Part .closed m) : m.KeepsModel :=
  ⟨fun s hs => (h.leads s).mono (fun _ t ⟨ht, _⟩ => by rwa [ht.art nofun])
    fun _ t ⟨_, ht⟩ => by rwa [ht.art nofun]⟩

theorem artInitBody_keepsModel : artInitBody.KeepsModel :=
  .bind (.write fun _ h => h) fun _ => .bind (.write fun _ _ => start_modelOk) fun _ => .write fun _ h => h

theorem artWrhdrBody_keepsModel : artWrhdrBody.KeepsModel :=
  .read fun _ => .bind (dstPut_part _ _ _).keepsModel fun _ => .write fun _ h => h

theorem artEncsymBody_keepsModel : artEncsymBody.KeepsModel := by
  refine .bind (srcByte_part _).keepsModel fun b => .get fun s hs => ?_
  dsimp only
  split
  · exact (Act.leads_raise _).2 hs
  · split
    · exact Act.leads_unspec _
    · split
      · exact Act.leads_unspec _
      · rename_i r hr
        refine Act.Preserves.leads ?_ s hs
        exact .bind (bwsPutBits_part _ _).keepsModel fun _ =>
          .write fun _ hu => hu.update b (renormLoop_span (hs.span b) hr)

theorem artFlushBody_keepsModel : artFlushBody.KeepsModel := by
  refine .read fun s => ?_
  split
  · exact .unspec _
  · split
    · exact .unspec _
    · exact .bind (bwsPutBits_part _ _).keepsModel fun _ => .bind (bwsFinish_part _).keepsModel fun _ =>
        .write fun _ h => h

theorem artRdhdrBody_keepsModel : artRdhdrBody.KeepsModel :=
  .bind (srcNext_part _ _).keepsModel fun _ => .bind (.write fun _ h => h) fun _ =>
    .bind (.write fun _ h => h) fun _ => .bind (.write fun _ h => h.set_acc F64.zero_valid 0) fun _ =>
    .write fun _ h => h

theorem artEmit_keepsModel (i : Byte) : (artEmit i).KeepsModel := by
  refine .get fun s hs => ?_
  dsimp only
  split
  · exact (Act.leads_raise _).2 hs
  · split
    · exact Act.leads_unspec _
    · refine Act.Preserves.leads (.bind (dstPut_part _ _ _).keepsModel fun _ => ?_) s hs
      split
      · exact .unspec _
      · rename_i r hr
        split
        · exact .unspec _
        · exact .write fun _ hu =>
            (hu.update i (renormLoop_span (hs.span i) hr)).set_acc (rescale_valid _ hu.acc) _

theorem artDecstepBody_keepsModel : artDecstepBody.KeepsModel := by
  refine .read fun s => ?_
  split
  · exact .write fun _ h => h
  · split
    · exact .unspec _
    · split
      · exact artEmit_keepsModel _
      · split
        · exact .bind (bwsGetBit_part _).keepsModel fun _ => .write fun _ h => h.set_acc (F64.fadd_valid _ _) _
        · exact .write fun _ h => h

theorem compressArt_keepsModel : compressArt.KeepsModel :=
  .bind artInitBody_keepsModel fun _ => .bind artWrhdrBody_keepsModel fun _ => .read fun _ =>
    .bind (.times artEncsymBody_keepsModel _) fun _ => artFlushBody_keepsModel

theorem decompressArt_keepsModel : decompressArt.KeepsModel :=
  .bind artInitBody_keepsModel fun _ => .bind artRdhdrBody_keepsModel fun _ => .read fun _ =>
    .loop artDecstepBody_keepsModel _ _

/-- A command of an arithmetic session keeps the model. -/
theorem bodyOf_keepsModel {i : Instr} {s : State} (hc : s.codec ∈ codecsFor i)
    (hu : unitOf i s.codec = .art) (h : modelOk s.art) :
    (bodyOf i).Leads (fun _ t => modelOk t.art) (fun _ t => modelOk t.art) s := by
  cases i with
  | nop | sopen => exact (Act.leads_pure ()).2 h
  | bwsReset | bwsWrite | bwsFinish | bwsRead => cases hu
  | compress => exact compressBody_leads hu (compressArt_keepsModel.leads s h)
  | decompress => exact decompressBody_leads hu (decompressArt_keepsModel.leads s h)
  | artInit => exact artInitBody_keepsModel.leads s h
  | artWrhdr => exact artWrhdrBody_keepsModel.leads s h
  | artEncsym => exact artEncsymBody_keepsModel.leads s h
  | artFlush => exact artFlushBody_keepsModel.leads s h
  | artRdhdr => exact artRdhdrBody_keepsModel.leads s h
  | artDecstep => exact artDecstepBody_keepsModel.leads s h
  | _ => exact absurd ((List.mem_singleton.1 hc).symm.trans hu) nofun

theorem reset_modelOk : modelOk State.reset.art := by
  have hdist : ∀ j (hj : j < 257), State.reset.art.dist[j] = F64.zero := fun _ _ => Vector.getElem_replicate ..
  have hacnt : ∀ j (hj : j < 256), State.reset.art.acnt[j] = 0 := fun _ _ => Vector.getElem_replicate ..
  have hzero : F64.zero = F64.fadd F64.zero (F64.fmul (F64.fdiv (F64.ofNat 0) (F64.ofNat 0))
      (F64.fsub F64.zero F64.zero)) := by
    have h0 : F64.zero.units = 0 := rfl
    simp only [F64.fadd, F64.fmul, F64.fdiv, F64.fsub, F64.ofNat, Nat.zero_mul, F64.round_zero, h0,
      Nat.mul_zero, Nat.add_zero, Nat.sub_zero]
  refine modelOk_of_laidOut ?_ ⟨hdist 0 _, fun j hj => ?_⟩ ⟨F64.zero_valid, F64.zero_valid, Nat.le_refl _⟩
    F64.zero_valid
  · show (Vector.replicate 256 0).toList.sum = 0
    rw [Vector.toList_replicate, List.sum_replicate, Nat.nsmul_eq_mul, Nat.mul_zero]
  · rw [hdist, hdist, hacnt]
    exact hzero

theorem modelOk_unitInvariant : UnitInvariant .art fun s => modelOk s.art where
  other _ _ _ hd hpart h := by rwa [hpart.art hd]
  start _ _ h := by rwa [startOf_art]
  finish _ _ h := by rwa [finishOf_art]
  fail _ _ h := h
  refuse _ h := h
  modeMismatch _ h := h
  openSession _ _ _ h := h
  own _ _ hc hu h := bodyOf_keepsModel hc hu h

theorem modelOk_kept : KeptByAnswers fun s => modelOk s.art where
  port _ _ h := h
  writeSrc _ _ _ h := h
  writeSrcLen _ _ h := h
  reset _ _ := reset_modelOk
  command _ _ _ h ha := modelOk_unitInvariant.answer h ha

/-- Settles O58: every layout is made by R221 in an interval that the renormalization keeps. -/
theorem stepKeepsArithmeticModel : Obligations.StepKeepsArithmeticModel := by
  unfold Obligations.StepKeepsArithmeticModel
  intro s t h e
  exact modelOk_kept.step h e

end Sys2Proof.Machine
end

section
/-! The dictionary: phrases of two bytes or more within DICT_CAP, PHRASE known, codewords below NEXT and, from
LZW.WIDTH on, within WIDTH bits, WIDTH legal (R45 to R49, R275). -/

namespace Sys2Proof.Machine

/-! ### The unit -/

/-- WIDTH is one of LZW_WIDTHS (R5). -/
def legalWidth (w : BitVec 6) : Prop := w.toNat ∈ Config.lzwWidths

/-- WIDTH is not chosen yet, or legal (R48). -/
def knownWidth (w : BitVec 6) : Prop := w = 0#6 ∨ legalWidth w

/-- What `dictionaryOk` asks of the unit at every PHASE, with `W` asked of WIDTH. -/
structure DictOk (W : BitVec 6 → Prop) (limit : Nat) (u : LzwUnit) : Prop where
  room : u.dict.length ≤ limit
  long : ∀ p ∈ u.dict, 2 ≤ p.length
  phrase : u.phrase.length ≤ 1 ∨ u.phrase ∈ u.dict
  codes : ∀ c ∈ u.codebuf, c.toNat < u.next
  prev : u.havePrev = true → u.prev ≠ []
  width : W u.width

/-- What `dictionaryOk` asks at the phases that rest on WIDTH. -/
structure WidthChosen (s : State) : Prop where
  decoding : s.phase = .lDec → legalWidth s.lzw.width
  packing : s.phase = .lWidth ∨ s.phase = .lHdrw →
    legalWidth s.lzw.width ∧ ∀ c ∈ s.lzw.codebuf, c.toNat < 2 ^ s.lzw.width.toNat

theorem dictionaryOk_iff {s : State} :
    dictionaryOk s ↔ DictOk knownWidth s.cfg.dictLimit s.lzw ∧ WidthChosen s := by
  unfold dictionaryOk
  constructor
  · rintro ⟨hroom, hlong, hphrase, hcodes, hprev, hwidth, hdec, hpack⟩
    exact ⟨⟨hroom, hlong, hphrase, hcodes, hprev, hwidth⟩, hdec, hpack⟩
  · rintro ⟨⟨hroom, hlong, hphrase, hcodes, hprev, hwidth⟩, hdec, hpack⟩
    exact ⟨hroom, hlong, hphrase, hcodes, hprev, hwidth, hdec, hpack⟩

/-- A stored phrase is found where it stands (R271). -/
theorem dictFind_some {u : LzwUnit} {p : List Byte} {k : Nat} (h : dictFind u p = some k) :
    k < u.dict.length ∧ p ∈ u.dict := by
  obtain ⟨hk, hp, -⟩ := List.findIdx?_eq_some_iff_getElem.1 h
  have hp : u.dict[k] = p := by simpa using hp
  exact ⟨hk, hp ▸ List.getElem_mem hk⟩

/-- A codeword is below NEXT (R271). -/
theorem codeOf_lt_next {u : LzwUnit} {p : List Byte} {c : U32} (h : codeOf u p = some c) : c.toNat < u.next := by
  unfold LzwUnit.next Config.lzwFirstCode
  unfold codeOf at h
  split at h
  · rename_i b
    injection h with h
    subst h
    rw [BitVec.toNat_setWidth_of_le (by omega)]
    have hb := b.isLt
    omega
  · split at h
    · rename_i k hk
      injection h with h
      subst h
      obtain ⟨hlt, -⟩ := dictFind_some hk
      have hle : (BitVec.ofNat 32 (256 + k)).toNat ≤ 256 + k := by
        rw [BitVec.toNat_ofNat]
        exact Nat.mod_le _ _
      exact Nat.lt_of_le_of_lt hle (Nat.add_lt_add_left hlt 256)
    · cases h

section unit
variable {W : BitVec 6 → Prop} {limit : Nat} {u : LzwUnit}

theorem DictOk.start (h : DictOk W limit u) : DictOk W limit u.start :=
  ⟨Nat.zero_le _, nofun, .inl (Nat.zero_le _), nofun, nofun, h.width⟩

theorem DictOk.add (h : DictOk W limit u) (hroom : u.dict.length < limit) {p : List Byte}
    (hp : 2 ≤ p.length) : DictOk W limit { u with dict := u.dict ++ [p] } where
  room := by
    rw [List.length_append]
    exact hroom
  long q hq := by
    rcases List.mem_append.1 hq with hq | hq
    · exact h.long q hq
    · rwa [List.mem_singleton.1 hq]
  phrase := h.phrase.imp_right fun hm => List.mem_append_left _ hm
  codes c hc := by
    refine Nat.lt_of_lt_of_le (h.codes c hc) ?_
    simp only [LzwUnit.next, List.length_append]
    omega
  prev := h.prev
  width := h.width

theorem DictOk.collect (h : DictOk W limit u) {p : List Byte} {c : U32} (hc : codeOf u p = some c) :
    DictOk W limit { u with codebuf := u.codebuf ++ [c] } where
  room := h.room
  long := h.long
  phrase := h.phrase
  codes d hd := by
    rcases List.mem_append.1 hd with hd | hd
    · exact h.codes d hd
    · rw [List.mem_singleton.1 hd]
      exact codeOf_lt_next hc
  prev := h.prev
  width := h.width

theorem DictOk.setPhrase (h : DictOk W limit u) {p : List Byte} (hp : p.length ≤ 1 ∨ p ∈ u.dict) :
    DictOk W limit (u.setPhrase p) :=
  ⟨h.room, h.long, hp, h.codes, h.prev, h.width⟩

theorem DictOk.setPrev (h : DictOk W limit u) {p : List Byte} (hp : p ≠ []) : DictOk W limit (u.setPrev p) :=
  ⟨h.room, h.long, h.phrase, h.codes, fun _ => hp, h.width⟩

theorem DictOk.setWidth {V : BitVec 6 → Prop} (h : DictOk V limit u) {w : BitVec 6} (hw : W w) :
    DictOk W limit { u with width := w } :=
  ⟨h.room, h.long, h.phrase, h.codes, h.prev, hw⟩

end unit

/-! ### The pseudocodes and the unit -/

/-- The action keeps the dictionary, and of WIDTH it keeps `W`. -/
abbrev Act.KeepsDict {α : Type} (W : BitVec 6 → Prop) (m : Act α) : Prop :=
  Act.Preserves (fun s => DictOk W s.cfg.dictLimit s.lzw) m

section pseudocodes
variable {W : BitVec 6 → Prop}

/-- The packer and the accesses touch no unit. -/
theorem Act.Part.keepsDict {α : Type} {m : Act α} (h : Act.Part .closed m) : m.KeepsDict W :=
  ⟨fun s hs => (h.leads s).mono (fun _ t ⟨ht, _⟩ => by rwa [ht.lzw nofun, ht.cfg])
    fun _ t ⟨_, ht⟩ => by rwa [ht.lzw nofun, ht.cfg]⟩

theorem dictAdd_keepsDict {p : List Byte} (hp : 2 ≤ p.length) : (dictAdd p).KeepsDict W := by
  refine .get fun s hs => ?_
  split
  · rename_i hroom
    exact (Act.leads_write _).2 (hs.add hroom hp)
  · exact Act.leads_unspec _

theorem collectPhrase_keepsDict : collectPhrase.KeepsDict W := by
  refine .get fun s hs => ?_
  split
  · split
    · exact Act.leads_unspec _
    · rename_i hc
      exact (Act.leads_write _).2 (hs.collect hc)
  · exact Act.leads_unspec _

theorem setPhrase_keepsDict {p : List Byte} (hp : p.length ≤ 1) :
    (Act.write fun s => { s with lzw := s.lzw.setPhrase p }).KeepsDict W :=
  .write fun _ h => h.setPhrase (.inl hp)

theorem lzwInitBody_keepsDict : lzwInitBody.KeepsDict W :=
  .bind (.write fun _ h => h) fun _ => .bind (.write fun _ h => h.start) fun _ => .write fun _ h => h

/-- A byte more on a phrase that is not empty makes two bytes or more. -/
theorem two_le_length_append {p : List Byte} (h : p ≠ []) (c : Byte) : 2 ≤ (p ++ [c]).length := by
  have hpos := List.length_pos_iff.2 h
  rw [List.length_append, List.length_singleton]
  omega

theorem lzwExtend_keepsDict (c : Byte) : (lzwExtend c).KeepsDict W := by
  refine .get fun s hs => ?_
  split
  · exact (setPhrase_keepsDict (p := [c]) (Nat.le_refl 1)).leads s hs
  · rename_i hne
    split
    · rename_i hfind
      exact (Act.leads_write _).2 (hs.setPhrase (.inr (dictFind_some hfind).2))
    · refine Act.Preserves.leads ?_ s hs
      exact .bind collectPhrase_keepsDict fun _ =>
        .bind (dictAdd_keepsDict (two_le_length_append hne c)) fun _ => setPhrase_keepsDict (Nat.le_refl 1)

theorem lzwEncbyteBody_keepsDict : lzwEncbyteBody.KeepsDict W :=
  .bind (srcByte_part _).keepsDict fun _ => .bind (lzwExtend_keepsDict _) fun _ => .write fun _ h => h

theorem lzwEnceofBody_keepsDict : lzwEnceofBody.KeepsDict W := by
  refine .read fun s => ?_
  split
  · exact .write fun _ h => h
  · exact .bind collectPhrase_keepsDict fun _ => .bind (setPhrase_keepsDict (Nat.zero_le 1)) fun _ =>
      .write fun _ h => h

theorem lzwWrhdrBody_keepsDict : lzwWrhdrBody.KeepsDict W := (lzwWrhdrBody_part _).keepsDict

theorem lzwEmitBody_keepsDict : lzwEmitBody.KeepsDict W :=
  .read fun _ => .bind (putCodes_part _ _ _).keepsDict fun _ => .bind (bwsFinish_part _).keepsDict fun _ =>
    .write fun _ h => h

theorem decodeInsert_keepsDict (x : Byte) : (decodeInsert x).KeepsDict W := by
  refine .get fun s hs => ?_
  split
  · rename_i hprev
    exact (dictAdd_keepsDict (two_le_length_append (hs.prev hprev) x)).leads s hs
  · exact (Act.leads_pure _).2 hs

theorem lzwEmitPhrase_keepsDict (cur : List Byte) : (lzwEmitPhrase cur).KeepsDict W := by
  refine .read fun s => ?_
  split
  · exact .unspec _
  · split
    · exact .unspec _
    · refine .bind (putPhrase_part _ _).keepsDict fun _ => .bind (decodeInsert_keepsDict _) fun _ =>
        .bind (.write fun _ h => h.setPrev (List.cons_ne_nil _ _)) fun _ => .read fun t => ?_
      split
      · exact .write fun _ h => h
      · exact .pure ()

theorem lzwDeccodeBody_keepsDict : lzwDeccodeBody.KeepsDict W := by
  refine .read fun s => ?_
  split
  · exact .write fun _ h => h
  · refine .bind (bwsRead_part _ _).keepsDict fun c => ?_
    split
    · exact .unspec _
    · exact lzwEmitPhrase_keepsDict _

end pseudocodes

/-! ### WIDTH -/

/-- The width of R275 leaves room for every codeword below NEXT. -/
theorem next_le_two_pow_width (u : LzwUnit) : u.next ≤ 2 ^ lzwWidthFor u.dict.length := by
  have hlog : u.dict.length + 256 - 1 < 2 ^ ((u.dict.length + 256 - 1).log2 + 1) := Nat.lt_log2_self
  have hceil : ceilLog2 (u.dict.length + 256) = (u.dict.length + 256 - 1).log2 + 1 := if_neg (by omega)
  have hmono : 2 ^ ceilLog2 (u.dict.length + 256) ≤ 2 ^ lzwWidthFor u.dict.length :=
    Nat.pow_le_pow_right (by decide) (by unfold lzwWidthFor; omega)
  rw [hceil] at hmono
  unfold LzwUnit.next Config.lzwFirstCode
  omega

/-- The width of R275 is legal, when it is at most 32. -/
theorem lzwWidthFor_legal {d : Nat} (h : lzwWidthFor d ≤ 32) : lzwWidthFor d ∈ Config.lzwWidths := by
  have hlog : 7 ≤ (d + 256 - 1).log2 := (Nat.le_log2 (by omega)).2 (by omega)
  have hceil : ceilLog2 (d + 256) = (d + 256 - 1).log2 + 1 := if_neg (by omega)
  unfold lzwWidthFor at h ⊢
  rw [hceil] at h ⊢
  simp only [Config.lzwWidths, List.mem_cons, List.not_mem_nil]
  omega

/-- LZW.WIDTH chooses a legal width that all collected codewords fit (R275). -/
theorem lzwWidthBody_leads {s : State} (h : DictOk knownWidth s.cfg.dictLimit s.lzw) :
    lzwWidthBody.Leads
      (fun _ t => DictOk knownWidth t.cfg.dictLimit t.lzw ∧ legalWidth t.lzw.width
        ∧ ∀ c ∈ t.lzw.codebuf, c.toNat < 2 ^ t.lzw.width.toNat)
      (fun _ t => DictOk knownWidth t.cfg.dictLimit t.lzw) s := by
  unfold lzwWidthBody
  rw [Act.leads_bind, Act.leads_state]
  split
  · exact Act.leads_unspec _
  · rename_i hle
    rw [Act.leads_bind, Act.leads_write, Act.leads_write]
    have hw : (BitVec.ofNat 6 (lzwWidthFor s.lzw.dict.length)).toNat = lzwWidthFor s.lzw.dict.length := by
      rw [BitVec.toNat_ofNat]
      omega
    have hlegal : legalWidth (BitVec.ofNat 6 (lzwWidthFor s.lzw.dict.length)) := by
      unfold legalWidth
      rw [hw]
      exact lzwWidthFor_legal (by omega)
    refine ⟨h.setWidth (.inr hlegal), hlegal, fun c hc => ?_⟩
    show c.toNat < 2 ^ (BitVec.ofNat 6 (lzwWidthFor s.lzw.dict.length)).toNat
    rw [hw]
    exact Nat.lt_of_lt_of_le (h.codes c hc) (next_le_two_pow_width s.lzw)

theorem lzwWidthBody_keepsDict : lzwWidthBody.KeepsDict knownWidth :=
  ⟨fun _ hs => (lzwWidthBody_leads hs).mono (fun _ _ h => h.1) fun _ _ h => h⟩

/-- LZW.RDHDR takes a legal width from the header (R278). -/
theorem lzwRdhdrBody_leads {s : State} (h : DictOk knownWidth s.cfg.dictLimit s.lzw) :
    lzwRdhdrBody.Leads
      (fun _ t => DictOk legalWidth t.cfg.dictLimit t.lzw)
      (fun _ t => DictOk knownWidth t.cfg.dictLimit t.lzw) s := by
  unfold lzwRdhdrBody
  rw [Act.leads_bind]
  refine ((srcNext_part .closed 8).keepsDict.leads s h).mono (fun n t ht => ?_) fun _ _ ht => ht
  rw [Act.leads_bind, Act.leads_write, Act.leads_bind]
  refine ((srcNext_part .closed 4).keepsDict.leads { t with origSize := BitVec.ofNat 64 n } ht).mono (fun w u hu => ?_) fun _ _ hu => hu
  split
  · rename_i hw
    rw [Act.leads_bind, Act.leads_write, Act.leads_bind, Act.leads_write, Act.leads_write]
    refine hu.setWidth ?_
    have hsmall : ∀ w ∈ Config.lzwWidths, w < 2 ^ 6 := by decide
    unfold legalWidth
    rwa [BitVec.toNat_ofNat, Nat.mod_eq_of_lt (hsmall w hw)]
  · exact Act.leads_unspec _

theorem DictOk.known {limit : Nat} {u : LzwUnit} (h : DictOk legalWidth limit u) : DictOk knownWidth limit u :=
  h.setWidth (.inr h.width)

theorem lzwRdhdrBody_keepsDict : lzwRdhdrBody.KeepsDict knownWidth :=
  ⟨fun _ hs => (lzwRdhdrBody_leads hs).mono (fun _ _ h => h.known) fun _ _ h => h⟩

theorem compressLzw_keepsDict : compressLzw.KeepsDict knownWidth :=
  .bind lzwInitBody_keepsDict fun _ => .read fun _ => .bind (.times lzwEncbyteBody_keepsDict _) fun _ =>
    .bind lzwEnceofBody_keepsDict fun _ => .bind lzwWidthBody_keepsDict fun _ =>
    .bind lzwWrhdrBody_keepsDict fun _ => lzwEmitBody_keepsDict

theorem decompressLzw_keepsDict : decompressLzw.KeepsDict knownWidth :=
  .bind lzwInitBody_keepsDict fun _ => .bind lzwRdhdrBody_keepsDict fun _ => .read fun _ =>
    .loop lzwDeccodeBody_keepsDict _ _

/-- A command of an LZW session keeps the dictionary. -/
theorem bodyOf_keepsDict {i : Instr} {s : State} (hc : s.codec ∈ codecsFor i)
    (hu : unitOf i s.codec = .lzw) (h : DictOk knownWidth s.cfg.dictLimit s.lzw) :
    (bodyOf i).Leads (fun _ t => DictOk knownWidth t.cfg.dictLimit t.lzw)
      (fun _ t => DictOk knownWidth t.cfg.dictLimit t.lzw) s := by
  cases i with
  | nop | sopen => exact (Act.leads_pure ()).2 h
  | bwsReset | bwsWrite | bwsFinish | bwsRead => cases hu
  | compress => exact compressBody_leads hu (compressLzw_keepsDict.leads s h)
  | decompress => exact decompressBody_leads hu (decompressLzw_keepsDict.leads s h)
  | lzwInit => exact lzwInitBody_keepsDict.leads s h
  | lzwEncbyte => exact lzwEncbyteBody_keepsDict.leads s h
  | lzwEnceof => exact lzwEnceofBody_keepsDict.leads s h
  | lzwWidth => exact lzwWidthBody_keepsDict.leads s h
  | lzwWrhdr => exact lzwWrhdrBody_keepsDict.leads s h
  | lzwEmit => exact lzwEmitBody_keepsDict.leads s h
  | lzwRdhdr => exact lzwRdhdrBody_keepsDict.leads s h
  | lzwDeccode => exact lzwDeccodeBody_keepsDict.leads s h
  | _ => exact absurd ((List.mem_singleton.1 hc).symm.trans hu) nofun

theorem dictOk_unitInvariant :
    UnitInvariant .lzw fun s => DictOk knownWidth s.cfg.dictLimit s.lzw where
  other _ _ _ hd hpart h := by rwa [hpart.lzw hd, hpart.cfg]
  start _ _ h := by rwa [startOf_lzw, startOf_cfg]
  finish _ _ h := by rwa [finishOf_lzw, finishOf_cfg]
  fail _ _ h := h
  refuse _ h := h
  modeMismatch _ h := h
  openSession _ _ _ h := h
  own _ _ hc hu h := bodyOf_keepsDict hc hu h

/-! ### The phases that rest on WIDTH -/

/-- The phases that rest on WIDTH (R24, R48). -/
def widthPhases : List Phase := [.lDec, .lWidth, .lHdrw]

/-- At every other phase nothing is asked. -/
theorem WidthChosen.of_phase {s : State} (h : s.phase ∉ widthPhases) : WidthChosen s := by
  simp only [widthPhases, List.mem_cons, List.not_mem_nil, or_false, not_or] at h
  obtain ⟨hdec, hwidth, hhdrw⟩ := h
  exact ⟨fun e => absurd e hdec, fun e => absurd e (not_or.2 ⟨hwidth, hhdrw⟩)⟩

/-- While decoding, a legal width is all that is asked. -/
theorem WidthChosen.of_decoding {s : State} (h : legalWidth s.lzw.width) (hw : s.phase ≠ .lWidth)
    (hh : s.phase ≠ .lHdrw) : WidthChosen s :=
  ⟨fun _ => h, fun e => absurd e (not_or.2 ⟨hw, hh⟩)⟩

/-- At the end of an accepted command WIDTH is chosen where the phase rests on it. -/
theorem widthChosen_after {i : Instr} {s t : State} (h : DictOk knownWidth s.cfg.dictLimit s.lzw)
    (hw : WidthChosen s) (ha : Accepted i s) (e : bodyOf i s = .ok () t) : WidthChosen t := by
  have hp := ha.phase_after e
  have hs := ha.phase
  cases i with
  | nop | sopen =>
    injection e with _ e
    exact e ▸ hw
  | lzwWidth =>
    obtain ⟨-, hlegal, hfit⟩ := (lzwWidthBody_leads h).of_ok e
    exact ⟨fun _ => hlegal, fun _ => ⟨hlegal, hfit⟩⟩
  | lzwWrhdr =>
    obtain ⟨ht, -⟩ := ((lzwWrhdrBody_part .closed).leads s).of_ok e
    obtain ⟨hlegal, hfit⟩ := hw.packing (.inl (List.mem_singleton.1 hs))
    have hlzw := ht.lzw nofun
    exact ⟨fun _ => hlzw ▸ hlegal, fun _ => hlzw ▸ ⟨hlegal, hfit⟩⟩
  | lzwRdhdr =>
    have hphase := List.mem_singleton.1 hp
    exact .of_decoding ((lzwRdhdrBody_leads h).of_ok e).width (by simp [hphase]) (by simp [hphase])
  | lzwDeccode =>
    have hdec := List.mem_singleton.1 hs
    rw [hdec] at hp
    have hphase : ∀ p ∈ [Phase.lDec, .done], p ≠ .lWidth ∧ p ≠ .lHdrw := by decide
    obtain ⟨hn, hn'⟩ := hphase _ hp
    exact .of_decoding (lzwDeccodeBody_keepsDict.ends (h.setWidth (hw.decoding hdec)) e).width hn hn'
  | bwsReset | bwsWrite | bwsFinish | bwsRead =>
    have hbetween : ∀ p ∈ [Phase.idle, .done], p ∉ widthPhases := by decide
    exact .of_phase (List.mem_singleton.1 hp ▸ hbetween _ hs)
  | hufBuild =>
    have hbuilt : ∀ p ∈ [Phase.hCounted, .hHdrr], builtPhase p ∉ widthPhases := by decide
    exact .of_phase (List.mem_singleton.1 hp ▸ hbuilt _ hs)
  | artEncsym =>
    refine .of_phase ?_
    rw [List.mem_singleton.1 hp, List.mem_singleton.1 hs]
    decide
  | artDecstep =>
    have hstep : ∀ p ∈ [Phase.aDec, .done], p ∉ widthPhases := by decide
    rw [List.mem_singleton.1 hs] at hp
    exact .of_phase (hstep _ hp)
  | _ =>
    refine .of_phase ?_
    rw [List.mem_singleton.1 hp]
    decide

theorem idle_not_mem_widthPhases : Phase.idle ∉ widthPhases := by decide

theorem reset_dictOk (limit : Nat) : DictOk knownWidth limit LzwUnit.reset :=
  ⟨Nat.zero_le _, nofun, .inl (Nat.zero_le _), nofun, nofun, .inl rfl⟩

/-- Everything a command can answer keeps the dictionary and WIDTH. -/
theorem dictionaryOk_kept : KeptByAnswers fun s => DictOk knownWidth s.cfg.dictLimit s.lzw ∧ WidthChosen s where
  port _ _ h := ⟨h.1, h.2.decoding, h.2.packing⟩
  writeSrc _ _ _ h := ⟨h.1, h.2.decoding, h.2.packing⟩
  writeSrcLen _ _ h := ⟨h.1, h.2.decoding, h.2.packing⟩
  reset _ _ := ⟨reset_dictOk _, .of_phase idle_not_mem_widthPhases⟩
  command i s t h ha := by
    obtain ⟨hd, hw⟩ := h
    refine ⟨dictOk_unitInvariant.answer hd ha, ?_⟩
    cases ha with
    | nop | refused | mismatched => exact ⟨hw.decoding, hw.packing⟩
    | opened => exact .of_phase idle_not_mem_widthPhases
    | failed => exact .of_phase (show Phase.fault ∉ widthPhases by decide)
    | ended _ ha e => exact widthChosen_after hd hw ha e

/-- Settles O59: every LZW pseudocode keeps the unit, and LZW.WIDTH and LZW.RDHDR alone enter the phases that
rest on WIDTH. -/
theorem stepKeepsDictionary : Obligations.StepKeepsDictionary := by
  unfold Obligations.StepKeepsDictionary
  intro s t h e
  exact dictionaryOk_iff.2 (dictionaryOk_kept.step (dictionaryOk_iff.1 h) e)

/-! ### Reset -/

theorem reset_dictionaryOk : dictionaryOk State.reset :=
  dictionaryOk_iff.2 ⟨reset_dictOk _, .of_phase idle_not_mem_widthPhases⟩

/-- Settles O60: the reset values of each unit, one lemma per invariant. -/
theorem resetMeetsInvariants : Obligations.ResetMeetsInvariants := by
  unfold Obligations.ResetMeetsInvariants
  obtain ⟨hmemory, hpacker⟩ := reset_streamsOk
  exact ⟨hmemory, hpacker, trivial, reset_huffmanOk, reset_modelOk, reset_dictionaryOk⟩

end Sys2Proof.Machine
end

section
/-! Big-endian access to the byte spaces (spec/20_memory.md rules R73, R74): a block of bytes as the list of
them, and a list of bytes as the number it stands for. -/

namespace Sys2Proof.Machine

/-- A block whose bytes are those of a list, read as that list. -/
theorem Memory.readBytes_eq_some {m : Memory} {a : Nat} {bs : List Byte}
    (h : ∀ k, k < bs.length → Memory.read m (a + k) = bs[k]?) :
    Memory.readBytes m a bs.length = some bs := by
  induction bs generalizing a with
  | nil => rfl
  | cons b bs ih =>
    have hfirst : Memory.read m a = some b := h 0 (Nat.succ_pos _)
    have hrest : Memory.readBytes m (a + 1) bs.length = some bs := ih fun k hk => by
      rw [Nat.add_assoc, Nat.add_comm 1 k]
      exact h (k + 1) (Nat.succ_lt_succ hk)
    rw [List.length_cons, Memory.readBytes, hfirst]
    simp only [hrest]

/-- The value of bytes read on from the number `v`. -/
theorem foldl_eq_add_beValue (v : Nat) (bs : List Byte) :
    bs.foldl (fun v b => v * 256 + b.toNat) v = v * 256 ^ bs.length + beValue bs := by
  induction bs generalizing v with
  | nil => simp [beValue]
  | cons b bs ih =>
    have hvalue : beValue (b :: bs) = (0 * 256 + b.toNat) * 256 ^ bs.length + beValue bs := ih _
    rw [List.foldl_cons, ih, hvalue, List.length_cons]
    ring

/-- The first byte is the most significant one. -/
theorem beValue_cons (b : Byte) (bs : List Byte) :
    beValue (b :: bs) = b.toNat * 256 ^ bs.length + beValue bs := by
  rw [← foldl_eq_add_beValue, beValue, List.foldl_cons, Nat.zero_mul, Nat.zero_add]

/-- The value of big-endian bytes, digit by digit. -/
theorem beValue_eq_sum (bs : List Byte) :
    beValue bs = ∑ k ∈ Finset.range bs.length, (bs.getD k 0#8).toNat * 256 ^ (bs.length - 1 - k) := by
  induction bs with
  | nil => rfl
  | cons b bs ih =>
    rw [beValue_cons, ih, List.length_cons, Finset.sum_range_succ', Nat.add_comm]
    simp [Nat.sub_sub, Nat.add_comm 1]

/-- Byte `k` of the big-endian image of a number. -/
theorem getElem?_beBytes {n k : Nat} (v : Nat) (h : k < n) :
    (beBytes n v)[k]? = some (BitVec.ofNat 8 (v / 2 ^ (8 * (n - 1 - k)))) := by
  induction n generalizing k with
  | zero => exact absurd h (Nat.not_lt_zero k)
  | succ n ih =>
    cases k with
    | zero => simp [beBytes, Nat.shiftRight_eq_div_pow]
    | succ k =>
      have hexp : n + 1 - 1 - (k + 1) = n - 1 - k := by omega
      rw [beBytes, List.getElem?_cons_succ, ih (Nat.lt_of_succ_lt_succ h), hexp]

/-- Settles O17: a block read is the list of its bytes, whose value is a sum over them; a block written reads as
the big-endian image. -/
theorem bigEndianAccess : Obligations.BigEndianAccess := by
  unfold Obligations.BigEndianAccess
  refine ⟨fun m a n bs hlen hread => ?_, fun m a n v c => ?_⟩
  · subst hlen
    rw [memRead, Memory.readBytes_eq_some hread, Option.map_some, beValue_eq_sum]
  · rw [read_memWrite]
    split
    · exact getElem?_beBytes v (by omega)
    · rfl

end Sys2Proof.Machine
end

section
/-! What the host does beside writing commands (spec/20_memory.md rule R81): its writes, reset and its read of
DST. -/

namespace Sys2Proof.Machine

/-- A step takes the first action off the port and performs it (R20). -/
theorem step_of_port {s : State} {a : HostAct} {rest : List HostAct} (h : s.port = a :: rest) :
    step s = hostAct a { s with port := rest } := by
  unfold step
  rw [h]

/-- The phases in which the host may touch memory. -/
theorem quiet_iff (s : State) : quiet s = true ↔ s.between ∨ s.phase = .fault := by
  simp [quiet, or_assoc]

/-- A byte after a write: the byte written at its address, and the old one at every other. -/
theorem Memory.read_write (m : Memory) (a c : Nat) (b : Byte) :
    Memory.read (Memory.write m a b) c = if c = a then some b else Memory.read m c := by
  split
  · rename_i h
    rw [h, Memory.read_write_same]
  · rename_i h
    exact Memory.read_write_other m b h

section writes
variable {s : State}

theorem hostWriteSrc_of_quiet (addr : U64) (b : Byte) (h : quiet s = true) :
    hostWriteSrc addr b s = .next { s with src := Memory.write s.src addr.toNat b } := if_pos h

theorem hostWriteSrcLen_of_quiet (n : U64) (h : quiet s = true) :
    hostWriteSrcLen n s = .next { s with srcLen := n } := if_pos h

/-- A write of SRC or SRC_LEN during a call is a fault. -/
theorem hostAct_write_of_not_quiet {act : HostAct} (h : ¬quiet s = true)
    (hact : (∃ addr b, act = .writeSrc addr b) ∨ ∃ n, act = .writeSrcLen n) :
    hostAct act s = .fault .hostDuringCall := by
  rcases hact with ⟨addr, b, rfl⟩ | ⟨n, rfl⟩
  · exact if_neg h
  · exact if_neg h

end writes

theorem hostReadDst_eq (a : Nat) (s : State) :
    hostReadDst a s
      = if (s.between ∨ s.phase = .fault) ∧ a < s.dstLen.toNat then Memory.read s.dst a else none := by
  refine if_congr ?_ rfl rfl
  rw [Bool.and_eq_true, quiet_iff, decide_eq_true_iff]

/-- Settles O6: a step is the action at the head of the port, and PHASE decides whether a write is performed. -/
theorem hostActions : Obligations.HostActions := by
  unfold Obligations.HostActions
  intro s rest
  refine ⟨fun addr b hport hq => ?_, fun n hport hq => ?_, fun act hport hact hq => ?_, step_of_port,
    fun a => hostReadDst_eq a s⟩
  · exact ⟨_, (step_of_port hport).trans (hostWriteSrc_of_quiet addr b ((quiet_iff _).2 hq)), rfl,
      fun a => Memory.read_write s.src addr.toNat a b⟩
  · exact (step_of_port hport).trans (hostWriteSrcLen_of_quiet n ((quiet_iff _).2 hq))
  · exact (step_of_port hport).trans (hostAct_write_of_not_quiet (fun h => hq ((quiet_iff _).1 h)) hact)

end Sys2Proof.Machine
end

section
/-! Where the packer's commands meet IOFailure (spec/40_bitwordstream.md rules R140 to R147; R313, R319). -/

namespace Sys2Proof.Machine

/-! ### The packer's commands run their pseudocode -/

/-- The packer's commands are accepted at every CODEC and MODE, at IDLE and at DONE (R144 to R147). -/
theorem accept_guardBws {m : Act Unit} {s : State} (h : s.between) : accept guardBws m s = runBody m s := by
  refine accept_run ?_ ?_ rfl
  · show anyCodec.contains s.codec = true
    cases s.codec <;> rfl
  · rcases h with h | h <;> simp [phaseOk, guardBws, cursorOk, h]

theorem widthOperand_of_mem {a : BitVec 8} (h : a.toNat ∈ Config.bwsWidths) :
    widthOperand a = some a.toNat := if_pos h

theorem exec_bwsWrite {a : BitVec 8} {s : State} (imm : BitVec 32) (ha : a.toNat ∈ Config.bwsWidths)
    (hs : s.between) : exec (.bwsWrite imm a) s = runBody (bwsWrite imm a.toNat) s := by
  show execBwsWrite imm a s = _
  unfold execBwsWrite
  rw [widthOperand_of_mem ha]
  exact accept_guardBws hs

theorem exec_bwsFinish {s : State} (hs : s.between) : exec .bwsFinish s = runBody bwsFinish s :=
  accept_guardBws hs

theorem exec_bwsRead {a : BitVec 8} {s : State} (ha : a.toNat ∈ Config.bwsWidths) (hs : s.between) :
    exec (.bwsRead a) s = runBody (bodyOf (.bwsRead a)) s := by
  show execBwsRead a s = _
  unfold execBwsRead
  rw [widthOperand_of_mem ha]
  exact accept_guardBws hs

/-- A pseudocode that raises IOFailure ends in FAULT (R313, R317). -/
theorem runBody_of_ioFailure {m : Act Unit} {s t : State} (h : m s = .error (.raise .ioFailure) t) :
    runBody m s = .next (ioFailed t) := runBody_of_raise h

/-! ### DST without room -/

theorem dstPut_full {n : Nat} {s : State} (v : Nat) (h : s.full n) :
    dstPut n v s = .error (.raise .ioFailure) s := by
  rw [dstPut_apply, h]
  rfl

/-- No room for the bytes left, after the first bytes were appended. -/
theorem State.full_after {s t : State} {m n : Nat} (h : s.full (m + n)) (hc : t.cfg = s.cfg)
    (hl : t.dstLen.toNat = s.dstLen.toNat + m) : t.full n := by
  rw [State.full, hc, hl]
  unfold State.full Config.dstFits at *
  cases hcap : s.cfg.dstCap with
  | none => simp [hcap] at h
  | some cap => simpa [hcap, Nat.add_assoc] using h

/-- BWS.FINISH of pending bits, with no room for their byte (R141, R313). -/
theorem bwsFinish_full {s : State} (h0 : s.wcnt ≠ 0#4) (hf : s.full 1) :
    bwsFinish s = .error (.raise .ioFailure) s := by
  rw [bwsFinish_apply, if_neg h0, dstPut_full _ hf]

/-- The bit that completes a byte for which DST has no room (R140, R313): the byte stays in WACC. -/
theorem bwsPutBit_full {s : State} (b : Bool) (h7 : s.wcnt = 7#4) (hf : s.full 1) :
    bwsPutBit b s = .error (.raise .ioFailure) (s.pushBit b) := by
  have h8 : s.wcnt + 1#4 = 8#4 := by rw [h7]; rfl
  rw [bwsPutBit_apply]
  dsimp only
  rw [if_pos h8, dstPut_full _ (by exact hf)]
  rfl

/-- Bits in two parts, one after the other. -/
theorem bwsPutBits_append (xs ys : List Bool) (s : State) :
    bwsPutBits (xs ++ ys) s = (bwsPutBits xs >>= fun _ => bwsPutBits ys) s := by
  induction xs generalizing s with
  | nil => rfl
  | cons x xs ih =>
    show (bwsPutBit x >>= fun _ => bwsPutBits (xs ++ ys)) s
      = ((bwsPutBit x >>= fun _ => bwsPutBits xs) >>= fun _ => bwsPutBits ys) s
    rw [bind_assoc, Act.bind_apply, Act.bind_apply]
    cases bwsPutBit x s with
    | ok _ t => exact ih t
    | error e t => rfl

/-- A run of bits that stops one short of a full byte leaves seven pending. -/
theorem BitsAppended.wcnt_eq_seven {s u : State} {xs : List Bool} {m : Nat} (h : BitsAppended s u xs)
    (hm : s.wcnt.toNat + xs.length = 8 * m + 7) : u.wcnt = 7#4 :=
  BitVec.eq_of_toNat_eq (by rw [h.count, hm]; simp)

/-- One bit more after a run of bits that left seven pending: the byte stands in WACC. -/
theorem BitsAppended.cutOff {s u : State} {xs ys : List Bool} {b : Bool} {m : Nat} (h : BitsAppended s u xs)
    (hm : s.wcnt.toNat + xs.length = 8 * m + 7) : BitsCutOff s (u.pushBit b) (xs ++ b :: ys) m := by
  have hdiv : (8 * m + 7) / 8 = m := by omega
  have h7 : u.wcnt = 7#4 := h.wcnt_eq_seven hm
  have hlen : (s.pendingBits ++ xs).length = 8 * m + 7 := by
    rw [List.length_append, State.pendingBits_length, hm]
  have happ : s.pendingBits ++ (xs ++ b :: ys) = (s.pendingBits ++ xs) ++ b :: ys :=
    (List.append_assoc ..).symm
  have hlength := h.len
  have hpending := h.pending
  have hbytes := h.bytes
  rw [hm, hdiv] at hlength hpending hbytes
  refine ⟨hlength, ?_, fun n hn => ?_, fun j hj => ?_, h.outside⟩
  · show u.wcnt + 1#4 = 8#4
    rw [h7]
    rfl
  · rw [happ, List.getElem?_append_left (by omega)]
    exact hbytes n hn
  · show _ = some ((u.wacc ||| bitByte b <<< u.wcnt.toNat).getLsbD j)
    have hshift : u.wcnt.toNat = 7 := by rw [h7]; rfl
    rw [BitVec.getLsbD_or, hshift, getLsbD_bitByte_shift b 7 j (by decide), hpending, happ,
      List.getD_eq_getElem?_getD]
    by_cases hlast : j = 7
    · subst hlast
      rw [List.getElem?_append_right (by omega), List.getElem?_eq_none (l := s.pendingBits ++ xs) (by omega),
        hlen]
      simp
    · rw [List.getElem?_append_left (by omega), List.getElem?_eq_getElem (by omega)]
      simp [hlast]

/-- A list, split at one of its places. -/
theorem exists_append_cons_of_lt_length {α : Type} {l : List α} {n : Nat} (h : n < l.length) :
    ∃ xs x ys, l = xs ++ x :: ys ∧ xs.length = n :=
  ⟨l.take n, l[n], l.drop (n + 1), by rw [List.getElem_cons_drop, List.take_append_drop],
    List.length_take_of_le h.le⟩

/-- A run of bits with room for fewer bytes than it completes (R115, R140, R313, R319). -/
theorem bwsPutBits_full {bs : List Bool} {s : State} {m : Nat} (h : s.writerOk)
    (hm : m < (s.wcnt.toNat + bs.length) / 8) (hr : s.room m) (hf : s.full (m + 1)) :
    ∃ t, bwsPutBits bs s = .error (.raise .ioFailure) t ∧ BitsCutOff s t bs m ∧ t = written s t := by
  have hcnt := h.1
  obtain ⟨xs, b, ys, rfl, hxs⟩ := exists_append_cons_of_lt_length
    (show 8 * m + 7 - s.wcnt.toNat < bs.length by omega)
  have hfill : s.wcnt.toNat + xs.length = 8 * m + 7 := by omega
  have hdiv : (s.wcnt.toNat + xs.length) / 8 = m := by omega
  obtain ⟨u, erun, hu, hwritten, -⟩ := bwsPutBits_ok (bs := xs) h (by rwa [hdiv])
  have hfull : u.full 1 := State.full_after hf (by rw [hwritten]; rfl) (by rw [hu.len, hdiv])
  refine ⟨u.pushBit b, ?_, hu.cutOff hfill, written_trans hwritten rfl⟩
  rw [bwsPutBits_append, Act.bind_of_ok erun]
  exact Act.bind_of_error (bwsPutBit_full b (hu.wcnt_eq_seven hfill) hfull)

/-! ### SRC without bits -/

/-- Every bit up to the end of SRC is there. -/
theorem State.srcBit_isSome {s : State} {n : Nat} (h : s.srcIntact) (hn : n < s.bitsLeft) :
    (s.srcBit n).isSome = true := by
  obtain ⟨-, -, hsrc⟩ := h
  unfold State.bitsLeft at hn
  unfold State.srcBit
  split
  · rfl
  · have ha : s.srcPos.toNat + (n - s.rcnt.toNat) / 8 < s.srcLen.toNat := by omega
    dsimp only
    rw [if_pos ha, Option.isSome_map]
    exact hsrc _ (Nat.le_add_right ..) ha

theorem State.drained_eq_self {s : State} (hpos : s.srcPos = s.srcLen) (hbyte : s.rbyte = 0#8)
    (hcnt : s.rcnt = 0#4) : s.drained = s := by
  cases s
  cases hpos
  cases hbyte
  cases hcnt
  rfl

/-- With no bit left the read cursor is at the end, and the next bit is not there (R142, R313). -/
theorem bwsGetBit_short {s : State} (h : s.srcIntact) (h0 : s.bitsLeft = 0) :
    bwsGetBit s = .error (.raise .ioFailure) s.drained := by
  obtain ⟨⟨-, hbyte⟩, hpos, -⟩ := h
  unfold State.bitsLeft at h0
  have hcnt : s.rcnt = 0#4 := BitVec.eq_of_toNat_eq (show s.rcnt.toNat = 0 by omega)
  have hrbyte : s.rbyte = 0#8 := BitVec.eq_of_toNat_eq (by rw [hcnt] at hbyte; simpa using hbyte)
  have hend : s.srcPos = s.srcLen := BitVec.eq_of_toNat_eq (by omega)
  rw [bwsGetBit_fetch hcnt, srcByte_apply, if_pos (by omega), State.drained_eq_self hend hrbyte hcnt]

/-- One bit taken leaves SRC readable to its end, one bit less of it. -/
theorem BitsConsumed.srcIntact_and_bitsLeft {s t : State} (h : s.srcIntact) (hbit : 0 < s.bitsLeft)
    (hc : BitsConsumed s t 1) (ht : t = consumed s t) (hr : t.readerOk) :
    t.srcIntact ∧ s.bitsLeft = t.bitsLeft + 1 := by
  obtain ⟨-, hpos, hsrc⟩ := h
  have hfetched := hc.fetched
  have hheld := hc.held
  have hlen : t.srcLen = s.srcLen := by rw [ht]; rfl
  have hmem : t.src = s.src := by rw [ht]; rfl
  unfold State.bitsLeft at *
  refine ⟨⟨hr, by rw [hlen]; omega, fun k hk hk' => ?_⟩, by rw [hlen]; omega⟩
  rw [hlen] at hk'
  rw [hmem]
  exact hsrc k (by omega) hk'

/-- Fewer bits than asked for: those there are are consumed (R142, R79, R313). -/
theorem bwsGetBits_short {w : Nat} {s : State} (h : s.srcIntact) (hw : s.bitsLeft < w) :
    bwsGetBits w s = .error (.raise .ioFailure) s.drained := by
  induction w generalizing s with
  | zero => exact absurd hw (Nat.not_lt_zero _)
  | succ w ih =>
    show (bwsGetBit >>= fun b => bwsGetBits w >>= fun bs => pure (b :: bs)) s = _
    by_cases h0 : s.bitsLeft = 0
    · exact Act.bind_of_error (bwsGetBit_short h h0)
    · have hpos : 0 < s.bitsLeft := Nat.pos_of_ne_zero h0
      obtain ⟨b, hb⟩ := Option.isSome_iff_exists.1 (State.srcBit_isSome h hpos)
      obtain ⟨u, erun, hc, hu⟩ := bwsGetBit_ok hb
      obtain ⟨hpart, -⟩ := ((bwsGetBit_part .closed).leads s).of_ok erun
      obtain ⟨hintact, hleft⟩ := hc.srcIntact_and_bitsLeft h hpos hu (hpart.reader h.1)
      have hdrained : u.drained = s.drained := by
        rw [hu]
        rfl
      rw [Act.bind_of_ok erun, ← hdrained]
      exact Act.bind_of_error (ih hintact (by omega))

/-- Settles O22: the bits up to the one that completes the byte without room are appended as with room, that
one raises IOFailure with its byte in WACC; a read takes bit after bit until none is left. -/
theorem packerOutOfRoom : Obligations.PackerOutOfRoom := by
  unfold Obligations.PackerOutOfRoom
  refine ⟨fun imm a m s ha hs hw hm hr hf => ?_, fun s hs h0 hf => ?_, fun a s ha hs hsrc hleft => ?_⟩
  · have hlen : (codeBits imm a.toNat).length = a.toNat := by rw [codeBits, List.length_map, List.length_range]
    obtain ⟨t, e, hcut, ht⟩ := bwsPutBits_full (bs := codeBits imm a.toNat) hw (by rwa [hlen]) hr hf
    refine ⟨ioFailed t, ?_, ⟨hcut.len, hcut.count, hcut.bytes, hcut.waiting, hcut.outside⟩, ?_⟩
    · rw [exec_bwsWrite imm ha hs]
      exact runBody_of_ioFailure e
    · exact congrArg ioFailed ht
  · rw [exec_bwsFinish hs]
    exact runBody_of_ioFailure (bwsFinish_full h0 hf)
  · rw [exec_bwsRead ha hs]
    exact runBody_of_ioFailure (Act.bind_of_error (Act.bind_of_error (bwsGetBits_short hsrc hleft)))

end Sys2Proof.Machine
end

section
/-! The command word (spec/30_encoding.md): `decode` is the inverse of `encode` on the well-formed commands, a row's
mask picks the fields it fixes, and the words outside the rows are the illegal ones. -/

namespace Sys2Proof

/-! ### Decoding and encoding -/

/-- The field A of the command's word (R103). -/
def aOf : Instr → BitVec 8
  | .sopen a _ | .bwsWrite _ a | .bwsRead a => a
  | _ => 0#8

/-- The field B of the command's word (R103). -/
def bOf : Instr → BitVec 8
  | .sopen _ b => b
  | _ => 0#8

/-- The field IMM of the command's word (R103). -/
def immOf : Instr → BitVec 32
  | .bwsWrite imm _ => imm
  | _ => 0#32

theorem encode_eq_packFields (i : Instr) :
    encode i = packFields (opcodeOf i) (aOf i) (bOf i) 0#8 (immOf i) := by
  cases i <;> rfl

theorem selectInstr_opcodeOf (i : Instr) : selectInstr (opcodeOf i) (aOf i) (bOf i) (immOf i) = some i := by
  cases i <;> rfl

/-- The fields a command does not use are zero in its word. -/
theorem zeroFieldsOk_encode (i : Instr) : zeroFieldsOk i (aOf i) (bOf i) 0#8 (immOf i) = true := by
  cases i <;> rfl

/-- A selected command has the opcode it was selected by, and its operands are the fields it uses (R103). -/
theorem selectInstr_eq_some {opc a b : BitVec 8} {imm : BitVec 32} {i : Instr}
    (h : selectInstr opc a b imm = some i) :
    opcodeOf i = opc ∧ aOf i = (if usesA i then a else 0#8) ∧ bOf i = (if usesB i then b else 0#8)
      ∧ immOf i = (if usesImm i then imm else 0#32) := by
  unfold selectInstr at h
  split at h <;> cases h <;> exact ⟨rfl, rfl, rfl, rfl⟩

/-- The must-be-zero fields are zero: every field is the one the command uses, or zero. -/
theorem zeroFieldsOk_iff {i : Instr} {a b z : BitVec 8} {imm : BitVec 32} :
    zeroFieldsOk i a b z imm = true ↔ 0#8 = z ∧ (if usesA i then a else 0#8) = a
      ∧ (if usesB i then b else 0#8) = b ∧ (if usesImm i then imm else 0#32) = imm := by
  unfold zeroFieldsOk
  cases usesA i <;> cases usesB i <;> cases usesImm i <;> simp [and_assoc, eq_comm (a := 0#8), eq_comm (a := 0#32)]

/-- The decoder accepts exactly the words of the well-formed commands (R101 to R104). -/
theorem decode_eq_ok_iff {w : BitVec 64} {i : Instr} :
    decode w = .ok i ↔ i.wellFormed = true ∧ w = encode i := by
  constructor
  · intro h
    unfold decode decodeFields at h
    split at h
    · cases h
    · rename_i j hj
      split at h
      · rename_i hz
        split at h
        · rename_i hwf
          cases h
          obtain ⟨hzero, ha, hb, himm⟩ := zeroFieldsOk_iff.1 hz
          obtain ⟨hopc, ha', hb', himm'⟩ := selectInstr_eq_some hj
          refine ⟨hwf, ?_⟩
          rw [encode_eq_packFields, hopc, ha', ha, hb', hb, himm', himm, hzero, packFields_fields]
        · cases h
      · cases h
  · rintro ⟨hwf, rfl⟩
    rw [encode_eq_packFields, decode_packFields, decodeFields, selectInstr_opcodeOf]
    simp only [zeroFieldsOk_encode, hwf, if_true]

/-- Settles O1: the fields of a command's word select the command again. -/
theorem decodeEncodeRoundTrip : Obligations.DecodeEncodeRoundTrip := by
  unfold Obligations.DecodeEncodeRoundTrip
  exact fun _ h => decode_eq_ok_iff.2 ⟨h, rfl⟩

/-- Settles O3: each word is that of its command. -/
theorem knownWordsDecode : Obligations.KnownWordsDecode := by
  unfold Obligations.KnownWordsDecode
  simp only [decode_eq_ok_iff]
  decide

/-! ### Fields and masks -/

theorem eq_packFields_iff {w : BitVec 64} {opc a b z : BitVec 8} {imm : BitVec 32} :
    w = packFields opc a b z imm
      ↔ opcField w = opc ∧ aField w = a ∧ bField w = b ∧ zField w = z ∧ immField w = imm := by
  constructor
  · rintro rfl
    exact ⟨opcField_packFields .., aField_packFields .., bField_packFields .., zField_packFields ..,
      immField_packFields ..⟩
  · rintro ⟨rfl, rfl, rfl, rfl, rfl⟩
    exact (packFields_fields w).symm

/-- A word under a mask, field by field. -/
theorem and_packFields_eq_iff {w : BitVec 64} {mopc ma mb mz opc a b z : BitVec 8} {mimm imm : BitVec 32} :
    w &&& packFields mopc ma mb mz mimm = packFields opc a b z imm
      ↔ opcField w &&& mopc = opc ∧ aField w &&& ma = a ∧ bField w &&& mb = b ∧ zField w &&& mz = z
        ∧ immField w &&& mimm = imm := by
  obtain ⟨hopc, ha, hb, hz, himm⟩ := eq_packFields_iff.1 (rfl : packFields mopc ma mb mz mimm = _)
  generalize packFields mopc ma mb mz mimm = m at hopc ha hb hz himm ⊢
  subst hopc ha hb hz himm
  rw [eq_packFields_iff]
  simp only [opcField, aField, bField, zField, immField, BitVec.extractLsb'_and]

/-- The mask of R105 takes OPC, Z and the fields the command does not use. -/
theorem maskOf_eq_packFields (i : Instr) :
    maskOf i = packFields (BitVec.allOnes 8) (if usesA i then 0#8 else BitVec.allOnes 8)
      (if usesB i then 0#8 else BitVec.allOnes 8) (BitVec.allOnes 8)
      (if usesImm i then 0#32 else BitVec.allOnes 32) := by
  unfold maskOf usesA usesB usesImm
  cases formOf i <;> rfl

theorem matchOf_eq_packFields (i : Instr) : matchOf i = packFields (opcodeOf i) 0#8 0#8 0#8 0#32 := by
  refine BitVec.eq_of_toNat_eq ?_
  rw [matchOf, packFields, BitVec.toNat_setWidth_of_le (by decide), BitVec.toNat_append]
  simp

/-- A field under its part of the mask: free when it is an operand, zero when it is not. -/
theorem field_eq_iff {n : Nat} {used : Bool} {x v : BitVec n} (h : (if used then v else 0#n) = v) :
    x = v ↔ (x &&& if used then 0#n else BitVec.allOnes n) = 0#n ∧ (used = true → v = x) := by
  cases used with
  | true => simp [eq_comm]
  | false => simp [← h]

/-- A word is the command's when it matches the command's row and holds its operands (R105). -/
theorem eq_encode_iff {w : BitVec 64} {i : Instr} :
    w = encode i ↔ w &&& maskOf i = matchOf i ∧ (usesA i = true → aOf i = aField w)
      ∧ (usesB i = true → bOf i = bField w) ∧ (usesImm i = true → immOf i = immField w) := by
  obtain ⟨-, ha, hb, himm⟩ := zeroFieldsOk_iff.1 (zeroFieldsOk_encode i)
  rw [encode_eq_packFields, maskOf_eq_packFields, matchOf_eq_packFields, eq_packFields_iff, and_packFields_eq_iff,
    field_eq_iff ha, field_eq_iff hb, field_eq_iff himm, BitVec.and_allOnes, BitVec.and_allOnes]
  tauto

/-- A word that matches a command's row has its opcode. -/
theorem opcField_of_matches {w : BitVec 64} {i : Instr} (h : w &&& maskOf i = matchOf i) :
    opcField w = opcodeOf i := by
  rw [maskOf_eq_packFields, matchOf_eq_packFields, and_packFields_eq_iff, BitVec.and_allOnes] at h
  exact h.1

/-- A field as the obligation writes it (R101). -/
theorem aField_eq_ofNat (w : BitVec 64) : aField w = BitVec.ofNat 8 (w.toNat / 2 ^ 8) := by
  rw [aField, BitVec.extractLsb', Nat.shiftRight_eq_div_pow]

theorem bField_eq_ofNat (w : BitVec 64) : bField w = BitVec.ofNat 8 (w.toNat / 2 ^ 16) := by
  rw [bField, BitVec.extractLsb', Nat.shiftRight_eq_div_pow]

theorem immField_eq_ofNat (w : BitVec 64) : immField w = BitVec.ofNat 32 (w.toNat / 2 ^ 32) := by
  rw [immField, BitVec.extractLsb', Nat.shiftRight_eq_div_pow]

/-- Settles O2: a word decodes to the command it is the word of, and that is to match the command's row with the
operands in their fields; every mask takes the whole of OPC. -/
theorem decodeSelectsRow : Obligations.DecodeSelectsRow := by
  unfold Obligations.DecodeSelectsRow
  refine ⟨fun w i => decode_eq_ok_iff.trans (and_congr_right fun _ => eq_encode_iff.trans ?_),
    fun w i j hi hj => (opcField_of_matches hi).symm.trans (opcField_of_matches hj)⟩
  rw [aField_eq_ofNat, bField_eq_ofNat, immField_eq_ofNat]
  cases i with
  | sopen | bwsWrite | bwsRead =>
    exact and_congr_right fun _ => by simp [usesA, usesB, usesImm, formOf, aOf, bOf, immOf]
  | _ => exact ⟨And.left, fun h => ⟨h, nofun, nofun, nofun⟩⟩

/-! ### Illegal words -/

theorem toNat_opcField (w : BitVec 64) : (opcField w).toNat = w.toNat % 2 ^ 8 := by
  rw [opcField, BitVec.extractLsb'_toNat, Nat.shiftRight_zero]

theorem toNat_aField (w : BitVec 64) : (aField w).toNat = w.toNat / 2 ^ 8 % 2 ^ 8 := by
  rw [aField, BitVec.extractLsb'_toNat, Nat.shiftRight_eq_div_pow]

theorem toNat_bField (w : BitVec 64) : (bField w).toNat = w.toNat / 2 ^ 16 % 2 ^ 8 := by
  rw [bField, BitVec.extractLsb'_toNat, Nat.shiftRight_eq_div_pow]

theorem toNat_zField (w : BitVec 64) : (zField w).toNat = w.toNat / 2 ^ 24 % 2 ^ 8 := by
  rw [zField, BitVec.extractLsb'_toNat, Nat.shiftRight_eq_div_pow]

theorem toNat_immField (w : BitVec 64) : (immField w).toNat = w.toNat / 2 ^ 32 := by
  rw [immField, BitVec.extractLsb'_toNat, Nat.shiftRight_eq_div_pow, Nat.mod_eq_of_lt]
  have := w.isLt
  omega

/-- The fields of a legal word (R101, R102, R104): an assigned opcode, zero where the command has no operand, and
operands in their legal sets. -/
def LegalFields (opc a b z : BitVec 8) (imm : BitVec 32) : Prop :=
  opc ∈ Machine.assignedOpcodes
  ∧ z = 0#8
  ∧ (opc ≠ 0x11#8 → imm = 0#32)
  ∧ (opc ≠ 0x01#8 → b = 0#8)
  ∧ (opc ≠ 0x01#8 → opc ≠ 0x11#8 → opc ≠ 0x13#8 → a = 0#8)
  ∧ (opc = 0x01#8 → a.toNat ∈ [1, 2, 3] ∧ b.toNat ∈ [0, 1])
  ∧ (opc = 0x11#8 ∨ opc = 0x13#8 → a.toNat ∈ Config.bwsWidths)

theorem illegalWord_iff (w : BitVec 64) :
    Machine.illegalWord w ↔ ¬LegalFields (opcField w) (aField w) (bField w) (zField w) (immField w) := by
  unfold Machine.illegalWord LegalFields
  dsimp only
  rw [← toNat_opcField, ← toNat_aField, ← toNat_bField, ← toNat_zField, ← toNat_immField]
  simp only [ne_eq, BitVec.toNat_eq, BitVec.ofNat_toNat, BitVec.setWidth_eq, BitVec.toNat_ofNat, Config.bwsWidths,
    not_and_or, Classical.not_imp]

theorem opcodeOf_mem (i : Instr) : opcodeOf i ∈ Machine.assignedOpcodes := by
  cases i <;> simp [opcodeOf, Machine.assignedOpcodes]

theorem exists_selectInstr {opc : BitVec 8} (h : opc ∈ Machine.assignedOpcodes) (a b : BitVec 8)
    (imm : BitVec 32) :
    ∃ i, selectInstr opc a b imm = some i := by
  have hall : ∀ opc ∈ Machine.assignedOpcodes, (selectInstr opc a b imm).isSome = true := by
    simp [Machine.assignedOpcodes, selectInstr]
  exact Option.isSome_iff_exists.1 (hall opc h)

theorem usesA_iff (i : Instr) :
    usesA i = true ↔ opcodeOf i = 0x01#8 ∨ opcodeOf i = 0x11#8 ∨ opcodeOf i = 0x13#8 := by
  cases i <;> simp [usesA, formOf, opcodeOf]

theorem usesB_iff (i : Instr) : usesB i = true ↔ opcodeOf i = 0x01#8 := by
  cases i <;> simp [usesB, formOf, opcodeOf]

theorem usesImm_iff (i : Instr) : usesImm i = true ↔ opcodeOf i = 0x11#8 := by
  cases i <;> simp [usesImm, formOf, opcodeOf]

theorem codecOperand_isSome_iff (a : BitVec 8) :
    (Machine.codecOperand a).isSome = true ↔ a.toNat ∈ [1, 2, 3] := by
  unfold Machine.codecOperand
  repeat' split
  all_goals simp_all [BitVec.toNat_eq]

theorem modeOperand_isSome_iff (b : BitVec 8) : (Machine.modeOperand b).isSome = true ↔ b.toNat ∈ [0, 1] := by
  unfold Machine.modeOperand
  repeat' split
  all_goals simp_all [BitVec.toNat_eq]

theorem widthOperand_isSome_iff (a : BitVec 8) :
    (Machine.widthOperand a).isSome = true ↔ a.toNat ∈ Config.bwsWidths := by
  unfold Machine.widthOperand
  split <;> simp_all

theorem wellFormed_iff (i : Instr) : i.wellFormed = true ↔
    (opcodeOf i = 0x01#8 → (aOf i).toNat ∈ [1, 2, 3] ∧ (bOf i).toNat ∈ [0, 1])
      ∧ (opcodeOf i = 0x11#8 ∨ opcodeOf i = 0x13#8 → (aOf i).toNat ∈ Config.bwsWidths) := by
  cases i <;>
    simp [Instr.wellFormed, opcodeOf, aOf, bOf, codecOperand_isSome_iff, modeOperand_isSome_iff,
      widthOperand_isSome_iff]

/-- The legal words are those of the well-formed commands, field by field. -/
theorem legalFields_iff {opc a b z : BitVec 8} {imm : BitVec 32} :
    LegalFields opc a b z imm ↔ ∃ i, i.wellFormed = true ∧ opcodeOf i = opc ∧ aOf i = a ∧ bOf i = b ∧ 0#8 = z
      ∧ immOf i = imm := by
  constructor
  · rintro ⟨hopc, hz, himm, hb, ha, hsession, hwidth⟩
    obtain ⟨i, hi⟩ := exists_selectInstr hopc a b imm
    obtain ⟨rfl, hai, hbi, hii⟩ := selectInstr_eq_some hi
    have hA : aOf i = a := by grind [usesA_iff i]
    have hB : bOf i = b := by grind [usesB_iff i]
    have hI : immOf i = imm := by grind [usesImm_iff i]
    refine ⟨i, (wellFormed_iff i).2 ?_, rfl, hA, hB, hz.symm, hI⟩
    rw [hA, hB]
    exact ⟨hsession, hwidth⟩
  · rintro ⟨i, hwf, rfl, rfl, rfl, rfl, rfl⟩
    obtain ⟨-, ha, hb, himm⟩ := zeroFieldsOk_iff.1 (zeroFieldsOk_encode i)
    obtain ⟨hsession, hwidth⟩ := (wellFormed_iff i).1 hwf
    refine ⟨opcodeOf_mem i, rfl, ?_, ?_, ?_, hsession, hwidth⟩
    · grind [usesImm_iff i]
    · grind [usesB_iff i]
    · grind [usesA_iff i]

/-- The decoder rejects exactly the words whose fields are not legal. -/
theorem decode_eq_error_iff (w : BitVec 64) : (∃ e, decode w = .error e) ↔ Machine.illegalWord w := by
  have hok : LegalFields (opcField w) (aField w) (bField w) (zField w) (immField w)
      ↔ ∃ i, decode w = .ok i := by
    rw [legalFields_iff]
    refine exists_congr fun i => ?_
    rw [decode_eq_ok_iff, encode_eq_packFields, eq_packFields_iff]
    grind
  rw [illegalWord_iff, hok]
  cases decode w <;> simp

/-- Settles O4: the legal fields are those of the words of well-formed commands, and the block's answer to a decode
error is the refusal. -/
theorem illegalWordRefused : Obligations.IllegalWordRefused := by
  unfold Obligations.IllegalWordRefused
  intro w
  refine ⟨(decode_eq_error_iff w).symm, fun h s => ?_⟩
  obtain ⟨e, he⟩ := (decode_eq_error_iff w).2 h
  unfold Machine.hostCommand
  rw [he]
  rfl

end Sys2Proof
end

section
/-! COMPRESS and DECOMPRESS are the step commands of their expansions, one after another (spec/30_encoding.md rule
R108, spec/41_session.md rules R165 to R167): each step's pseudocode, run as a part of theirs, is what the step
command does in the state the steps before it left. -/

namespace Sys2Proof.Machine

/-! ### A pseudocode and a list of commands -/

section expansion
variable {m : Act Unit} {f : Unit → Act Unit} {i : Instr} {is : List Instr} {s : State}

/-- One step after another: the first command runs the first action, and where that goes to its end the rest of the
commands are the rest of the pseudocode (R108, R319). -/
theorem runBody_bind_eq_runSteps (hrun : exec i s = runBody m s)
    (hrest : ∀ t, m s = .ok () t → t.phase ≠ .fault ∧ runBody (f ()) t = runSteps is t) :
    runBody (m >>= f) s = runSteps (i :: is) s := by
  unfold runSteps
  rw [hrun]
  unfold runBody
  rw [Act.bind_apply]
  cases e : m s with
  | ok _ t =>
    obtain ⟨halive, hsteps⟩ := hrest t e
    show runBody (f ()) t = if t.phase = .fault then .next t else runSteps is t
    rw [if_neg halive, hsteps]
  | error x t => cases x <;> rfl

theorem runBody_congr {m' : Act Unit} (h : m s = m' s) : runBody m s = runBody m' s := by
  unfold runBody
  rw [h]

/-- The same with a number of repetitions to be chosen at the end. -/
theorem exists_runBody_bind_eq_runSteps {steps : Nat → List Instr} (hrun : exec i s = runBody m s)
    (hrest : ∀ t, m s = .ok () t → t.phase ≠ .fault ∧ ∃ n, runBody (f ()) t = runSteps (steps n) t) :
    ∃ n, runBody (m >>= f) s = runSteps (i :: steps n) s := by
  cases e : m s with
  | ok _ t =>
    obtain ⟨halive, n, hsteps⟩ := hrest t e
    refine ⟨n, runBody_bind_eq_runSteps hrun fun u hu => ?_⟩
    rw [e] at hu
    injection hu with _ hu
    exact hu ▸ ⟨halive, hsteps⟩
  | error x t =>
    refine ⟨0, runBody_bind_eq_runSteps hrun fun u hu => ?_⟩
    rw [e] at hu
    cases hu

/-- The last command. -/
theorem runSteps_singleton (i : Instr) (s : State) : runSteps [i] s = exec i s := by
  unfold runSteps
  cases exec i s with
  | next t => exact ite_self _
  | fault _ => rfl
  | refused _ => rfl

end expansion

/-! ### The step commands inside a call -/

/-- The state is at PHASE `p` of a session of codec `c` and mode `d`. -/
structure At (c : Codec) (d : Mode) (p : Phase) (s : State) : Prop where
  codec : s.codec = c
  mode : s.mode = d
  phase : s.phase = p

/-- The command belongs to this phase of such a session (R24, R103). -/
abbrev Fits (i : Instr) (c : Codec) (d : Mode) (p : Phase) : Prop :=
  c ∈ codecsFor i ∧ p ∈ phasesFor i ∧ (directionFor i = none ∨ directionFor i = some d) ∧ p ≠ .fault

section steps
variable {c : Codec} {d : Mode} {p q : Phase} {i : Instr} {s t : State}

theorem At.accepted (h : At c d p s) (hfit : Fits i c d p) : Accepted i s := by
  obtain ⟨rfl, rfl, rfl⟩ := h
  obtain ⟨hcodec, hphase, hdir, halive⟩ := hfit
  refine ⟨hcodec, hphase, fun m hm => ?_, halive⟩
  rcases hdir with e | e <;> rw [e] at hm <;> cases hm
  rfl

/-- An accepted command runs its pseudocode (R316). -/
theorem Accepted.exec_eq (h : Accepted i s) (hexec : exec i s = accept (guardOf i) (bodyOf i) s)
    (hcursor : cursorOk (cursorOf i) s = true) : exec i s = runBody (bodyOf i) s := by
  have hmode := h.mode
  rw [hexec]
  refine accept_run ?_ ?_ ?_
  · simpa [codecOk, guardOf] using h.codec
  · simpa [phaseOk, guardOf, hcursor] using h.phase
  · unfold dirOk guardOf
    cases hd : directionFor i with
    | none => rfl
    | some m => simp [hmode m hd]

/-- What an accepted command that goes to its end keeps of the session: MODE moves only where the call ends. -/
theorem Accepted.session_eq (h : Accepted i s) (e : bodyOf i s = .ok () t) :
    t.codec = s.codec ∧ (t.phase ≠ .done → t.mode = s.mode) ∧ t.srcLen = s.srcLen := by
  obtain ⟨u, hu, -, rfl⟩ := h.ended e
  refine ⟨by simpa using hu.codec, fun hn => ?_, by simpa using hu.srcLen⟩
  rw [finishOf_mode i u hn, hu.mode, startOf_mode]

end steps

/-- From phase `p` of such a session the command leads to phase `q`, inside the call. -/
abbrev StepsTo (i : Instr) (c : Codec) (d : Mode) (p q : Phase) : Prop :=
  Fits i c d p ∧ phasesAfter i p = [q] ∧ q ≠ .done ∧ q ≠ .fault

section steps
variable {c : Codec} {d : Mode} {p q : Phase} {i : Instr} {s t : State} {f : Unit → Act Unit}

theorem StepsTo.fits (h : StepsTo i c d p q) : Fits i c d p := h.1

theorem StepsTo.alive (h : StepsTo i c d p q) : q ≠ .fault := h.2.2.2

theorem At.exec_eq (h : At c d p s) (hfit : Fits i c d p) (hexec : exec i s = accept (guardOf i) (bodyOf i) s)
    (hcursor : cursorOk (cursorOf i) s = true) : exec i s = runBody (bodyOf i) s :=
  (h.accepted hfit).exec_eq hexec hcursor

/-- A step that goes to its end leaves the next phase of the same session. -/
theorem At.next (h : At c d p s) (hto : StepsTo i c d p q) (e : bodyOf i s = .ok () t) : At c d q t := by
  obtain ⟨hfit, hq, hdone, -⟩ := hto
  have ha := h.accepted hfit
  have hphase := ha.phase_after e
  obtain ⟨hcodec, hmode, -⟩ := ha.session_eq e
  rw [h.phase, hq, List.mem_singleton] at hphase
  exact ⟨hcodec.trans h.codec, (hmode (hphase ▸ hdone)).trans h.mode, hphase⟩

theorem At.srcLen_eq (h : At c d p s) (hfit : Fits i c d p) (e : bodyOf i s = .ok () t) : t.srcLen = s.srcLen := by
  obtain ⟨-, -, hlen⟩ := (h.accepted hfit).session_eq e
  exact hlen

/-- The first step of an expansion, and the rest of it. -/
theorem At.step {is : List Instr} (h : At c d p s) (hto : StepsTo i c d p q)
    (hexec : exec i s = accept (guardOf i) (bodyOf i) s) (hcursor : cursorOk (cursorOf i) s = true)
    (hrest : ∀ t, bodyOf i s = .ok () t → At c d q t → runBody (f ()) t = runSteps is t) :
    runBody (bodyOf i >>= f) s = runSteps (i :: is) s :=
  runBody_bind_eq_runSteps (h.exec_eq hto.fits hexec hcursor) fun t e =>
    have ht := h.next hto e
    ⟨ht.phase ▸ hto.alive, hrest t e ht⟩

/-- The same with a number of repetitions to be chosen at the end. -/
theorem At.exists_step {steps : Nat → List Instr} (h : At c d p s) (hto : StepsTo i c d p q)
    (hexec : exec i s = accept (guardOf i) (bodyOf i) s) (hcursor : cursorOk (cursorOf i) s = true)
    (hrest : ∀ t, bodyOf i s = .ok () t → At c d q t → ∃ n, runBody (f ()) t = runSteps (steps n) t) :
    ∃ n, runBody (bodyOf i >>= f) s = runSteps (i :: steps n) s :=
  exists_runBody_bind_eq_runSteps (h.exec_eq hto.fits hexec hcursor) fun t e =>
    have ht := h.next hto e
    ⟨ht.phase ▸ hto.alive, hrest t e ht⟩

/-- The last step of an expansion. -/
theorem At.last (h : At c d p s) (hfit : Fits i c d p) (hexec : exec i s = accept (guardOf i) (bodyOf i) s)
    (hcursor : cursorOk (cursorOf i) s = true) : runBody (bodyOf i) s = runSteps [i] s := by
  rw [runSteps_singleton, h.exec_eq hfit hexec hcursor]

/-- A step performed once for each byte that is left (R108's `xN`): what `J` says of the state and the number left
carries the repetition. -/
theorem runBody_times_eq_runSteps {J : Nat → State → Prop} {is : List Instr}
    (hrun : ∀ k s, J (k + 1) s → exec i s = runBody (bodyOf i) s)
    (hstep : ∀ k s t, J (k + 1) s → bodyOf i s = .ok () t → t.phase ≠ .fault ∧ J k t)
    (hrest : ∀ t, J 0 t → runBody (f ()) t = runSteps is t) {n : Nat} (h : J n s) :
    runBody (Act.times (bodyOf i) n >>= f) s = runSteps (List.replicate n i ++ is) s := by
  induction n generalizing s with
  | zero => exact hrest s h
  | succ n ih =>
    show runBody ((bodyOf i >>= fun _ => Act.times (bodyOf i) n) >>= f) s = _
    rw [bind_assoc]
    refine runBody_bind_eq_runSteps (hrun n s h) fun t e => ?_
    obtain ⟨halive, ht⟩ := hstep n s t h e
    exact ⟨halive, ih ht⟩

end steps

/-! ### The read cursor -/

/-- The two states have the same source cursor, the same bits in RBYTE to come, and the same WIDTH. -/
structure SameReader (s t : State) : Prop where
  pos : t.srcPos = s.srcPos
  len : t.srcLen = s.srcLen
  cnt : t.rcnt = s.rcnt
  width : t.lzw.width = s.lzw.width

theorem SameReader.refl (s : State) : SameReader s s := ⟨rfl, rfl, rfl, rfl⟩

theorem SameReader.trans (s t u : State) (h : SameReader s t) (k : SameReader t u) : SameReader s u :=
  ⟨k.pos.trans h.pos, k.len.trans h.len, k.cnt.trans h.cnt, k.width.trans h.width⟩

theorem SameReader.bitsLeft {s t : State} (h : SameReader s t) : bitsLeft t = bitsLeft s := by
  unfold Machine.bitsLeft
  rw [h.pos, h.len, h.cnt]

/-- The action takes nothing from SRC and leaves WIDTH alone. -/
abbrev Act.KeepsReader {α : Type} (m : Act α) : Prop := Act.Keeps SameReader m

section reader
variable {α β : Type}

theorem Act.KeepsReader.bind {m : Act α} {f : α → Act β} (hm : m.KeepsReader) (hf : ∀ a, (f a).KeepsReader) :
    (m >>= f).KeepsReader := Act.Keeps.bind SameReader.trans hm hf

theorem Act.KeepsReader.get {f : State → Act α} (hf : ∀ s, (f s).KeepsReader) : (Act.state >>= f).KeepsReader :=
  .bind (Act.Keeps.state SameReader.refl) hf

theorem Act.KeepsReader.pure (a : α) : (pure a : Act α).KeepsReader := Act.Keeps.pure SameReader.refl a

theorem Act.KeepsReader.unspec (r : Refusal) : (Act.unspec r : Act α).KeepsReader :=
  Act.Keeps.unspec SameReader.refl r

theorem Act.KeepsReader.write {f : State → State} (h : ∀ s, SameReader s (f s)) : (Act.write f).KeepsReader :=
  Act.Keeps.write h

theorem dstPut_keepsReader (n v : Nat) : (dstPut n v).KeepsReader := by
  refine .get fun s => ?_
  split
  · split
    · exact .write fun _ => ⟨rfl, rfl, rfl, rfl⟩
    · exact .unspec _
  · exact Act.Keeps.raise SameReader.refl _

theorem bwsPutBit_keepsReader (b : Bool) : (bwsPutBit b).KeepsReader := by
  refine .bind (.write fun _ => ⟨rfl, rfl, rfl, rfl⟩) fun _ => .get fun s => ?_
  split
  · exact .bind (dstPut_keepsReader _ _) fun _ => .write fun _ => ⟨rfl, rfl, rfl, rfl⟩
  · exact .pure ()

theorem bwsPutBits_keepsReader (bs : List Bool) : (bwsPutBits bs).KeepsReader := by
  induction bs with
  | nil => exact .pure ()
  | cons b bs ih => exact .bind (bwsPutBit_keepsReader b) fun _ => ih

theorem putPhrase_keepsReader (p : List Byte) : (putPhrase p).KeepsReader := by
  induction p with
  | nil => exact .pure ()
  | cons x xs ih => exact .bind (dstPut_keepsReader _ _) fun _ => ih

theorem dictAdd_keepsReader (p : List Byte) : (dictAdd p).KeepsReader := by
  refine .get fun s => ?_
  split
  · exact .write fun _ => ⟨rfl, rfl, rfl, rfl⟩
  · exact .unspec _

theorem collectPhrase_keepsReader : collectPhrase.KeepsReader := by
  refine .get fun s => ?_
  split
  · split
    · exact .unspec _
    · exact .write fun _ => ⟨rfl, rfl, rfl, rfl⟩
  · exact .unspec _

theorem lzwExtend_keepsReader (c : Byte) : (lzwExtend c).KeepsReader := by
  refine .get fun s => ?_
  split
  · exact .write fun _ => ⟨rfl, rfl, rfl, rfl⟩
  · split
    · exact .write fun _ => ⟨rfl, rfl, rfl, rfl⟩
    · exact .bind collectPhrase_keepsReader fun _ => .bind (dictAdd_keepsReader _) fun _ =>
        .write fun _ => ⟨rfl, rfl, rfl, rfl⟩

theorem decodeInsert_keepsReader (x : Byte) : (decodeInsert x).KeepsReader := by
  refine .get fun s => ?_
  split
  · exact dictAdd_keepsReader _
  · exact .pure ()

theorem lzwEmitPhrase_keepsReader (p : List Byte) : (lzwEmitPhrase p).KeepsReader := by
  refine .get fun s => ?_
  split
  · exact .unspec _
  · split
    · exact .unspec _
    · refine .bind (putPhrase_keepsReader _) fun _ => .bind (decodeInsert_keepsReader _) fun _ =>
        .bind (.write fun _ => ⟨rfl, rfl, rfl, rfl⟩) fun _ => .get fun t => ?_
      split
      · exact .write fun _ => ⟨rfl, rfl, rfl, rfl⟩
      · exact .pure ()

end reader

/-! ### COMPRESS -/

/-- A byte taken moves the cursor by one. -/
theorem srcByte_moves (s : State) :
    srcByte.Leads (fun _ t => t.srcPos = s.srcPos + 1#64) (fun _ _ => True) s := by
  unfold Act.Leads
  rw [srcByte_apply]
  by_cases hlen : s.srcLen.toNat < s.srcPos.toNat + 1
  · rw [if_pos hlen]
    trivial
  · rw [if_neg hlen]
    cases Memory.read s.src s.srcPos.toNat with
    | none => trivial
    | some b => rfl

/-- A byte taken, and an action that takes none. -/
theorem srcByte_bind_moves {f : Byte → Act Unit} (hf : ∀ b, (f b).KeepsReader) (s : State) :
    (srcByte >>= f).Leads (fun _ t => t.srcPos = s.srcPos + 1#64) (fun _ _ => True) s := by
  rw [Act.leads_bind]
  refine (srcByte_moves s).mono (fun b t ht => ?_) fun _ _ _ => trivial
  exact ((hf b).leads t).mono (fun _ u hu => hu.pos.trans ht) fun _ _ _ => trivial

theorem artEncsymBody_moves (s : State) :
    artEncsymBody.Leads (fun _ t => t.srcPos = s.srcPos + 1#64) (fun _ _ => True) s := by
  refine srcByte_bind_moves (fun b => .get fun u => ?_) s
  dsimp only
  split
  · exact Act.Keeps.raise SameReader.refl _
  · split
    · exact .unspec _
    · split
      · exact .unspec _
      · exact .bind (bwsPutBits_keepsReader _) fun _ => .write fun _ => ⟨rfl, rfl, rfl, rfl⟩

theorem lzwEncbyteBody_moves (s : State) :
    lzwEncbyteBody.Leads (fun _ t => t.srcPos = s.srcPos + 1#64) (fun _ _ => True) s := by
  refine srcByte_bind_moves (fun b => ?_) s
  exact .bind (lzwExtend_keepsReader b) fun _ => .write fun _ => ⟨rfl, rfl, rfl, rfl⟩

/-- `k` bytes of SRC are left. -/
abbrev State.bytesLeft (s : State) (k : Nat) : Prop := s.srcPos.toNat + k = s.srcLen.toNat

theorem State.bytesLeft.cursorOk_bytesLeft {s : State} {k : Nat} (h : s.bytesLeft (k + 1)) :
    cursorOk .bytesLeft s = true := decide_eq_true (by unfold State.bytesLeft at h; omega)

theorem State.bytesLeft.cursorOk_atEnd {s : State} (h : s.bytesLeft 0) : cursorOk .atEnd s = true :=
  beq_iff_eq.2 (BitVec.eq_of_toNat_eq h)

/-- A step that takes one byte leaves one less. -/
theorem State.bytesLeft.next {s t : State} {k : Nat} (h : s.bytesLeft (k + 1)) (hpos : t.srcPos = s.srcPos + 1#64)
    (hlen : t.srcLen = s.srcLen) : t.bytesLeft k := by
  have hlt := s.srcLen.isLt
  have hadd : (s.srcPos + 1#64).toNat = s.srcPos.toNat + 1 := dstLen_add (by omega)
  rw [State.bytesLeft, hpos, hlen, hadd]
  omega

theorem compressHuf_eq_runSteps {p : Phase} {s : State} (h : At .huf .compress p s) (hp : p = .idle ∨ p = .done) :
    runBody compressHuf s = runSteps [.hufCount, .hufBuild, .hufCodes, .hufWrhdr, .hufEncode] s := by
  refine h.step (i := .hufCount) (q := .hCounted) (by rcases hp with rfl | rfl <;> decide) rfl rfl fun t _ ht => ?_
  refine ht.step (i := .hufBuild) (q := .hBuilt) (by decide) rfl rfl fun u _ hu => ?_
  refine hu.step (i := .hufCodes) (q := .hCoded) (by decide) rfl rfl fun v _ hv => ?_
  refine hv.step (i := .hufWrhdr) (q := .hHdrw) (by decide) rfl rfl fun w _ hw => ?_
  exact hw.last (i := .hufEncode) (by decide) rfl rfl

/-- With a session open COMPRESS and DECOMPRESS have a codec (R165, R166). -/
theorem mem_codecs_of_open {c : Codec} (h : c ≠ .closed) : c ∈ [Codec.huf, .art, .lzw] := by
  cases c with
  | closed => exact absurd rfl h
  | huf | art | lzw => decide

/-- A command that begins a call leaves the cursor at the start of SRC (R162). -/
theorem artInitBody_rewinds (s : State) :
    artInitBody.Leads (fun _ t => t.srcPos = 0#64 ∧ t.dstLen = 0#64) (fun _ _ => True) s := by
  unfold artInitBody
  rw [Act.leads_bind, Act.leads_write, Act.leads_bind, Act.leads_write, Act.leads_write]
  exact ⟨rfl, rfl⟩

theorem lzwInitBody_rewinds (s : State) :
    lzwInitBody.Leads (fun _ t => t.srcPos = 0#64) (fun _ _ => True) s := by
  unfold lzwInitBody
  rw [Act.leads_bind, Act.leads_write, Act.leads_bind, Act.leads_write, Act.leads_write]
  rfl

theorem artWrhdrBody_keepsReader : artWrhdrBody.KeepsReader :=
  .get fun _ => .bind (dstPut_keepsReader _ _) fun _ => .write fun _ => ⟨rfl, rfl, rfl, rfl⟩

theorem State.bytesLeft_of_start {s : State} (h : s.srcPos = 0#64) : s.bytesLeft s.srcLen.toNat := by
  rw [State.bytesLeft, h]
  exact Nat.zero_add _

theorem compressArt_eq_runSteps {p : Phase} {s : State} (h : At .art .compress p s) (hp : p = .idle ∨ p = .done) :
    runBody compressArt s
      = runSteps (.artInit :: .artWrhdr :: (List.replicate s.srcLen.toNat .artEncsym ++ [.artFlush])) s := by
  have hfits : StepsTo .artInit .art .compress p .aInit := by rcases hp with rfl | rfl <;> decide
  refine h.step (i := .artInit) hfits rfl rfl fun t et ht => ?_
  refine ht.step (i := .artWrhdr) (q := .aEnc) (by decide) rfl rfl fun u eu hu => ?_
  have hlen : u.srcLen = s.srcLen := (ht.srcLen_eq (by decide) eu).trans (h.srcLen_eq hfits.fits et)
  have hpos : u.srcPos = 0#64 := (artWrhdrBody_keepsReader.ok eu).pos.trans ((artInitBody_rewinds s).of_ok et).1
  rw [runBody_congr (Act.bind_of_ok (Act.state_apply u)), ← hlen]
  refine runBody_times_eq_runSteps (i := .artEncsym) (J := fun k v => At .art .compress .aEnc v ∧ v.bytesLeft k)
    (fun k v hv => ?_) (fun k v w hv ew => ?_) (fun v hv => ?_) ⟨hu, State.bytesLeft_of_start hpos⟩
  · obtain ⟨hv, hleft⟩ := hv
    exact hv.exec_eq (by decide) rfl hleft.cursorOk_bytesLeft
  · obtain ⟨hv, hleft⟩ := hv
    have hw := hv.next (q := .aEnc) (by decide) ew
    exact ⟨by rw [hw.phase]; decide, hw,
      hleft.next ((artEncsymBody_moves v).of_ok ew) (hv.srcLen_eq (by decide) ew)⟩
  · obtain ⟨hv, hleft⟩ := hv
    exact hv.last (i := .artFlush) (by decide) rfl hleft.cursorOk_atEnd

theorem compressLzw_eq_runSteps {p : Phase} {s : State} (h : At .lzw .compress p s) (hp : p = .idle ∨ p = .done) :
    runBody compressLzw s
      = runSteps (.lzwInit :: (List.replicate s.srcLen.toNat .lzwEncbyte
          ++ [.lzwEnceof, .lzwWidth, .lzwWrhdr, .lzwEmit])) s := by
  have hfits : StepsTo .lzwInit .lzw .compress p .lInit := by rcases hp with rfl | rfl <;> decide
  refine h.step (i := .lzwInit) hfits rfl rfl fun t et ht => ?_
  have hlen : t.srcLen = s.srcLen := h.srcLen_eq hfits.fits et
  have hpos : t.srcPos = 0#64 := (lzwInitBody_rewinds s).of_ok et
  rw [runBody_congr (Act.bind_of_ok (Act.state_apply t)), ← hlen]
  refine runBody_times_eq_runSteps (i := .lzwEncbyte)
    (J := fun k v => (∃ q, (q = .lInit ∨ q = .lScan) ∧ At .lzw .compress q v) ∧ v.bytesLeft k)
    (fun k v hv => ?_) (fun k v w hv ew => ?_) (fun v hv => ?_)
    ⟨⟨_, .inl rfl, ht⟩, State.bytesLeft_of_start hpos⟩
  · obtain ⟨⟨q, hq, hv⟩, hleft⟩ := hv
    exact hv.exec_eq (by rcases hq with rfl | rfl <;> decide) rfl hleft.cursorOk_bytesLeft
  · obtain ⟨⟨q, hq, hv⟩, hleft⟩ := hv
    have hto : StepsTo .lzwEncbyte .lzw .compress q .lScan := by rcases hq with rfl | rfl <;> decide
    have hw := hv.next hto ew
    exact ⟨by rw [hw.phase]; decide, ⟨_, .inr rfl, hw⟩,
      hleft.next ((lzwEncbyteBody_moves v).of_ok ew) (hv.srcLen_eq hto.fits ew)⟩
  · obtain ⟨⟨q, hq, hv⟩, hleft⟩ := hv
    have hto : StepsTo .lzwEnceof .lzw .compress q .lScanned := by rcases hq with rfl | rfl <;> decide
    refine hv.step (i := .lzwEnceof) hto rfl hleft.cursorOk_atEnd fun w _ hw => ?_
    refine hw.step (i := .lzwWidth) (q := .lWidth) (by decide) rfl rfl fun x _ hx => ?_
    refine hx.step (i := .lzwWrhdr) (q := .lHdrw) (by decide) rfl rfl fun y _ hy => ?_
    exact hy.last (i := .lzwEmit) (by decide) rfl rfl

/-- COMPRESS is its expansion, in every session. -/
theorem compressOf_eq_runSteps {c : Codec} {p : Phase} {s : State} (hc : c ≠ .closed) (h : At c .compress p s)
    (hp : p = .idle ∨ p = .done) : runBody (compressOf c) s = runSteps (compressSteps c s.srcLen.toNat) s := by
  cases c with
  | closed => exact absurd rfl hc
  | huf => exact compressHuf_eq_runSteps h hp
  | art => exact compressArt_eq_runSteps h hp
  | lzw => exact compressLzw_eq_runSteps h hp

/-- Settles O27: each step of the expansion is accepted in the state the one before left, and its command does what
its pseudocode does inside COMPRESS. -/
theorem compressIsItsSteps : Obligations.CompressIsItsSteps := by
  unfold Obligations.CompressIsItsSteps
  intro s hopen hmode hphase
  have hat : At s.codec .compress s.phase s := ⟨rfl, hmode, rfl⟩
  have hfits : Fits .compress s.codec .compress s.phase := by
    rcases hphase with e | e <;> rw [e] <;> exact ⟨mem_codecs_of_open hopen, by decide⟩
  calc exec .compress s
      = runBody (compressOf s.codec) s :=
        (hat.exec_eq hfits rfl rfl).trans (runBody_congr (compressBody_apply s))
    _ = runSteps (compressSteps s.codec s.srcLen.toNat) s := compressOf_eq_runSteps hopen hat hphase

end Sys2Proof.Machine
end

section
/-! DECOMPRESS repeats its last step until the call ends (spec/30_encoding.md rule R108, spec/41_session.md rule
R166): each repetition takes bits or makes a byte, so the repetition ends before its bound
(spec/70_reset_and_hazards.md rule R361). -/

namespace Sys2Proof.Machine

/-! ### Repeating a step -/

section repetition
variable {m : Act Unit} {go : State → Bool} {n : Nat} {s : State}

theorem Act.while_stop (h : go s = false) : Act.while go m n s = .ok () s := by
  cases n with
  | zero =>
    show (if go s then Act.unspec .macroUnbounded else pure ()) s = _
    rw [h]
    rfl
  | succ n =>
    show (if go s then m >>= fun _ => Act.while go m n else pure ()) s = _
    rw [h]
    rfl

theorem Act.while_go (h : go s = true) :
    Act.while go m (n + 1) s = (m >>= fun _ => Act.while go m n) s := by
  show (if go s then m >>= fun _ => Act.while go m n else pure ()) s = _
  rw [h]
  rfl

/-- A step repeated in its phase, which every repetition leaves for DONE or stays in with `I` kept and less of `μ`:
the repetition is that command some number of times, and its bound is not met. -/
theorem exists_runBody_while {i : Instr} {p : Phase} {I : State → Prop} {μ : State → Nat}
    (hp : p ≠ .done ∧ p ≠ .fault) (hrun : ∀ s, s.phase = p → I s → exec i s = runBody (bodyOf i) s)
    (hstep : ∀ s t, s.phase = p → I s → bodyOf i s = .ok () t →
      t.phase = .done ∨ t.phase = p ∧ I t ∧ μ t < μ s)
    {b : Nat} (hs : s.phase = .done ∨ s.phase = p ∧ I s ∧ μ s < b) :
    ∃ n, runBody (Act.while (fun s => s.phase == p) (bodyOf i) b) s = runSteps (List.replicate n i) s := by
  have stopped {b : Nat} {s : State} (hdone : s.phase = .done) :
      ∃ n, runBody (Act.while (fun s => s.phase == p) (bodyOf i) b) s = runSteps (List.replicate n i) s :=
    ⟨0, runBody_of_ok (Act.while_stop (by simpa [hdone] using hp.1.symm))⟩
  induction b generalizing s with
  | zero =>
    rcases hs with hdone | ⟨-, -, hlt⟩
    · exact stopped hdone
    · exact absurd hlt (Nat.not_lt_zero _)
  | succ b ih =>
    rcases hs with hdone | ⟨hphase, hI, hlt⟩
    · exact stopped hdone
    · rw [runBody_congr (Act.while_go (by simpa using hphase))]
      have hnext := exists_runBody_bind_eq_runSteps (steps := fun n => List.replicate n i)
        (f := fun _ => Act.while (fun s => s.phase == p) (bodyOf i) b) (hrun s hphase hI) fun t e => ?_
      · obtain ⟨n, hn⟩ := hnext
        exact ⟨n + 1, hn⟩
      · rcases hstep s t hphase hI e with hdone | ⟨ht, hIt, hless⟩
        · exact ⟨by rw [hdone]; decide, ih (.inl hdone)⟩
        · exact ⟨ht ▸ hp.2, ih (.inr ⟨ht, hIt, by omega⟩)⟩

end repetition

/-- A step of a loop that goes to its end stays in its phase of the session or ends the call. -/
theorem At.loop {c : Codec} {d : Mode} {p : Phase} {i : Instr} {s t : State} (h : At c d p s) (hfit : Fits i c d p)
    (hq : phasesAfter i p = [p, .done]) (e : bodyOf i s = .ok () t) : t.phase = .done ∨ At c d p t := by
  have ha := h.accepted hfit
  have hphase := ha.phase_after e
  obtain ⟨hcodec, hmode, -⟩ := ha.session_eq e
  rw [h.phase, hq, List.mem_pair] at hphase
  by_cases hdone : t.phase = .done
  · exact .inl hdone
  · exact .inr ⟨hcodec.trans h.codec, (hmode hdone).trans h.mode, hphase.resolve_right hdone⟩

/-! ### What a repetition takes and makes -/

theorem srcNext_consumes (n : Nat) (s : State) :
    (srcNext n).Leads (fun _ t => t = consumed s t) (fun _ _ => True) s := by
  unfold Act.Leads
  rw [srcNext_apply]
  by_cases hlen : s.srcLen.toNat < s.srcPos.toNat + n
  · rw [if_pos hlen]
    trivial
  · rw [if_neg hlen]
    cases memRead s.src s.srcPos.toNat n with
    | none => trivial
    | some v => rfl

theorem dstPut_appends (n v : Nat) (s : State) :
    (dstPut n v).Leads (fun _ t => t.dstLen.toNat = s.dstLen.toNat + n ∧ t = written s t) (fun _ _ => True) s := by
  unfold Act.Leads
  rw [dstPut_apply]
  by_cases hfits : s.cfg.dstFits s.dstLen.toNat n
  · rw [if_pos hfits]
    by_cases h64 : s.dstLen.toNat + n < 2 ^ 64
    · rw [if_pos h64]
      exact ⟨dstLen_add h64, rfl⟩
    · rw [if_neg h64]
      trivial
  · rw [if_neg hfits]
    trivial

/-- A bit taken is one bit less left (R142). -/
theorem bwsGetBit_takes (s : State) :
    bwsGetBit.Leads (fun _ t => bitsLeft t + 1 = bitsLeft s ∧ t = consumed s t) (fun _ _ => True) s := by
  unfold Act.Leads
  by_cases h0 : s.rcnt = 0#4
  · rw [bwsGetBit_fetch h0, srcByte_apply]
    by_cases hlen : s.srcLen.toNat < s.srcPos.toNat + 1
    · rw [if_pos hlen]
      trivial
    · rw [if_neg hlen]
      cases Memory.read s.src s.srcPos.toNat with
      | none => trivial
      | some b =>
        have hadd : (s.srcPos + 1#64).toNat = s.srcPos.toNat + 1 := dstLen_add (by have := s.srcLen.isLt; omega)
        refine ⟨?_, rfl⟩
        show 7 + 8 * (s.srcLen.toNat - (s.srcPos + 1#64).toNat) + 1 = bitsLeft s
        unfold bitsLeft
        rw [hadd, h0]
        show _ = 0 + 8 * (s.srcLen.toNat - s.srcPos.toNat)
        omega
  · rw [bwsGetBit_held h0]
    have hne : s.rcnt.toNat ≠ 0 := fun e => h0 (BitVec.eq_of_toNat_eq (by simpa using e))
    have hsub : (s.rcnt - 1#4).toNat = s.rcnt.toNat - 1 := by
      rw [BitVec.toNat_sub]
      simp
      omega
    refine ⟨?_, rfl⟩
    show (s.rcnt - 1#4).toNat + 8 * (s.srcLen.toNat - s.srcPos.toNat) + 1 = bitsLeft s
    unfold bitsLeft
    omega

theorem bwsGetBits_takes (w : Nat) (s : State) :
    (bwsGetBits w).Leads (fun _ t => bitsLeft t + w = bitsLeft s ∧ t = consumed s t) (fun _ _ => True) s := by
  induction w generalizing s with
  | zero => exact (Act.leads_pure _).2 ⟨rfl, rfl⟩
  | succ w ih =>
    show (bwsGetBit >>= fun b => bwsGetBits w >>= fun bs => pure (b :: bs)).Leads _ _ s
    rw [Act.leads_bind]
    refine (bwsGetBit_takes s).mono (fun b t ⟨hone, ht⟩ => ?_) fun _ _ _ => trivial
    rw [Act.leads_bind]
    refine (ih t).mono (fun bs u ⟨hrest, hu⟩ => ?_) fun _ _ _ => trivial
    exact (Act.leads_pure _).2 ⟨by omega, consumed_trans ht hu⟩

theorem bwsRead_takes (w : Nat) (s : State) :
    (bwsRead w).Leads (fun _ t => bitsLeft t + w = bitsLeft s ∧ t = consumed s t) (fun _ _ => True) s := by
  show (bwsGetBits w >>= fun bs => pure (BitVec.ofNat 32 (bitsValue bs))).Leads _ _ s
  rw [Act.leads_bind]
  exact (bwsGetBits_takes w s).mono (fun _ _ h => (Act.leads_pure _).2 h) fun _ _ _ => trivial

/-! ### The arithmetic decoder -/

/-- The bits left to take and the bytes left to make (R361). -/
def artWork (s : State) : Nat := bitsLeft s + (s.origSize.toNat - s.dstLen.toNat)

/-- DST holds no more than ORIG_SIZE bytes. -/
abbrev State.within (s : State) : Prop := s.dstLen.toNat ≤ s.origSize.toNat

/-- The unit's registers are no part of the work. -/
theorem work_setArt {t : State} {n : Nat} (u : ArtUnit) (h : t.within ∧ artWork t < n) :
    State.within { t with art := u } ∧ artWork { t with art := u } < n := h

/-- A byte made is one less to make. -/
theorem artEmit_advances (i : Byte) {s : State} (h : s.dstLen.toNat < s.origSize.toNat) :
    (artEmit i).Leads (fun _ t => t.within ∧ artWork t < artWork s) (fun _ _ => True) s := by
  unfold artEmit
  rw [Act.leads_bind, Act.leads_state]
  dsimp only
  split
  · exact (Act.leads_raise _).2 trivial
  · split
    · exact Act.leads_unspec _
    · rw [Act.leads_bind]
      refine (dstPut_appends 1 _ s).mono (fun _ t ⟨hlen, ht⟩ => ?_) fun _ _ _ => trivial
      have hsize : t.origSize = s.origSize := by rw [ht]; rfl
      have hbits : bitsLeft t = bitsLeft s := by rw [ht]; rfl
      have hwork : t.within ∧ artWork t < artWork s := by
        unfold artWork State.within
        rw [hsize, hbits, hlen]
        omega
      split
      · exact Act.leads_unspec _
      · split
        · exact Act.leads_unspec _
        · exact (Act.leads_write _).2 (work_setArt _ hwork)

/-- A step of the arithmetic decoder ends the call, makes a byte or takes a bit (R229, R361). -/
theorem artDecstepBody_advances {s : State} (h : s.within) :
    artDecstepBody.Leads (fun _ t => t.phase = .done ∨ t.within ∧ artWork t < artWork s) (fun _ _ => True) s := by
  unfold artDecstepBody
  rw [Act.leads_bind, Act.leads_state]
  split
  · exact (Act.leads_write _).2 (.inl rfl)
  · rename_i hne
    have hlt : s.dstLen.toNat < s.origSize.toNat := lt_of_le_of_ne h fun e => hne (BitVec.eq_of_toNat_eq e)
    split
    · exact Act.leads_unspec _
    · split
      · exact (artEmit_advances _ hlt).mono (fun _ _ ht => .inr ht) fun _ _ _ => trivial
      · split
        · rw [Act.leads_bind]
          refine (bwsGetBit_takes s).mono (fun _ t ⟨hbits, ht⟩ => ?_) fun _ _ _ => trivial
          have hlen : t.dstLen = s.dstLen := by rw [ht]; rfl
          have hsize : t.origSize = s.origSize := by rw [ht]; rfl
          refine (Act.leads_write _).2 (.inr (work_setArt _ ?_))
          unfold artWork State.within
          rw [hlen, hsize]
          omega
        · exact (Act.leads_write _).2 (.inl rfl)

/-- The header moves no byte of DST. -/
theorem artRdhdrBody_dstLen (s : State) :
    artRdhdrBody.Leads (fun _ t => t.dstLen = s.dstLen) (fun _ _ => True) s := by
  unfold artRdhdrBody
  rw [Act.leads_bind]
  refine (srcNext_consumes 8 s).mono (fun _ t ht => ?_) fun _ _ _ => trivial
  rw [Act.leads_bind, Act.leads_write, Act.leads_bind, Act.leads_write, Act.leads_bind, Act.leads_write,
    Act.leads_write]
  show t.dstLen = s.dstLen
  rw [ht]
  rfl

/-! ### The LZW decoder -/

/-- A step of the LZW decoder ends the call or takes the bits of a codeword (R166, R279). -/
theorem lzwDeccodeBody_advances {s : State} (h : legalWidth s.lzw.width) :
    lzwDeccodeBody.Leads (fun _ t => t.phase = .done ∨ legalWidth t.lzw.width ∧ bitsLeft t < bitsLeft s)
      (fun _ _ => True) s := by
  have hpos : ∀ w ∈ Config.lzwWidths, 0 < w := by decide
  have hw := hpos _ h
  unfold lzwDeccodeBody
  rw [Act.leads_bind, Act.leads_state]
  split
  · exact (Act.leads_write _).2 (.inl rfl)
  · rw [Act.leads_bind]
    refine (bwsRead_takes _ s).mono (fun c t ⟨hbits, ht⟩ => ?_) fun _ _ _ => trivial
    have hwidth : t.lzw.width = s.lzw.width := by rw [ht]; rfl
    split
    · exact Act.leads_unspec _
    · refine ((lzwEmitPhrase_keepsReader _).leads t).mono (fun _ u hu => .inr ⟨?_, ?_⟩) fun _ _ _ => trivial
      · rwa [hu.width, hwidth]
      · rw [hu.bitsLeft]
        omega

/-- The header gives a legal width (R278). -/
theorem lzwRdhdrBody_legalWidth : Act.Ends (fun t => legalWidth t.lzw.width) lzwRdhdrBody := by
  refine .bind fun _ => .bind fun _ => .bind fun w => ?_
  split
  · rename_i hw
    have hsmall : ∀ w ∈ Config.lzwWidths, w < 2 ^ 6 := by decide
    refine ⟨fun s _ t e => ?_⟩
    injection e with _ e
    rw [← e]
    show (BitVec.ofNat 6 w).toNat ∈ Config.lzwWidths
    rwa [BitVec.toNat_ofNat, Nat.mod_eq_of_lt (hsmall w hw)]
  · exact .unspec _

/-! ### The expansions -/

section expansions
variable {p : Phase} {s : State}

theorem decompressHuf_eq_runSteps (h : At .huf .decompress p s) (hp : p = .idle ∨ p = .done) :
    runBody decompressHuf s = runSteps [.hufRdhdr, .hufBuild, .hufDecode] s := by
  refine h.step (i := .hufRdhdr) (q := .hHdrr) (by rcases hp with rfl | rfl <;> decide) rfl rfl fun t _ ht => ?_
  refine ht.step (i := .hufBuild) (q := .hRebuilt) (by decide) rfl rfl fun u _ hu => ?_
  exact hu.last (i := .hufDecode) (by decide) rfl rfl

theorem decompressArt_eq_runSteps (h : At .art .decompress p s) (hp : p = .idle ∨ p = .done) :
    ∃ n, runBody decompressArt s = runSteps (.artInit :: .artRdhdr :: List.replicate n .artDecstep) s := by
  refine h.exists_step (i := .artInit) (q := .aInit) (by rcases hp with rfl | rfl <;> decide) rfl rfl
    (steps := fun n => .artRdhdr :: List.replicate n .artDecstep) fun t et ht => ?_
  refine ht.exists_step (i := .artRdhdr) (q := .aDec) (by decide) rfl rfl
    (steps := fun n => List.replicate n .artDecstep) fun u eu hu => ?_
  have hlen : u.dstLen = 0#64 := ((artRdhdrBody_dstLen t).of_ok eu).trans ((artInitBody_rewinds s).of_ok et).2
  have hwithin : u.within := by
    rw [State.within, hlen]
    exact Nat.zero_le _
  rw [runBody_congr (Act.bind_of_ok (Act.state_apply u))]
  refine exists_runBody_while (i := .artDecstep) (μ := artWork)
    (I := fun v => At .art .decompress .aDec v ∧ v.within) (by decide) (fun v _ hv => ?_) (fun v w _ hv ew => ?_)
    (.inr ⟨hu.phase, ⟨hu, hwithin⟩, Nat.lt_succ_self _⟩)
  · exact hv.1.exec_eq (by decide) rfl rfl
  · obtain ⟨hv, hwithin⟩ := hv
    rcases (artDecstepBody_advances hwithin).of_ok ew with hdone | ⟨hw, hless⟩
    · exact .inl hdone
    · exact (hv.loop (i := .artDecstep) (by decide) rfl ew).imp_right fun hat => ⟨hat.phase, ⟨hat, hw⟩, hless⟩

theorem decompressLzw_eq_runSteps (h : At .lzw .decompress p s) (hp : p = .idle ∨ p = .done) :
    ∃ n, runBody decompressLzw s = runSteps (.lzwInit :: .lzwRdhdr :: List.replicate n .lzwDeccode) s := by
  refine h.exists_step (i := .lzwInit) (q := .lInit) (by rcases hp with rfl | rfl <;> decide) rfl rfl
    (steps := fun n => .lzwRdhdr :: List.replicate n .lzwDeccode) fun t _ ht => ?_
  refine ht.exists_step (i := .lzwRdhdr) (q := .lDec) (by decide) rfl rfl
    (steps := fun n => List.replicate n .lzwDeccode) fun u eu hu => ?_
  rw [runBody_congr (Act.bind_of_ok (Act.state_apply u))]
  refine exists_runBody_while (i := .lzwDeccode) (μ := bitsLeft)
    (I := fun v => At .lzw .decompress .lDec v ∧ legalWidth v.lzw.width) (by decide) (fun v _ hv => ?_)
    (fun v w _ hv ew => ?_)
    (.inr ⟨hu.phase, ⟨hu, lzwRdhdrBody_legalWidth.ok _ _ _ eu⟩, Nat.lt_succ_self _⟩)
  · exact hv.1.exec_eq (by decide) rfl rfl
  · obtain ⟨hv, hwidth⟩ := hv
    rcases (lzwDeccodeBody_advances hwidth).of_ok ew with hdone | ⟨hw, hless⟩
    · exact .inl hdone
    · exact (hv.loop (i := .lzwDeccode) (by decide) rfl ew).imp_right fun hat => ⟨hat.phase, ⟨hat, hw⟩, hless⟩

end expansions

end Sys2Proof.Machine
end

section
/-! DECOMPRESS never stops at the bound of its repetition (spec/41_session.md rule R166,
spec/70_reset_and_hazards.md rule R361), and so it is its expansion (R108, R167). -/

namespace Sys2Proof.Machine

/-! ### The pseudocodes stop at no bound -/

/-- The action never stops at the bound of a repetition. -/
structure Act.Bounded {α : Type} (m : Act α) : Prop where
  ne : ∀ s t, m s ≠ .error (.unspec .macroUnbounded) t

section bounded
variable {α β : Type}

theorem Act.Bounded.pure (a : α) : (pure a : Act α).Bounded := ⟨fun s t => by simp⟩

theorem Act.Bounded.write (f : State → State) : (Act.write f).Bounded := ⟨fun s t => by simp⟩

theorem Act.Bounded.raise (k : ErrKind) : (Act.raise k : Act α).Bounded := ⟨fun s t => by simp⟩

theorem Act.Bounded.broken (f : Fault) : (Act.broken f : Act α).Bounded := ⟨fun s t => by simp⟩

theorem Act.Bounded.unspec {r : Refusal} (h : r ≠ .macroUnbounded) : (Act.unspec r : Act α).Bounded :=
  ⟨fun s t => by simpa using fun e => absurd e h⟩

theorem Act.Bounded.bind {m : Act α} {f : α → Act β} (hm : m.Bounded) (hf : ∀ a, (f a).Bounded) :
    (m >>= f).Bounded :=
  ⟨fun s t e => by
    rcases Act.bind_error e with e | ⟨a, u, -, e⟩
    · exact hm.ne s t e
    · exact (hf a).ne u t e⟩

theorem Act.Bounded.get {f : State → Act α} (hf : ∀ s, (f s).Bounded) : (Act.state >>= f).Bounded :=
  .bind ⟨fun s t => by simp⟩ hf

theorem Act.Bounded.times {m : Act Unit} (hm : m.Bounded) (n : Nat) : (Act.times m n).Bounded := by
  induction n with
  | zero => exact .pure ()
  | succ n ih => exact .bind hm fun _ => ih

theorem srcNext_bounded (n : Nat) : (srcNext n).Bounded := by
  refine .get fun s => ?_
  split
  · exact .raise _
  · split
    · exact .broken _
    · exact .bind (.write _) fun _ => .pure _

theorem srcByte_bounded : srcByte.Bounded := .bind (srcNext_bounded 1) fun _ => .pure _

theorem dstPut_bounded (n v : Nat) : (dstPut n v).Bounded := by
  refine .get fun s => ?_
  split
  · split
    · exact .write _
    · exact .unspec (by decide)
  · exact .raise _

theorem bwsGetBit_bounded : bwsGetBit.Bounded := by
  refine .bind (.get fun s => ?_) fun _ => .get fun _ => .bind (.write _) fun _ => .pure _
  split
  · exact .bind srcByte_bounded fun _ => .write _
  · exact .pure ()

theorem bwsGetBits_bounded (n : Nat) : (bwsGetBits n).Bounded := by
  induction n with
  | zero => exact .pure _
  | succ n ih => exact .bind bwsGetBit_bounded fun _ => .bind ih fun _ => .pure _

theorem bwsRead_bounded (w : Nat) : (bwsRead w).Bounded := .bind (bwsGetBits_bounded w) fun _ => .pure _

theorem getLeaves_bounded (k n : Nat) : (getLeaves k n).Bounded := by
  induction n generalizing k with
  | zero => exact .pure ()
  | succ n ih =>
    exact .bind srcByte_bounded fun _ => .bind (srcNext_bounded 4) fun _ => .bind (.write _) fun _ => ih _

theorem hufRdhdrBody_bounded : hufRdhdrBody.Bounded := by
  refine .bind (.write _) fun _ => .bind (srcNext_bounded 8) fun _ => .bind (.write _) fun _ =>
    .bind (srcNext_bounded 4) fun n => ?_
  split
  · exact .unspec (by decide)
  · exact .bind (.write _) fun _ => .bind (getLeaves_bounded 0 n) fun _ => .bind (.write _) fun _ => .write _

/-- The tree builder stops only at a weight that leaves u32 (R183). -/
theorem mergeStep_error {ns : List Node} {q : List Nat} {r : Refusal} (h : mergeStep ns q = .error r) :
    r = .hufWeightOverflow := by
  unfold mergeStep at h
  split at h
  · cases h
  · split at h
    · cases h
    · dsimp only at h
      split at h <;> cases h
      rfl

theorem mergeAll_error {n : Nat} {ns : List Node} {q : List Nat} {r : Refusal} (h : mergeAll n ns q = .error r) :
    r = .hufWeightOverflow := by
  induction n generalizing ns q with
  | zero => cases h
  | succ n ih =>
    unfold mergeAll at h
    split at h
    · rename_i e
      cases h
      exact mergeStep_error e
    · cases h
    · exact ih h

theorem buildTree_error {ls : List Leaf} {r : Refusal} (h : buildTree ls = .error r) : r = .hufWeightOverflow := by
  unfold buildTree at h
  dsimp only at h
  split at h
  · rename_i e
    cases h
    exact mergeAll_error e
  · cases h

theorem hufBuildBody_bounded : hufBuildBody.Bounded := by
  refine .get fun s => ?_
  split
  · rename_i e
    rw [buildTree_error e]
    exact .unspec (by decide)
  · exact .bind (.write _) fun _ => .write _

theorem walkLeaf_bounded (ns : List Node) (d i : Nat) : (walkLeaf ns d i).Bounded := by
  induction d generalizing i with
  | zero =>
    unfold walkLeaf
    split
    · exact .unspec (by decide)
    · split
      · exact .pure _
      · exact .unspec (by decide)
  | succ d ih =>
    unfold walkLeaf
    split
    · exact .unspec (by decide)
    · split
      · exact .pure _
      · exact .bind bwsGetBit_bounded fun _ => ih _

theorem hufDecodeByte_bounded : hufDecodeByte.Bounded := by
  refine .get fun s => ?_
  split
  · exact .unspec (by decide)
  · refine .bind (walkLeaf_bounded _ _ _) fun n => ?_
    split
    · exact .unspec (by decide)
    · exact dstPut_bounded _ _

theorem hufDecodeBody_bounded : hufDecodeBody.Bounded :=
  .get fun _ => .bind (.times hufDecodeByte_bounded _) fun _ => .write _

theorem artInitBody_bounded : artInitBody.Bounded := .bind (.write _) fun _ => .bind (.write _) fun _ => .write _

theorem artRdhdrBody_bounded : artRdhdrBody.Bounded :=
  .bind (srcNext_bounded 8) fun _ => .bind (.write _) fun _ => .bind (.write _) fun _ => .bind (.write _) fun _ =>
    .write _

theorem artEmit_bounded (i : Byte) : (artEmit i).Bounded := by
  refine .get fun s => ?_
  dsimp only
  split
  · exact .raise _
  · split
    · exact .unspec (by decide)
    · refine .bind (dstPut_bounded _ _) fun _ => ?_
      split
      · exact .unspec (by decide)
      · split
        · exact .unspec (by decide)
        · exact .write _

theorem artDecstepBody_bounded : artDecstepBody.Bounded := by
  refine .get fun s => ?_
  split
  · exact .write _
  · split
    · exact .unspec (by decide)
    · split
      · exact artEmit_bounded _
      · split
        · exact .bind bwsGetBit_bounded fun _ => .write _
        · exact .write _

theorem lzwInitBody_bounded : lzwInitBody.Bounded := .bind (.write _) fun _ => .bind (.write _) fun _ => .write _

theorem lzwRdhdrBody_bounded : lzwRdhdrBody.Bounded := by
  refine .bind (srcNext_bounded 8) fun _ => .bind (.write _) fun _ => .bind (srcNext_bounded 4) fun w => ?_
  split
  · exact .bind (.write _) fun _ => .bind (.write _) fun _ => .write _
  · exact .unspec (by decide)

theorem dictAdd_bounded (p : List Byte) : (dictAdd p).Bounded := by
  refine .get fun s => ?_
  split
  · exact .write _
  · exact .unspec (by decide)

theorem putPhrase_bounded (p : List Byte) : (putPhrase p).Bounded := by
  induction p with
  | nil => exact .pure ()
  | cons x xs ih => exact .bind (dstPut_bounded _ _) fun _ => ih

theorem decodeInsert_bounded (x : Byte) : (decodeInsert x).Bounded := by
  refine .get fun s => ?_
  split
  · exact dictAdd_bounded _
  · exact .pure ()

theorem lzwEmitPhrase_bounded (p : List Byte) : (lzwEmitPhrase p).Bounded := by
  refine .get fun s => ?_
  split
  · exact .unspec (by decide)
  · split
    · exact .unspec (by decide)
    · refine .bind (putPhrase_bounded _) fun _ => .bind (decodeInsert_bounded _) fun _ =>
        .bind (.write _) fun _ => .get fun t => ?_
      split
      · exact .write _
      · exact .pure ()

/-- A codeword has a phrase, or is undefined, or rests on an empty phrase (R279). -/
theorem decodePhrase_error {u : LzwUnit} {c : Nat} {r : Refusal} (h : decodePhrase u c = .error r) :
    r = .lzwCodeUndefined ∨ r = .lzwPhraseEmpty := by
  unfold decodePhrase at h
  split at h
  · split at h <;> cases h
    exact .inl rfl
  · split at h
    · split at h <;> cases h
      exact .inr rfl
    · cases h
      exact .inl rfl

theorem lzwDeccodeBody_bounded : lzwDeccodeBody.Bounded := by
  refine .get fun s => ?_
  split
  · exact .write _
  · refine .bind (bwsRead_bounded _) fun c => ?_
    split
    · rename_i e
      exact .unspec (by rcases decodePhrase_error e with rfl | rfl <;> decide)
    · exact lzwEmitPhrase_bounded _

/-! ### The commands -/

/-- A command whose pseudocode is bounded does not stop at a bound. -/
theorem Act.Bounded.accept_ne {m : Act Unit} (h : m.Bounded) (g : Guard) (s : State) :
    accept g m s ≠ .refused .macroUnbounded := by
  intro e
  rcases accept_cases g m s with ⟨e', -⟩ | ⟨e', -⟩ | ⟨e', -⟩ <;> rw [e'] at e
  · cases e
  · cases e
  · unfold runBody at e
    split at e
    · cases e
    · cases e
    · rename_i r t er
      injection e with e
      exact h.ne s t (e ▸ er)
    · cases e

/-- The steps of DECOMPRESS's expansions do not stop at a bound. -/
theorem decompressSteps_exec_ne (c : Codec) (n : Nat) :
    ∀ i ∈ decompressSteps c n, ∀ s, exec i s ≠ .refused .macroUnbounded := by
  intro i hi s
  cases c with
  | closed => cases hi
  | huf =>
    rcases List.mem_cons.1 hi with rfl | hi
    · exact hufRdhdrBody_bounded.accept_ne guardHufRdhdr s
    rcases List.mem_pair.1 hi with rfl | rfl
    · exact hufBuildBody_bounded.accept_ne guardHufBuild s
    · exact hufDecodeBody_bounded.accept_ne guardHufDecode s
  | art =>
    rcases List.mem_cons.1 hi with rfl | hi
    · exact artInitBody_bounded.accept_ne guardArtInit s
    rcases List.mem_cons.1 hi with rfl | hi
    · exact artRdhdrBody_bounded.accept_ne guardArtRdhdr s
    · rw [List.eq_of_mem_replicate hi]
      exact artDecstepBody_bounded.accept_ne guardArtDecstep s
  | lzw =>
    rcases List.mem_cons.1 hi with rfl | hi
    · exact lzwInitBody_bounded.accept_ne guardLzwInit s
    rcases List.mem_cons.1 hi with rfl | hi
    · exact lzwRdhdrBody_bounded.accept_ne guardLzwRdhdr s
    · rw [List.eq_of_mem_replicate hi]
      exact lzwDeccodeBody_bounded.accept_ne guardLzwDeccode s

/-- A run stops only where a command of it does. -/
theorem runSteps_ne_refused {r : Refusal} {is : List Instr} (h : ∀ i ∈ is, ∀ s, exec i s ≠ .refused r)
    (s : State) : runSteps is s ≠ .refused r := by
  induction is generalizing s with
  | nil => exact nofun
  | cons i is ih =>
    have hi := h i (List.mem_cons_self ..) s
    unfold runSteps
    split
    · split
      · exact nofun
      · exact ih (fun j hj => h j (List.mem_cons_of_mem i hj)) _
    · exact nofun
    · rename_i e
      rwa [e] at hi

end bounded

/-- DECOMPRESS is its expansion, in every session. -/
theorem decompressOf_eq_runSteps {c : Codec} {p : Phase} {s : State} (hc : c ≠ .closed)
    (h : At c .decompress p s) (hp : p = .idle ∨ p = .done) :
    ∃ n, runBody (decompressOf c) s = runSteps (decompressSteps c n) s := by
  cases c with
  | closed => exact absurd rfl hc
  | huf => exact ⟨0, decompressHuf_eq_runSteps h hp⟩
  | art => exact decompressArt_eq_runSteps h hp
  | lzw => exact decompressLzw_eq_runSteps h hp

/-- Settles O28: every repetition of the last step takes bits or makes a byte, so it is the step command some
number of times; at its end the call is DONE, and no step stops at a bound. -/
theorem decompressIsItsSteps : Obligations.DecompressIsItsSteps := by
  unfold Obligations.DecompressIsItsSteps
  intro s hopen hmode hphase
  have hcodec : s.codec ∈ codecsFor .decompress := mem_codecs_of_open hopen
  have hat : At s.codec .decompress s.phase s := ⟨rfl, hmode, rfl⟩
  have hfits : Fits .decompress s.codec .decompress s.phase := by
    rcases hphase with e | e <;> rw [e] <;> exact ⟨hcodec, by decide⟩
  have hbody : exec .decompress s = runBody (decompressOf s.codec) s :=
    (hat.exec_eq hfits rfl rfl).trans (runBody_congr (decompressBody_apply s))
  obtain ⟨n, hn⟩ := decompressOf_eq_runSteps hopen hat hphase
  rw [hbody]
  refine ⟨⟨n, hn⟩, fun t ht => ?_, ?_⟩
  · rcases runBody_next ht with e | ⟨k, u, -, rfl⟩
    · exact .inl ((decompressOf_ends hcodec).ok _ _ _ e)
    · exact .inr rfl
  · rw [hn]
    exact runSteps_ne_refused (decompressSteps_exec_ne _ n) s

end Sys2Proof.Machine
end

section
/-! The packer's commands as a stream of bits (spec/40_bitwordstream.md): BWS.RESET starts it, BWS.WRITE and
BWS.FINISH append to it, BWS.READ takes from it, and what was written is read back (R140 to R147). -/

namespace Sys2Proof.Machine

/-! ### BWS.RESET -/

/-- Outside IDLE and DONE the packer's commands are refused, at every CODEC and MODE (R144 to R147, R316). -/
theorem accept_guardBws_refused {m : Act Unit} {s : State} (h : ¬s.between) :
    accept guardBws m s = .next s.refuse := by
  have hphase : phaseOk guardBws s = false := by
    simpa [phaseOk, guardBws, cursorOk] using h
  rcases accept_cases guardBws m s with ⟨e, -⟩ | ⟨-, hg, -⟩ | ⟨-, hg, -⟩
  · exact e
  · simp [hphase] at hg
  · simp [hphase] at hg

/-- Settles O18: the guard asks for PHASE alone, and the pseudocode is one write of the stream's registers. -/
theorem bwsResetClears : Obligations.BwsResetClears := by
  unfold Obligations.BwsResetClears
  exact ⟨by decide, fun s => ⟨accept_guardBws, accept_guardBws_refused⟩⟩

/-! ### BWS.WRITE and BWS.FINISH -/

theorem length_codeBits (code : U32) (w : Nat) : (codeBits code w).length = w := by
  rw [codeBits, List.length_map, List.length_range]

/-- Settles O19: the pseudocode is a run of bits with room for the bytes it completes. -/
theorem bwsWriteAppends : Obligations.BwsWriteAppends := by
  unfold Obligations.BwsWriteAppends
  intro imm a s ha hs hw hr
  obtain ⟨t, e, happ, ht, -⟩ :=
    bwsPutBits_ok (bs := codeBits imm a.toNat) hw (by rwa [length_codeBits])
  exact ⟨t, (exec_bwsWrite imm ha hs).trans (runBody_of_ok e), happ, ht⟩

/-- Settles O20: with no bit pending there is no byte to append; seven bits at most are pending, and their byte has
room. -/
theorem bwsFinishPads : Obligations.BwsFinishPads := by
  unfold Obligations.BwsFinishPads
  intro s hs hw
  refine ⟨fun h0 => ?_, fun _ hr => ?_⟩
  · rw [exec_bwsFinish hs]
    exact runBody_of_ok (by rw [bwsFinish_apply, if_pos h0])
  · obtain ⟨t, e, hfin, ht⟩ := bwsFinish_ok hw (State.room_mono hr (by have := hw.1; omega))
    exact ⟨t, (exec_bwsFinish hs).trans (runBody_of_ok e), hfin, ht⟩

/-! ### The number bits stand for -/

theorem testBit_bitsValue (bs : List Bool) (n : Nat) : (bitsValue bs).testBit n = bs.getD n false := by
  induction bs generalizing n with
  | nil => simp [bitsValue]
  | cons b bs ih =>
    have hbit : bitsValue (b :: bs) = Nat.bit b (bitsValue bs) := by
      cases b <;> simp [bitsValue, Nat.bit, Nat.add_comm]
    rw [hbit]
    cases n with
    | zero => simp
    | succ n => rw [Nat.testBit_bit_succ, ih, List.getD_cons_succ]

theorem bitsValue_lt (bs : List Bool) : bitsValue bs < 2 ^ bs.length := by
  refine Nat.lt_pow_two_of_testBit _ fun n hn => ?_
  rw [testBit_bitsValue, List.getD_eq_default _ _ hn]

/-- The bits of a code, read back as a number: the code truncated to its width (R140, R142). -/
theorem bitsValue_codeBits (code : U32) (w : Nat) : bitsValue (codeBits code w) = code.toNat % 2 ^ w := by
  refine Nat.eq_of_testBit_eq fun n => ?_
  rw [testBit_bitsValue, Nat.testBit_mod_two_pow]
  by_cases hn : n < w
  · rw [List.getD_eq_getElem _ _ (by rwa [length_codeBits])]
    simp [codeBits, hn, BitVec.getLsbD]
  · rw [List.getD_eq_default _ _ (by rw [length_codeBits]; omega)]
    simp [hn]

/-! ### BWS.READ -/

theorem width_le_of_mem {w : Nat} (h : w ∈ Config.bwsWidths) : w ≤ 32 := by
  simp only [Config.bwsWidths, List.mem_cons, List.not_mem_nil, or_false] at h
  omega

/-- The codeword at the cursor has `w` bits. -/
theorem State.codewordAt_lt (s : State) (w : Nat) : s.codewordAt w < 2 ^ w := by
  have h := bitsValue_lt ((List.range w).map fun n => (s.srcBit n).getD false)
  rwa [List.length_map, List.length_range] at h

/-- BWS.READ with its bits there: RESULT is the codeword at the cursor (R142, R147). -/
theorem exec_bwsRead_ok {a : BitVec 8} {s : State} (ha : a.toNat ∈ Config.bwsWidths) (hs : s.between)
    (hbits : ∀ n, n < a.toNat → (s.srcBit n).isSome = true) :
    ∃ t, exec (.bwsRead a) s = .next t ∧ t.result = BitVec.ofNat 64 (s.codewordAt a.toNat)
      ∧ BitsConsumed s t a.toNat ∧ t = { consumed s t with result := t.result } := by
  obtain ⟨t, e, hc, ht⟩ := bwsRead_ok hbits
  have hlt : s.codewordAt a.toNat < 2 ^ 32 :=
    (s.codewordAt_lt a.toNat).trans_le (Nat.pow_le_pow_right (by omega) (width_le_of_mem ha))
  refine ⟨{ t with result := BitVec.ofNat 64 (s.codewordAt a.toNat) }, ?_, rfl,
    ⟨hc.fetched, hc.held, hc.rest⟩, ?_⟩
  · rw [exec_bwsRead ha hs]
    refine runBody_of_ok ((Act.bind_of_ok e).trans ?_)
    rw [Act.write_apply, BitVec.setWidth_ofNat_of_le_of_lt (by decide) hlt]
  · exact congrArg (fun u : State => { u with result := BitVec.ofNat 64 (s.codewordAt a.toNat) }) ht

/-- Settles O21: bit `n` of the codeword at the cursor is stream bit `n`, and it has none from the width on. -/
theorem bwsReadTakes : Obligations.BwsReadTakes := by
  unfold Obligations.BwsReadTakes
  intro a s ha hs hbits
  obtain ⟨t, e, hres, hc, ht⟩ := exec_bwsRead_ok ha hs hbits
  refine ⟨t, e, fun n => ?_, hc, ht⟩
  have hwidth := width_le_of_mem ha
  rw [hres, BitVec.getLsbD_ofNat, State.codewordAt, testBit_bitsValue]
  by_cases hn : n < a.toNat
  · have h64 : n < 64 := by omega
    simp [hn, h64]
  · simp [hn]

end Sys2Proof.Machine
end

section
/-! Reading undoes writing (spec/40_bitwordstream.md rule R142): the bits of a list of codes, as BWS.WRITE and
BWS.FINISH leave them in DST and as BWS.READ finds them in SRC. -/

namespace Sys2Proof.Machine

/-- The stream bits of a list of codes and widths, first first (R75, R140). -/
def itemBits (items : List (BitVec 32 × BitVec 8)) : List Bool :=
  items.flatMap fun x => codeBits x.1 x.2.toNat

/-! ### Writing -/

theorem room_of_dstPut {n v : Nat} {s t : State} (e : dstPut n v s = .ok () t) : s.room n := by
  rw [dstPut_apply] at e
  split at e
  · rename_i hfits
    split at e
    · rename_i h64
      exact ⟨hfits, h64⟩
    · cases e
  · cases e

/-- The bits were appended, the write side and DST alone changed, and both stand ready for more. -/
structure Packed (s t : State) (bs : List Bool) : Prop where
  appended : BitsAppended s t bs
  frame : t = written s t
  sound : t.writerOk
  room : t.room 0

theorem Packed.nil {s : State} (h : s.writerOk) (hr : s.room 0) : Packed s s [] :=
  ⟨BitsAppended.nil h, rfl, h, hr⟩

theorem Packed.trans {s t u : State} {xs ys : List Bool} (h : Packed s t xs) (k : Packed t u ys) :
    Packed s u (xs ++ ys) :=
  ⟨h.appended.trans k.appended, written_trans h.frame k.frame, k.sound, k.room⟩

/-- A bit that was put had room for the byte it completed. -/
theorem Packed.of_bwsPutBit {s t : State} {b : Bool} (h : s.writerOk) (hr : s.room 0)
    (e : bwsPutBit b s = .ok () t) : Packed s t [b] := by
  have hcnt := h.1
  have hroom : s.room ((s.wcnt.toNat + 1) / 8) := by
    by_cases h7 : s.wcnt.toNat = 7
    · have h8 : s.wcnt + 1#4 = 8#4 := BitVec.eq_of_toNat_eq (by rw [BitVec.toNat_add, h7]; rfl)
      rw [bwsPutBit_apply] at e
      dsimp only at e
      rw [if_pos h8] at e
      split at e
      · rename_i eput
        have hpushed : (s.pushBit b).room 1 := room_of_dstPut eput
        rwa [h7]
      · cases e
    · rwa [show (s.wcnt.toNat + 1) / 8 = 0 by omega]
  obtain ⟨u, eu, happ, hu, hw⟩ := bwsPutBit_ok b h hroom
  obtain rfl : u = t := by rw [eu] at e; injection e
  exact ⟨happ, hu, hw, State.room_after (m := (s.wcnt.toNat + 1) / 8) hroom (by rw [hu]; rfl) happ.len⟩

theorem Packed.of_bwsPutBits {s t : State} {bs : List Bool} (h : s.writerOk) (hr : s.room 0)
    (e : bwsPutBits bs s = .ok () t) : Packed s t bs := by
  induction bs generalizing s with
  | nil =>
    injection e with _ e
    exact e ▸ .nil h hr
  | cons b bs ih =>
    obtain ⟨_, u, ebit, ebits⟩ := Act.bind_ok e
    have hbit := Packed.of_bwsPutBit h hr ebit
    exact hbit.trans (ih hbit.sound hbit.room ebits)

/-- A stream that was closed had room for its last byte. -/
theorem bitsFinished_of_bwsFinish {s t : State} (h : s.writerOk) (hr : s.room 0)
    (e : bwsFinish s = .ok () t) : BitsFinished s t [] := by
  have hcnt := h.1
  have hroom : s.room ((s.wcnt.toNat + 7) / 8) := by
    rw [bwsFinish_apply] at e
    split at e
    · rename_i h0
      rwa [h0]
    · split at e
      · rename_i eput
        exact State.room_mono (room_of_dstPut eput) (by omega)
      · cases e
  obtain ⟨u, eu, hfin, -⟩ := bwsFinish_ok h hroom
  obtain rfl : u = t := by rw [eu] at e; injection e
  exact hfin

/-! ### A run that ends without fault -/

/-- A pseudocode that did not end in FAULT went to its end. -/
theorem ok_of_runBody {m : Act Unit} {s t : State} (h : runBody m s = .next t) (halive : t.phase ≠ .fault) :
    m s = .ok () t := by
  rcases runBody_next h with e | ⟨k, u, -, rfl⟩
  · exact e
  · exact absurd rfl halive

/-- A run that did not end in FAULT: nor did its first command, and the rest ran from where that ended. -/
theorem runSteps_cons_alive {i : Instr} {is : List Instr} {s t : State} (h : runSteps (i :: is) s = .next t)
    (halive : t.phase ≠ .fault) :
    ∃ u, exec i s = .next u ∧ u.phase ≠ .fault ∧ runSteps is u = .next t := by
  unfold runSteps at h
  split at h
  · rename_i u eu
    split at h
    · rename_i hfault
      injection h with h
      exact absurd (h ▸ hfault) halive
    · rename_i hu
      exact ⟨u, eu, hu, h⟩
  · cases h
  · cases h

/-- Codes written and the stream closed, without fault: their bits stand in DST, padded with zeros. -/
theorem bitsFinished_of_runSteps {items : List (BitVec 32 × BitVec 8)} {s t : State}
    (hwidths : ∀ x ∈ items, x.2.toNat ∈ Config.bwsWidths) (hs : s.between) (h : s.writerOk) (hr : s.room 0)
    (erun : runSteps (items.map (fun x => .bwsWrite x.1 x.2) ++ [.bwsFinish]) s = .next t)
    (halive : t.phase ≠ .fault) : BitsFinished s t (itemBits items) := by
  suffices hpacked : ∃ u, Packed s u (itemBits items) ∧ bwsFinish u = .ok () t by
    obtain ⟨u, hu, efin⟩ := hpacked
    exact hu.appended.finish (bitsFinished_of_bwsFinish hu.sound hu.room efin)
  induction items generalizing s with
  | nil =>
    rw [List.map_nil, List.nil_append, runSteps_singleton, exec_bwsFinish hs] at erun
    exact ⟨s, .nil h hr, ok_of_runBody erun halive⟩
  | cons x items ih =>
    obtain ⟨hx, hitems⟩ := List.forall_mem_cons.1 hwidths
    obtain ⟨u, ewrite, hu, erest⟩ := runSteps_cons_alive erun halive
    rw [exec_bwsWrite x.1 hx hs] at ewrite
    have hbits := Packed.of_bwsPutBits h hr (ok_of_runBody ewrite hu)
    have hbetween : u.between := by rwa [hbits.frame]
    obtain ⟨v, hv, efin⟩ := ih hitems hbetween hbits.sound hbits.room erest
    exact ⟨v, hbits.trans hv, efin⟩

/-! ### From DST to SRC -/

/-- The bytes of a block that was read. -/
theorem Memory.read_of_readBytes {m : Memory} {a n : Nat} {bs : List Byte}
    (h : Memory.readBytes m a n = some bs) {k : Nat} (hk : k < n) : Memory.read m (a + k) = bs[k]? := by
  induction n generalizing a bs k with
  | zero => omega
  | succ n ih =>
    unfold Memory.readBytes at h
    split at h
    · cases h
    · rename_i b hb
      split at h
      · cases h
      · rename_i cs hcs
        injection h with h
        subst h
        cases k with
        | zero => exact hb
        | succ k =>
          rw [← Nat.add_assoc, Nat.add_right_comm, List.getElem?_cons_succ]
          exact ih hcs (Nat.lt_of_succ_lt_succ hk)

/-- The stream that a finished writer left in DST from address 0, with the same bytes in SRC and the reader at its
start: the reader's next bits are the writer's. -/
theorem BitsFinished.nextBits {s t u : State} {bs : List Bool} (h : BitsFinished s t bs)
    (hcnt : s.wcnt = 0#4) (hdst : s.dstLen = 0#64) (hpos : u.srcPos = 0#64) (hrcnt : u.rcnt = 0#4)
    (hlen : u.srcLen = t.dstLen)
    (hbytes : Memory.readBytes u.src 0 u.srcLen.toNat = Memory.readBytes t.dst 0 t.dstLen.toNat) :
    u.nextBits bs := by
  have hpending : s.pendingBits = [] := by simp [State.pendingBits, hcnt]
  have hbit := h.bytes
  have hlength := h.len
  rw [hpending, hcnt, hdst] at hbit
  rw [hcnt, hdst] at hlength
  simp only [BitVec.toNat_ofNat, Nat.zero_mod, Nat.zero_add, List.nil_append] at hbit hlength
  have hsome : (Memory.readBytes t.dst 0 t.dstLen.toNat).isSome = true := by
    refine (Memory.readBytes_isSome_iff ..).2 fun k hk => ?_
    have hfirst := hbit (8 * k) (by omega)
    rw [Nat.mul_div_cancel_left k (by omega)] at hfirst
    rw [Nat.zero_add, ← Option.isSome_map, hfirst]
    rfl
  obtain ⟨cs, hcs⟩ := Option.isSome_iff_exists.1 hsome
  rw [hcs, hlen] at hbytes
  intro n hn
  have hk : n / 8 < t.dstLen.toNat := by omega
  have hsame : Memory.read u.src (n / 8) = Memory.read t.dst (n / 8) := by
    have hsrc := Memory.read_of_readBytes hbytes hk
    rwa [← Memory.read_of_readBytes hcs hk, Nat.zero_add] at hsrc
  have hin := hbit n (by omega)
  rw [← hsame, List.getD_eq_getElem _ _ hn] at hin
  rw [List.getElem?_eq_getElem hn, ← hin]
  simp [State.srcBit, hpos, hrcnt, hlen, hk]

/-! ### Reading -/

/-- The first bits of the stream as a codeword. -/
theorem State.nextBits.codewordAt_eq {s : State} {xs ys : List Bool} (h : s.nextBits (xs ++ ys)) :
    s.codewordAt xs.length = bitsValue xs := by
  refine congrArg bitsValue (List.ext_getElem (by simp) fun n _ hn => ?_)
  have hbit := h n (by rw [List.length_append]; omega)
  rw [List.getElem?_append_left hn, List.getElem?_eq_getElem hn] at hbit
  simp [hbit]

/-- The stream after its first bits were taken. -/
theorem BitsConsumed.nextBits {s t : State} {xs ys : List Bool} (hc : BitsConsumed s t xs.length)
    (h : s.nextBits (xs ++ ys)) : t.nextBits ys := fun n hn => by
  rw [hc.rest, h _ (by rw [List.length_append]; omega), List.getElem?_append_right (Nat.le_add_right ..),
    Nat.add_sub_cancel_left]

/-- One code read from a stream that begins with its bits (R142, R147). -/
theorem exec_bwsRead_code {code : U32} {a : BitVec 8} {s : State} {rest : List Bool}
    (ha : a.toNat ∈ Config.bwsWidths) (hs : s.between) (h : s.nextBits (codeBits code a.toNat ++ rest)) :
    ∃ t, exec (.bwsRead a) s = .next t ∧ t.result = BitVec.ofNat 64 (code.toNat % 2 ^ a.toNat)
      ∧ t.between ∧ t.nextBits rest := by
  have hlen := length_codeBits code a.toNat
  have hbits : ∀ n, n < a.toNat → (s.srcBit n).isSome = true := fun n hn => by
    have hin : n < (codeBits code a.toNat ++ rest).length := by rw [List.length_append]; omega
    rw [h n hin, List.getElem?_eq_getElem hin]
    rfl
  obtain ⟨t, e, hres, hc, ht⟩ := exec_bwsRead_ok ha hs hbits
  refine ⟨t, e, ?_, by rwa [ht], BitsConsumed.nextBits (by rwa [hlen]) h⟩
  have hword := h.codewordAt_eq
  rw [hlen, bitsValue_codeBits] at hword
  rw [hres, hword]

/-- A list of codes read from a stream that begins with their bits. -/
theorem readItems_of_nextBits {items : List (BitVec 32 × BitVec 8)} {s : State}
    (hwidths : ∀ x ∈ items, x.2.toNat ∈ Config.bwsWidths) (hs : s.between)
    (h : s.nextBits (itemBits items)) :
    readItems (items.map Prod.snd) s
      = some (items.map fun x => BitVec.ofNat 64 (x.1.toNat % 2 ^ x.2.toNat)) := by
  induction items generalizing s with
  | nil => rfl
  | cons x items ih =>
    obtain ⟨hx, hitems⟩ := List.forall_mem_cons.1 hwidths
    obtain ⟨t, e, hres, hbetween, hrest⟩ := exec_bwsRead_code hx hs h
    have halive : t.phase ≠ .fault := by rcases hbetween with hp | hp <;> rw [hp] <;> decide
    rw [List.map_cons, readItems, e]
    simp only [if_neg halive, ih hitems hbetween hrest, hres, Option.map_some, List.map_cons]

/-- Settles O23: the bits of the codes stand in DST, so they are the reader's next bits, and each code is read from
its own, by induction on the list. -/
theorem packerRoundTrip : Obligations.PackerRoundTrip := by
  unfold Obligations.PackerRoundTrip
  intro items s t u hwidths hs hacc hcnt hdst erun halive hu hpos hrcnt hlen hbytes
  have hwriter : s.writerOk := by simp [State.writerOk, hacc, hcnt]
  have hroom : s.room 0 := by
    refine ⟨?_, by simp [hdst]⟩
    cases hcap : s.cfg.dstCap <;> simp [Config.dstFits, hcap, hdst]
  have hfin := bitsFinished_of_runSteps hwidths hs hwriter hroom erun halive
  exact readItems_of_nextBits hwidths hu (hfin.nextBits hcnt hdst hpos hrcnt hlen hbytes)

end Sys2Proof.Machine
end

section
/-! The frame of every command (the command rules of R144 to R279): each pseudocode keeps everything that
`frameOf` does not name, said first for the accesses and the packer and then command by command. -/

namespace Sys2Proof.Machine

/-! ### Actions within a frame -/

theorem frameOf_self (i : Instr) (s : State) : frameOf i s s = s := by
  cases i with
  | compress | decompress => simp [frameOf, restarted, reported]
  | _ => rfl

theorem frameOf_frameOf (i : Instr) (s t u : State) : frameOf i (frameOf i s t) u = frameOf i s u := by
  cases i with
  | compress | decompress =>
    obtain ⟨codec, _⟩ := s
    cases codec <;> rfl
  | _ => rfl

/-- The action changes only what the frame of the command names, where it goes on as where it stops. -/
structure Act.Framed {α : Type} (i : Instr) (m : Act α) : Prop where
  keeps : Act.Keeps (fun s t => t = frameOf i s t) m

section framed
variable {α β : Type} {i : Instr}

theorem framed_refl (i : Instr) (s : State) : s = frameOf i s s := (frameOf_self i s).symm

theorem framed_trans (i : Instr) (s t u : State) (h : t = frameOf i s t) (k : u = frameOf i t u) :
    u = frameOf i s u := by
  rw [h, frameOf_frameOf] at k
  exact k

theorem Act.Framed.pure (a : α) : Act.Framed i (pure a : Act α) := ⟨.pure (framed_refl i) a⟩

theorem Act.Framed.raise (k : ErrKind) : Act.Framed i (Act.raise k : Act α) := ⟨.raise (framed_refl i) k⟩

theorem Act.Framed.unspec (r : Refusal) : Act.Framed i (Act.unspec r : Act α) := ⟨.unspec (framed_refl i) r⟩

theorem Act.Framed.write {f : State → State} (h : ∀ s, f s = frameOf i s (f s)) : Act.Framed i (Act.write f) :=
  ⟨.write h⟩

theorem Act.Framed.bind {m : Act α} {f : α → Act β} (hm : Act.Framed i m) (hf : ∀ a, Act.Framed i (f a)) :
    Act.Framed i (m >>= f) := ⟨.bind (framed_trans i) hm.keeps fun a => (hf a).keeps⟩

theorem Act.Framed.get {f : State → Act α} (hf : ∀ s, Act.Framed i (f s)) : Act.Framed i (Act.state >>= f) :=
  .bind ⟨.state (framed_refl i)⟩ hf

theorem Act.Framed.times {m : Act Unit} (hm : Act.Framed i m) (n : Nat) : Act.Framed i (Act.times m n) :=
  ⟨.times (framed_refl i) (framed_trans i) hm.keeps n⟩

theorem Act.Framed.leads {m : Act α} (h : Act.Framed i m) (s : State) :
    m.Leads (fun _ t => t = frameOf i s t) (fun _ t => t = frameOf i s t) s := h.keeps.leads s

end framed

/-! ### The accesses and the packer -/

/-- The source cursor, taken from `t`. -/
def moved (s t : State) : State := { s with srcPos := t.srcPos }

/-- DST and its cursor, taken from `t`. -/
def stored (s t : State) : State := { s with dst := t.dst, dstLen := t.dstLen }

section accesses
variable {i : Instr}

theorem srcNext_framed (hi : ∀ s t, moved s t = frameOf i s (moved s t)) (n : Nat) :
    Act.Framed i (srcNext n) := by
  refine ⟨fun s => ?_⟩
  rw [srcNext_apply]
  by_cases hlen : s.srcLen.toNat < s.srcPos.toNat + n
  · rw [if_pos hlen]
    exact framed_refl i s
  · rw [if_neg hlen]
    cases memRead s.src s.srcPos.toNat n with
    | none => exact framed_refl i s
    | some v => exact hi s { s with srcPos := s.srcPos + BitVec.ofNat 64 n }

theorem srcByte_framed (hi : ∀ s t, moved s t = frameOf i s (moved s t)) : Act.Framed i srcByte :=
  .bind (srcNext_framed hi 1) fun _ => .pure _

theorem dstPut_framed (hi : ∀ s t, stored s t = frameOf i s (stored s t)) (n v : Nat) :
    Act.Framed i (dstPut n v) := by
  refine .get fun s => ?_
  split
  · split
    · exact .write fun s => hi s { s with dst := _, dstLen := _ }
    · exact .unspec _
  · exact .raise _

section writer
variable (hi : ∀ s t, written s t = frameOf i s (written s t))
include hi

theorem appendByte_framed (v : Nat) :
    Act.Framed i (dstPut 1 v >>= fun _ => Act.write State.clearWriter) :=
  .bind (dstPut_framed (fun s t => hi s (stored s t)) 1 v) fun _ => .write fun s => hi s s.clearWriter

theorem bwsPutBit_framed (b : Bool) : Act.Framed i (bwsPutBit b) := by
  refine .bind (.write fun s => hi s (s.pushBit b)) fun _ => .get fun s => ?_
  split
  · exact appendByte_framed hi _
  · exact .pure ()

theorem bwsPutBits_framed (bs : List Bool) : Act.Framed i (bwsPutBits bs) := by
  induction bs with
  | nil => exact .pure ()
  | cons b bs ih => exact .bind (bwsPutBit_framed hi b) fun _ => ih

theorem bwsFinish_framed : Act.Framed i bwsFinish := by
  refine .get fun s => ?_
  split
  · exact .pure ()
  · exact appendByte_framed hi _

end writer

section reader
variable (hi : ∀ s t, consumed s t = frameOf i s (consumed s t))
include hi

theorem bwsGetBit_framed : Act.Framed i bwsGetBit := by
  have hfetch : Act.Framed i bwsFetch := by
    refine .get fun s => ?_
    split
    · exact .bind (srcByte_framed fun s t => hi s (moved s t)) fun b =>
        .write fun s => hi s { s with rbyte := b, rcnt := 8#4 }
    · exact .pure ()
  exact .bind hfetch fun _ => .get fun _ =>
    .bind (.write fun s => hi s { s with rbyte := s.rbyte >>> 1, rcnt := s.rcnt - 1#4 }) fun _ => .pure _

theorem bwsRead_framed (w : Nat) : Act.Framed i (bwsRead w) := by
  refine .bind ?_ fun _ => .pure _
  induction w with
  | zero => exact .pure _
  | succ w ih => exact .bind (bwsGetBit_framed hi) fun _ => .bind ih fun _ => .pure _

end reader

end accesses

/-! ### The packer's commands -/

theorem bwsResetBody_framed : Act.Framed .bwsReset (Act.write State.clearStream) := .write fun _ => rfl

theorem bwsWriteBody_framed (imm : BitVec 32) (a : BitVec 8) :
    Act.Framed (.bwsWrite imm a) (bwsWrite imm a.toNat) := bwsPutBits_framed (fun _ _ => rfl) _

theorem bwsReadBody_framed (a : BitVec 8) : Act.Framed (.bwsRead a) (bodyOf (.bwsRead a)) :=
  .bind (bwsRead_framed (fun _ _ => rfl) _) fun _ => .write fun _ => rfl

/-! ### The Huffman unit -/

theorem hufCountBody_framed : Act.Framed .hufCount hufCountBody := by
  have htally : ∀ n, Act.Framed .hufCount (hufTally n) := fun n => by
    induction n with
    | zero => exact .pure ()
    | succ n ih => exact .bind (srcByte_framed fun _ _ => rfl) fun _ => .bind (.write fun _ => rfl) fun _ => ih
  refine .bind (.write fun _ => rfl) fun _ => .get fun s => ?_
  split
  · exact .unspec _
  · exact .bind (.write fun _ => rfl) fun _ => .bind (htally _) fun _ =>
      .bind (.write fun _ => rfl) fun _ => .write fun _ => rfl

theorem hufBuildBody_framed : Act.Framed .hufBuild hufBuildBody := by
  refine .get fun s => ?_
  split
  · exact .unspec _
  · exact .bind (.write fun _ => rfl) fun _ => .write fun _ => rfl

theorem hufCodesBody_framed : Act.Framed .hufCodes hufCodesBody := by
  refine .get fun s => ?_
  split
  · exact .unspec _
  · exact .bind (.write fun _ => rfl) fun _ => .write fun _ => rfl

theorem hufWrhdrBody_framed : Act.Framed .hufWrhdr hufWrhdrBody := by
  have hput : ∀ n v, Act.Framed .hufWrhdr (dstPut n v) := dstPut_framed fun _ _ => rfl
  have hleaves : ∀ ls, Act.Framed .hufWrhdr (putLeaves ls) := fun ls => by
    induction ls with
    | nil => exact .pure ()
    | cons l ls ih => exact .bind (hput _ _) fun _ => .bind (hput _ _) fun _ => ih
  exact .get fun _ => .bind (hput _ _) fun _ => .bind (hput _ _) fun _ =>
    .bind (hleaves _) fun _ => .write fun _ => rfl

theorem hufEncodeBody_framed : Act.Framed .hufEncode hufEncodeBody := by
  have hbytes : ∀ n, Act.Framed .hufEncode (hufEncodeBytes n) := fun n => by
    induction n with
    | zero => exact .pure ()
    | succ n ih =>
      refine .bind (srcByte_framed fun _ _ => rfl) fun b => .get fun s => ?_
      split
      · exact .bind (.unspec _) fun _ => ih
      · exact .bind (bwsPutBits_framed (fun _ _ => rfl) _) fun _ => ih
  exact .bind (.write fun _ => rfl) fun _ => .get fun _ => .bind (hbytes _) fun _ =>
    .bind (bwsFinish_framed fun _ _ => rfl) fun _ => .write fun _ => rfl

theorem hufRdhdrBody_framed : Act.Framed .hufRdhdr hufRdhdrBody := by
  have hnext : ∀ n, Act.Framed .hufRdhdr (srcNext n) := srcNext_framed fun _ _ => rfl
  have hleaves : ∀ n k, Act.Framed .hufRdhdr (getLeaves k n) := fun n => by
    induction n with
    | zero => exact fun _ => .pure ()
    | succ n ih =>
      exact fun k => .bind (srcByte_framed fun _ _ => rfl) fun _ => .bind (hnext _) fun _ =>
        .bind (.write fun _ => rfl) fun _ => ih (k + 1)
  refine .bind (.write fun _ => rfl) fun _ => .bind (hnext _) fun _ => .bind (.write fun _ => rfl) fun _ =>
    .bind (hnext _) fun n => ?_
  split
  · exact .unspec _
  · exact .bind (.write fun _ => rfl) fun _ => .bind (hleaves _ _) fun _ =>
      .bind (.write fun _ => rfl) fun _ => .write fun _ => rfl

theorem walkLeaf_framed {i : Instr} (hi : ∀ s t, consumed s t = frameOf i s (consumed s t)) (ns : List Node)
    (d n : Nat) : Act.Framed i (walkLeaf ns d n) := by
  induction d generalizing n with
  | zero =>
    unfold walkLeaf
    split
    · exact .unspec _
    · split
      · exact .pure _
      · exact .unspec _
  | succ d ih =>
    unfold walkLeaf
    split
    · exact .unspec _
    · split
      · exact .pure _
      · exact .bind (bwsGetBit_framed hi) fun _ => ih _

theorem hufDecodeBody_framed : Act.Framed .hufDecode hufDecodeBody := by
  have hbyte : Act.Framed .hufDecode hufDecodeByte := by
    refine .get fun s => ?_
    split
    · exact .unspec _
    · refine .bind (walkLeaf_framed (fun _ _ => rfl) _ _ _) fun n => ?_
      split
      · exact .unspec _
      · exact dstPut_framed (fun _ _ => rfl) _ _
  exact .get fun _ => .bind (.times hbyte _) fun _ => .write fun _ => rfl

/-! ### The arithmetic unit -/

theorem artInitBody_framed : Act.Framed .artInit artInitBody :=
  .bind (.write fun _ => rfl) fun _ => .bind (.write fun _ => rfl) fun _ => .write fun _ => rfl

theorem artWrhdrBody_framed : Act.Framed .artWrhdr artWrhdrBody :=
  .get fun _ => .bind (dstPut_framed (fun _ _ => rfl) _ _) fun _ => .write fun _ => rfl

theorem artEncsymBody_framed : Act.Framed .artEncsym artEncsymBody := by
  refine .bind (srcByte_framed fun _ _ => rfl) fun b => .get fun s => ?_
  dsimp only
  split
  · exact .raise _
  · split
    · exact .unspec _
    · split
      · exact .unspec _
      · exact .bind (bwsPutBits_framed (fun _ _ => rfl) _) fun _ => .write fun _ => rfl

theorem artFlushBody_framed : Act.Framed .artFlush artFlushBody := by
  refine .get fun s => ?_
  split
  · exact .unspec _
  · split
    · exact .unspec _
    · exact .bind (bwsPutBits_framed (fun _ _ => rfl) _) fun _ =>
        .bind (bwsFinish_framed fun _ _ => rfl) fun _ => .write fun _ => rfl

theorem artRdhdrBody_framed : Act.Framed .artRdhdr artRdhdrBody :=
  .bind (srcNext_framed (fun _ _ => rfl) _) fun _ => .bind (.write fun _ => rfl) fun _ =>
    .bind (.write fun _ => rfl) fun _ => .bind (.write fun _ => rfl) fun _ => .write fun _ => rfl

theorem artDecstepBody_framed : Act.Framed .artDecstep artDecstepBody := by
  have hemit : ∀ x, Act.Framed .artDecstep (artEmit x) := fun x => by
    refine .get fun s => ?_
    dsimp only
    split
    · exact .raise _
    · split
      · exact .unspec _
      · refine .bind (dstPut_framed (fun _ _ => rfl) _ _) fun _ => ?_
        split
        · exact .unspec _
        · split
          · exact .unspec _
          · exact .write fun _ => rfl
  refine .get fun s => ?_
  split
  · exact .write fun _ => rfl
  · split
    · exact .unspec _
    · split
      · exact hemit _
      · split
        · exact .bind (bwsGetBit_framed fun _ _ => rfl) fun _ => .write fun _ => rfl
        · exact .write fun _ => rfl

/-! ### The LZW unit -/

theorem lzwInitBody_framed : Act.Framed .lzwInit lzwInitBody :=
  .bind (.write fun _ => rfl) fun _ => .bind (.write fun _ => rfl) fun _ => .write fun _ => rfl

/-- DICT alone changes. -/
theorem dictAdd_framed {i : Instr}
    (hi : ∀ (s : State) d, { s with lzw := { s.lzw with dict := d } }
      = frameOf i s { s with lzw := { s.lzw with dict := d } }) (p : List Byte) : Act.Framed i (dictAdd p) := by
  refine .get fun s => ?_
  split
  · exact .write fun s => hi s _
  · exact .unspec _

/-- CODEBUF alone changes. -/
theorem collectPhrase_framed {i : Instr}
    (hi : ∀ (s : State) c, { s with lzw := { s.lzw with codebuf := c } }
      = frameOf i s { s with lzw := { s.lzw with codebuf := c } }) : Act.Framed i collectPhrase := by
  refine .get fun s => ?_
  split
  · split
    · exact .unspec _
    · exact .write fun s => hi s _
  · exact .unspec _

theorem lzwEncbyteBody_framed : Act.Framed .lzwEncbyte lzwEncbyteBody := by
  have hextend : ∀ b, Act.Framed .lzwEncbyte (lzwExtend b) := fun b => by
    refine .get fun s => ?_
    split
    · exact .write fun _ => rfl
    · split
      · exact .write fun _ => rfl
      · exact .bind (collectPhrase_framed fun _ _ => rfl) fun _ =>
          .bind (dictAdd_framed (fun _ _ => rfl) _) fun _ => .write fun _ => rfl
  exact .bind (srcByte_framed fun _ _ => rfl) fun _ => .bind (hextend _) fun _ => .write fun _ => rfl

theorem lzwEnceofBody_framed : Act.Framed .lzwEnceof lzwEnceofBody := by
  refine .get fun s => ?_
  split
  · exact .write fun _ => rfl
  · exact .bind (collectPhrase_framed fun _ _ => rfl) fun _ => .bind (.write fun _ => rfl) fun _ =>
      .write fun _ => rfl

theorem lzwWidthBody_framed : Act.Framed .lzwWidth lzwWidthBody := by
  refine .get fun s => ?_
  split
  · exact .unspec _
  · exact .bind (.write fun _ => rfl) fun _ => .write fun _ => rfl

theorem lzwWrhdrBody_framed : Act.Framed .lzwWrhdr lzwWrhdrBody :=
  .get fun _ => .bind (dstPut_framed (fun _ _ => rfl) _ _) fun _ =>
    .bind (dstPut_framed (fun _ _ => rfl) _ _) fun _ => .write fun _ => rfl

theorem lzwEmitBody_framed : Act.Framed .lzwEmit lzwEmitBody := by
  have hcodes : ∀ w cs, Act.Framed .lzwEmit (putCodes w cs) := fun w cs => by
    induction cs with
    | nil => exact .pure ()
    | cons c cs ih => exact .bind (bwsPutBits_framed (fun _ _ => rfl) _) fun _ => ih
  exact .get fun _ => .bind (hcodes _ _) fun _ => .bind (bwsFinish_framed fun _ _ => rfl) fun _ =>
    .write fun _ => rfl

theorem lzwRdhdrBody_framed : Act.Framed .lzwRdhdr lzwRdhdrBody := by
  have hnext : ∀ n, Act.Framed .lzwRdhdr (srcNext n) := srcNext_framed fun _ _ => rfl
  refine .bind (hnext _) fun _ => .bind (.write fun _ => rfl) fun _ => .bind (hnext _) fun w => ?_
  split
  · exact .bind (.write fun _ => rfl) fun _ => .bind (.write fun _ => rfl) fun _ => .write fun _ => rfl
  · exact .unspec _

theorem lzwEmitPhrase_framed (p : List Byte) : Act.Framed .lzwDeccode (lzwEmitPhrase p) := by
  have hput : ∀ p, Act.Framed .lzwDeccode (putPhrase p) := fun p => by
    induction p with
    | nil => exact .pure ()
    | cons x xs ih => exact .bind (dstPut_framed (fun _ _ => rfl) _ _) fun _ => ih
  have hinsert : ∀ x, Act.Framed .lzwDeccode (decodeInsert x) := fun x => by
    refine .get fun s => ?_
    split
    · exact dictAdd_framed (fun _ _ => rfl) _
    · exact .pure ()
  refine .get fun s => ?_
  split
  · exact .unspec _
  · split
    · exact .unspec _
    · refine .bind (hput _) fun _ => .bind (hinsert _) fun _ => .bind (.write fun _ => rfl) fun _ =>
        .get fun t => ?_
      split
      · exact .write fun _ => rfl
      · exact .pure ()

theorem lzwDeccodeBody_framed : Act.Framed .lzwDeccode lzwDeccodeBody := by
  refine .get fun s => ?_
  split
  · exact .write fun _ => rfl
  · refine .bind (bwsRead_framed (fun _ _ => rfl) _) fun c => ?_
    split
    · exact .unspec _
    · exact lzwEmitPhrase_framed _

end Sys2Proof.Machine
end

section
/-! The frame of every command, assembled from the frames of the pseudocodes and from what a command can answer
(R311, R314, R316, R317). -/

namespace Sys2Proof.Machine

/-! ### COMPRESS and DECOMPRESS -/

/-- A call in the session's codec stays within the frame of COMPRESS and DECOMPRESS, of whose units only the codec's own
may change (R108, R162). -/
theorem CallPart.framed {i : Instr} {s u : State} (hi : i = .compress ∨ i = .decompress)
    (h : CallPart s.codec s.beginCall u) : u = frameOf i s u := by
  have hhuf : (if s.codec = .huf then u.huf else s.huf) = u.huf :=
    ite_eq_left_iff.2 fun hc => (h.huf hc).symm
  have hart : (if s.codec = .art then u.art else s.art) = u.art :=
    ite_eq_left_iff.2 fun hc => (h.art hc).symm
  have hlzw : (if s.codec = .lzw then u.lzw else s.lzw) = u.lzw :=
    ite_eq_left_iff.2 fun hc => (h.lzw hc).symm
  rcases hi with rfl | rfl
  all_goals
    unfold frameOf
    dsimp only
    rw [hhuf, hart, hlzw, h.rest]
    rfl

theorem compressBody_framed {s : State} (hc : s.codec ∈ codecsFor .compress) :
    compressBody.Leads (fun _ t => t = frameOf .compress s t) (fun _ t => t = frameOf .compress s t) s :=
  (bodyOf_leads hc).mono
    (fun _ _ ⟨_, hu, _, e⟩ => e ▸ congrArg State.finishCompress (hu.framed (.inl rfl)))
    fun _ _ ⟨_, hu⟩ => hu.framed (.inl rfl)

theorem decompressBody_framed {s : State} (hc : s.codec ∈ codecsFor .decompress) :
    decompressBody.Leads (fun _ t => t = frameOf .decompress s t) (fun _ t => t = frameOf .decompress s t) s :=
  (bodyOf_leads hc).mono (fun _ _ ⟨_, hu, _, e⟩ => e ▸ hu.framed (.inr rfl))
    fun _ _ ⟨_, hu⟩ => hu.framed (.inr rfl)

/-! ### Every command -/

/-- The pseudocode of every accepted command stays within the command's frame. -/
theorem bodyOf_framed {i : Instr} {s : State} (hc : s.codec ∈ codecsFor i) :
    (bodyOf i).Leads (fun _ t => t = frameOf i s t) (fun _ t => t = frameOf i s t) s := by
  cases i with
  | nop | sopen => exact (Act.leads_pure ()).2 (framed_refl _ s)
  | compress => exact compressBody_framed hc
  | decompress => exact decompressBody_framed hc
  | bwsReset => exact bwsResetBody_framed.leads s
  | bwsWrite imm a => exact (bwsWriteBody_framed imm a).leads s
  | bwsFinish => exact (bwsFinish_framed fun _ _ => rfl).leads s
  | bwsRead a => exact (bwsReadBody_framed a).leads s
  | hufCount => exact hufCountBody_framed.leads s
  | hufBuild => exact hufBuildBody_framed.leads s
  | hufCodes => exact hufCodesBody_framed.leads s
  | hufWrhdr => exact hufWrhdrBody_framed.leads s
  | hufEncode => exact hufEncodeBody_framed.leads s
  | hufRdhdr => exact hufRdhdrBody_framed.leads s
  | hufDecode => exact hufDecodeBody_framed.leads s
  | artInit => exact artInitBody_framed.leads s
  | artWrhdr => exact artWrhdrBody_framed.leads s
  | artEncsym => exact artEncsymBody_framed.leads s
  | artFlush => exact artFlushBody_framed.leads s
  | artRdhdr => exact artRdhdrBody_framed.leads s
  | artDecstep => exact artDecstepBody_framed.leads s
  | lzwInit => exact lzwInitBody_framed.leads s
  | lzwEncbyte => exact lzwEncbyteBody_framed.leads s
  | lzwEnceof => exact lzwEnceofBody_framed.leads s
  | lzwWidth => exact lzwWidthBody_framed.leads s
  | lzwWrhdr => exact lzwWrhdrBody_framed.leads s
  | lzwEmit => exact lzwEmitBody_framed.leads s
  | lzwRdhdr => exact lzwRdhdrBody_framed.leads s
  | lzwDeccode => exact lzwDeccodeBody_framed.leads s

/-! ### The answers -/

/-- The commands whose frame has all the registers a refusal, a mismatch or `fail` writes; NOP is never refused, and
BWS.RESET and HUF.BUILD have no direction and raise nothing. -/
abbrev Reports (i : Instr) : Prop := i ≠ .nop ∧ i ≠ .bwsReset ∧ i ≠ .hufBuild

theorem frameOf_reported {i : Instr} (hi : Reports i) (s t r : State) :
    frameOf i s (reported t r) = reported (frameOf i s t) r := by
  obtain ⟨hnop, hreset, hbuild⟩ := hi
  cases i with
  | nop => exact absurd rfl hnop
  | bwsReset => exact absurd rfl hreset
  | hufBuild => exact absurd rfl hbuild
  | _ => rfl

/-- What such a command reports is within its frame. -/
theorem framed_reported {i : Instr} {s t : State} (hi : Reports i) (h : t = frameOf i s t) (r : State) :
    reported t r = frameOf i s (reported t r) := by
  rw [frameOf_reported hi, ← h]

theorem Answer.framed {i : Instr} {s t : State} (hi : Reports i) (h : Answer i s t) : t = frameOf i s t := by
  cases h with
  | nop => exact framed_refl i s
  | opened a b c m e => exact e ▸ rfl
  | refused => exact framed_reported hi (framed_refl i s) s.refuse
  | mismatched => exact framed_reported hi (framed_refl i s) s.modeMismatch
  | failed k u ha e => exact framed_reported hi ((bodyOf_framed ha.codec).of_raise e) (u.fail k)
  | ended _ ha e => exact (bodyOf_framed ha.codec).of_ok e

/-- HUF.BUILD raises nothing: a weight past u32 is UNSPEC (R183). -/
theorem hufBuildBody_raises_nothing (s : State) :
    hufBuildBody.Leads (fun _ _ => True) (fun _ _ => False) s := by
  unfold hufBuildBody
  rw [Act.leads_bind, Act.leads_state]
  split
  · exact Act.leads_unspec _
  · rw [Act.leads_bind, Act.leads_write, Act.leads_write]
    trivial

/-- A command without a direction whose pseudocode raises nothing is refused or runs to its end. -/
theorem accept_framed {i : Instr} {g : Guard} {m : Act Unit} {s t : State} (hdir : g.dir = none)
    (hraise : m.Leads (fun _ _ => True) (fun _ _ => False) s) (hm : Act.Framed i m)
    (hrefuse : s.refuse = frameOf i s s.refuse) (h : accept g m s = .next t) : t = frameOf i s t := by
  have hd : dirOk g s = true := by rw [dirOk, hdir]
  rcases accept_cases g m s with ⟨e, -⟩ | ⟨-, -, hf⟩ | ⟨e, -, -⟩
  · rw [e] at h
    injection h with h
    exact h ▸ hrefuse
  · rw [hd] at hf
    cases hf
  · rw [e] at h
    rcases runBody_next h with e | ⟨k, u, e, -⟩
    · exact hm.keeps.ok e
    · exact (hraise.of_raise e).elim

/-- Settles O13: the pseudocode stays within the command's frame, and so do the registers a refusal, a mismatch or
`fail` writes, where the command can meet one. -/
theorem commandFrame : Obligations.CommandFrame := by
  unfold Obligations.CommandFrame
  intro i s t h
  cases i with
  | nop =>
    injection h with h
    exact h.symm
  | bwsReset => exact accept_framed rfl ((Act.leads_write _).2 trivial) bwsResetBody_framed rfl h
  | hufBuild => exact accept_framed rfl (hufBuildBody_raises_nothing s) hufBuildBody_framed rfl h
  | _ => exact (answer_of_exec h).framed ⟨nofun, nofun, nofun⟩

end Sys2Proof.Machine
end

section
/-! The session (spec/41_session.md): NOP and SOPEN (rules R160, R161), and the direction that a completed COMPRESS
turns (rule R168). -/

namespace Sys2Proof.Machine

/-- Settles O24: the word and the answer are the definitions'. -/
theorem nopChangesNothing : Obligations.NopChangesNothing := by
  unfold Obligations.NopChangesNothing
  exact ⟨by decide, fun _ => rfl⟩

/-- The number a command's word stands for, field by field (R101). -/
theorem toNat_packFields (opc a b z : BitVec 8) (imm : BitVec 32) :
    (packFields opc a b z imm).toNat
      = opc.toNat + a.toNat * 2 ^ 8 + b.toNat * 2 ^ 16 + z.toNat * 2 ^ 24 + imm.toNat * 2 ^ 32 := by
  obtain ⟨hopc, ha, hb, hz, himm⟩ := eq_packFields_iff.1 (rfl : packFields opc a b z imm = _)
  generalize packFields opc a b z imm = w at hopc ha hb hz himm ⊢
  subst hopc ha hb hz himm
  rw [toNat_opcField, toNat_aField, toNat_bField, toNat_zField, toNat_immField]
  omega

/-- SOPEN's A field: a codec for each value of its legal set, none outside it (R102). -/
theorem codecOperand_eq_ite (a : BitVec 8) :
    codecOperand a
      = if a ∈ [1#8, 2#8, 3#8] then some (if a = 1#8 then .huf else if a = 2#8 then .art else .lzw) else none := by
  unfold codecOperand
  by_cases h1 : a = 1#8
  · simp [h1]
  · by_cases h2 : a = 2#8
    · simp [h2]
    · by_cases h3 : a = 3#8 <;> simp [h1, h2, h3]

/-- SOPEN's B field: a mode for each value of its legal set, none outside it (R102). -/
theorem modeOperand_eq_ite (b : BitVec 8) :
    modeOperand b = if b ∈ [0#8, 1#8] then some (if b = 0#8 then .compress else .decompress) else none := by
  unfold modeOperand
  by_cases h0 : b = 0#8
  · simp [h0]
  · by_cases h1 : b = 1#8 <;> simp [h0, h1]

/-- Settles O25: SOPEN's guard is its two operands, and its writes are those of `openSession`. -/
theorem sopenOpensSession : Obligations.SopenOpensSession := by
  unfold Obligations.SopenOpensSession
  intro a b s
  refine ⟨?_, fun ⟨ha, hb⟩ => ?_, fun h => ?_⟩
  · rw [encode, toNat_packFields]
    simp
  · show execSopen a b s = _
    rw [execSopen, codecOperand_eq_ite, modeOperand_eq_ite, if_pos ha, if_pos hb]
    rfl
  · show execSopen a b s = _
    rw [execSopen, codecOperand_eq_ite, modeOperand_eq_ite]
    by_cases ha : a ∈ [1#8, 2#8, 3#8]
    · rw [if_pos ha, if_neg fun hb => h ⟨ha, hb⟩]
      rfl
    · rw [if_neg ha]
      rfl

/-- With a session open, COMPRESS and DECOMPRESS are accepted between calls of their direction (R165, R166). -/
theorem accepted_call {i : Instr} {s : State} (hi : i = .compress ∨ i = .decompress) (hopen : s.codec ≠ .closed)
    (hmode : directionFor i = some s.mode) (hphase : s.between) : Accepted i s := by
  have halive : s.phase ≠ .fault := by rcases hphase with e | e <;> rw [e] <;> decide
  rcases hi with rfl | rfl <;>
    exact ⟨mem_codecs_of_open hopen, List.mem_pair.2 hphase, fun _ hm => Option.some.inj (hmode.symm.trans hm),
      halive⟩

theorem exec_compress {s : State} (h : Accepted .compress s) :
    exec .compress s = runBody (compressOf s.codec) s :=
  (h.exec_eq rfl rfl).trans (runBody_congr (compressBody_apply s))

theorem exec_decompress {s : State} (h : Accepted .decompress s) :
    exec .decompress s = runBody (decompressOf s.codec) s :=
  (h.exec_eq rfl rfl).trans (runBody_congr (decompressBody_apply s))

/-- A command of the wrong direction (R311, R316 step 6). -/
theorem accept_modeMismatch {g : Guard} {m : Act Unit} {s : State} (h4 : codecOk g s) (h5 : phaseOk g s)
    (h6 : dirOk g s = false) : accept g m s = .next s.modeMismatch := by
  simp [accept, h4, h5, h6]

/-- Settles O29: a call that completes ends with `finish_compress`, after which COMPRESS has the wrong direction. -/
theorem modeFlipsOnce : Obligations.ModeFlipsOnce := by
  unfold Obligations.ModeFlipsOnce
  intro s t hopen hmode hphase hexec halive
  have hacc : Accepted .compress s := accepted_call (.inl rfl) hopen (congrArg some hmode.symm) hphase
  rw [hacc.exec_eq rfl rfl] at hexec
  obtain ⟨u, hu, -, rfl⟩ := hacc.ended (ok_of_runBody hexec halive)
  have hcodec : (finishOf .compress u).codec ∈ codecsFor .compress := by
    rw [finishOf_codec, hu.codec, startOf_codec]
    exact hacc.codec
  refine ⟨rfl, rfl, rfl, rfl, ?_⟩
  exact accept_modeMismatch (g := guardCompress) (List.contains_iff_mem.2 hcodec) rfl rfl

end Sys2Proof.Machine
end

section
/-! Fields of an archive (spec/20_memory.md rules R72, R73): bytes appended to DST one field after another, and the
fields of a block of SRC. -/

namespace Sys2Proof.Machine

/-! ### Bytes appended to DST -/

theorem Memory.writeBytes_append (m : Memory) (a : Nat) (xs ys : List Byte) :
    Memory.writeBytes m a (xs ++ ys) = Memory.writeBytes (Memory.writeBytes m a xs) (a + xs.length) ys := by
  induction xs generalizing m a with
  | nil => rfl
  | cons x xs ih =>
    rw [List.cons_append, Memory.writeBytes, Memory.writeBytes, ih, List.length_cons, Nat.add_assoc, Nat.add_comm 1]

/-- `s` with the bytes `bs` appended to DST (R72). -/
def State.appended (s : State) (bs : List Byte) : State :=
  { s with dst := Memory.writeBytes s.dst s.dstLen.toNat bs, dstLen := s.dstLen + BitVec.ofNat 64 bs.length }

section appended
variable {s : State} {xs : List Byte}

theorem State.toNat_dstLen_appended (h : s.dstLen.toNat + xs.length < 2 ^ 64) :
    (s.appended xs).dstLen.toNat = s.dstLen.toNat + xs.length := dstLen_add h

theorem State.dstAppended_appended (h : s.dstLen.toNat + xs.length < 2 ^ 64) : DstAppended s (s.appended xs) xs := by
  refine ⟨State.toNat_dstLen_appended h, Memory.readBytes_eq_some fun k hk => ?_, fun a ha => ?_⟩
  · rw [State.appended, Memory.read_writeBytes, if_pos (by omega), Nat.add_sub_cancel_left]
  · rw [State.toNat_dstLen_appended h] at ha
    rw [State.appended, Memory.read_writeBytes, if_neg (by omega)]

theorem State.appended_append (h : s.dstLen.toNat + xs.length < 2 ^ 64) (ys : List Byte) :
    (s.appended xs).appended ys = s.appended (xs ++ ys) := by
  have hlen := State.toNat_dstLen_appended h
  unfold State.appended at hlen ⊢
  rw [hlen, Memory.writeBytes_append, List.length_append, BitVec.ofNat_add, ← BitVec.add_assoc]

theorem State.room_appended {n : Nat} (h : s.room (xs.length + n)) : (s.appended xs).room n :=
  State.room_after h rfl (State.toNat_dstLen_appended (by have := h.2; omega))

end appended

theorem beBytes_one (b : Byte) : beBytes 1 b.toNat = [b] := by
  simp [beBytes]

/-- A field with room for its bytes (R73). -/
theorem dstPut_appended {n : Nat} {s : State} (v : Nat) (h : s.room n) :
    dstPut n v s = .ok () (s.appended (beBytes n v)) := by
  rw [dstPut_ok h.1 h.2, State.appended, beBytes_length]
  rfl

/-- Two fields, one after the other. -/
theorem dstPut_dstPut {α : Type} {m n : Nat} {s : State} (v w : Nat) (f : Act α) (h : s.room (m + n)) :
    (dstPut m v >>= fun _ => dstPut n w >>= fun _ => f) s = f (s.appended (beBytes m v ++ beBytes n w)) := by
  have hroom : (s.appended (beBytes m v)).room n := State.room_appended (by rwa [beBytes_length])
  have hlen : s.dstLen.toNat + (beBytes m v).length < 2 ^ 64 := by
    have := h.2
    rw [beBytes_length]
    omega
  rw [Act.bind_of_ok (dstPut_appended v (State.room_mono h (Nat.le_add_right m n))),
    Act.bind_of_ok (dstPut_appended w hroom), State.appended_append hlen]

/-! ### The packer from a byte boundary -/

theorem bwsFinish_aligned {s : State} (h : s.wcnt = 0#4) : bwsFinish s = .ok () s := by
  rw [bwsFinish_apply, if_pos h]

/-- Closing the stream with bits pending (R141). -/
theorem bwsFinish_pending {s : State} (h : s.wcnt ≠ 0#4) (hroom : s.room 1) :
    bwsFinish s = .ok () (s.appended [s.wacc]).clearWriter := by
  rw [bwsFinish_apply, if_neg h, dstPut_appended _ hroom, beBytes_one]

/-- The first bit of a byte (R140). -/
theorem bwsPutBits_first {s : State} (hacc : s.wacc = 0#8) (hcnt : s.wcnt = 0#4) (b : Bool) :
    bwsPutBits [b] s = .ok () { s with wacc := bitByte b, wcnt := 1#4 } := by
  have hbit : bwsPutBit b s = .ok () { s with wacc := bitByte b, wcnt := 1#4 } := by
    rw [bwsPutBit_apply, hacc, hcnt]
    cases b <;> rfl
  exact Act.bind_of_ok hbit

theorem State.clearWriter_eq_self {s : State} (hacc : s.wacc = 0#8) (hcnt : s.wcnt = 0#4) : s.clearWriter = s := by
  rw [State.clearWriter, ← hacc, ← hcnt]

/-! ### The fields of a block of SRC -/

theorem Memory.readBytes_append {m : Memory} {a : Nat} {xs ys : List Byte}
    (h : Memory.readBytes m a (xs ++ ys).length = some (xs ++ ys)) :
    Memory.readBytes m a xs.length = some xs ∧ Memory.readBytes m (a + xs.length) ys.length = some ys := by
  rw [List.length_append] at h
  refine ⟨Memory.readBytes_eq_some fun k hk => ?_, Memory.readBytes_eq_some fun k hk => ?_⟩
  · rw [Memory.read_of_readBytes h (by omega), List.getElem?_append_left hk]
  · rw [Nat.add_assoc, Memory.read_of_readBytes h (by omega), List.getElem?_append_right (by omega),
      Nat.add_sub_cancel_left]

theorem memRead_of_readBytes {m : Memory} {a n : Nat} {bs : List Byte} (h : Memory.readBytes m a n = some bs) :
    memRead m a n = some (beValue bs) := by
  rw [memRead, h, Option.map_some]

/-- The size and the 4-byte field after it, as a Huffman and an LZW header begin (R190, R278). -/
theorem readSize_srcNext {α : Type} {size n : Nat} {s : State} (f : Nat → Act α)
    (hlen : s.srcPos.toNat + 12 ≤ s.srcLen.toNat) (hsize : memRead s.src s.srcPos.toNat 8 = some size)
    (hn : memRead s.src (s.srcPos.toNat + 8) 4 = some n) :
    (srcNext 8 >>= fun size => (Act.write fun s => { s with origSize := BitVec.ofNat 64 size }) >>= fun _ =>
        srcNext 4 >>= f) s
      = f n { s with origSize := BitVec.ofNat 64 size, srcPos := s.srcPos + 8#64 + 4#64 } := by
  have hpos : (s.srcPos + 8#64).toNat = s.srcPos.toNat + 8 := dstLen_add (by omega)
  rw [Act.bind_of_ok (srcNext_ok (by omega) hsize), Act.bind_of_ok (Act.write_apply _ _)]
  refine Act.bind_of_ok (srcNext_ok ?_ ?_)
  · show (s.srcPos + 8#64).toNat + 4 ≤ s.srcLen.toNat
    omega
  · show memRead s.src (s.srcPos + 8#64).toNat 4 = _
    rw [hpos, hn]

end Sys2Proof.Machine
end

section
/-! The arithmetic unit's midpoint before any symbol is 0.5, whose expansion is the one bit 1 (spec/43_arithmetic.md
rule R226): sums, products and quotients that are binary64 numbers are not rounded. -/

namespace Sys2Proof

/-- A quotient that is a binary64 number is not rounded (R8). -/
theorem F64.round_mul_of_valid {x : F64} {den : Nat} (h : x.Valid) (hden : 0 < den) :
    F64.round (x.units * den) den = x := by
  have hlt : ∀ r d, den * d < 2 * (den * r) ↔ d < 2 * r := fun r d => by
    rw [Nat.mul_left_comm, Nat.mul_lt_mul_left hden]
  have heq : ∀ r d, den * d = 2 * (den * r) ↔ d = 2 * r := fun r d => by
    rw [Nat.mul_left_comm, Nat.mul_right_inj (by omega)]
  have hscale (e : Nat) : F64.roundAt (x.units * den) den e = F64.roundAt x.units 1 e := by
    unfold F64.roundAt
    simp only [Nat.mul_comm x.units den, Nat.mul_div_mul_left _ _ hden, Nat.mul_mod_mul_left, one_mul, hlt, heq,
      beq_eq_decide]
  have hround := F64.round_of_valid h
  simp only [F64.round, Nat.div_one] at hround
  simp only [F64.round, Nat.mul_div_cancel _ hden, hscale, hround]

theorem F64.half_valid : F64.half.Valid := by
  have h : F64.half = ⟨1 * 2 ^ 1073⟩ := congrArg F64.mk (Nat.one_mul _).symm
  rw [h]
  exact F64.valid_of_scaled (by decide)

theorem F64.fadd_zero_one : F64.fadd F64.zero F64.one = F64.one := by
  rw [F64.fadd, show F64.zero.units = 0 from rfl, Nat.zero_add]
  exact F64.round_of_valid F64.one_valid

theorem F64.fdiv_one_two : F64.fdiv F64.one F64.two = F64.half := by
  have h : F64.one.units * F64.scale = F64.half.units * F64.two.units := by
    simp only [F64.one, F64.scale, F64.half, F64.two, ← Nat.pow_add, Nat.reduceAdd]
  rw [F64.fdiv, h]
  exact F64.round_mul_of_valid F64.half_valid (by unfold F64.two; positivity)

theorem F64.fmul_two_half : F64.fmul F64.two F64.half = F64.one := by
  have h : F64.two.units * F64.half.units = F64.one.units * F64.scale := by
    simp only [F64.one, F64.scale, F64.half, F64.two, ← Nat.pow_add, Nat.reduceAdd]
  rw [F64.fmul, h]
  exact F64.round_mul_of_valid F64.one_valid (by unfold F64.scale; positivity)

theorem F64.mk_two_pow_ne_zero (n : Nat) : F64.mk (2 ^ n) ≠ F64.zero := by
  simp [F64.zero]

theorem F64.half_ne_zero : F64.half ≠ F64.zero := F64.mk_two_pow_ne_zero 1073

theorem F64.not_one_le_half : F64.le F64.one F64.half = false := by
  rw [F64.le, F64.half, F64.one, decide_eq_false_iff_not, Nat.pow_le_pow_iff_right (by decide)]
  decide

end Sys2Proof

namespace Sys2Proof.Machine

theorem doubleDrop_half : doubleDrop F64.half = (true, F64.zero) := by
  have h : F64.fsub F64.one F64.one = F64.zero := by rw [F64.fsub, Nat.sub_self, F64.round_zero]
  unfold doubleDrop
  simp only [F64.fmul_two_half, F64.le_iff.2 (Nat.le_refl _), if_true, h]

theorem midpoint_start : ArtUnit.start.midpoint = F64.half := by
  show F64.fdiv (F64.fadd F64.zero F64.one) F64.two = F64.half
  rw [F64.fadd_zero_one, F64.fdiv_one_two]

theorem fractionBits_zero (n : Nat) : fractionBits n F64.zero = some [] := by
  cases n <;> rfl

theorem fractionBits_half (n : Nat) : fractionBits (n + 1) F64.half = some [true] := by
  rw [fractionBits, if_neg F64.half_ne_zero]
  simp only [doubleDrop_half, fractionBits_zero]

end Sys2Proof.Machine
end

section
/-! COMPRESS of an empty source and DECOMPRESS of an archive of size 0 (spec/41_session.md rules R165, R166): what
each step of the expansions does there, and the calls put together from them. -/

namespace Sys2Proof.Machine

theorem Act.bind_eq_of_ok {α β : Type} {m : Act α} {f : α → Act β} {s t : State} {a : α}
    {r : EStateM.Result Stop State β} (h : m s = .ok a t) (hf : f a t = r) : (m >>= f) s = r :=
  (Act.bind_of_ok h).trans hf

/-! ### The Huffman unit without leaves -/

theorem leavesFrom_replicate_zero (k n : Nat) : leavesFrom k (List.replicate n 0#32) = [] := by
  induction n generalizing k with
  | zero => rfl
  | succ n ih => rw [List.replicate_succ, leavesFrom, if_pos rfl, ih]

/-- No byte counted is no leaf (R182). -/
theorem leafCnt_formLeafList_clearCnt (u : HufUnit) : u.clearCnt.formLeafList.leafCnt = 0 := by
  have h : leavesOf u.clearCnt.cnt = [] := by
    rw [leavesOf, HufUnit.clearCnt, Vector.toList_replicate, leavesFrom_replicate_zero]
  rw [HufUnit.formLeafList, h]
  rfl

theorem HufUnit.leaves_of_leafCnt {u : HufUnit} (h : u.leafCnt = 0) : u.leaves = [] := by
  rw [HufUnit.leaves, h]
  rfl

section huffman
variable {s : State}

theorem hufCountBody_empty (h : s.srcLen = 0#64) :
    hufCountBody s = .ok () ({ s.beginCall with huf := s.huf.clearCnt.formLeafList }.setPhase .hCounted) := by
  unfold hufCountBody
  rw [Act.bind_of_ok (Act.write_apply _ s), Act.bind_of_ok (Act.state_apply _), State.beginCall_srcLen, h]
  rfl

theorem hufBuildBody_noLeaves (h : s.huf.leafCnt = 0) :
    hufBuildBody s
      = .ok () ({ s with huf := { s.huf with node := [], root := none } }.setPhase (builtPhase s.phase)) := by
  unfold hufBuildBody
  rw [Act.bind_of_ok (Act.state_apply s), HufUnit.leaves_of_leafCnt h]
  rfl

theorem hufCodesBody_noTree (h : s.huf.root = none) :
    hufCodesBody s
      = .ok () ({ s with huf := { s.huf with code := Vector.replicate 256 none } }.setPhase .hCoded) := by
  unfold hufCodesBody
  rw [Act.bind_of_ok (Act.state_apply s), h]
  rfl

theorem hufWrhdrBody_noLeaves (h : s.huf.leafCnt = 0) (hroom : s.room 12) :
    hufWrhdrBody s = .ok () ((s.appended (beBytes 8 s.origSize.toNat ++ beBytes 4 0)).setPhase .hHdrw) := by
  unfold hufWrhdrBody
  rw [Act.bind_of_ok (Act.state_apply s), dstPut_dstPut (m := 8) (n := 4) _ _ _ hroom, HufUnit.leaves_of_leafCnt h, h]
  rfl

theorem hufEncodeBody_empty (h : s.srcLen = 0#64) (hcnt : s.wcnt = 0#4) :
    hufEncodeBody s = .ok () ({ s with srcPos := 0#64 } : State).finishCompress := by
  have hloop : hufEncodeBytes s.srcLen.toNat = pure () := by rw [h]; rfl
  unfold hufEncodeBody
  rw [Act.bind_of_ok (Act.write_apply _ s), Act.bind_of_ok (Act.state_apply _)]
  dsimp only
  rw [hloop, pure_bind]
  exact Act.bind_of_ok (bwsFinish_aligned hcnt)

theorem hufRdhdrBody_noLeaves {size : Nat} (hlen : 12 ≤ s.srcLen.toNat) (hsize : memRead s.src 0 8 = some size)
    (hn : memRead s.src 8 4 = some 0) :
    hufRdhdrBody s
      = .ok () (({ s.beginCall with
          origSize := BitVec.ofNat 64 size, srcPos := 12#64, huf := { s.huf with leafCnt := 0 } }
        : State).clearReader.setPhase .hHdrr) := by
  unfold hufRdhdrBody
  rw [Act.bind_of_ok (Act.write_apply _ s)]
  refine (readSize_srcNext _ (by simpa using hlen) hsize hn).trans ?_
  rw [if_neg (by decide)]
  rfl

theorem hufDecodeBody_empty (h : s.origSize = 0#64) : hufDecodeBody s = .ok () s.finishDecompress := by
  unfold hufDecodeBody
  rw [Act.bind_of_ok (Act.state_apply s), h, BitVec.toNat_zero, Nat.zero_sub]
  rfl

end huffman

/-! ### The arithmetic unit without symbols -/

section arithmetic
variable {s : State}

theorem artInitBody_apply : artInitBody s = .ok () ({ s.beginCall with art := ArtUnit.start }.setPhase .aInit) := rfl

theorem artWrhdrBody_room (h : s.room 8) :
    artWrhdrBody s = .ok () ((s.appended (beBytes 8 s.origSize.toNat)).setPhase .aEnc) := by
  unfold artWrhdrBody
  rw [Act.bind_of_ok (Act.state_apply s), Act.bind_of_ok (dstPut_appended _ h)]
  rfl

theorem artFlushBody_start (hart : s.art = ArtUnit.start) (hacc : s.wacc = 0#8) (hcnt : s.wcnt = 0#4)
    (h : s.room 1) : artFlushBody s = .ok () (s.appended [1#8]).finishCompress := by
  have hclear : (s.appended [1#8]).clearWriter = s.appended [1#8] := State.clearWriter_eq_self hacc hcnt
  unfold artFlushBody
  rw [Act.bind_of_ok (Act.state_apply s), hart, midpoint_start, F64.not_one_le_half, Config.artLoopBound,
    fractionBits_half, ← hclear]
  refine Act.bind_eq_of_ok (bwsPutBits_first hacc hcnt true) ?_
  exact Act.bind_of_ok (bwsFinish_pending (show 1#4 ≠ 0#4 by decide) h)

theorem artRdhdrBody_size {size : Nat} (hlen : s.srcPos.toNat + 8 ≤ s.srcLen.toNat)
    (hsize : memRead s.src s.srcPos.toNat 8 = some size) :
    artRdhdrBody s
      = .ok () (({ s with
          origSize := BitVec.ofNat 64 size, srcPos := s.srcPos + 8#64
          art := { s.art with acc := F64.zero, exp := 0 } } : State).clearReader.setPhase .aDec) := by
  unfold artRdhdrBody
  rw [Act.bind_of_ok (srcNext_ok hlen hsize)]
  rfl

theorem artDecstepBody_complete (h : s.dstLen = s.origSize) : artDecstepBody s = .ok () s.finishDecompress := by
  unfold artDecstepBody
  rw [Act.bind_of_ok (Act.state_apply s), if_pos h]
  rfl

end arithmetic

/-! ### The LZW unit without phrases -/

section lzw
variable {s : State}

theorem lzwInitBody_apply : lzwInitBody s = .ok () ({ s.beginCall with lzw := s.lzw.start }.setPhase .lInit) := rfl

theorem lzwEnceofBody_noPhrase (h : s.lzw.phrase = []) : lzwEnceofBody s = .ok () (s.setPhase .lScanned) := by
  unfold lzwEnceofBody
  rw [Act.bind_of_ok (Act.state_apply s), if_pos h]
  rfl

theorem lzwWidthBody_apply (h : lzwWidthFor s.lzw.dict.length ≤ 32) :
    lzwWidthBody s
      = .ok () ({ s with lzw := { s.lzw with width := BitVec.ofNat 6 (lzwWidthFor s.lzw.dict.length) } }.setPhase
          .lWidth) := by
  unfold lzwWidthBody
  rw [Act.bind_of_ok (Act.state_apply s), if_neg (by omega)]
  rfl

theorem lzwWidthBody_noEntries (h : s.lzw.dict = []) :
    lzwWidthBody s = .ok () ({ s with lzw := { s.lzw with width := 8#6 } }.setPhase .lWidth) := by
  have h8 : lzwWidthFor s.lzw.dict.length = 8 := by
    rw [h]
    decide
  rw [lzwWidthBody_apply (by omega), h8]

theorem lzwWrhdrBody_room (h : s.room 12) :
    lzwWrhdrBody s
      = .ok () ((s.appended (beBytes 8 s.origSize.toNat ++ beBytes 4 s.lzw.width.toNat)).setPhase .lHdrw) := by
  unfold lzwWrhdrBody
  rw [Act.bind_of_ok (Act.state_apply s), dstPut_dstPut (m := 8) (n := 4) _ _ _ h]
  rfl

theorem lzwEmitBody_noCodes (h : s.lzw.codebuf = []) (hcnt : s.wcnt = 0#4) :
    lzwEmitBody s = .ok () s.finishCompress := by
  unfold lzwEmitBody
  rw [Act.bind_of_ok (Act.state_apply s), h]
  exact Act.bind_of_ok (bwsFinish_aligned hcnt)

theorem lzwRdhdrBody_width {size w : Nat} (hlen : s.srcPos.toNat + 12 ≤ s.srcLen.toNat)
    (hsize : memRead s.src s.srcPos.toNat 8 = some size) (hw : memRead s.src (s.srcPos.toNat + 8) 4 = some w)
    (hlegal : w ∈ Config.lzwWidths) :
    lzwRdhdrBody s
      = .ok () (({ s with
          origSize := BitVec.ofNat 64 size, srcPos := s.srcPos + 8#64 + 4#64
          lzw := { s.lzw with width := BitVec.ofNat 6 w } } : State).clearReader.setPhase .lDec) := by
  unfold lzwRdhdrBody
  refine (readSize_srcNext _ hlen hsize hw).trans ?_
  rw [if_pos hlegal]
  rfl

theorem lzwDeccodeBody_complete (h : s.origSize.toNat ≤ s.dstLen.toNat) :
    lzwDeccodeBody s = .ok () s.finishDecompress := by
  unfold lzwDeccodeBody
  rw [Act.bind_of_ok (Act.state_apply s), if_pos h]
  rfl

end lzw

/-! ### The calls -/

/-- `s` inside a call: since its begin, ORIG_SIZE, SRC_POS, PHASE and the units of the codecs may have moved. -/
def State.inCall (s : State) (size pos : U64) (p : Phase) (h : HufUnit) (a : ArtUnit) (l : LzwUnit) : State :=
  { s.beginCall with origSize := size, srcPos := pos, phase := p, huf := h, art := a, lzw := l }

/-- The Huffman unit without a tree, its code table being `t`. -/
def HufUnit.treeless (u : HufUnit) (t : Vector (Option (List Bool)) 256) : HufUnit :=
  { u with node := [], root := none, code := t }

section compress
variable {s : State} {size : U64} (hsrc : s.srcLen = 0#64) (hsize : s.beginCall.origSize = size)
include hsrc hsize

theorem compressHuf_empty (h : s.beginCall.room 12) : ∃ p u a l,
    compressHuf s
      = .ok () ((s.inCall size 0#64 p u a l).appended (beBytes 8 size.toNat ++ beBytes 4 0)).finishCompress := by
  subst hsize
  have hcount := hufCountBody_empty hsrc
  have hnone := leafCnt_formLeafList_clearCnt s.huf
  generalize s.huf.clearCnt.formLeafList = u at hcount hnone
  have hbuild : hufBuildBody (s.inCall _ 0#64 .hCounted u s.art s.lzw)
      = .ok () (s.inCall s.beginCall.origSize 0#64 .hBuilt (u.treeless u.code) s.art s.lzw) :=
    hufBuildBody_noLeaves hnone
  have hcodes : hufCodesBody (s.inCall _ 0#64 .hBuilt (u.treeless u.code) s.art s.lzw)
      = .ok () (s.inCall s.beginCall.origSize 0#64 .hCoded (u.treeless (Vector.replicate 256 none)) s.art s.lzw) :=
    hufCodesBody_noTree rfl
  exact ⟨.hHdrw, u.treeless (Vector.replicate 256 none), s.art, s.lzw,
    Act.bind_eq_of_ok hcount <| Act.bind_eq_of_ok hbuild <| Act.bind_eq_of_ok hcodes <|
      Act.bind_eq_of_ok (hufWrhdrBody_noLeaves hnone h) <| hufEncodeBody_empty hsrc rfl⟩

theorem compressArt_empty (h : s.beginCall.room 9) : ∃ p u a l,
    compressArt s
      = .ok () ((s.inCall size 0#64 p u a l).appended (beBytes 8 size.toNat ++ [1#8])).finishCompress := by
  subst hsize
  have hloop : Act.times artEncsymBody s.srcLen.toNat = pure () := by rw [hsrc]; rfl
  have hlen : 0 + (beBytes 8 s.beginCall.origSize.toNat).length < 2 ^ 64 := by
    rw [beBytes_length]
    decide
  have hheader : artWrhdrBody (s.inCall _ 0#64 .aInit s.huf ArtUnit.start s.lzw)
      = .ok () ((s.inCall s.beginCall.origSize 0#64 .aEnc s.huf ArtUnit.start s.lzw).appended (beBytes 8 _)) :=
    artWrhdrBody_room (State.room_mono h (by decide))
  refine ⟨.aEnc, s.huf, ArtUnit.start, s.lzw, ?_⟩
  rw [← State.appended_append (s := s.inCall _ 0#64 .aEnc s.huf ArtUnit.start s.lzw) hlen]
  exact Act.bind_eq_of_ok artInitBody_apply <| Act.bind_eq_of_ok hheader <|
    Act.bind_eq_of_ok (Act.state_apply _) <| Act.bind_eq_of_ok (congrFun hloop _) <|
      artFlushBody_start rfl rfl rfl (State.room_appended (xs := beBytes 8 _) h)

theorem compressLzw_empty (h : s.beginCall.room 12) : ∃ p u a l,
    compressLzw s
      = .ok () ((s.inCall size 0#64 p u a l).appended (beBytes 8 size.toNat ++ beBytes 4 8)).finishCompress := by
  subst hsize
  have hloop : Act.times lzwEncbyteBody s.srcLen.toNat = pure () := by rw [hsrc]; rfl
  have hscan : lzwEnceofBody (s.inCall _ 0#64 .lInit s.huf s.art s.lzw.start)
      = .ok () (s.inCall s.beginCall.origSize 0#64 .lScanned s.huf s.art s.lzw.start) := lzwEnceofBody_noPhrase rfl
  have hwidth : lzwWidthBody (s.inCall _ 0#64 .lScanned s.huf s.art s.lzw.start)
      = .ok () (s.inCall s.beginCall.origSize 0#64 .lWidth s.huf s.art { s.lzw.start with width := 8#6 }) :=
    lzwWidthBody_noEntries rfl
  exact ⟨.lHdrw, s.huf, s.art, { s.lzw.start with width := 8#6 },
    Act.bind_eq_of_ok lzwInitBody_apply <| Act.bind_eq_of_ok (Act.state_apply _) <|
      Act.bind_eq_of_ok (congrFun hloop _) <| Act.bind_eq_of_ok hscan <| Act.bind_eq_of_ok hwidth <|
        Act.bind_eq_of_ok (lzwWrhdrBody_room h) <| lzwEmitBody_noCodes rfl rfl⟩

end compress

/-- COMPRESS of an empty source, for the three codecs: the archive is appended, and the call completes (R165). -/
theorem compressOf_empty {s : State} {c : Codec} {archive : List Byte} (hsrc : s.srcLen = 0#64)
    (hmem : (c, archive) ∈ [(Codec.huf, List.replicate 12 0#8), (Codec.art, List.replicate 8 0#8 ++ [1#8]),
      (Codec.lzw, List.replicate 11 0#8 ++ [8#8])])
    (hsize : s.beginCall.origSize = 0#64) (hroom : s.beginCall.room archive.length) : ∃ p u a l,
      compressOf c s = .ok () ((s.inCall 0#64 0#64 p u a l).appended archive).finishCompress := by
  simp only [List.mem_cons, Prod.mk.injEq, List.not_mem_nil, or_false] at hmem
  rcases hmem with ⟨rfl, rfl⟩ | ⟨rfl, rfl⟩ | ⟨rfl, rfl⟩
  · exact compressHuf_empty hsrc hsize hroom
  · exact compressArt_empty hsrc hsize hroom
  · exact compressLzw_empty hsrc hsize hroom

/-- A repetition that ends with its first step. -/
theorem Act.while_once {go : State → Bool} {m : Act Unit} {n : Nat} {s t : State} (h : go s = true)
    (e : m s = .ok () t) (ht : go t = false) : Act.while go m (n + 1) s = .ok () t := by
  rw [Act.while_go h, Act.bind_of_ok e, Act.while_stop ht]

section decompress
variable {s : State}

theorem decompressHuf_empty (hlen : 12 ≤ s.srcLen.toNat)
    (hread : Memory.readBytes s.src 0 12 = some (List.replicate 12 0#8)) : ∃ p u a l,
    decompressHuf s = .ok () (s.inCall 0#64 12#64 p u a l).finishDecompress := by
  obtain ⟨hsize, hcount⟩ := Memory.readBytes_append (xs := List.replicate 8 0#8) (ys := List.replicate 4 0#8) hread
  exact ⟨.hRebuilt, { s.huf with leafCnt := 0, node := [], root := none }, s.art, s.lzw,
    Act.bind_eq_of_ok (hufRdhdrBody_noLeaves hlen (memRead_of_readBytes hsize) (memRead_of_readBytes hcount)) <|
      Act.bind_eq_of_ok (hufBuildBody_noLeaves rfl) <| hufDecodeBody_empty rfl⟩

theorem decompressArt_empty (hlen : 8 ≤ s.srcLen.toNat)
    (hread : Memory.readBytes s.src 0 8 = some (List.replicate 8 0#8)) : ∃ p u a l,
    decompressArt s = .ok () (s.inCall 0#64 8#64 p u a l).finishDecompress :=
  ⟨.aDec, s.huf, ArtUnit.start, s.lzw,
    Act.bind_eq_of_ok artInitBody_apply <|
      Act.bind_eq_of_ok (artRdhdrBody_size (by simpa using hlen) (memRead_of_readBytes hread)) <|
        Act.bind_eq_of_ok (Act.state_apply _) <| Act.while_once rfl (artDecstepBody_complete rfl) rfl⟩

theorem decompressLzw_empty (hlen : 12 ≤ s.srcLen.toNat)
    (hread : Memory.readBytes s.src 0 12 = some (List.replicate 11 0#8 ++ [8#8])) : ∃ p u a l,
    decompressLzw s = .ok () (s.inCall 0#64 12#64 p u a l).finishDecompress := by
  obtain ⟨hsize, hwidth⟩ := Memory.readBytes_append (xs := List.replicate 8 0#8) (ys := [0#8, 0#8, 0#8, 8#8]) hread
  exact ⟨.lDec, s.huf, s.art, { s.lzw.start with width := 8#6 },
    Act.bind_eq_of_ok lzwInitBody_apply <|
      Act.bind_eq_of_ok (lzwRdhdrBody_width (by simpa using hlen) (memRead_of_readBytes hsize)
        (memRead_of_readBytes hwidth) (by decide)) <|
        Act.bind_eq_of_ok (Act.state_apply _) <| Act.while_once rfl (lzwDeccodeBody_complete (Nat.le_refl _)) rfl⟩

/-- DECOMPRESS of an archive whose header says size 0, for the three codecs: the header is read, and the call
completes (R166). -/
theorem decompressOf_empty {c : Codec} {header : List Byte}
    (hmem : (c, header) ∈ [(Codec.huf, List.replicate 12 0#8), (Codec.art, List.replicate 8 0#8),
      (Codec.lzw, List.replicate 11 0#8 ++ [8#8])])
    (hlen : header.length ≤ s.srcLen.toNat) (hread : Memory.readBytes s.src 0 header.length = some header) :
    ∃ p u a l,
      decompressOf c s = .ok () (s.inCall 0#64 (BitVec.ofNat 64 header.length) p u a l).finishDecompress := by
  simp only [List.mem_cons, Prod.mk.injEq, List.not_mem_nil, or_false] at hmem
  rcases hmem with ⟨rfl, rfl⟩ | ⟨rfl, rfl⟩ | ⟨rfl, rfl⟩
  · exact decompressHuf_empty hlen hread
  · exact decompressArt_empty hlen hread
  · exact decompressLzw_empty hlen hread

end decompress

/-- Settles O26: each step of the empty calls is evaluated; with no byte there is nothing but the header, and for the
arithmetic codec the one bit of the initial midpoint. -/
theorem emptyCalls : Obligations.EmptyCalls := by
  unfold Obligations.EmptyCalls
  refine fun s hphase => ⟨fun c archive hmem hcodec hmode hsrc hfits => ?_,
    fun c header hmem hcodec hmode hlen hread => ?_⟩
  · have hsize : s.beginCall.origSize = 0#64 := by rw [State.beginCall_origSize, hmode, hsrc]
    have hshort : c ≠ .closed ∧ 0 + archive.length < 2 ^ 64 := by
      simp only [List.mem_cons, Prod.mk.injEq, List.not_mem_nil, or_false] at hmem
      rcases hmem with ⟨rfl, rfl⟩ | ⟨rfl, rfl⟩ | ⟨rfl, rfl⟩ <;> decide
    obtain ⟨hopen, h64⟩ := hshort
    obtain ⟨p, u, a, l, hrun⟩ := compressOf_empty hsrc hmem hsize ⟨hfits, h64⟩
    subst hcodec
    have hacc : Accepted .compress s := accepted_call (.inl rfl) hopen (congrArg some hmode.symm) hphase
    obtain ⟨hend, hbytes, houtside⟩ :=
      State.dstAppended_appended (s := s.inCall 0#64 0#64 p u a l) (xs := archive) h64
    have hdst : ((s.inCall 0#64 0#64 p u a l).appended archive).dstLen = BitVec.ofNat 64 archive.length :=
      BitVec.zero_add _
    refine ⟨_, (exec_compress hacc).trans (runBody_of_ok hrun), hbytes,
      fun b hb => houtside b (.inr (hend.trans_le ((Nat.zero_add _).trans_le hb))), ?_⟩
    rw [← hdst]
    rfl
  · have hopen : c ≠ .closed := by
      rintro rfl
      simp at hmem
    obtain ⟨p, u, a, l, hrun⟩ := decompressOf_empty hmem hlen hread
    subst hcodec
    have hacc : Accepted .decompress s := accepted_call (.inr rfl) hopen (congrArg some hmode.symm) hphase
    exact ⟨_, (exec_decompress hacc).trans (runBody_of_ok hrun), rfl⟩

end Sys2Proof.Machine
end

section
/-! The bytes at the source cursor (spec/00_scope.md rule R10, spec/20_memory.md rules R73, R79): what an access takes
of them, what is left of them, and where SRC ends inside a field. -/

namespace Sys2Proof.Machine

/-! ### The number of a big-endian field -/

theorem beValue_beBytes_mod (n v : Nat) : beValue (beBytes n v) = v % 256 ^ n := by
  induction n with
  | zero => rw [pow_zero, Nat.mod_one]; rfl
  | succ n ih =>
    have hpow : (2 : Nat) ^ (8 * n) = 256 ^ n := pow_mul 2 8 n
    rw [beBytes, beValue_cons, beBytes_length, ih, BitVec.toNat_ofNat, Nat.shiftRight_eq_div_pow, hpow,
      Nat.mod_pow_succ (b := 256)]
    ring

/-- A field holds the number it was written from (R73, R74). -/
theorem beValue_beBytes {n v : Nat} (h : v < 256 ^ n) : beValue (beBytes n v) = v := by
  rw [beValue_beBytes_mod, Nat.mod_eq_of_lt h]

theorem Memory.length_of_readBytes {m : Memory} {a n : Nat} {bs : List Byte} (h : Memory.readBytes m a n = some bs) :
    bs.length = n := by
  induction n generalizing a bs with
  | zero =>
    injection h with h
    rw [← h, List.length_nil]
  | succ n ih =>
    unfold Memory.readBytes at h
    split at h
    · cases h
    · split at h
      · cases h
      · rename_i hrest
        injection h with h
        rw [← h, List.length_cons, ih hrest]

/-! ### Bytes taken -/

/-- SRC holds the bytes `bs` from the cursor on, all of them below SRC_LEN. -/
structure State.NextBytes (s : State) (bs : List Byte) : Prop where
  inside : s.srcPos.toNat + bs.length ≤ s.srcLen.toNat
  bytes : Memory.readBytes s.src s.srcPos.toNat bs.length = some bs

/-- The cursor `n` bytes further. -/
def State.advanced (s : State) (n : Nat) : State := { s with srcPos := s.srcPos + BitVec.ofNat 64 n }

section taken
variable {s : State} {xs ys : List Byte}

theorem State.advanced_zero (s : State) : s.advanced 0 = s := by
  rw [State.advanced, BitVec.add_zero]

theorem State.advanced_advanced (s : State) (m n : Nat) : (s.advanced m).advanced n = s.advanced (m + n) := by
  rw [State.advanced, State.advanced, State.advanced, BitVec.ofNat_add, BitVec.add_assoc]

/-- A block of SRC from address 0 on, at the begin of a call. -/
theorem State.NextBytes.of_readBytes (hpos : s.srcPos = 0#64) (hlen : xs.length ≤ s.srcLen.toNat)
    (h : Memory.readBytes s.src 0 xs.length = some xs) : s.NextBytes xs :=
  ⟨by simpa [hpos] using hlen, by simpa [hpos] using h⟩

theorem State.NextBytes.toNat_advanced (h : s.NextBytes xs) :
    (s.advanced xs.length).srcPos.toNat = s.srcPos.toNat + xs.length :=
  dstLen_add (h.inside.trans_lt s.srcLen.isLt)

theorem State.NextBytes.left (h : s.NextBytes (xs ++ ys)) : s.NextBytes xs :=
  ⟨by have := h.inside; rw [List.length_append] at this; omega, (Memory.readBytes_append h.bytes).1⟩

/-- What is left after the first bytes were taken. -/
theorem State.NextBytes.right (h : s.NextBytes (xs ++ ys)) : (s.advanced xs.length).NextBytes ys := by
  have hpos := h.left.toNat_advanced
  refine ⟨?_, ?_⟩
  · have hin := h.inside
    rw [List.length_append] at hin
    rw [hpos]
    exact (Nat.add_assoc ..).trans_le hin
  · rw [hpos]
    exact (Memory.readBytes_append h.bytes).2

/-- The next byte, taken (R10). -/
theorem srcByte_next {b : Byte} (h : s.NextBytes (b :: ys)) : srcByte s = .ok b (s.advanced 1) :=
  srcByte_ok (by have := h.inside; rw [List.length_cons] at this; omega)
    (Memory.read_of_readBytes h.bytes (Nat.succ_pos _))

/-- The next field, taken as a number (R10, R73). -/
theorem srcNext_next {n v : Nat} (hv : v < 256 ^ n) (h : s.NextBytes (beBytes n v ++ ys)) :
    srcNext n s = .ok v (s.advanced n) := by
  have hfield := h.left
  have hin := hfield.inside
  have hread := memRead_of_readBytes hfield.bytes
  rw [beBytes_length] at hin hread
  rw [beValue_beBytes hv] at hread
  exact srcNext_ok hin hread

theorem State.NextBytes.field {n v : Nat} (h : s.NextBytes (beBytes n v ++ ys)) : (s.advanced n).NextBytes ys := by
  have hright := h.right
  rwa [beBytes_length] at hright

end taken

/-! ### SRC ends -/

/-- Fewer bytes left than the field has: IOFailure, and none is taken (R79, R313). -/
theorem srcNext_short {n : Nat} {s : State} (h : s.srcLen.toNat < s.srcPos.toNat + n) :
    srcNext n s = .error (.raise .ioFailure) s := by
  rw [srcNext_apply, if_pos h]

theorem srcByte_short {s : State} (h : s.srcLen.toNat ≤ s.srcPos.toNat) :
    srcByte s = .error (.raise .ioFailure) s := by
  rw [srcByte_apply, if_pos (Nat.lt_succ_of_le h)]

end Sys2Proof.Machine
end

section
/-! HUF.COUNT (spec/42_huffman.md rules R181, R182): the table of counts is the tally of the bytes, and the leaf list is
read off it. -/

namespace Sys2Proof.Machine

/-! ### The leaf list of the unit -/

theorem toList_leafSetAll (t : Vector Leaf 256) (k : Nat) (ls : List Leaf) (h : k + ls.length ≤ 256) :
    (leafSetAll t k ls).toList = t.toList.take k ++ ls ++ t.toList.drop (k + ls.length) := by
  induction ls generalizing t k with
  | nil => simp [leafSetAll]
  | cons l ls ih =>
    rw [List.length_cons] at h
    have hk : k < t.toList.length := by rw [Vector.length_toList]; omega
    have hset : (leafSet t k l).toList = t.toList.take k ++ l :: t.toList.drop (k + 1) := by
      rw [leafSet, Vector.toList_setIfInBounds, List.set_eq_take_append_cons_drop, if_pos hk]
    have htake : (t.toList.take k).length = k := List.length_take_of_le hk.le
    have hone : k + 1 - k = 0 + 1 := by omega
    have hmore : k + 1 + ls.length - k = ls.length + 1 := by omega
    have hall : k + (ls.length + 1) = k + 1 + ls.length := by omega
    rw [leafSetAll, ih _ _ (by omega), hset, List.take_append, List.drop_append, htake,
      List.take_of_length_le (l := t.toList.take k) (by omega),
      List.drop_eq_nil_of_le (as := t.toList.take k) (by omega), hone, hmore, List.length_cons, hall]
    simp

/-- LEAF[0], LEAF[1], ... and LEAFCNT written from a list. -/
def HufUnit.setLeaves (u : HufUnit) (ls : List Leaf) : HufUnit :=
  { u with leaf := leafSetAll u.leaf 0 ls, leafCnt := leafCount ls.length }

theorem val_leafCount {n : Nat} (h : n ≤ 256) : (leafCount n).val = n := Nat.mod_eq_of_lt (Nat.lt_succ_of_le h)

theorem HufUnit.leaves_setLeaves (u : HufUnit) {ls : List Leaf} (h : ls.length ≤ 256) :
    (u.setLeaves ls).leaves = ls := by
  rw [HufUnit.leaves, HufUnit.setLeaves, toList_leafSetAll _ _ _ ((Nat.zero_add _).trans_le h), val_leafCount h,
    List.take_zero, List.nil_append, List.take_left]

/-! ### Counting -/

/-- `s` with another Huffman unit. -/
def State.setHuf (s : State) (u : HufUnit) : State := { s with huf := u }

/-- The table with the bytes `bs` tallied (R181). -/
def tallied (t : Vector U32 256) (bs : List Byte) : Vector U32 256 :=
  bs.foldl (fun t b => tabSet t b (tabGet t b + 1#32)) t

theorem tabGet_tallied (t : Vector U32 256) (bs : List Byte) (c : Byte) :
    tabGet (tallied t bs) c = tabGet t c + BitVec.ofNat 32 (bs.count c) := by
  induction bs generalizing t with
  | nil => exact (BitVec.add_zero _).symm
  | cons b bs ih =>
    have hfirst : tabGet (tabSet t b (tabGet t b + 1#32)) c = tabGet t c + if b = c then 1#32 else 0#32 := by
      rw [tabGet_tabSet]
      by_cases h : b = c
      · simp [h]
      · simp [h, Ne.symm h]
    show tabGet (tallied (tabSet t b (tabGet t b + 1#32)) bs) c = _
    rw [ih, hfirst, List.count_cons, BitVec.ofNat_add]
    by_cases h : b = c
    · simp only [h, if_true, beq_self_eq_true]
      rw [BitVec.add_assoc, BitVec.add_comm 1#32]
    · simp [h]

theorem hufTally_next {s : State} {bs : List Byte} (h : s.NextBytes bs) :
    hufTally bs.length s
      = .ok () ((s.advanced bs.length).setHuf { s.huf with cnt := tallied s.huf.cnt bs }) := by
  induction bs generalizing s with
  | nil =>
    rw [List.length_nil, State.advanced_zero]
    rfl
  | cons b bs ih =>
    have hrest := h.right (xs := [b])
    rw [List.length_cons, Nat.add_comm, ← State.advanced_advanced, Nat.add_comm]
    exact Act.bind_eq_of_ok (srcByte_next h) <| Act.bind_eq_of_ok (Act.write_apply _ _) <|
      ih (s := (s.advanced 1).setHuf _) ⟨hrest.inside, hrest.bytes⟩

/-! ### The leaf list of a table of counts -/

theorem leavesFrom_map_range' (f : Nat → U32) (k n : Nat) :
    leavesFrom k ((List.range' k n).map f)
      = (List.range' k n).filterMap fun i => if f i = 0#32 then none else some ⟨BitVec.ofNat 8 i, f i⟩ := by
  induction n generalizing k with
  | zero => rfl
  | succ n ih =>
    rw [List.range'_succ, List.map_cons, leavesFrom, ih, List.filterMap_cons]
    by_cases h : f k = 0#32 <;> simp [h]

/-- The table of counts of the bytes `bs` lists their values, ascending (R182). -/
theorem leavesOf_eq_tallyLeaves {cnt : Vector U32 256} {bs : List Byte} (hlen : bs.length < 2 ^ 32)
    (h : ∀ c, tabGet cnt c = BitVec.ofNat 32 (bs.count c)) : leavesOf cnt = tallyLeaves bs := by
  have hlist : cnt.toList = (List.range' 0 256).map fun k => BitVec.ofNat 32 (bs.count (BitVec.ofNat 8 k)) := by
    refine List.ext_getElem (by simp) fun k hk _ => ?_
    rw [Vector.length_toList] at hk
    have hbyte : (BitVec.ofNat 8 k).toNat = k := Nat.mod_eq_of_lt hk
    have hcount := h (BitVec.ofNat 8 k)
    simp only [tabGet, hbyte] at hcount
    simpa using hcount
  rw [leavesOf, hlist, leavesFrom_map_range', ← List.range_eq_range', tallyLeaves]
  refine List.filterMap_congr fun k _ => ?_
  have hcount : bs.count (BitVec.ofNat 8 k) < 2 ^ 32 := List.count_le_length.trans_lt hlen
  have hzero : BitVec.ofNat 32 (bs.count (BitVec.ofNat 8 k)) = 0#32 ↔ bs.count (BitVec.ofNat 8 k) = 0 := by
    rw [← BitVec.toNat_inj, BitVec.toNat_ofNat, BitVec.toNat_ofNat, Nat.mod_eq_of_lt hcount, Nat.zero_mod]
  simp only [hzero]

theorem length_tallyLeaves_le (bs : List Byte) : (tallyLeaves bs).length ≤ 256 :=
  (List.length_filterMap_le ..).trans_eq List.length_range

/-! ### HUF.COUNT -/

/-- The unit after the bytes `bs` were counted. -/
def HufUnit.counted (u : HufUnit) (bs : List Byte) : HufUnit :=
  { u with cnt := tallied (Vector.replicate 256 0#32) bs }.setLeaves (tallyLeaves bs)

theorem HufUnit.tabGet_cnt_counted (u : HufUnit) (bs : List Byte) (c : Byte) :
    tabGet (u.counted bs).cnt c = BitVec.ofNat 32 (bs.count c) := by
  show tabGet (tallied _ bs) c = _
  rw [tabGet_tallied, tabGet, Vector.getElem_replicate, BitVec.zero_add]

theorem HufUnit.leaves_counted (u : HufUnit) (bs : List Byte) : (u.counted bs).leaves = tallyLeaves bs :=
  HufUnit.leaves_setLeaves _ (length_tallyLeaves_le bs)

/-- The state after HUF.COUNT of the source bytes `bs` (R181). -/
def State.counted (s : State) (bs : List Byte) : State :=
  { s.beginCall with srcPos := s.srcLen, huf := s.huf.counted bs }.setPhase .hCounted

theorem hufCountBody_ok {s : State} {bs : List Byte} (hlen : s.srcLen.toNat ≤ 2 ^ 32 - 1)
    (hread : Memory.readBytes s.src 0 s.srcLen.toNat = some bs) : hufCountBody s = .ok () (s.counted bs) := by
  have hbs := Memory.length_of_readBytes hread
  have hnext : s.beginCall.NextBytes bs := .of_readBytes rfl hbs.le (by rwa [hbs])
  have hpos : (0#64 : U64) + BitVec.ofNat 64 bs.length = s.srcLen := by
    rw [BitVec.zero_add, hbs, BitVec.ofNat_toNat, BitVec.setWidth_eq]
  have hform : ({ s.huf with cnt := tallied (Vector.replicate 256 0#32) bs } : HufUnit).formLeafList
      = s.huf.counted bs := by
    have hleaves : leavesOf (tallied (Vector.replicate 256 0#32) bs) = tallyLeaves bs :=
      leavesOf_eq_tallyLeaves (by omega) (s.huf.tabGet_cnt_counted bs)
    rw [HufUnit.counted, ← hleaves]
    rfl
  refine Act.bind_eq_of_ok (Act.write_apply _ s) <| Act.bind_eq_of_ok (Act.state_apply _) ?_
  rw [State.beginCall_srcLen, ← hbs, if_neg (by simp only [Config.hufMaxSrc]; omega)]
  refine Act.bind_eq_of_ok (Act.write_apply _ _) <|
    Act.bind_eq_of_ok (hufTally_next (s := s.beginCall.setHuf s.huf.clearCnt) ⟨hnext.inside, hnext.bytes⟩) <|
      Act.bind_eq_of_ok (Act.write_apply _ _) <| congrArg (EStateM.Result.ok ()) ?_
  rw [State.counted, ← hform, ← hpos]
  rfl

/-- In a Huffman session HUF.COUNT and HUF.RDHDR are accepted between calls of their direction (R181, R190). -/
theorem accepted_hufCall {i : Instr} {s : State} (hi : i = .hufCount ∨ i = .hufRdhdr) (hcodec : s.codec = .huf)
    (hmode : directionFor i = some s.mode) (hphase : s.between) : Accepted i s := by
  have halive : s.phase ≠ .fault := by rcases hphase with e | e <;> rw [e] <;> decide
  rcases hi with rfl | rfl <;>
    exact ⟨List.mem_singleton.2 hcodec, List.mem_pair.2 hphase, fun _ hm => Option.some.inj (hmode.symm.trans hm),
      halive⟩

/-- Settles O30: the bytes are tallied one after another, and the leaf list is read off the table of counts. -/
theorem hufCountTallies : Obligations.HufCountTallies := by
  unfold Obligations.HufCountTallies
  intro s bs hcodec hmode hphase hlen hread
  have hacc : Accepted .hufCount s := accepted_hufCall (.inl rfl) hcodec (congrArg some hmode.symm) hphase
  have hbs := Memory.length_of_readBytes hread
  refine ⟨s.counted bs, (hacc.exec_eq rfl rfl).trans (runBody_of_ok (hufCountBody_ok hlen hread)), fun c => ?_,
    s.huf.leaves_counted bs, ?_⟩
  · have hcount : bs.count c ≤ bs.length := List.count_le_length
    exact (congrArg BitVec.toNat (s.huf.tabGet_cnt_counted bs c)).trans (Nat.mod_eq_of_lt (by omega))
  · have hsize : s.beginCall.origSize = s.srcLen := by rw [State.beginCall_origSize, hmode]
    exact congrArg (fun size : U64 => { s.counted bs with origSize := size }) hsize

end Sys2Proof.Machine
end

section
/-! HUF.BUILD (spec/42_huffman.md rules R183 to R186, R192, R193): each merge takes the two least waiting nodes, so the
merge loop builds the tree of the leaf list; with weights that add up to a u32 it meets no UNSPEC point. -/

namespace Sys2Proof.Machine

/-! ### The priority order -/

section order
variable {ns : List Node} {i j k : Nat}

theorem nodeBefore_iff : nodeBefore ns i j = true ↔ comesBefore ns i j := by
  simp [nodeBefore, comesBefore]

theorem comesBefore_trans (h : comesBefore ns i j) (h' : comesBefore ns j k) : comesBefore ns i k := by
  unfold comesBefore at *
  omega

/-- The order is total (R184). -/
theorem comesBefore_of_not (h : ¬comesBefore ns i j) (hne : j ≠ i) : comesBefore ns j i := by
  unfold comesBefore at *
  omega

/-- The node waits, and comes before every other that waits. -/
def Least (ns : List Node) (q : List Nat) (a : Nat) : Prop := a ∈ q ∧ ∀ j ∈ q, j ≠ a → comesBefore ns a j

theorem least_singleton : Least ns [i] i :=
  ⟨List.mem_singleton_self i, fun _ hj hne => absurd (List.mem_singleton.1 hj) hne⟩

/-- The least of a list, where one more node waits that does not come first. -/
theorem Least.cons_of_before {q : List Nat} {a : Nat} (h : Least ns (i :: q) a) (hij : i ≠ j → comesBefore ns i j) :
    Least ns (i :: j :: q) a := by
  obtain ⟨ha, hleast⟩ := h
  refine ⟨?_, fun m hm hne => ?_⟩
  · rcases List.mem_cons.1 ha with rfl | ha
    · exact List.mem_cons_self
    · exact List.mem_cons_of_mem _ (List.mem_cons_of_mem _ ha)
  · rcases List.mem_cons.1 hm with rfl | hm
    · exact hleast m List.mem_cons_self hne
    · rcases List.mem_cons.1 hm with rfl | hm
      · by_cases hai : i = a
        · exact hai ▸ hij (hai ▸ hne.symm)
        · by_cases him : i = m
          · exact him ▸ hleast i List.mem_cons_self hai
          · exact comesBefore_trans (hleast i List.mem_cons_self hai) (hij him)
      · exact hleast m (List.mem_cons_of_mem _ hm) hne

theorem least_leastOf (ns : List Node) (i : Nat) (q : List Nat) : Least ns (i :: q) (leastOf ns i q) := by
  induction q generalizing i with
  | nil => exact least_singleton
  | cons j q ih =>
    unfold leastOf
    split
    · rename_i hbefore
      obtain ⟨hmem, hleast⟩ := (ih j).cons_of_before (j := i) fun _ => nodeBefore_iff.1 hbefore
      have hswap : ∀ {m}, m ∈ i :: j :: q ↔ m ∈ j :: i :: q := (List.Perm.swap j i q).mem_iff
      exact ⟨hswap.2 hmem, fun m hm => hleast m (hswap.1 hm)⟩
    · rename_i hbefore
      exact (ih i).cons_of_before fun hne => comesBefore_of_not (nodeBefore_iff.not.1 hbefore) hne

/-- `popmin` of a nonempty queue gives its least node, and the others (R184). -/
theorem popMin_least {q : List Nat} (h : q ≠ []) : ∃ a, popMin ns q = some (a, q.erase a) ∧ Least ns q a := by
  cases q with
  | nil => exact absurd rfl h
  | cons i q => exact ⟨leastOf ns i q, rfl, least_leastOf ns i q⟩

end order

/-! ### One merge -/

/-- The node over two others (R183). -/
def mergedNode (ns : List Node) (a b : Nat) : Node := joinNode (BitVec.ofNat 32 (weightAt ns a + weightAt ns b)) a b

section merge
variable {ns : List Node} {q : List Nat}

theorem sum_map_erase_erase {f : Nat → Nat} {a b : Nat} (ha : a ∈ q) (hb : b ∈ q.erase a) :
    f a + f b + (((q.erase a).erase b).map f).sum = (q.map f).sum := by
  rw [← List.sum_map_erase f ha, ← List.sum_map_erase f hb, Nat.add_assoc]

/-- With two nodes waiting and weights within u32, the two least are merged (R183, R186). -/
theorem mergeStep_least (hq : 2 ≤ q.length) (hw : (q.map (weightAt ns)).sum < 2 ^ 32) : ∃ a b,
    mergeStep ns q = .ok (some (ns ++ [mergedNode ns a b], (q.erase a).erase b ++ [ns.length]))
      ∧ Least ns q a ∧ Least ns (q.erase a) b ∧ weightAt ns a + weightAt ns b < 2 ^ 32 := by
  obtain ⟨a, hpop, ha⟩ := popMin_least (ns := ns) (List.ne_nil_of_length_pos (by omega : 0 < q.length))
  have hlen : (q.erase a).length = q.length - 1 := List.length_erase_of_mem ha.1
  obtain ⟨b, hpop', hb⟩ := popMin_least (ns := ns) (List.ne_nil_of_length_pos (by omega : 0 < (q.erase a).length))
  have hsum : weightAt ns a + weightAt ns b < 2 ^ 32 := by
    have := sum_map_erase_erase (f := weightAt ns) ha.1 hb.1
    omega
  refine ⟨a, b, ?_, ha, hb, hsum⟩
  unfold mergeStep
  rw [hpop]
  dsimp only
  rw [hpop']
  exact if_pos hsum

/-- With fewer than two nodes waiting there is nothing to merge. -/
theorem mergeStep_short (hq : q.length ≤ 1) : mergeStep ns q = .ok none := by
  match q with
  | [] => rfl
  | [i] => simp [mergeStep, popMin, leastOf]
  | _ :: _ :: _ => simp at hq

end merge

/-! ### What stays when a node is appended -/

section append
variable {ls : List Leaf} {ns ms : List Node} {n i : Nat}

theorem weightAt_append (h : i < ns.length) : weightAt (ns ++ ms) i = weightAt ns i := by
  rw [weightAt, List.getElem?_append_left h, weightAt]

theorem comesBefore_append {j : Nat} (hi : i < ns.length) (hj : j < ns.length) :
    comesBefore (ns ++ ms) i j ↔ comesBefore ns i j := by
  rw [comesBefore, weightAt_append hi, weightAt_append hj, comesBefore]

theorem waits_append (h : n ≤ ns.length) : waits ls (ns ++ ms) n i ↔ waits ls ns n i := by
  refine and_congr_right fun _ => forall₂_congr fun m x => forall₂_congr fun _ hm => ?_
  rw [List.getElem?_append_left (hm.trans_le h)]

/-- What BuiltTree says of the internal node `x` at `n`: it is the merge of the two least waiting nodes. -/
def MergeAt (ls : List Leaf) (ns : List Node) (n : Nat) (x : Node) : Prop :=
  x.leaf = false ∧ x.dummy = false ∧ x.weight.toNat = weightAt ns x.left + weightAt ns x.right
    ∧ waits ls ns n x.left ∧ waits ls ns n x.right ∧ x.left ≠ x.right
    ∧ (∀ j, waits ls ns n j → j ≠ x.left → comesBefore ns x.left j)
    ∧ ∀ j, waits ls ns n j → j ≠ x.left → j ≠ x.right → comesBefore ns x.right j

theorem MergeAt.append {x : Node} (h : MergeAt ls ns n x) (hn : n ≤ ns.length) : MergeAt ls (ns ++ ms) n x := by
  obtain ⟨hleaf, hdummy, hweight, hleft, hright, hne, hfirst, hsecond⟩ := h
  have hl : x.left < ns.length := hleft.1.trans_le hn
  have hr : x.right < ns.length := hright.1.trans_le hn
  refine ⟨hleaf, hdummy, ?_, (waits_append hn).2 hleft, (waits_append hn).2 hright, hne, fun j hj hjl => ?_,
    fun j hj hjl hjr => ?_⟩
  · rw [weightAt_append hl, weightAt_append hr, hweight]
  · have hj := (waits_append hn).1 hj
    exact (comesBefore_append hl (hj.1.trans_le hn)).2 (hfirst j hj hjl)
  · have hj := (waits_append hn).1 hj
    exact (comesBefore_append hr (hj.1.trans_le hn)).2 (hsecond j hj hjl hjr)

end append

/-! ### The merge loop -/

/-- The arena while the tree of the leaf list `ls` grows: `q` holds the waiting nodes, every internal node is the
merge of two, and the waiting nodes weigh what the leaves weigh. -/
structure Growing (ls : List Leaf) (ns : List Node) (q : List Nat) : Prop where
  merging : Merging (firstInternal ls) ns q
  start : ∀ i, i < firstInternal ls → ns[i]? = (startNodes ls)[i]?
  distinct : q.Nodup
  waiting : ∀ i, i ∈ q ↔ waits ls ns ns.length i
  merges : ∀ n x, firstInternal ls ≤ n → ns[n]? = some x → MergeAt ls ns n x
  weight : (q.map (weightAt ns)).sum = (ls.map fun l => l.weight.toNat).sum

theorem map_weightAt_range (ns : List Node) :
    (List.range ns.length).map (weightAt ns) = ns.map fun x => x.weight.toNat := by
  refine List.ext_getElem (by simp) fun i hi _ => ?_
  have hlt : i < ns.length := by simpa using hi
  simp [weightAt, List.getElem?_eq_getElem hlt]

theorem sum_weight_startNodes (ls : List Leaf) :
    ((startNodes ls).map fun x => x.weight.toNat).sum = (ls.map fun l => l.weight.toNat).sum := by
  unfold startNodes
  split <;> simp [Function.comp_def, leafNode, dummyNode]

theorem growing_start (ls : List Leaf) :
    Growing ls (startNodes ls) (List.range (startNodes ls).length) where
  merging := merging_start ls
  start _ _ := rfl
  distinct := List.nodup_range
  waiting i := by
    rw [List.mem_range, startNodes_length]
    exact ⟨fun h => ⟨h, fun m _ hm hlt _ => absurd hlt (Nat.not_lt.2 hm)⟩, fun h => h.1⟩
  merges n x hn hx := by
    rw [List.getElem?_eq_none (by rwa [startNodes_length])] at hx
    cases hx
  weight := by rw [map_weightAt_range, sum_weight_startNodes]

section growing
variable {ls : List Leaf} {ns : List Node} {q : List Nat}

theorem Growing.firstInternal_le (h : Growing ls ns q) : firstInternal ls ≤ ns.length := by
  have := h.merging.size
  omega

/-- The nodes that wait once `a` and `b` are merged: the others, and the new one. -/
theorem Growing.waits_merged (h : Growing ls ns q) {a b i : Nat} (ha : a ∈ q) (hb : b ∈ q) :
    waits ls (ns ++ [mergedNode ns a b]) (ns.length + 1) i
      ↔ (i ∈ q ∧ i ≠ a ∧ i ≠ b) ∨ i = ns.length := by
  have hnew : (ns ++ [mergedNode ns a b])[ns.length]? = some (mergedNode ns a b) := List.getElem?_concat_length
  constructor
  · rintro ⟨hlt, hfree⟩
    refine (Nat.lt_succ_iff_lt_or_eq.1 hlt).imp_left fun hi => ?_
    obtain ⟨hl, hr⟩ := hfree _ _ h.firstInternal_le (Nat.lt_succ_self _) hnew
    refine ⟨(h.waiting i).2 ((waits_append le_rfl).1 ⟨hi, fun m x hm hlt => hfree m x hm (by omega)⟩), ?_, ?_⟩
    · exact fun e => hl e.symm
    · exact fun e => hr e.symm
  · intro hi
    have hlt : i < ns.length + 1 := by
      rcases hi with ⟨hi, -⟩ | rfl
      · exact Nat.lt_succ_of_lt (h.merging.inside i hi)
      · exact Nat.lt_succ_self _
    refine ⟨hlt, fun m x hm hmlt hx => ?_⟩
    rcases Nat.lt_succ_iff_lt_or_eq.1 hmlt with hmlt | rfl
    · rw [List.getElem?_append_left hmlt] at hx
      rcases hi with ⟨hi, -⟩ | rfl
      · exact ((h.waiting i).1 hi).2 m x hm hmlt hx
      · obtain ⟨hleaf, -⟩ := h.merges m x hm hx
        obtain ⟨hl, hr⟩ := h.merging.ordered m x hx hleaf
        omega
    · obtain rfl : mergedNode ns a b = x := Option.some.inj (hnew.symm.trans hx)
      rcases hi with ⟨-, hia, hib⟩ | rfl
      · exact ⟨hia.symm, hib.symm⟩
      · exact ⟨(h.merging.inside a ha).ne, (h.merging.inside b hb).ne⟩

/-- The new node is the merge of the two least waiting nodes. -/
theorem Growing.mergeAt_new (h : Growing ls ns q) {a b : Nat} (ha : Least ns q a) (hb : Least ns (q.erase a) b)
    (hw : weightAt ns a + weightAt ns b < 2 ^ 32) :
    MergeAt ls (ns ++ [mergedNode ns a b]) ns.length (mergedNode ns a b) := by
  obtain ⟨hamem, haleast⟩ := ha
  obtain ⟨hbmem, hbleast⟩ := hb
  have hrest : ∀ j, j ∈ q.erase a ↔ j ≠ a ∧ j ∈ q := fun j => h.distinct.mem_erase_iff
  obtain ⟨hba, hbq⟩ := (hrest b).1 hbmem
  refine MergeAt.append ⟨rfl, rfl, Nat.mod_eq_of_lt hw, (h.waiting a).1 hamem, (h.waiting b).1 hbq, hba.symm,
    fun j hj hja => haleast j ((h.waiting j).2 hj) hja, fun j hj hja hjb => ?_⟩ le_rfl
  exact hbleast j ((hrest j).2 ⟨hja, (h.waiting j).2 hj⟩) hjb

/-- One merge of the two least waiting nodes keeps the tree growing. -/
theorem Growing.step (h : Growing ls ns q) {a b : Nat}
    (e : mergeStep ns q = .ok (some (ns ++ [mergedNode ns a b], (q.erase a).erase b ++ [ns.length])))
    (ha : Least ns q a) (hb : Least ns (q.erase a) b) (hw : weightAt ns a + weightAt ns b < 2 ^ 32) :
    Growing ls (ns ++ [mergedNode ns a b]) ((q.erase a).erase b ++ [ns.length]) := by
  have hbq : b ∈ q := List.mem_of_mem_erase hb.1
  have hmem : ∀ i, i ∈ (q.erase a).erase b ↔ i ∈ q ∧ i ≠ a ∧ i ≠ b := fun i => by
    rw [(h.distinct.erase a).mem_erase_iff, h.distinct.mem_erase_iff]
    tauto
  have hinside : ∀ i ∈ (q.erase a).erase b, i < ns.length := fun i hi => h.merging.inside i ((hmem i).1 hi).1
  refine ⟨(h.merging.step e).1, fun i hi => ?_, ?_, fun i => ?_, fun n x hn hx => ?_, ?_⟩
  · rw [List.getElem?_append_left (hi.trans_le h.firstInternal_le), h.start i hi]
  · refine List.nodup_append.2 ⟨(h.distinct.erase a).erase b, List.nodup_singleton _, fun i hi j hj => ?_⟩
    exact (List.mem_singleton.1 hj).symm ▸ (hinside i hi).ne
  · rw [List.length_append, List.length_singleton, h.waits_merged ha.1 hbq, List.mem_append, List.mem_singleton, hmem]
  · rcases Nat.lt_trichotomy n ns.length with hlt | rfl | hgt
    · rw [List.getElem?_append_left hlt] at hx
      exact (h.merges n x hn hx).append hlt.le
    · rw [List.getElem?_concat_length] at hx
      exact Option.some.inj hx ▸ h.mergeAt_new ha hb hw
    · rw [List.getElem?_eq_none (by simp; omega)] at hx
      cases hx
  · have hold : ((q.erase a).erase b).map (weightAt (ns ++ [mergedNode ns a b]))
        = ((q.erase a).erase b).map (weightAt ns) :=
      List.map_congr_left fun i hi => weightAt_append (hinside i hi)
    have hnew : weightAt (ns ++ [mergedNode ns a b]) ns.length = weightAt ns a + weightAt ns b := by
      rw [weightAt, List.getElem?_concat_length]
      exact Nat.mod_eq_of_lt hw
    rw [← h.weight, ← sum_map_erase_erase (f := weightAt ns) ha.1 hb.1, List.map_append, List.sum_append, hold]
    simp [hnew, Nat.add_comm]

/-- The merge loop meets no UNSPEC point and ends with at most one node waiting. -/
theorem Growing.mergeAll_ok {n : Nat} (h : Growing ls ns q) (hw : (ls.map fun l => l.weight.toNat).sum < 2 ^ 32)
    (hn : q.length ≤ n) : ∃ ns' q', mergeAll n ns q = .ok (ns', q') ∧ Growing ls ns' q' ∧ q'.length ≤ 1 := by
  induction n generalizing ns q with
  | zero => exact ⟨ns, q, rfl, h, by omega⟩
  | succ n ih =>
    unfold mergeAll
    by_cases hq : q.length ≤ 1
    · rw [mergeStep_short hq]
      exact ⟨ns, q, rfl, h, hq⟩
    · obtain ⟨a, b, e, ha, hb, hab⟩ := mergeStep_least (Nat.lt_of_not_le hq) (h.weight.trans_lt hw)
      have hlt := (h.merging.step e).2
      rw [e]
      exact ih (h.step e ha hb hab) (by omega)

/-! ### The finished tree -/

/-- Only merges are internal (R183). -/
theorem Growing.firstInternal_le_of_internal (h : Growing ls ns q) {n : Nat} {x : Node} (hx : ns[n]? = some x)
    (hl : x.leaf = false) : firstInternal ls ≤ n := by
  by_contra hn
  have hleaf := startNodes_leaf ls x (List.mem_of_getElem? ((h.start n (by omega)).symm.trans hx))
  rw [hleaf] at hl
  cases hl

/-- The loop is over: nothing waits, or the last node alone. -/
theorem Growing.queue_eq (h : Growing ls ns q) (hq : q.length ≤ 1) :
    (firstInternal ls = 0 ∧ ns = [] ∧ q = [])
      ∨ (2 ≤ firstInternal ls ∧ ns.length + 1 = 2 * firstInternal ls ∧ q = [ns.length - 1]) := by
  have hsize := h.merging.size
  have hwait := h.merging.waiting
  have hone := firstInternal_ne_one ls
  by_cases h0 : firstInternal ls = 0
  · exact .inl ⟨h0, List.eq_nil_of_length_eq_zero (by omega), List.eq_nil_of_length_eq_zero (by omega)⟩
  · obtain hnone | ⟨q0, -, rfl, -⟩ := h.merging.newest
    · omega
    · rw [List.length_append, List.length_singleton] at hq hwait
      obtain rfl : q0 = [] := List.eq_nil_of_length_eq_zero (by omega)
      rw [List.length_nil] at hwait
      exact .inr ⟨by omega, by omega, rfl⟩

theorem getElem?_startNodes {k : Nat} {l : Leaf} (h : ls[k]? = some l) : (startNodes ls)[k]? = some (leafNode l) := by
  have hmap : (ls.map leafNode)[k]? = some (leafNode l) := by rw [List.getElem?_map, h, Option.map_some]
  unfold startNodes
  split
  · rwa [List.getElem?_append_left (List.getElem?_eq_some_iff.1 hmap).1]
  · exact hmap

theorem getElem?_one_startNodes (h : ls.length = 1) : (startNodes ls)[1]? = some dummyNode := by
  have hlen : (ls.map leafNode).length = 1 := by rw [List.length_map, h]
  rw [startNodes, if_pos h, List.getElem?_append_right hlen.le, hlen]
  rfl

theorem length_le_firstInternal (ls : List Leaf) : ls.length ≤ firstInternal ls := by
  unfold firstInternal
  split <;> omega

theorem Growing.builtTree (h : Growing ls ns q) (hq : q.length ≤ 1) : BuiltTree ls ns q.head? := by
  have hfirst : firstInternal ls = if ls.length = 1 then 2 else ls.length := rfl
  have hle := length_le_firstInternal ls
  refine ⟨?_, ?_, fun k l hl => ?_, fun hone => ?_, h.merges⟩
  · obtain ⟨h0, rfl, -⟩ | ⟨h2, hlen, -⟩ := h.queue_eq hq
    · rw [if_pos (by omega)]
      rfl
    · split at hfirst
      · rename_i hone
        rw [if_neg (by omega), if_pos hone]
        omega
      · rename_i hne
        rw [if_neg (by omega), if_neg hne]
        omega
  · obtain ⟨h0, -, rfl⟩ | ⟨h2, -, rfl⟩ := h.queue_eq hq
    · rw [if_pos (by omega)]
      rfl
    · rw [if_neg (by split at hfirst <;> omega)]
      rfl
  · have hk : k < ls.length := (List.getElem?_eq_some_iff.1 hl).1
    rw [h.start k (by omega), getElem?_startNodes hl]
    rfl
  · rw [h.start 1 (by rw [if_pos hone] at hfirst; omega), getElem?_one_startNodes hone]
    rfl

/-- Node `n` is internal, and `i` is a child of it. -/
def IsParent (ns : List Node) (n i : Nat) : Prop :=
  ∃ x : Node, ns[n]? = some x ∧ x.leaf = false ∧ (x.left = i ∨ x.right = i)

/-- Two merges do not take the same node: the later one takes waiting nodes (R183). -/
theorem Growing.not_isParent_of_lt (h : Growing ls ns q) {m n i : Nat} (hm : IsParent ns m i) (hn : IsParent ns n i) :
    ¬m < n := by
  obtain ⟨x, hx, hxl, hxi⟩ := hm
  obtain ⟨y, hy, hyl, hyi⟩ := hn
  intro hlt
  obtain ⟨-, -, -, hleft, hright, -⟩ := h.merges n y (h.firstInternal_le_of_internal hy hyl) hy
  have hwaits : waits ls ns n i := by
    rcases hyi with rfl | rfl
    · exact hleft
    · exact hright
  obtain ⟨hl, hr⟩ := hwaits.2 m x (h.firstInternal_le_of_internal hx hxl) hlt hx
  exact hxi.elim hl hr

/-- Every node but the last has a parent, one alone (R192). -/
theorem Growing.exists_unique_parent (h : Growing ls ns q) (hq : q.length ≤ 1) {i : Nat} (hi : i + 1 < ns.length) :
    ∃ n, IsParent ns n i ∧ ∀ m, IsParent ns m i → m = n := by
  have hnot : i ∉ q := by
    obtain ⟨-, -, rfl⟩ | ⟨-, -, rfl⟩ := h.queue_eq hq
    · exact List.not_mem_nil
    · rw [List.mem_singleton]
      omega
  have htaken : ¬waits ls ns ns.length i := (h.waiting i).not.1 hnot
  simp only [waits, not_and, not_forall] at htaken
  obtain ⟨n, x, hn, -, hx, hchild⟩ := htaken (by omega)
  obtain ⟨hleaf, -⟩ := h.merges n x hn hx
  have hparent : IsParent ns n i := ⟨x, hx, hleaf, by tauto⟩
  refine ⟨n, hparent, fun m hm => Nat.le_antisymm ?_ ?_⟩
  · exact Nat.le_of_not_lt (h.not_isParent_of_lt hparent hm)
  · exact Nat.le_of_not_lt (h.not_isParent_of_lt hm hparent)

/-- ROOT weighs what the leaves weigh (R192). -/
theorem Growing.weight_root (h : Growing ls ns q) (hq : q.length ≤ 1) {r : Nat} (hr : q.head? = some r) :
    weightAt ns r = (ls.map fun l => l.weight.toNat).sum := by
  obtain ⟨-, -, rfl⟩ | ⟨-, -, rfl⟩ := h.queue_eq hq
  · cases hr
  · obtain rfl := Option.some.inj hr
    simpa using h.weight

end growing

/-! ### HUF.BUILD -/

/-- The tree of a leaf list whose weights add up to a u32. -/
theorem buildTree_growing {ls : List Leaf} (hw : (ls.map fun l => l.weight.toNat).sum < 2 ^ 32) :
    ∃ ns q, buildTree ls = .ok (ns, q.head?) ∧ Growing ls ns q ∧ q.length ≤ 1 := by
  obtain ⟨ns, q, e, h, hq⟩ := (growing_start ls).mergeAll_ok hw List.length_range.le
  refine ⟨ns, q, ?_, h, hq⟩
  unfold buildTree
  dsimp only
  rw [e]

/-- The unit with the arena and the root of a tree. -/
def HufUnit.setTree (u : HufUnit) (ns : List Node) (root : Option Nat) : HufUnit := { u with node := ns, root := root }

theorem hufBuildBody_ok {s : State} {ns : List Node} {root : Option Nat}
    (h : buildTree s.huf.leaves = .ok (ns, root)) :
    hufBuildBody s = .ok () ((s.setHuf (s.huf.setTree ns root)).setPhase (builtPhase s.phase)) := by
  unfold hufBuildBody
  rw [Act.bind_of_ok (Act.state_apply s), h]
  rfl

/-- Settles O31: the merge loop keeps the tree growing, and where it ends the last node alone waits. -/
theorem hufBuildMakesTree : Obligations.HufBuildMakesTree := by
  unfold Obligations.HufBuildMakesTree
  intro s hcodec hphase hw
  obtain ⟨ns, q, e, h, hq⟩ := buildTree_growing hw
  have hacc : Accepted .hufBuild s := ⟨List.mem_singleton.2 hcodec, List.mem_pair.2 hphase, nofun,
    by rcases hphase with e | e <;> rw [e] <;> decide⟩
  refine ⟨_, (hacc.exec_eq rfl rfl).trans (runBody_of_ok (hufBuildBody_ok e)), h.builtTree hq,
    (buildTree_ok s.huf.leaves_length e).2, fun i hi => ?_, fun r hr => h.weight_root hq hr, rfl⟩
  obtain ⟨n, ⟨x, hx, hleaf, hchild⟩, hunique⟩ := h.exists_unique_parent hq hi
  exact ⟨n, x, hx, hleaf, hchild, fun m y hy hyleaf hychild => hunique m ⟨y, hy, hyleaf, hychild⟩⟩

end Sys2Proof.Machine
end

section
/-! HUF.CODES (spec/42_huffman.md rule R187): the walk over an ordered arena ends, it gives each symbol a path to a leaf
of it, and no path to a leaf begins another. -/

namespace Sys2Proof.Machine

/-! ### Paths -/

section paths
variable {ns : List Node} {i : Nat} {p q : List Bool} {x y : Node}

/-- A path to a leaf goes on nowhere, and it leads to one leaf. -/
theorem leadsTo_append (h : leadsTo ns i p x) (h' : leadsTo ns i (p ++ q) y) : q = [] ∧ x = y := by
  induction p generalizing i with
  | nil =>
    obtain ⟨hx, hxl⟩ := h
    cases q with
    | nil => exact ⟨rfl, Option.some.inj (hx.symm.trans h'.1)⟩
    | cons b q =>
      obtain ⟨z, hz, hzl, -⟩ := h'
      obtain rfl := Option.some.inj (hx.symm.trans hz)
      rw [hxl] at hzl
      cases hzl
  | cons b p ih =>
    obtain ⟨z, hz, -, hrest⟩ := h
    obtain ⟨z', hz', -, hrest'⟩ := h'
    obtain rfl := Option.some.inj (hz.symm.trans hz')
    exact ih hrest hrest'

/-- In an ordered arena each edge of a path leads to an older node (R192). -/
theorem length_le_of_leadsTo (ho : Ordered ns) (h : leadsTo ns i p x) : p.length ≤ i := by
  induction p generalizing i with
  | nil => exact Nat.zero_le i
  | cons b p ih =>
    obtain ⟨z, hz, hzl, hrest⟩ := h
    have hchild := ih hrest
    obtain ⟨hl, hr⟩ := ho i z hz hzl
    rw [List.length_cons]
    split at hchild <;> omega

end paths

/-! ### The walk -/

/-- The path `p` leads from node `i` to a leaf of symbol `c`, not to the dummy. -/
def CodeBelow (ns : List Node) (i : Nat) (c : Byte) (p : List Bool) : Prop :=
  ∃ x, leadsTo ns i p x ∧ x.dummy = false ∧ x.sym = c

theorem isCode_iff {ns : List Node} {root : Option Nat} {c : Byte} {p : List Bool} :
    isCode ns root c p ↔ ∃ r, root = some r ∧ CodeBelow ns r c p := by
  constructor
  · rintro ⟨r, x, hr, hx⟩
    exact ⟨r, hr, x, hx⟩
  · rintro ⟨r, hr, x, hx⟩
    exact ⟨r, x, hr, hx⟩

/-- The table `t'` is `t` with codes for exactly the symbols that have a leaf below node `i`: each is `path` and a
path from `i` to such a leaf. -/
structure Walked (ns : List Node) (i : Nat) (path : List Bool) (t t' : Vector (Option (List Bool)) 256) : Prop where
  codes : ∀ c p, tabGet t' c = some p → tabGet t c = some p ∨ ∃ q, p = path ++ q ∧ CodeBelow ns i c q
  rest : ∀ c, tabGet t' c = none → tabGet t c = none ∧ ∀ q, ¬CodeBelow ns i c q

section walk
variable {ns : List Node} {d i : Nat} {path : List Bool} {t t' u : Vector (Option (List Bool)) 256} {x : Node}

theorem walkCodes_leaf (hx : ns[i]? = some x) (hl : x.leaf = true) :
    walkCodes ns d i path t = some (if x.dummy then t else tabSet t x.sym (some path)) := by
  unfold walkCodes
  rw [hx]
  exact if_pos hl

theorem walkCodes_node (hx : ns[i]? = some x) (hl : x.leaf = false)
    (hu : walkCodes ns d x.left (path ++ [false]) t = some u) :
    walkCodes ns (d + 1) i path t = walkCodes ns d x.right (path ++ [true]) u := by
  rw [walkCodes, hx]
  simp only [hl, hu, Bool.false_eq_true, if_false]

/-- A leaf has the empty path below it. -/
theorem codeBelow_leaf (hx : ns[i]? = some x) (hl : x.leaf = true) {c : Byte} {q : List Bool} :
    CodeBelow ns i c q ↔ q = [] ∧ x.dummy = false ∧ x.sym = c := by
  have hself : leadsTo ns i [] x := ⟨hx, hl⟩
  constructor
  · rintro ⟨y, hy, hdummy, hsym⟩
    obtain ⟨rfl, rfl⟩ := leadsTo_append hself hy
    exact ⟨rfl, hdummy, hsym⟩
  · rintro ⟨rfl, hdummy, hsym⟩
    exact ⟨x, hself, hdummy, hsym⟩

/-- An internal node has the paths of its children below it. -/
theorem codeBelow_node (hx : ns[i]? = some x) (hl : x.leaf = false) {c : Byte} {q : List Bool} :
    CodeBelow ns i c q ↔ ∃ b q', q = b :: q' ∧ CodeBelow ns (if b then x.right else x.left) c q' := by
  constructor
  · rintro ⟨y, hy, hsym⟩
    cases q with
    | nil =>
      obtain ⟨hy, hyl⟩ := hy
      obtain rfl := Option.some.inj (hx.symm.trans hy)
      rw [hl] at hyl
      cases hyl
    | cons b q =>
      obtain ⟨z, hz, -, hrest⟩ := hy
      obtain rfl := Option.some.inj (hx.symm.trans hz)
      exact ⟨b, q, rfl, y, hrest, hsym⟩
  · rintro ⟨b, q', rfl, y, hy, hsym⟩
    exact ⟨y, ⟨x, hx, hl, hy⟩, hsym⟩

theorem Walked.leaf (hx : ns[i]? = some x) (hl : x.leaf = true) :
    Walked ns i path t (if x.dummy then t else tabSet t x.sym (some path)) := by
  cases hd : x.dummy with
  | true =>
    refine ⟨fun c p hp => .inl hp, fun c hc => ⟨hc, fun q hq => ?_⟩⟩
    rw [codeBelow_leaf hx hl, hd] at hq
    cases hq.2.1
  | false =>
    have hget : ∀ c, tabGet (if false = true then t else tabSet t x.sym (some path)) c
        = if c = x.sym then some path else tabGet t c := fun c => tabGet_tabSet t x.sym c (some path)
    refine ⟨fun c p hp => ?_, fun c hc => ?_⟩
    · rw [hget] at hp
      split at hp
      · rename_i hsym
        exact .inr ⟨[], by simpa using hp.symm, (codeBelow_leaf hx hl).2 ⟨rfl, hd, hsym.symm⟩⟩
      · exact .inl hp
    · rw [hget] at hc
      split at hc
      · cases hc
      · rename_i hsym
        exact ⟨hc, fun q hq => hsym ((codeBelow_leaf hx hl).1 hq).2.2.symm⟩

/-- The left subtree and then the right one. -/
theorem Walked.node (hx : ns[i]? = some x) (hl : x.leaf = false) (hleft : Walked ns x.left (path ++ [false]) t u)
    (hright : Walked ns x.right (path ++ [true]) u t') : Walked ns i path t t' := by
  refine ⟨fun c p hp => ?_, fun c hc => ?_⟩
  · rcases hright.codes c p hp with hp | ⟨q, rfl, hq⟩
    · refine (hleft.codes c p hp).imp_right ?_
      rintro ⟨q, rfl, hq⟩
      exact ⟨false :: q, List.append_assoc .., (codeBelow_node hx hl).2 ⟨false, q, rfl, hq⟩⟩
    · exact .inr ⟨true :: q, List.append_assoc .., (codeBelow_node hx hl).2 ⟨true, q, rfl, hq⟩⟩
  · obtain ⟨hu, hnoright⟩ := hright.rest c hc
    obtain ⟨ht, hnoleft⟩ := hleft.rest c hu
    refine ⟨ht, fun q hq => ?_⟩
    obtain ⟨b, q', -, hq'⟩ := (codeBelow_node hx hl).1 hq
    cases b with
    | false => exact hnoleft q' hq'
    | true => exact hnoright q' hq'

/-- In an ordered arena the walk ends: no path from node `i` has more than `i` edges. -/
theorem exists_walkCodes (ho : Ordered ns) (hi : i < ns.length) (hd : i ≤ d) :
    ∃ t', walkCodes ns d i path t = some t' ∧ Walked ns i path t t' := by
  induction i using Nat.strong_induction_on generalizing d path t with
  | _ i ih =>
  have hx : ns[i]? = some ns[i] := List.getElem?_eq_getElem hi
  cases hl : ns[i].leaf with
  | true => exact ⟨_, walkCodes_leaf hx hl, .leaf hx hl⟩
  | false =>
    obtain ⟨hlt, hrt⟩ := ho i ns[i] hx hl
    obtain ⟨d, rfl⟩ := Nat.exists_eq_succ_of_ne_zero (show d ≠ 0 by omega)
    obtain ⟨u, eu, hu⟩ := ih _ hlt (hlt.trans hi) (d := d) (path := path ++ [false]) (t := t) (by omega)
    obtain ⟨t', et', ht'⟩ := ih _ hrt (hrt.trans hi) (d := d) (path := path ++ [true]) (t := u) (by omega)
    exact ⟨t', (walkCodes_node hx hl eu).trans et', .node hx hl hu ht'⟩

end walk

/-! ### HUF.CODES -/

/-- The table gives each symbol that has a leaf a code, and no other (R187). -/
structure IsCodeTable (ns : List Node) (root : Option Nat) (t : Vector (Option (List Bool)) 256) : Prop where
  codes : ∀ c p, tabGet t c = some p → isCode ns root c p
  rest : ∀ c, tabGet t c = none → ∀ p, ¬isCode ns root c p

theorem tabGet_replicate {α : Type} (x : α) (c : Byte) : tabGet (Vector.replicate 256 x) c = x :=
  Vector.getElem_replicate c.isLt

theorem exists_codeTable {ns : List Node} {root : Option Nat} (h : ArenaOk ns root) :
    ∃ t, codeTable ns root = some t ∧ IsCodeTable ns root t := by
  cases root with
  | none =>
    refine ⟨_, rfl, fun c p hp => ?_, fun c _ p hp => ?_⟩
    · rw [tabGet_replicate] at hp
      cases hp
    · obtain ⟨r, x, hr, -⟩ := hp
      cases hr
  | some r =>
    obtain ⟨x, hx, -⟩ := h.top r rfl
    have hr : r < ns.length := (List.getElem?_eq_some_iff.1 hx).1
    obtain ⟨t, e, ht⟩ := exists_walkCodes h.older hr hr.le (path := []) (t := Vector.replicate 256 none)
    refine ⟨t, e, fun c p hp => ?_, fun c hc p hp => ?_⟩
    · rcases ht.codes c p hp with hp | ⟨q, rfl, hq⟩
      · rw [tabGet_replicate] at hp
        cases hp
      · exact isCode_iff.2 ⟨r, rfl, hq⟩
    · obtain ⟨r', hr', hq⟩ := isCode_iff.1 hp
      obtain rfl := Option.some.inj hr'
      exact (ht.rest c hc).2 p hq

/-- A code that begins another is that other's path, so it leads to the same leaf (R187). -/
theorem eq_of_isCode_of_isPrefix {ns : List Node} {root : Option Nat} {c d : Byte} {p q : List Bool}
    (hp : isCode ns root c p) (hq : isCode ns root d q) (h : p <+: q) : c = d := by
  obtain ⟨r, x, hr, hx, -, rfl⟩ := hp
  obtain ⟨r', y, hr', hy, -, rfl⟩ := hq
  obtain rfl := Option.some.inj (hr.symm.trans hr')
  obtain ⟨more, rfl⟩ := h
  obtain ⟨-, rfl⟩ := leadsTo_append hx hy
  rfl

/-- The unit with another code table. -/
def HufUnit.setCodes (u : HufUnit) (t : Vector (Option (List Bool)) 256) : HufUnit := { u with code := t }

theorem hufCodesBody_ok {s : State} {t : Vector (Option (List Bool)) 256}
    (h : codeTable s.huf.node s.huf.root = some t) :
    hufCodesBody s = .ok () ((s.setHuf (s.huf.setCodes t)).setPhase .hCoded) := by
  unfold hufCodesBody
  rw [Act.bind_of_ok (Act.state_apply s), h]
  rfl

/-- Settles O32: the walk gives each symbol a path to a leaf of it, and a path to a leaf goes on nowhere. -/
theorem hufCodesArePaths : Obligations.HufCodesArePaths := by
  unfold Obligations.HufCodesArePaths
  intro s hcodec hmode hphase harena
  have hat : At .huf .compress .hBuilt s := ⟨hcodec, hmode, hphase⟩
  obtain ⟨t, e, ht⟩ := exists_codeTable harena
  refine ⟨_, (hat.exec_eq (i := .hufCodes) (by decide) rfl rfl).trans (runBody_of_ok (hufCodesBody_ok e)), ht.codes,
    ht.rest, fun c d p q hp hq hne hpq => hne ?_, rfl⟩
  exact eq_of_isCode_of_isPrefix (ht.codes c p hp) (ht.codes d q hq) hpq

end Sys2Proof.Machine
end

section
/-! HUF.WRHDR (spec/42_huffman.md rule R188): fields appended one after another, with room for all of them or up to the
one that does not fit (spec/20_memory.md rules R73, R79). -/

namespace Sys2Proof.Machine

/-! ### Fields appended one after another -/

/-- Only DST and DST_LEN say what was appended. -/
theorem DstAppended.of_eq {s t u : State} {bs : List Byte} (h : DstAppended s t bs) (hdst : u.dst = t.dst)
    (hlen : u.dstLen = t.dstLen) : DstAppended s u bs := by
  unfold DstAppended DstOutside at *
  rwa [hdst, hlen]

/-- The action appends the fields: all of them with room, and otherwise those that DST takes, before IOFailure. -/
structure Act.Puts (m : Act Unit) (fields : List (List Byte)) : Prop where
  whole : ∀ s : State, s.room fields.flatten.length → m s = .ok () (s.appended fields.flatten)
  cut : ∀ (s : State) (pre : List (List Byte)), fieldsCut s fields pre →
    m s = .error (.raise .ioFailure) (s.appended pre.flatten)

theorem State.appended_nil (s : State) : s.appended [] = s := by
  unfold State.appended
  rw [List.length_nil, BitVec.add_zero]
  rfl

theorem Act.Puts.nil : Act.Puts (pure ()) [] where
  whole s _ := by rw [List.flatten_nil, State.appended_nil, Act.pure_apply]
  cut s pre h := by
    obtain ⟨f, post, hfields, -⟩ := h
    simp at hfields

theorem dstLen_add_lt_of_room {s : State} {m n : Nat} (h : s.room (m + n)) : s.dstLen.toNat + m < 2 ^ 64 := by
  have := h.2
  omega

/-- The first field has room, and the fields after it are cut. -/
theorem fieldsCut_cons {s : State} {f : List Byte} {fields pre : List (List Byte)}
    (h : fieldsCut s (f :: fields) (f :: pre)) : s.room f.length ∧ fieldsCut (s.appended f) fields pre := by
  obtain ⟨g, post, hfields, hroom, hfull⟩ := h
  rw [List.flatten_cons, List.length_append] at hroom hfull
  rw [Nat.add_assoc] at hfull
  refine ⟨State.room_mono hroom (Nat.le_add_right ..), g, post, ?_, State.room_appended hroom,
    State.full_after hfull rfl (State.toNat_dstLen_appended (dstLen_add_lt_of_room hroom))⟩
  simpa using hfields

/-- The next field, and the fields after it. -/
theorem Act.Puts.cons {m : Act Unit} {fields : List (List Byte)} (h : m.Puts fields) (n v : Nat) :
    Act.Puts (dstPut n v >>= fun _ => m) (beBytes n v :: fields) where
  whole s hroom := by
    rw [List.flatten_cons, List.length_append] at hroom
    have hfirst : s.room n := by simpa using State.room_mono hroom (Nat.le_add_right ..)
    rw [List.flatten_cons, ← State.appended_append (dstLen_add_lt_of_room hroom)]
    exact Act.bind_eq_of_ok (dstPut_appended v hfirst) (h.whole _ (State.room_appended hroom))
  cut s pre hcut := by
    cases pre with
    | nil =>
      obtain ⟨f, post, hfields, -, hfull⟩ := hcut
      obtain rfl : beBytes n v = f := by simpa using (List.cons.inj hfields).1
      rw [List.flatten_nil, List.length_nil, Nat.zero_add, beBytes_length] at hfull
      rw [List.flatten_nil, State.appended_nil]
      exact Act.bind_of_error (dstPut_full v hfull)
    | cons f pre =>
      obtain rfl : beBytes n v = f := by
        obtain ⟨g, post, hfields, -⟩ := hcut
        exact (List.cons.inj hfields).1
      obtain ⟨hfirst, hrest⟩ := fieldsCut_cons hcut
      have hlen := hfirst.2
      rw [beBytes_length] at hfirst
      rw [List.flatten_cons, ← State.appended_append hlen]
      exact Act.bind_eq_of_ok (dstPut_appended v hfirst) (h.cut _ _ hrest)

/-! ### The header -/

theorem putLeaves_puts (ls : List Leaf) :
    (putLeaves ls).Puts (ls.flatMap fun l => [[l.sym], beBytes 4 l.weight.toNat]) := by
  induction ls with
  | nil => exact .nil
  | cons l ls ih =>
    have h := (ih.cons 4 l.weight.toNat).cons 1 l.sym.toNat
    rwa [beBytes_one] at h

theorem flatten_hufFields (size : U64) (ls : List Leaf) : (hufFields size ls).flatten = hufHeader size ls := by
  have hrecords : (ls.flatMap fun l => [[l.sym], beBytes 4 l.weight.toNat]).flatten
      = ls.flatMap fun l => l.sym :: beBytes 4 l.weight.toNat := by
    induction ls with
    | nil => rfl
    | cons l ls ih => simp [ih]
  simp [hufFields, hufHeader, hrecords]

/-- The leaf records of a header (R111). -/
abbrev leafRecords (ls : List Leaf) : List Byte := ls.flatMap fun l => l.sym :: beBytes 4 l.weight.toNat

theorem length_leafRecords (ls : List Leaf) : (leafRecords ls).length = 5 * ls.length := by
  induction ls with
  | nil => rfl
  | cons l ls ih =>
    rw [leafRecords, List.flatMap_cons, List.length_append, ih, List.length_cons, beBytes_length, List.length_cons]
    omega

theorem length_hufHeader (size : U64) (ls : List Leaf) : (hufHeader size ls).length = 12 + 5 * ls.length := by
  rw [hufHeader, List.length_append, List.length_append, length_leafRecords, beBytes_length, beBytes_length]

theorem HufUnit.length_leaves (u : HufUnit) : u.leaves.length = u.leafCnt.val := by
  rw [HufUnit.leaves, List.length_take, Vector.length_toList]
  exact Nat.min_eq_left (Nat.le_of_lt_succ u.leafCnt.isLt)

/-- HUF.WRHDR's appends, before PHASE moves. -/
def hufHeaderPuts (size : U64) (u : HufUnit) : Act Unit :=
  dstPut 8 size.toNat >>= fun _ => dstPut 4 u.leafCnt.val >>= fun _ => putLeaves u.leaves

theorem hufHeaderPuts_puts (size : U64) (u : HufUnit) : (hufHeaderPuts size u).Puts (hufFields size u.leaves) := by
  rw [hufHeaderPuts, ← u.length_leaves]
  exact ((putLeaves_puts u.leaves).cons 4 u.leaves.length).cons 8 size.toNat

theorem hufWrhdrBody_apply (s : State) :
    hufWrhdrBody s
      = (hufHeaderPuts s.origSize s.huf >>= fun _ => Act.write fun s => s.setPhase .hHdrw) s := by
  unfold hufWrhdrBody hufHeaderPuts
  rw [Act.bind_of_ok (Act.state_apply s), bind_assoc]
  simp only [bind_assoc]

theorem hufWrhdrBody_ok {s : State} (h : s.room (12 + 5 * s.huf.leafCnt.val)) :
    hufWrhdrBody s = .ok () ((s.appended (hufHeader s.origSize s.huf.leaves)).setPhase .hHdrw) := by
  have hput := (hufHeaderPuts_puts s.origSize s.huf).whole s
  rw [flatten_hufFields, length_hufHeader, s.huf.length_leaves] at hput
  rw [hufWrhdrBody_apply]
  exact Act.bind_of_ok (hput h)

/-- Settles O33: the header is appended field by field. -/
theorem hufWrhdrWritesHeader : Obligations.HufWrhdrWritesHeader := by
  unfold Obligations.HufWrhdrWritesHeader
  intro s hcodec hmode hphase
  have hat : At .huf .compress .hCoded s := ⟨hcodec, hmode, hphase⟩
  have hexec := hat.exec_eq (i := .hufWrhdr) (by decide) rfl rfl
  refine ⟨fun hroom => ?_, fun pre hcut => ?_⟩
  · have hrun := hufWrhdrBody_ok hroom
    have hlen := hroom.2
    rw [← s.huf.length_leaves, ← length_hufHeader s.origSize] at hlen
    generalize hufHeader s.origSize s.huf.leaves = xs at hrun hlen ⊢
    exact ⟨_, hexec.trans (runBody_of_ok hrun), (State.dstAppended_appended hlen).of_eq rfl rfl, rfl⟩
  · have hraise := (hufHeaderPuts_puts s.origSize s.huf).cut s pre hcut
    obtain ⟨f, post, -, hroom, -⟩ := hcut
    have hrun := hexec.trans (runBody_of_ioFailure ((hufWrhdrBody_apply s).trans (Act.bind_of_error hraise)))
    exact ⟨_, hrun, (State.dstAppended_appended hroom.2).of_eq rfl rfl, rfl⟩

end Sys2Proof.Machine
end

section
/-! HUF.ENCODE (spec/42_huffman.md rule R189): the codes of the source bytes are appended one after another, up to the
end of SRC or to the first byte of the body that does not fit. -/

namespace Sys2Proof.Machine

/-! ### Codes appended one after another -/

/-- The codes of the source bytes `bs` were appended, and the cursor stands after them. -/
structure Encoded (s t : State) (bs : List Byte) : Prop where
  appended : BitsAppended s t (codedBits s.huf.code bs)
  frame : t = { written s t with srcPos := s.srcPos + BitVec.ofNat 64 bs.length }
  sound : t.writerOk

section encode
variable {s t u : State} {bs : List Byte} {b : Byte} {path : List Bool}

theorem codedBits_cons {code : Vector (Option (List Bool)) 256} (h : tabGet code b = some path) (bs : List Byte) :
    codedBits code (b :: bs) = path ++ codedBits code bs := by
  rw [codedBits, List.flatMap_cons, h]
  rfl

theorem codedBits_append (code : Vector (Option (List Bool)) 256) (xs ys : List Byte) :
    codedBits code (xs ++ ys) = codedBits code xs ++ codedBits code ys := List.flatMap_append

theorem codedBits_singleton {code : Vector (Option (List Bool)) 256} (h : tabGet code b = some path) :
    codedBits code [b] = path := by
  rw [codedBits_cons h]
  exact List.append_nil path

/-- The rest of the bytes, once the cursor stands after the first ones. -/
theorem State.NextBytes.of_eq {xs : List Byte} (h : s.NextBytes xs) (hpos : t.srcPos = s.srcPos)
    (hlen : t.srcLen = s.srcLen) (hsrc : t.src = s.src) : t.NextBytes xs :=
  ⟨by rw [hpos, hlen]; exact h.inside, by rw [hpos, hsrc]; exact h.bytes⟩

theorem Encoded.nextBytes {xs ys : List Byte} (he : Encoded s t xs) (h : s.NextBytes (xs ++ ys)) : t.NextBytes ys := by
  have hframe := he.frame
  exact h.right.of_eq (by rw [hframe]; rfl) (by rw [hframe]; rfl) (by rw [hframe]; rfl)

/-- One byte's code, and the other bytes' after it. -/
theorem Encoded.cons (h : BitsAppended s u path) (hframe : u = written (s.advanced 1) u)
    (hpath : tabGet s.huf.code b = some path) (k : Encoded u t bs) : Encoded s t (b :: bs) where
  appended := by
    have hbits := k.appended
    have hhuf : u.huf = s.huf := by rw [hframe]; rfl
    rw [codedBits_cons hpath, ← hhuf]
    exact h.trans hbits
  frame := by
    have hpos : s.srcPos + BitVec.ofNat 64 (b :: bs).length = s.srcPos + 1#64 + BitVec.ofNat 64 bs.length := by
      rw [List.length_cons, Nat.add_comm, BitVec.ofNat_add, BitVec.add_assoc]
    rw [hpos, k.frame, hframe]
    rfl
  sound := k.sound

/-- One pass of the loop: the code of the next byte. -/
theorem hufEncodeBytes_succ (n : Nat) (h : s.NextBytes (b :: bs)) (hpath : tabGet s.huf.code b = some path) :
    hufEncodeBytes (n + 1) s = (bwsPutBits path >>= fun _ => hufEncodeBytes n) (s.advanced 1) := by
  refine Act.bind_eq_of_ok (srcByte_next h) <| Act.bind_eq_of_ok (Act.state_apply _) ?_
  have hpath : tabGet (s.advanced 1).huf.code b = some path := hpath
  rw [hpath]

/-- With room for the bytes they complete, the codes of the first bytes are appended, and the loop goes on. -/
theorem hufEncodeBytes_ok {rest : List Byte} (hnext : s.NextBytes (bs ++ rest))
    (hcoded : ∀ b ∈ bs, (tabGet s.huf.code b).isSome = true) (hw : s.writerOk)
    (hroom : s.room ((s.wcnt.toNat + (codedBits s.huf.code bs).length) / 8)) :
    ∃ t, Encoded s t bs ∧ ∀ k, hufEncodeBytes (bs.length + k) s = hufEncodeBytes k t := by
  induction bs generalizing s with
  | nil =>
    refine ⟨s, ⟨.nil hw, ?_, hw⟩, fun k => by rw [List.length_nil, Nat.zero_add]⟩
    rw [List.length_nil, BitVec.add_zero]
    rfl
  | cons b bs ih =>
    obtain ⟨hb, hbs⟩ := List.forall_mem_cons.1 hcoded
    obtain ⟨path, hpath⟩ := Option.isSome_iff_exists.1 hb
    rw [codedBits_cons hpath, List.length_append] at hroom
    have hfirst : s.room ((s.wcnt.toNat + path.length) / 8) := State.room_mono hroom (by omega)
    obtain ⟨u, eu, happ, hframe, hu⟩ := bwsPutBits_ok (s := s.advanced 1) hw hfirst
    have happ : BitsAppended s u path := ⟨happ.len, happ.count, happ.bytes, happ.pending, happ.outside⟩
    have hrest : (s.advanced 1).NextBytes (bs ++ rest) := hnext.right (xs := [b])
    have hhuf : u.huf = s.huf := by rw [hframe]; rfl
    have hcount := happ.count
    obtain ⟨t, ht, hrun⟩ := ih (s := u)
      (hrest.of_eq (by rw [hframe]; rfl) (by rw [hframe]; rfl) (by rw [hframe]; rfl)) (by rwa [hhuf]) hu
      (State.room_after (s := s) (m := (s.wcnt.toNat + path.length) / 8)
        (State.room_mono hroom (by rw [hhuf]; omega)) (by rw [hframe]; rfl) happ.len)
    refine ⟨t, .cons happ hframe hpath ht, fun k => ?_⟩
    rw [← hrun, List.length_cons, Nat.add_right_comm, hufEncodeBytes_succ _ hnext hpath, Act.bind_of_ok eu]

/-! ### DST without room -/

/-- Bits put after others, with room for fewer bytes than they complete (R140, R313). -/
theorem BitsAppended.bwsPutBits_full {xs ys : List Bool} {m : Nat} (h : BitsAppended s u xs) (hu : u.writerOk)
    (hcfg : u.cfg = s.cfg) (hfirst : (s.wcnt.toNat + xs.length) / 8 ≤ m)
    (hm : m < (s.wcnt.toNat + (xs ++ ys).length) / 8) (hr : s.room m) (hf : s.full (m + 1)) :
    ∃ t, bwsPutBits ys u = .error (.raise .ioFailure) t ∧ BitsCutOff s t (xs ++ ys) m ∧ t = written u t := by
  have hlen := h.len
  have hcount := h.count
  rw [List.length_append] at hm
  obtain ⟨zs, b, more, rfl, hzs⟩ := exists_append_cons_of_lt_length
    (show 8 * m + 7 - (s.wcnt.toNat + xs.length) < ys.length by omega)
  have hfill : s.wcnt.toNat + (xs ++ zs).length = 8 * m + 7 := by
    rw [List.length_append]
    omega
  have hdiv : (s.wcnt.toNat + xs.length) / 8 + (u.wcnt.toNat + zs.length) / 8 = m := by omega
  obtain ⟨v, ev, hv, hwritten, -⟩ := bwsPutBits_ok (bs := zs) hu (State.room_after (hdiv.symm ▸ hr) hcfg hlen)
  have hall : BitsAppended s v (xs ++ zs) := h.trans hv
  have hfull : v.full 1 := State.full_after hf (by rw [hwritten]; exact hcfg) (by rw [hall.len]; omega)
  refine ⟨v.pushBit b, ?_, ?_, written_trans hwritten rfl⟩
  · rw [bwsPutBits_append, Act.bind_of_ok ev]
    exact Act.bind_of_error (bwsPutBit_full b (hall.wcnt_eq_seven hfill) hfull)
  · rw [← List.append_assoc]
    exact hall.cutOff hfill

/-! ### HUF.ENCODE -/

/-- `s` with the cursor at the begin of SRC. -/
def State.rewound (s : State) : State := { s with srcPos := 0#64 }

theorem hufEncodeBody_apply (s : State) :
    hufEncodeBody s
      = (hufEncodeBytes s.srcLen.toNat >>= fun _ => bwsFinish >>= fun _ => Act.write State.finishCompress) s.rewound :=
  rfl

/-- The bits are appended whole. -/
theorem hufEncodeBytes_whole (hread : Memory.readBytes s.src 0 s.srcLen.toNat = some bs)
    (hcoded : ∀ b ∈ bs, (tabGet s.huf.code b).isSome = true) (hw : s.writerOk)
    (hroom : s.room ((s.wcnt.toNat + (codedBits s.huf.code bs).length) / 8)) :
    ∃ t, hufEncodeBytes s.srcLen.toNat s.rewound = .ok () t ∧ BitsAppended s t (codedBits s.huf.code bs)
      ∧ t = { written s t with srcPos := s.srcLen } ∧ t.writerOk := by
  have hlen := Memory.length_of_readBytes hread
  have hnext : s.rewound.NextBytes (bs ++ []) := by
    rw [List.append_nil]
    exact .of_readBytes rfl hlen.le (by rwa [hlen])
  obtain ⟨t, ht, hrun⟩ := hufEncodeBytes_ok (s := s.rewound) hnext hcoded hw hroom
  obtain ⟨happ, hframe, hsound⟩ := ht
  have hpos : (0#64 : U64) + BitVec.ofNat 64 bs.length = s.srcLen := by
    rw [BitVec.zero_add, hlen, BitVec.ofNat_toNat, BitVec.setWidth_eq]
  refine ⟨t, ?_, ⟨happ.len, happ.count, happ.bytes, happ.pending, happ.outside⟩, ?_, hsound⟩
  · rw [← hlen]
    exact hrun 0
  · rw [← hpos]
    exact hframe

theorem hufEncodeBody_ok (hread : Memory.readBytes s.src 0 s.srcLen.toNat = some bs)
    (hcoded : ∀ b ∈ bs, (tabGet s.huf.code b).isSome = true) (hw : s.writerOk)
    (hroom : s.room ((s.wcnt.toNat + (codedBits s.huf.code bs).length + 7) / 8)) :
    ∃ t, hufEncodeBody s = .ok () t ∧ BitsFinished s t (codedBits s.huf.code bs)
      ∧ t = { written s t with
          srcPos := s.srcLen, compSize := t.dstLen, result := t.dstLen, mode := .decompress, phase := .done } := by
  obtain ⟨u, eu, happ, hframe, hu⟩ := hufEncodeBytes_whole hread hcoded hw (State.room_mono hroom (by omega))
  have hcount := happ.count
  obtain ⟨t, et, hfin, hwritten⟩ := bwsFinish_ok hu
    (State.room_after (s := s) (State.room_mono hroom (by omega)) (by rw [hframe]; rfl) happ.len)
  have hall := happ.finish hfin
  refine ⟨t.finishCompress, ?_, ⟨hall.len, hall.writer, hall.bytes, hall.outside⟩, ?_⟩
  · rw [hufEncodeBody_apply, Act.bind_of_ok eu, Act.bind_of_ok et]
    rfl
  · rw [hwritten, hframe]
    rfl

/-- The padded last byte does not fit (R189, R141). -/
theorem hufEncodeBody_unpadded (hread : Memory.readBytes s.src 0 s.srcLen.toNat = some bs)
    (hcoded : ∀ b ∈ bs, (tabGet s.huf.code b).isSome = true) (hw : s.writerOk)
    (hroom : s.room ((s.wcnt.toNat + (codedBits s.huf.code bs).length) / 8))
    (hpad : (s.wcnt.toNat + (codedBits s.huf.code bs).length) % 8 ≠ 0)
    (hfull : s.full ((s.wcnt.toNat + (codedBits s.huf.code bs).length) / 8 + 1)) :
    ∃ t, hufEncodeBody s = .error (.raise .ioFailure) t ∧ BitsAppended s t (codedBits s.huf.code bs)
      ∧ t = { written s t with srcPos := s.srcLen } := by
  obtain ⟨t, et, happ, hframe, -⟩ := hufEncodeBytes_whole hread hcoded hw hroom
  have hpending : t.wcnt ≠ 0#4 := fun h0 => hpad (by rw [← happ.count, h0]; rfl)
  refine ⟨t, ?_, happ, hframe⟩
  rw [hufEncodeBody_apply, Act.bind_of_ok et]
  exact Act.bind_of_error (bwsFinish_full hpending (State.full_after hfull (by rw [hframe]; rfl) happ.len))

/-- The code of the byte `b` completes a byte of the body that does not fit (R189, R140). -/
theorem hufEncodeBody_cut {pre : List Byte} {m : Nat} (hlt : pre.length < s.srcLen.toNat)
    (hread : Memory.readBytes s.src 0 (pre.length + 1) = some (pre ++ [b]))
    (hcoded : ∀ c ∈ pre ++ [b], (tabGet s.huf.code c).isSome = true) (hw : s.writerOk)
    (hfirst : (s.wcnt.toNat + (codedBits s.huf.code pre).length) / 8 ≤ m)
    (hm : m < (s.wcnt.toNat + (codedBits s.huf.code (pre ++ [b])).length) / 8) (hroom : s.room m)
    (hfull : s.full (m + 1)) :
    ∃ t, hufEncodeBody s = .error (.raise .ioFailure) t ∧ BitsCutOff s t (codedBits s.huf.code (pre ++ [b])) m
      ∧ t = { written s t with srcPos := BitVec.ofNat 64 (pre.length + 1) } := by
  obtain ⟨hpre, hb⟩ := List.forall_mem_append.1 hcoded
  obtain ⟨path, hpath⟩ := Option.isSome_iff_exists.1 (hb b (List.mem_singleton_self b))
  have hlen : (pre ++ [b]).length = pre.length + 1 := List.length_append
  have hnext : s.rewound.NextBytes (pre ++ [b]) := .of_readBytes rfl (hlen.trans_le hlt) (by rwa [hlen])
  obtain ⟨u, hu, hrun⟩ := hufEncodeBytes_ok (s := s.rewound) hnext hpre hw (State.room_mono hroom hfirst)
  have hbyte : u.NextBytes [b] := hu.nextBytes hnext
  obtain ⟨happ, hframe, hsound⟩ := hu
  have happ : BitsAppended s (u.advanced 1) (codedBits s.huf.code pre) :=
    ⟨happ.len, happ.count, happ.bytes, happ.pending, happ.outside⟩
  rw [codedBits_append, codedBits_singleton hpath] at hm ⊢
  obtain ⟨t, et, hcut, hwritten⟩ := happ.bwsPutBits_full hsound (by rw [hframe]; rfl) hfirst hm hroom hfull
  refine ⟨t, ?_, hcut, ?_⟩
  · obtain ⟨n, hn⟩ := Nat.exists_eq_add_of_lt hlt
    have hloop := (hrun (n + 1)).trans (hufEncodeBytes_succ n hbyte (by rw [hframe]; exact hpath))
    rw [hufEncodeBody_apply, hn]
    exact Act.bind_of_error (hloop.trans (Act.bind_of_error et))
  · have hpos : BitVec.ofNat 64 (pre.length + 1) = 0#64 + BitVec.ofNat 64 pre.length + 1#64 := by
      rw [BitVec.zero_add, BitVec.ofNat_add]
    rw [hpos, hwritten, hframe]
    rfl

end encode

/-- Settles O34: the loop appends code after code, so the body is cut off in the code of one byte or at the padding. -/
theorem hufEncodeWritesBody : Obligations.HufEncodeWritesBody := by
  unfold Obligations.HufEncodeWritesBody
  intro s hcodec hmode hphase hw
  have hat : At .huf .compress .hHdrw s := ⟨hcodec, hmode, hphase⟩
  have hexec := hat.exec_eq (i := .hufEncode) (by decide) rfl rfl
  refine ⟨fun bs hread hcoded => ⟨fun hroom => ?_, fun hroom hpad hfull => ?_⟩,
    fun pre b m hlt hread hcoded hfirst hm hroom hfull => ?_⟩
  · obtain ⟨t, e, hfin, hframe⟩ := hufEncodeBody_ok hread hcoded hw hroom
    exact ⟨t, hexec.trans (runBody_of_ok e), hfin, hframe⟩
  · obtain ⟨t, e, happ, hframe⟩ := hufEncodeBody_unpadded hread hcoded hw hroom hpad hfull
    exact ⟨ioFailed t, hexec.trans (runBody_of_ioFailure e),
      ⟨happ.len, happ.count, happ.bytes, happ.pending, happ.outside⟩, congrArg ioFailed hframe⟩
  · obtain ⟨t, e, hcut, hframe⟩ := hufEncodeBody_cut hlt hread hcoded hw hfirst hm hroom hfull
    exact ⟨ioFailed t, hexec.trans (runBody_of_ioFailure e),
      ⟨hcut.len, hcut.count, hcut.bytes, hcut.waiting, hcut.outside⟩, congrArg ioFailed hframe⟩

end Sys2Proof.Machine
end

section
/-! HUF.RDHDR (spec/42_huffman.md rule R190): the fields of a header are taken one after another, up to its end or to
the end of SRC. -/

namespace Sys2Proof.Machine

section header
variable {s : State} {size : U64} {n : Nat} {ls : List Leaf} {rest : List Byte}

/-! ### The leaf records -/

/-- `s` with other places of LEAF. -/
def State.setLeafTable (s : State) (t : Vector Leaf 256) : State := s.setHuf { s.huf with leaf := t }

theorem State.NextBytes.setLeafTable (h : s.NextBytes rest) (t : Vector Leaf 256) : (s.setLeafTable t).NextBytes rest :=
  h.of_eq rfl rfl rfl

/-- One record: the symbol and the weight (R190). -/
theorem getLeaves_succ {l : Leaf} (k n : Nat) (h : s.NextBytes (l.sym :: (beBytes 4 l.weight.toNat ++ rest))) :
    getLeaves k (n + 1) s = getLeaves (k + 1) n ((s.advanced 5).setLeafTable (leafSet s.huf.leaf k l))
      ∧ (s.advanced 5).NextBytes rest := by
  have hweight : (s.advanced 1).NextBytes (beBytes 4 l.weight.toNat ++ rest) := h.right (xs := [l.sym])
  have hrest := hweight.field
  have hfive : (s.advanced 1).advanced 4 = s.advanced 5 := State.advanced_advanced s 1 4
  rw [hfive] at hrest
  refine ⟨?_, hrest⟩
  refine Act.bind_eq_of_ok (srcByte_next h) <| Act.bind_eq_of_ok (srcNext_next l.weight.isLt hweight) <|
    Act.bind_eq_of_ok (Act.write_apply _ _) ?_
  rw [hfive, BitVec.ofNat_toNat, BitVec.setWidth_eq]
  rfl

/-- The records of a list are read into their places, and the loop goes on. -/
theorem getLeaves_records (k n : Nat) (h : s.NextBytes (leafRecords ls ++ rest)) :
    getLeaves k (ls.length + n) s
      = getLeaves (k + ls.length) n ((s.advanced (5 * ls.length)).setLeafTable (leafSetAll s.huf.leaf k ls)) := by
  induction ls generalizing k s with
  | nil =>
    rw [List.length_nil, Nat.zero_add, Nat.mul_zero, State.advanced_zero]
    rfl
  | cons l ls ih =>
    rw [leafRecords, List.flatMap_cons, List.append_assoc] at h
    obtain ⟨hrun, hrest⟩ := getLeaves_succ k (ls.length + n) h
    have hpos : s.advanced (5 * (ls.length + 1)) = (s.advanced 5).advanced (5 * ls.length) := by
      rw [State.advanced_advanced, Nat.mul_succ, Nat.add_comm]
    have hplace : k + (ls.length + 1) = k + 1 + ls.length := by omega
    rw [List.length_cons, Nat.add_right_comm, hrun, ih (k + 1) (hrest.setLeafTable _), hpos, hplace]
    rfl

/-- SRC ends inside a record: its symbol is taken where it is there, and no weight (R79, R313). -/
theorem getLeaves_short (k n : Nat) (h : s.NextBytes rest) (hend : s.srcLen.toNat = s.srcPos.toNat + rest.length)
    (hrest : rest.length < 5) :
    getLeaves k (n + 1) s = .error (.raise .ioFailure) (s.advanced (min rest.length 1)) := by
  cases rest with
  | nil =>
    rw [List.length_nil, Nat.zero_min, State.advanced_zero]
    exact Act.bind_of_error (srcByte_short hend.le)
  | cons b rest =>
    have hpos : (s.advanced 1).srcPos.toNat = s.srcPos.toNat + 1 := (h.left (xs := [b])).toNat_advanced
    have hshort : (s.advanced 1).srcLen.toNat < (s.advanced 1).srcPos.toNat + 4 := by
      rw [hpos]
      refine hend.trans_lt ?_
      omega
    rw [List.length_cons, Nat.min_eq_right (Nat.le_add_left 1 _)]
    exact Act.bind_eq_of_ok (srcByte_next h) (Act.bind_of_error (srcNext_short hshort))

/-- SRC ends inside the records (R190). -/
theorem getLeaves_cut (m : Nat) (h : s.NextBytes (leafRecords ls ++ rest)) (hrest : rest.length < 5)
    (hend : s.srcLen.toNat = s.srcPos.toNat + (leafRecords ls ++ rest).length) :
    getLeaves 0 (ls.length + (m + 1)) s = .error (.raise .ioFailure)
      ((s.advanced (5 * ls.length + min rest.length 1)).setLeafTable (leafSetAll s.huf.leaf 0 ls)) := by
  have hmore := h.right
  have hpos := h.left.toNat_advanced
  rw [length_leafRecords] at hmore hpos
  have hleft : s.srcLen.toNat = (s.advanced (5 * ls.length)).srcPos.toNat + rest.length := by
    rw [hpos, hend, List.length_append, length_leafRecords, Nat.add_assoc]
  have hshort := getLeaves_short (0 + ls.length) m (hmore.setLeafTable (leafSetAll s.huf.leaf 0 ls)) hleft hrest
  rw [getLeaves_records 0 (m + 1) h, hshort, ← State.advanced_advanced]
  rfl

/-! ### HUF.RDHDR -/

/-- The state after the size and the leaf count of a header were read, at the begin of a call (R190). -/
def State.headerRead (s : State) (size : U64) (n : Nat) : State :=
  { s.beginCall with origSize := size, srcPos := 12#64, huf := { s.huf with leafCnt := leafCount n } }

/-- A header's size and leaf count are read, and the records follow. -/
theorem hufRdhdrBody_records (hn : n ≤ 256)
    (h : s.beginCall.NextBytes (beBytes 8 size.toNat ++ (beBytes 4 n ++ rest))) :
    hufRdhdrBody s
        = (getLeaves 0 n >>= fun _ => Act.write State.clearReader >>= fun _ => Act.write fun s => s.setPhase .hHdrr)
            (s.headerRead size n)
      ∧ (s.headerRead size n).NextBytes rest := by
  have hcount := h.field
  have hrest := hcount.field
  refine ⟨?_, hrest.of_eq rfl rfl rfl⟩
  refine Act.bind_eq_of_ok (Act.write_apply _ s) <| Act.bind_eq_of_ok (srcNext_next size.isLt h) <|
    Act.bind_eq_of_ok (Act.write_apply _ _) <|
      Act.bind_eq_of_ok (srcNext_next (by omega) (hcount.of_eq rfl rfl rfl)) ?_
  rw [if_neg (Nat.not_lt.2 hn), BitVec.ofNat_toNat, BitVec.setWidth_eq]
  exact Act.bind_eq_of_ok (Act.write_apply _ _) rfl

/-- The state after HUF.RDHDR of a header. -/
def State.headerDone (s : State) (size : U64) (ls : List Leaf) : State :=
  { s.headerRead size ls.length with
      srcPos := BitVec.ofNat 64 (12 + 5 * ls.length), huf := s.huf.setLeaves ls }.clearReader.setPhase .hHdrr

theorem advanced_headerRead (m : Nat) :
    (s.headerRead size n).advanced m = { s.headerRead size n with srcPos := BitVec.ofNat 64 (12 + m) } := by
  rw [BitVec.ofNat_add]
  rfl

theorem hufRdhdrBody_ok (hls : ls.length ≤ 256) (hlen : 12 + 5 * ls.length ≤ s.srcLen.toNat)
    (hread : Memory.readBytes s.src 0 (12 + 5 * ls.length) = some (hufHeader size ls)) :
    hufRdhdrBody s = .ok () (s.headerDone size ls) := by
  have hheader : s.beginCall.NextBytes (hufHeader size ls) :=
    .of_readBytes rfl (by rwa [length_hufHeader]) (by rwa [length_hufHeader])
  rw [hufHeader, List.append_assoc] at hheader
  obtain ⟨hrun, hrecords⟩ := hufRdhdrBody_records hls hheader
  have hloop := getLeaves_records (rest := []) 0 0 (by rwa [List.append_nil])
  rw [advanced_headerRead] at hloop
  exact hrun.trans (Act.bind_eq_of_ok hloop rfl)

/-- SRC ends before the size (R190, R313). -/
theorem hufRdhdrBody_noSize (h : s.srcLen.toNat < 8) :
    hufRdhdrBody s = .error (.raise .ioFailure) s.beginCall :=
  Act.bind_eq_of_ok (Act.write_apply _ s) (Act.bind_of_error (srcNext_short h))

/-- SRC ends between the size and the leaf count (R190, R313). -/
theorem hufRdhdrBody_noCount {v : Nat} (h8 : 8 ≤ s.srcLen.toNat) (h12 : s.srcLen.toNat < 12)
    (hsize : memRead s.src 0 8 = some v) :
    hufRdhdrBody s
      = .error (.raise .ioFailure) { s.beginCall with origSize := BitVec.ofNat 64 v, srcPos := 8#64 } :=
  Act.bind_eq_of_ok (Act.write_apply _ s) <| Act.bind_eq_of_ok (srcNext_ok (by simpa using h8) hsize) <|
    Act.bind_eq_of_ok (Act.write_apply _ _) <| Act.bind_of_error (srcNext_short (by simpa using h12))

/-- SRC ends inside a record (R190, R313). -/
theorem hufRdhdrBody_cut (hn : n ≤ 256) (hls : ls.length < n) (hrest : rest.length < 5)
    (hread : Memory.readBytes s.src 0 s.srcLen.toNat
      = some (beBytes 8 size.toNat ++ beBytes 4 n ++ leafRecords ls ++ rest)) :
    hufRdhdrBody s = .error (.raise .ioFailure) { s.headerRead size n with
      srcPos := BitVec.ofNat 64 (12 + 5 * ls.length + min rest.length 1)
      huf := { s.huf with leaf := leafSetAll s.huf.leaf 0 ls, leafCnt := leafCount n } } := by
  have hlen := Memory.length_of_readBytes hread
  have hall : s.beginCall.NextBytes (beBytes 8 size.toNat ++ beBytes 4 n ++ leafRecords ls ++ rest) :=
    .of_readBytes rfl hlen.le (by rwa [hlen])
  rw [List.append_assoc, List.append_assoc] at hall
  obtain ⟨hrun, hrecords⟩ := hufRdhdrBody_records hn hall
  obtain ⟨m, rfl⟩ := Nat.exists_eq_add_of_lt hls
  have hend : s.srcLen.toNat = 12 + (leafRecords ls ++ rest).length := by
    rw [← hlen]
    simp only [List.length_append, beBytes_length]
    omega
  have hloop := getLeaves_cut m hrecords hrest hend
  rw [advanced_headerRead, ← Nat.add_assoc 12, ← Nat.add_assoc ls.length] at hloop
  exact hrun.trans (Act.bind_of_error hloop)

end header

/-- Settles O35: the fields are read one after another, and SRC ends in the size, in the leaf count or in a record. -/
theorem hufRdhdrReadsHeader : Obligations.HufRdhdrReadsHeader := by
  unfold Obligations.HufRdhdrReadsHeader
  intro s hcodec hmode hphase
  have hacc : Accepted .hufRdhdr s := accepted_hufCall (.inr rfl) hcodec (congrArg some hmode.symm) hphase
  have hexec := hacc.exec_eq rfl rfl
  refine ⟨fun size ls hls hlen hread => ?_, fun h8 => ?_, fun size h8 h12 hsize => ?_,
    fun size n ls rest hn hls hrest hread => ?_⟩
  · exact ⟨_, hexec.trans (runBody_of_ok (hufRdhdrBody_ok hls hlen hread)), s.huf.leaves_setLeaves hls,
      val_leafCount hls, rfl⟩
  · have hsize : s.beginCall.origSize = 0#64 := by rw [State.beginCall_origSize, hmode]
    refine (hexec.trans (runBody_of_ioFailure (hufRdhdrBody_noSize h8))).trans ?_
    exact congrArg (fun size : U64 => Host.Outcome.next (ioFailed { s.beginCall with origSize := size })) hsize
  · exact (hexec.trans (runBody_of_ioFailure (hufRdhdrBody_noCount h8 h12 hsize))).trans rfl
  · refine ⟨_, hexec.trans (runBody_of_ioFailure (hufRdhdrBody_cut hn hls hrest hread)), val_leafCount hn, ?_, rfl⟩
    have htable := toList_leafSetAll s.huf.leaf 0 ls (by omega)
    rwa [List.take_zero, List.nil_append, Nat.zero_add] at htable

end Sys2Proof.Machine
end

section
/-! HUF.DECODE (spec/42_huffman.md rule R191): the walk takes the bits of one path, so codes in SRC give their symbols,
up to ORIG_SIZE, to the end of SRC or to the first symbol that does not fit. -/

namespace Sys2Proof.Machine

/-! ### The read cursor inside SRC -/

/-- Bits taken leave SRC readable to its end, so many bits less of it. -/
theorem BitsConsumed.srcIntact_of_le {s t : State} {w : Nat} (h : s.srcIntact) (hw : w ≤ s.bitsLeft)
    (hc : BitsConsumed s t w) (hlen : t.srcLen = s.srcLen) (hsrc : t.src = s.src) (hr : t.readerOk) :
    t.srcIntact ∧ s.bitsLeft = t.bitsLeft + w := by
  obtain ⟨-, hpos, hbytes⟩ := h
  have hfetched := hc.fetched
  have hheld := hc.held
  unfold State.bitsLeft at *
  refine ⟨⟨hr, by rw [hlen]; omega, fun k hk hk' => ?_⟩, by rw [hlen]; omega⟩
  rw [hlen] at hk'
  rw [hsrc]
  exact hbytes k (by omega) hk'

/-! ### The walk -/

section walk
variable {ns : List Node} {d i : Nat} {x : Node} {s : State} {p rest more : List Bool}

theorem walkLeaf_leaf (hx : ns[i]? = some x) (hl : x.leaf = true) : walkLeaf ns d i = pure x := by
  unfold walkLeaf
  rw [hx]
  exact if_pos hl

theorem walkLeaf_node (hx : ns[i]? = some x) (hl : x.leaf = false) :
    walkLeaf ns (d + 1) i = bwsGetBit >>= fun b => walkLeaf ns d (if b then x.right else x.left) := by
  rw [walkLeaf, hx]
  simp only [hl, Bool.false_eq_true, if_false]

/-- What the walk took: these bits, and nothing else changed. -/
structure Taken (s t : State) (bits : List Bool) : Prop where
  consumed : BitsConsumed s t bits.length
  frame : t = Machine.consumed s t
  reader : s.readerOk → t.readerOk

theorem Taken.trans {t u : State} {xs ys : List Bool} (h : Taken s t xs) (k : Taken t u ys) : Taken s u (xs ++ ys) where
  consumed := by
    rw [List.length_append]
    exact h.consumed.trans k.consumed
  frame := consumed_trans h.frame k.frame
  reader := k.reader ∘ h.reader

/-- The next bit. -/
theorem bwsGetBit_taken {b : Bool} (h : s.nextBits (b :: rest)) :
    ∃ t, bwsGetBit s = .ok b t ∧ Taken s t [b] ∧ t.nextBits rest := by
  obtain ⟨t, e, hc, hframe⟩ := bwsGetBit_ok (h 0 (Nat.succ_pos _))
  obtain ⟨hpart, -⟩ := ((bwsGetBit_part .closed).leads s).of_ok e
  exact ⟨t, e, ⟨hc, hframe, hpart.reader⟩, BitsConsumed.nextBits (xs := [b]) hc h⟩

/-- The bits of a path lead to its leaf (R191). -/
theorem walkLeaf_path (h : leadsTo ns i p x) (hd : p.length ≤ d) (hbits : s.nextBits (p ++ rest)) :
    ∃ t, walkLeaf ns d i s = .ok x t ∧ Taken s t p ∧ t.nextBits rest := by
  induction p generalizing d i s with
  | nil =>
    obtain ⟨hx, hl⟩ := h
    exact ⟨s, by rw [walkLeaf_leaf hx hl, Act.pure_apply], ⟨.zero s, rfl, id⟩, hbits⟩
  | cons b p ih =>
    obtain ⟨y, hy, hl, hrest⟩ := h
    obtain ⟨u, eu, hu, hnext⟩ := bwsGetBit_taken hbits
    cases d with
    | zero => exact absurd hd (Nat.not_succ_le_zero _)
    | succ d =>
      obtain ⟨t, et, ht, hafter⟩ := ih hrest (Nat.le_of_succ_le_succ hd) hnext
      exact ⟨t, by rw [walkLeaf_node hy hl, Act.bind_of_ok eu, et], hu.trans ht, hafter⟩

/-- Bits taken of those that are left. -/
theorem Taken.srcIntact {t : State} {bits : List Bool} (h : Taken s t bits) (hs : s.srcIntact)
    (hw : bits.length ≤ s.bitsLeft) : t.srcIntact ∧ s.bitsLeft = t.bitsLeft + bits.length :=
  h.consumed.srcIntact_of_le hs hw (by rw [h.frame]; rfl) (by rw [h.frame]; rfl) (h.reader hs.1)

/-- SRC ends inside the path: every bit is taken, and none is left for the next edge (R191, R313). -/
theorem walkLeaf_short (h : leadsTo ns i (rest ++ more) x) (hmore : more ≠ []) (hd : (rest ++ more).length ≤ d)
    (hs : s.srcIntact) (hbits : s.nextBits rest) (hleft : s.bitsLeft = rest.length) :
    walkLeaf ns d i s = .error (.raise .ioFailure) s.drained := by
  induction rest generalizing d i s with
  | nil =>
    cases more with
    | nil => exact absurd rfl hmore
    | cons b more =>
      obtain ⟨y, hy, hl, -⟩ := h
      cases d with
      | zero => exact absurd hd (Nat.not_succ_le_zero _)
      | succ d =>
        rw [walkLeaf_node hy hl]
        exact Act.bind_of_error (bwsGetBit_short hs hleft)
  | cons b rest ih =>
    obtain ⟨y, hy, hl, hrest⟩ := h
    obtain ⟨u, eu, hu, hnext⟩ := bwsGetBit_taken hbits
    rw [List.length_cons] at hleft
    obtain ⟨hintact, hbitsLeft⟩ := hu.srcIntact hs (by rw [List.length_singleton]; omega)
    rw [List.length_singleton] at hbitsLeft
    cases d with
    | zero => exact absurd hd (Nat.not_succ_le_zero _)
    | succ d =>
      have hdrained : u.drained = s.drained := by rw [hu.frame]; rfl
      rw [walkLeaf_node hy hl, Act.bind_of_ok eu, ← hdrained]
      exact ih hrest (Nat.le_of_succ_le_succ hd) hintact hnext (by omega)

end walk

/-! ### Symbols -/

/-- Bytes appended after others. -/
theorem DstAppended.trans {s t u : State} {xs ys : List Byte} (h : DstAppended s t xs) (k : DstAppended t u ys) :
    DstAppended s u (xs ++ ys) := by
  obtain ⟨hlen, hbytes, houtside⟩ := h
  obtain ⟨klen, kbytes, koutside⟩ := k
  refine ⟨by rw [klen, hlen, List.length_append, Nat.add_assoc], Memory.readBytes_eq_some fun n hn => ?_,
    fun a ha => ?_⟩
  · rw [List.length_append] at hn
    by_cases hfirst : n < xs.length
    · rw [koutside _ (.inl (by omega)), Memory.read_of_readBytes hbytes hfirst, List.getElem?_append_left hfirst]
    · have hplace : s.dstLen.toNat + n = t.dstLen.toNat + (n - xs.length) := by omega
      rw [hplace, Memory.read_of_readBytes kbytes (by omega), List.getElem?_append_right (by omega)]
  · rw [koutside a (by omega), houtside a (by omega)]

/-- What decoding did: it took these bits and appended these bytes, and nothing else changed. -/
structure Decoded (s t : State) (bits : List Bool) (bytes : List Byte) : Prop where
  appended : DstAppended s t bytes
  consumed : BitsConsumed s t bits.length
  frame : t = { Machine.consumed s t with dst := t.dst, dstLen := t.dstLen }
  reader : s.readerOk → t.readerOk

theorem Decoded.refl (s : State) : Decoded s s [] [] := ⟨⟨rfl, rfl, fun _ _ => rfl⟩, .zero s, rfl, id⟩

theorem Decoded.trans {s t u : State} {p q : List Bool} {xs ys : List Byte} (h : Decoded s t p xs)
    (k : Decoded t u q ys) : Decoded s u (p ++ q) (xs ++ ys) where
  appended := h.appended.trans k.appended
  consumed := by
    rw [List.length_append]
    exact h.consumed.trans k.consumed
  frame := by
    rw [k.frame, h.frame]
    rfl
  reader := k.reader ∘ h.reader

section symbols
variable {s : State} {c : Byte} {p rest : List Bool} {ps : List (List Bool × Byte)}

theorem length_le_of_isRoot {ns : List Node} {root : Option Nat} (h : ArenaOk ns root) {r : Nat} {x : Node}
    (hr : root = some r) (hp : leadsTo ns r p x) : p.length ≤ ns.length := by
  obtain ⟨y, hy, -⟩ := h.top r hr
  exact (length_le_of_leadsTo h.older hp).trans (List.getElem?_eq_some_iff.1 hy).1.le

/-- One pass of the loop: the walk, and the byte of the leaf it reached. -/
theorem hufDecodeByte_walk {r : Nat} (hr : s.huf.root = some r) :
    hufDecodeByte s
      = (walkLeaf s.huf.node s.huf.node.length r >>= fun x =>
          if x.dummy then Act.unspec .hufDummyReached else dstPut 1 x.sym.toNat) s := by
  unfold hufDecodeByte
  rw [Act.bind_of_ok (Act.state_apply s), hr]

/-- The next bits are the code of `c`: the walk takes them, and the byte is `c` (R191). -/
theorem hufDecodeByte_code (harena : ArenaOk s.huf.node s.huf.root) (hc : isCode s.huf.node s.huf.root c p)
    (hbits : s.nextBits (p ++ rest)) :
    ∃ t, hufDecodeByte s = dstPut 1 c.toNat t ∧ Taken s t p ∧ t.nextBits rest := by
  obtain ⟨r, x, hr, hx, hdummy, rfl⟩ := hc
  obtain ⟨t, et, ht, hrest⟩ := walkLeaf_path hx (length_le_of_isRoot harena hr hx) hbits
  refine ⟨t, ?_, ht, hrest⟩
  rw [hufDecodeByte_walk hr, Act.bind_of_ok et, hdummy]
  rfl

theorem hufDecodeByte_ok (harena : ArenaOk s.huf.node s.huf.root) (hc : isCode s.huf.node s.huf.root c p)
    (hbits : s.nextBits (p ++ rest)) (hroom : s.room 1) :
    ∃ t, hufDecodeByte s = .ok () t ∧ Decoded s t p [c] ∧ t.nextBits rest := by
  obtain ⟨u, e, hu, hrest⟩ := hufDecodeByte_code harena hc hbits
  have hframe := hu.frame
  have hroom : u.room 1 := State.room_after hroom (by rw [hframe]; rfl) (by rw [hframe]; rfl)
  have happ := State.dstAppended_appended (s := u) (xs := [c]) hroom.2
  refine ⟨u.appended [c], by rw [e, dstPut_appended _ hroom, beBytes_one], ⟨?_, ?_, ?_, hu.reader⟩, hrest⟩
  · rw [hframe] at happ ⊢
    exact happ
  · exact ⟨hu.consumed.fetched, hu.consumed.held, hu.consumed.rest⟩
  · rw [hframe]
    rfl

/-- The symbols whose codes come next are appended, and the loop goes on. -/
theorem hufDecodeBytes_ok (harena : ArenaOk s.huf.node s.huf.root)
    (hps : ∀ x ∈ ps, isCode s.huf.node s.huf.root x.2 x.1) (hbits : s.nextBits (ps.flatMap Prod.fst ++ rest))
    (hroom : s.room ps.length) :
    ∃ t, Decoded s t (ps.flatMap Prod.fst) (ps.map Prod.snd) ∧ t.nextBits rest
      ∧ ∀ k, Act.times hufDecodeByte (ps.length + k) s = Act.times hufDecodeByte k t := by
  induction ps generalizing s with
  | nil => exact ⟨s, .refl s, hbits, fun k => by rw [List.length_nil, Nat.zero_add]⟩
  | cons x ps ih =>
    obtain ⟨hx, hps⟩ := List.forall_mem_cons.1 hps
    rw [List.flatMap_cons, List.append_assoc] at hbits
    rw [List.length_cons, Nat.add_comm] at hroom
    obtain ⟨u, eu, hu, hnext⟩ := hufDecodeByte_ok harena hx hbits (State.room_mono hroom (Nat.le_add_right ..))
    have hhuf : u.huf = s.huf := by rw [hu.frame]; rfl
    obtain ⟨t, ht, hrest, hrun⟩ := ih (s := u) (by rwa [hhuf]) (by rwa [hhuf]) hnext
      (State.room_after hroom (by rw [hu.frame]; rfl) hu.appended.1)
    refine ⟨t, hu.trans ht, hrest, fun k => ?_⟩
    rw [← hrun, List.length_cons, Nat.add_right_comm]
    exact Act.bind_of_ok eu

/-! ### HUF.DECODE -/

theorem hufDecodeBody_apply (s : State) :
    hufDecodeBody s
      = (Act.times hufDecodeByte (s.origSize.toNat - s.dstLen.toNat) >>= fun _ => Act.write State.finishDecompress) s :=
  rfl

theorem hufDecodeBody_ok (harena : ArenaOk s.huf.node s.huf.root)
    (hps : ∀ x ∈ ps, isCode s.huf.node s.huf.root x.2 x.1) (hroom : s.room ps.length)
    (hsize : ps.length = s.origSize.toNat - s.dstLen.toNat) (hbits : s.nextBits (ps.flatMap Prod.fst ++ rest)) :
    ∃ t, hufDecodeBody s = .ok () t.finishDecompress ∧ Decoded s t (ps.flatMap Prod.fst) (ps.map Prod.snd) := by
  obtain ⟨t, ht, -, hrun⟩ := hufDecodeBytes_ok harena hps hbits hroom
  refine ⟨t, ?_, ht⟩
  rw [hufDecodeBody_apply, ← hsize]
  exact Act.bind_eq_of_ok (hrun 0) rfl

/-- The symbols before are appended, and the loop meets IOFailure where the next pass does. -/
theorem hufDecodeBody_raise (harena : ArenaOk s.huf.node s.huf.root)
    (hps : ∀ x ∈ ps, isCode s.huf.node s.huf.root x.2 x.1) (hroom : s.room ps.length)
    (hsize : ps.length < s.origSize.toNat - s.dstLen.toNat) (hbits : s.nextBits (ps.flatMap Prod.fst ++ rest)) :
    ∃ t, Decoded s t (ps.flatMap Prod.fst) (ps.map Prod.snd) ∧ t.nextBits rest
      ∧ ∀ u, hufDecodeByte t = .error (.raise .ioFailure) u → hufDecodeBody s = .error (.raise .ioFailure) u := by
  obtain ⟨t, ht, hrest, hrun⟩ := hufDecodeBytes_ok harena hps hbits hroom
  obtain ⟨k, hk⟩ := Nat.exists_eq_add_of_lt hsize
  refine ⟨t, ht, hrest, fun u hu => ?_⟩
  rw [hufDecodeBody_apply, hk]
  exact Act.bind_of_error ((hrun (k + 1)).trans (Act.bind_of_error hu))

end symbols

/-- Settles O36: the walk takes one code after another; SRC ends inside a walk, or DST is full at its leaf. -/
theorem hufDecodeRecovers : Obligations.HufDecodeRecovers := by
  unfold Obligations.HufDecodeRecovers
  intro s ps hcodec hmode hphase harena hps hroom
  have hat : At .huf .decompress .hRebuilt s := ⟨hcodec, hmode, hphase⟩
  have hexec := hat.exec_eq (i := .hufDecode) (by decide) rfl rfl
  refine ⟨fun hsize hbits => ?_, fun rest more r x hsize hs hbits hleft hr hmore hx => ?_,
    fun p c hsize hc hbits hfull => ?_⟩
  · obtain ⟨t, e, ht⟩ := hufDecodeBody_ok (rest := []) harena hps hroom hsize (by rwa [List.append_nil])
    refine ⟨_, hexec.trans (runBody_of_ok e), ht.appended.of_eq rfl rfl,
      ⟨ht.consumed.fetched, ht.consumed.held, ht.consumed.rest⟩, ?_⟩
    rw [ht.frame]
    rfl
  · obtain ⟨t, ht, hrest, hraise⟩ := hufDecodeBody_raise harena hps hroom hsize hbits
    have hframe := ht.frame
    rw [List.length_append] at hleft
    obtain ⟨hintact, hbitsLeft⟩ := ht.consumed.srcIntact_of_le hs (by omega) (by rw [hframe]; rfl)
      (by rw [hframe]; rfl) (ht.reader hs.1)
    have hhuf : t.huf = s.huf := by rw [hframe]; rfl
    have hwalk := walkLeaf_short hx hmore (length_le_of_isRoot harena hr hx) hintact hrest (by omega)
    rw [← hhuf] at hr hwalk
    have hrun := hraise t.drained ((hufDecodeByte_walk hr).trans (Act.bind_of_error hwalk))
    refine ⟨_, hexec.trans (runBody_of_ioFailure hrun), ht.appended.of_eq rfl rfl, ?_⟩
    rw [hframe]
    rfl
  · obtain ⟨t, ht, hrest, hraise⟩ := hufDecodeBody_raise harena hps hroom hsize hbits
    have hframe := ht.frame
    have hhuf : t.huf = s.huf := by rw [hframe]; rfl
    rw [← hhuf] at harena hc
    obtain ⟨u, e, hu, -⟩ := hufDecodeByte_code (rest := []) harena hc (by rwa [List.append_nil])
    have hkept := hu.frame
    have hnone : t.full 1 := State.full_after hfull (by rw [hframe]; rfl) (by simpa using ht.appended.1)
    have hrun := hraise u (e.trans (dstPut_full _ (by rw [hkept]; exact hnone)))
    have htaken := ht.consumed.trans hu.consumed
    rw [← List.length_append] at htaken
    refine ⟨_, hexec.trans (runBody_of_ioFailure hrun), ht.appended.of_eq (by rw [hkept]; rfl) (by rw [hkept]; rfl),
      ⟨htaken.fetched, htaken.held, htaken.rest⟩, ?_⟩
    rw [hkept, hframe]
    rfl

end Sys2Proof.Machine
end

section
/-! The Huffman round trip (spec/42_huffman.md rule R194): COMPRESS leaves the header and the coded bits in DST,
DECOMPRESS rebuilds the same tree from the header, and the bits lead to the source bytes. -/

namespace Sys2Proof.Machine

/-! ### The leaf list of a source -/

/-- Every byte value that occurs has a leaf (R182). -/
theorem exists_mem_tallyLeaves {bs : List Byte} {b : Byte} (h : b ∈ bs) : ∃ l ∈ tallyLeaves bs, l.sym = b := by
  have hbyte : BitVec.ofNat 8 b.toNat = b := by rw [BitVec.ofNat_toNat, BitVec.setWidth_eq]
  have hcount : bs.count b ≠ 0 := (List.count_pos_iff.2 h).ne'
  refine ⟨⟨b, BitVec.ofNat 32 (bs.count b)⟩, List.mem_filterMap.2 ⟨b.toNat, List.mem_range.2 b.isLt, ?_⟩, rfl⟩
  simp only [hbyte, hcount, if_false]

/-- Each byte has one value. -/
theorem sum_count_eq_length (bs : List Byte) :
    ∑ k ∈ Finset.range 256, bs.count (BitVec.ofNat 8 k) = bs.length := by
  induction bs with
  | nil => exact Finset.sum_eq_zero fun _ _ => List.count_nil
  | cons b bs ih =>
    have hvalue : ∀ k ∈ Finset.range 256, (b :: bs).count (BitVec.ofNat 8 k)
        = bs.count (BitVec.ofNat 8 k) + if b.toNat = k then 1 else 0 := by
      intro k hk
      have hk : k % 2 ^ 8 = k := Nat.mod_eq_of_lt (Finset.mem_range.1 hk)
      simp only [List.count_cons, beq_iff_eq, ← BitVec.toNat_inj, BitVec.toNat_ofNat, hk]
    rw [Finset.sum_congr rfl hvalue, Finset.sum_add_distrib, ih, Finset.sum_ite_eq,
      if_pos (Finset.mem_range.2 b.isLt), List.length_cons]

theorem sum_map_range (f : Nat → Nat) (n : Nat) : ((List.range n).map f).sum = ∑ k ∈ Finset.range n, f k := rfl

/-- The leaves weigh as many bytes as the source has, which P_HUF_LEN keeps within u32 (R183). -/
theorem sum_weight_tallyLeaves {bs : List Byte} (h : bs.length < 2 ^ 32) :
    ((tallyLeaves bs).map fun l => l.weight.toNat).sum = bs.length := by
  rw [← sum_count_eq_length bs, ← sum_map_range, tallyLeaves]
  generalize List.range 256 = ks
  induction ks with
  | nil => rfl
  | cons k ks ih =>
    have hlt : bs.count (BitVec.ofNat 8 k) < 2 ^ 32 := List.count_le_length.trans_lt h
    rw [List.filterMap_cons, List.map_cons, List.sum_cons, ← ih]
    by_cases h0 : bs.count (BitVec.ofNat 8 k) = 0
    · simp [h0]
    · simpa [h0] using hlt

/-! ### Every leaf has a code -/

section codes
variable {ls : List Leaf} {ns : List Node} {q : List Nat}

/-- Whatever is below a node of the finished tree is below its root (R192). -/
theorem Growing.exists_path_from_root (h : Growing ls ns q) (hq : q.length ≤ 1) {i : Nat} {p : List Bool} {x : Node}
    (hi : i < ns.length) (hp : leadsTo ns i p x) : ∃ r p', q.head? = some r ∧ leadsTo ns r p' x := by
  induction hn : ns.length - i using Nat.strong_induction_on generalizing i p with
  | _ n ih =>
  by_cases hlast : i + 1 < ns.length
  · obtain ⟨m, ⟨y, hy, hyl, hchild⟩, -⟩ := h.exists_unique_parent hq hlast
    obtain ⟨hl, hr⟩ := h.merging.ordered m y hy hyl
    have hm : m < ns.length := (List.getElem?_eq_some_iff.1 hy).1
    rcases hchild with rfl | rfl
    · exact ih _ (by omega) hm (p := false :: p) ⟨y, hy, hyl, hp⟩ rfl
    · exact ih _ (by omega) hm (p := true :: p) ⟨y, hy, hyl, hp⟩ rfl
  · obtain ⟨-, rfl, -⟩ | ⟨-, -, rfl⟩ := h.queue_eq hq
    · exact absurd hi (Nat.not_lt_zero _)
    · obtain rfl : i = ns.length - 1 := by omega
      exact ⟨_, p, rfl, hp⟩

/-- Every symbol of the leaf list has a code in its tree (R187). -/
theorem Growing.exists_isCode (h : Growing ls ns q) (hq : q.length ≤ 1) {l : Leaf} (hl : l ∈ ls) :
    ∃ p, isCode ns q.head? l.sym p := by
  obtain ⟨k, hk⟩ := List.mem_iff_getElem?.1 hl
  have hnode := (h.builtTree hq).leaves k l hk
  obtain ⟨r, p, hr, hp⟩ := h.exists_path_from_root hq (List.getElem?_eq_some_iff.1 hnode).1 (p := []) ⟨hnode, rfl⟩
  exact ⟨p, r, _, hr, hp, rfl, rfl⟩

end codes

/-- What HUF.BUILD and HUF.CODES make of the bytes of a source: an ordered arena, and a code of at most 255 bits for
each byte that occurs. -/
structure CodesFor (bs : List Byte) (ns : List Node) (root : Option Nat) (code : Vector (Option (List Bool)) 256) :
    Prop where
  tree : buildTree (tallyLeaves bs) = .ok (ns, root)
  table : codeTable ns root = some code
  arena : ArenaOk ns root
  isCode : ∀ b ∈ bs, ∃ p, tabGet code b = some p ∧ isCode ns root b p ∧ p.length ≤ 255

theorem exists_codesFor {bs : List Byte} (h : bs.length < 2 ^ 32) : ∃ ns root code, CodesFor bs ns root code := by
  obtain ⟨ns, q, htree, hgrown, hq⟩ := buildTree_growing ((sum_weight_tallyLeaves h).trans_lt h)
  obtain ⟨-, harena⟩ := buildTree_ok (length_tallyLeaves_le bs) htree
  obtain ⟨code, htable, hcodes⟩ := exists_codeTable harena
  refine ⟨ns, q.head?, code, htree, htable, harena, fun b hb => ?_⟩
  obtain ⟨l, hl, rfl⟩ := exists_mem_tallyLeaves hb
  obtain ⟨p, hp⟩ := hgrown.exists_isCode hq hl
  cases hcode : tabGet code l.sym with
  | none => exact absurd hp (hcodes.rest _ hcode p)
  | some p => exact ⟨p, rfl, hcodes.codes _ _ hcode, (codeTable_ok harena htable _ _ hcode).2⟩

section codedSource
variable {bs : List Byte} {ns : List Node} {root : Option Nat} {code : Vector (Option (List Bool)) 256}

/-- The body has at most 255 bits for each byte. -/
theorem length_codedBits_le (h : ∀ b ∈ bs, ∃ p, tabGet code b = some p ∧ p.length ≤ 255) :
    (codedBits code bs).length ≤ 255 * bs.length := by
  induction bs with
  | nil => exact Nat.le_refl _
  | cons b bs ih =>
    obtain ⟨⟨p, hp, hlen⟩, hbs⟩ := List.forall_mem_cons.1 h
    have hrest := ih hbs
    rw [codedBits_cons hp, List.length_append, List.length_cons]
    omega

/-- The bytes, each with its code. -/
def codePairs (code : Vector (Option (List Bool)) 256) (bs : List Byte) : List (List Bool × Byte) :=
  bs.map fun b => ((tabGet code b).getD [], b)

theorem flatMap_codePairs : (codePairs code bs).flatMap Prod.fst = codedBits code bs := List.flatMap_map ..

theorem map_codePairs : (codePairs code bs).map Prod.snd = bs := by
  simp [codePairs, Function.comp_def]

theorem CodesFor.isCode_codePairs (h : CodesFor bs ns root code) :
    ∀ x ∈ codePairs code bs, Machine.isCode ns root x.2 x.1 := by
  intro x hx
  obtain ⟨b, hb, rfl⟩ := List.mem_map.1 hx
  obtain ⟨p, hp, hcode, -⟩ := h.isCode b hb
  rwa [hp]

end codedSource

/-! ### The archive -/

/-- DST holds a header, and after it the bits of a body, padded. -/
structure HoldsArchive (t : State) (header : List Byte) (bits : List Bool) : Prop where
  front : Memory.readBytes t.dst 0 header.length = some header
  body : ∃ w : State, w.wcnt = 0#4 ∧ w.dstLen = BitVec.ofNat 64 header.length ∧ w.dstLen.toNat = header.length
    ∧ BitsFinished w t bits

section archive
variable {s t u w : State} {header : List Byte} {bits : List Bool} {bs : List Byte}

/-- Every byte of the body is written. -/
theorem BitsFinished.read_isSome (h : BitsFinished w t bits) {a : Nat} (hlo : w.dstLen.toNat ≤ a)
    (hhi : a < t.dstLen.toNat) : (Memory.read t.dst a).isSome = true := by
  have hlen := h.len
  have hfirst := h.bytes (8 * (a - w.dstLen.toNat)) (by omega)
  have hplace : w.dstLen.toNat + 8 * (a - w.dstLen.toNat) / 8 = a := by omega
  rw [hplace] at hfirst
  rw [← Option.isSome_map, hfirst]
  rfl

/-- A reader at the place where a writer began, with the same bytes: its next bits are the writer's. -/
theorem BitsFinished.nextBits_of_read (h : BitsFinished w t bits) (hcnt : w.wcnt = 0#4) (hpos : u.srcPos = w.dstLen)
    (hrcnt : u.rcnt = 0#4) (hlen : u.srcLen = t.dstLen)
    (hbytes : ∀ a, a < t.dstLen.toNat → Memory.read u.src a = Memory.read t.dst a) : u.nextBits bits := by
  have hpending : w.pendingBits = [] := by simp [State.pendingBits, hcnt]
  have hbit := h.bytes
  have hend := h.len
  rw [hpending, hcnt] at hbit
  rw [hcnt] at hend
  simp only [BitVec.toNat_ofNat, Nat.zero_mod, Nat.zero_add, List.nil_append] at hbit hend
  intro n hn
  have hin := hbit n (by omega)
  have hplace : w.dstLen.toNat + n / 8 < t.dstLen.toNat := by omega
  rw [List.getD_eq_getElem _ _ hn, ← hbytes _ hplace] at hin
  rw [List.getElem?_eq_getElem hn, ← hin]
  simp [State.srcBit, hpos, hrcnt, hlen, hplace]

/-- Every byte of the archive is written. -/
theorem HoldsArchive.read_isSome (h : HoldsArchive t header bits) {a : Nat} (ha : a < t.dstLen.toNat) :
    (Memory.read t.dst a).isSome = true := by
  obtain ⟨w, -, -, hlen, hbits⟩ := h.body
  by_cases hheader : a < header.length
  · have hsome := (Memory.readBytes_isSome_iff t.dst 0 _).1 (Option.isSome_of_eq_some h.front) a hheader
    rwa [Nat.zero_add] at hsome
  · exact hbits.read_isSome (by omega) ha

/-- The archive in SRC, byte for byte. -/
theorem HoldsArchive.read_eq (h : HoldsArchive t header bits) (hlen : u.srcLen = t.dstLen)
    (hbytes : Memory.readBytes u.src 0 u.srcLen.toNat = Memory.readBytes t.dst 0 t.dstLen.toNat) {a : Nat}
    (ha : a < t.dstLen.toNat) : Memory.read u.src a = Memory.read t.dst a := by
  have hsome : (Memory.readBytes t.dst 0 t.dstLen.toNat).isSome = true :=
    (Memory.readBytes_isSome_iff ..).2 fun k hk => by
      rw [Nat.zero_add]
      exact h.read_isSome hk
  obtain ⟨cs, hcs⟩ := Option.isSome_iff_exists.1 hsome
  rw [hcs, hlen] at hbytes
  have hsrc := Memory.read_of_readBytes hbytes ha
  rwa [← Memory.read_of_readBytes hcs ha, Nat.zero_add] at hsrc

/-- The header in SRC. -/
theorem HoldsArchive.readBytes_header (h : HoldsArchive t header bits) (hlen : u.srcLen = t.dstLen)
    (hbytes : Memory.readBytes u.src 0 u.srcLen.toNat = Memory.readBytes t.dst 0 t.dstLen.toNat) :
    header.length ≤ u.srcLen.toNat ∧ Memory.readBytes u.src 0 header.length = some header := by
  obtain ⟨w, -, -, hplace, hbits⟩ := h.body
  have hend := hbits.len
  have hin : header.length ≤ t.dstLen.toNat := by omega
  refine ⟨by rwa [hlen], Memory.readBytes_eq_some fun k hk => ?_⟩
  rw [← Memory.read_of_readBytes h.front hk]
  exact h.read_eq hlen hbytes (by omega)

/-! ### COMPRESS -/

/-- The state before the header is written: the source counted, the tree built, the codes made. -/
def State.coded (s : State) (bs : List Byte) (ns : List Node) (root : Option Nat)
    (code : Vector (Option (List Bool)) 256) : State :=
  { s.counted bs with phase := .hCoded, huf := ((s.huf.counted bs).setTree ns root).setCodes code }

theorem compressHuf_coded {ns : List Node} {root : Option Nat} {code : Vector (Option (List Bool)) 256}
    (hlen : s.srcLen.toNat ≤ 2 ^ 32 - 1) (hread : Memory.readBytes s.src 0 s.srcLen.toNat = some bs)
    (hcodes : CodesFor bs ns root code) :
    compressHuf s = (hufWrhdrBody >>= fun _ => hufEncodeBody) (s.coded bs ns root code) := by
  have htree : buildTree (s.counted bs).huf.leaves = .ok (ns, root) :=
    (congrArg buildTree (s.huf.leaves_counted bs)).trans hcodes.tree
  exact Act.bind_eq_of_ok (hufCountBody_ok hlen hread) <| Act.bind_eq_of_ok (hufBuildBody_ok htree) <|
    Act.bind_eq_of_ok (hufCodesBody_ok hcodes.table) rfl

/-- The body is written after a header at the begin of DST. -/
theorem hufEncodeBody_archive (hread : Memory.readBytes s.src 0 s.srcLen.toNat = some bs)
    (hcoded : ∀ b ∈ bs, (tabGet s.huf.code b).isSome = true) (hacc : s.wacc = 0#8) (hcnt : s.wcnt = 0#4)
    (hdst : s.dstLen = 0#64) (hroom : s.room (header.length + ((codedBits s.huf.code bs).length + 7) / 8)) :
    ∃ t, hufEncodeBody ((s.appended header).setPhase .hHdrw) = .ok () t
      ∧ HoldsArchive t header (codedBits s.huf.code bs) ∧ t.phase = .done ∧ t.err = s.err
      ∧ t.origSize = s.origSize ∧ t.compSize = t.dstLen := by
  have hlt := dstLen_add_lt_of_room hroom
  obtain ⟨-, hheader, -⟩ := State.dstAppended_appended hlt
  have hend := State.toNat_dstLen_appended hlt
  have hplace : (s.appended header).dstLen = BitVec.ofNat 64 header.length := by
    rw [State.appended, hdst]
    exact BitVec.zero_add _
  rw [hdst, BitVec.toNat_zero] at hheader hend
  rw [Nat.zero_add] at hend
  have hwriter : s.writerOk := by simp [State.writerOk, hacc, hcnt]
  have hbody : (s.appended header).room ((s.wcnt.toNat + (codedBits s.huf.code bs).length + 7) / 8) := by
    rw [hcnt, BitVec.toNat_zero, Nat.zero_add]
    exact State.room_appended hroom
  obtain ⟨t, et, hfin, hframe⟩ :=
    hufEncodeBody_ok (s := (s.appended header).setPhase .hHdrw) hread hcoded hwriter hbody
  have hkept : ∀ k, k < header.length → Memory.read t.dst (0 + k) = header[k]? := fun k hk => by
    rw [← Memory.read_of_readBytes hheader hk]
    refine hfin.outside _ (.inl ?_)
    show 0 + k < (s.appended header).dstLen.toNat
    rwa [hend, Nat.zero_add]
  have harchive : HoldsArchive t header (codedBits s.huf.code bs) :=
    ⟨Memory.readBytes_eq_some hkept, (s.appended header).setPhase .hHdrw, hcnt, hplace, hend, hfin⟩
  refine ⟨t, et, harchive, ?_, ?_, ?_, ?_⟩ <;> rw [hframe] <;> rfl

/-- COMPRESS of a source with room for its archive: the header and the body are written from the begin of DST. -/
theorem compressHuf_ok {ns : List Node} {root : Option Nat} {code : Vector (Option (List Bool)) 256}
    (hlen : s.srcLen.toNat ≤ 2 ^ 32 - 1) (hread : Memory.readBytes s.src 0 s.srcLen.toNat = some bs)
    (hfits : s.cfg.dstFits 0 (1292 + 32 * bs.length) = true) (hcodes : CodesFor bs ns root code) :
    ∃ t, compressHuf s = .ok () t
      ∧ HoldsArchive t (hufHeader s.beginCall.origSize (tallyLeaves bs)) (codedBits code bs) ∧ t.phase = .done
      ∧ t.err = .noError ∧ t.origSize = s.beginCall.origSize ∧ t.compSize = t.dstLen := by
  have hbs := Memory.length_of_readBytes hread
  have hleaves : (s.coded bs ns root code).huf.leaves = tallyLeaves bs := s.huf.leaves_counted bs
  have hcount := length_tallyLeaves_le bs
  have hheader := length_hufHeader s.beginCall.origSize (tallyLeaves bs)
  have hbits : (codedBits code bs).length ≤ 255 * bs.length := length_codedBits_le fun b hb => by
    obtain ⟨p, hp, -, hshort⟩ := hcodes.isCode b hb
    exact ⟨p, hp, hshort⟩
  have hroom : (s.coded bs ns root code).room (1292 + 32 * bs.length) := by
    refine ⟨hfits, ?_⟩
    show 0 + _ < _
    omega
  have hwrhdr := hufWrhdrBody_ok (s := s.coded bs ns root code) (by
    rw [← HufUnit.length_leaves, hleaves]
    exact State.room_mono hroom (by omega))
  rw [hleaves] at hwrhdr
  obtain ⟨t, et, harchive, hstate⟩ := hufEncodeBody_archive (s := s.coded bs ns root code) hread
    (fun b hb => by
      obtain ⟨p, hp, -⟩ := hcodes.isCode b hb
      exact Option.isSome_of_eq_some hp)
    rfl rfl rfl (State.room_mono hroom (m := (hufHeader s.beginCall.origSize (tallyLeaves bs)).length + _) (by
      show _ + ((codedBits code bs).length + 7) / 8 ≤ _
      omega))
  rw [compressHuf_coded hlen hread hcodes]
  exact ⟨t, Act.bind_eq_of_ok hwrhdr et, harchive, hstate⟩

/-! ### DECOMPRESS -/

/-- The state once the tree of the leaf list `ls` is rebuilt from its header. -/
def State.rebuilt (s : State) (size : U64) (ls : List Leaf) (ns : List Node) (root : Option Nat) : State :=
  { s.headerDone size ls with phase := .hRebuilt, huf := (s.huf.setLeaves ls).setTree ns root }

theorem decompressHuf_rebuilt {size : U64} {ls : List Leaf} {ns : List Node} {root : Option Nat} (hls : ls.length ≤ 256)
    (hlen : 12 + 5 * ls.length ≤ s.srcLen.toNat)
    (hread : Memory.readBytes s.src 0 (12 + 5 * ls.length) = some (hufHeader size ls))
    (htree : buildTree ls = .ok (ns, root)) :
    decompressHuf s = hufDecodeBody (s.rebuilt size ls ns root) := by
  have hleaves : buildTree (s.headerDone size ls).huf.leaves = .ok (ns, root) :=
    (congrArg buildTree (s.huf.leaves_setLeaves hls)).trans htree
  exact Act.bind_eq_of_ok (hufRdhdrBody_ok hls hlen hread) <| Act.bind_eq_of_ok (hufBuildBody_ok hleaves) rfl

/-- DECOMPRESS of the archive of a source, with room for its bytes: they are DST. -/
theorem decompressHuf_ok {size : U64} {ns : List Node} {root : Option Nat} {code : Vector (Option (List Bool)) 256}
    (hcodes : CodesFor bs ns root code) (hsize : size.toNat = bs.length)
    (h : HoldsArchive t (hufHeader size (tallyLeaves bs)) (codedBits code bs)) (hlen : u.srcLen = t.dstLen)
    (hbytes : Memory.readBytes u.src 0 u.srcLen.toNat = Memory.readBytes t.dst 0 t.dstLen.toNat)
    (hfits : u.cfg.dstFits 0 bs.length = true) :
    ∃ v, decompressHuf u = .ok () v ∧ v.phase = .done ∧ v.err = .noError ∧ v.result = size ∧ v.dstLen = size
      ∧ Memory.readBytes v.dst 0 bs.length = some bs := by
  obtain ⟨hin, hread⟩ := h.readBytes_header hlen hbytes
  obtain ⟨w, hcnt, hplace, -, hbits⟩ := h.body
  have hheader := length_hufHeader size (tallyLeaves bs)
  rw [hheader] at hin hread hplace
  have hnext : (u.rebuilt size (tallyLeaves bs) ns root).nextBits (codedBits code bs) :=
    hbits.nextBits_of_read hcnt hplace.symm rfl hlen fun a ha => h.read_eq hlen hbytes ha
  have hpairs : (codePairs code bs).length = bs.length := List.length_map ..
  obtain ⟨v, ev, hv⟩ := hufDecodeBody_ok (s := u.rebuilt size (tallyLeaves bs) ns root) (ps := codePairs code bs)
    (rest := []) hcodes.arena hcodes.isCode_codePairs
    (by
      rw [hpairs]
      exact ⟨hfits, by show 0 + _ < _; have := size.isLt; omega⟩)
    (hpairs.trans hsize.symm) (by rwa [flatMap_codePairs, List.append_nil])
  have hframe := hv.frame
  obtain ⟨hend, hout, -⟩ := hv.appended
  rw [map_codePairs] at hend hout
  refine ⟨v.finishDecompress, ?_, rfl, ?_, ?_, ?_, hout⟩
  · rw [decompressHuf_rebuilt (length_tallyLeaves_le bs) hin hread hcodes.tree]
    exact ev
  · rw [hframe]
    rfl
  · rw [hframe]
    rfl
  · refine BitVec.eq_of_toNat_eq (hend.trans ?_)
    rw [hsize]
    exact Nat.zero_add _

end archive

/-- Settles O37: the tree rebuilt from the leaf records of the header is the tree the codes came from, so the walk finds
one source byte after another in the bits of the body. -/
theorem huffmanRoundTrip : Obligations.HuffmanRoundTrip := by
  unfold Obligations.HuffmanRoundTrip
  intro s bs hcodec hmode hphase hlen hread hfits
  have hbs := Memory.length_of_readBytes hread
  have hsize : s.beginCall.origSize = s.srcLen := by rw [State.beginCall_origSize, hmode]
  obtain ⟨ns, root, code, hcodes⟩ := exists_codesFor (bs := bs) (by omega)
  obtain ⟨t, et, harchive, hdone, herr, horig, hcomp⟩ := compressHuf_ok hlen hread hfits hcodes
  rw [hsize] at harchive horig
  have hacc : Accepted .compress s := accepted_call (.inl rfl) (hcodec ▸ nofun) (congrArg some hmode.symm) hphase
  refine ⟨t, ?_, hdone, herr, horig, hcomp, fun u hucodec humode huphase hulen hubytes hufits => ?_⟩
  · rw [exec_compress hacc, hcodec]
    exact runBody_of_ok et
  · obtain ⟨v, ev, hvdone, hverr, hresult, hvlen, hvbytes⟩ :=
      decompressHuf_ok hcodes hbs.symm harchive hulen hubytes hufits
    have huacc : Accepted .decompress u :=
      accepted_call (.inr rfl) (hucodec ▸ nofun) (congrArg some humode.symm) huphase
    refine ⟨v, ?_, hvdone, hverr, hresult, hvlen, ?_⟩
    · rw [exec_decompress huacc, hucodec]
      exact runBody_of_ok ev
    · rwa [hvlen, ← hbs]

end Sys2Proof.Machine
end

section
/-! Doublings of binary64 numbers are exact, and so are the subtractions of 1 that drop an integer part; so a doubling
loop gives the binary expansion of a fraction below 1 (spec/43_arithmetic.md rules R222, R226). -/

namespace Sys2Proof

section exactness
variable {x y : F64}

theorem F64.lt_iff : F64.lt x y = true ↔ x.units < y.units := decide_eq_true_iff

theorem F64.ext_units (h : x.units = y.units) : x = y := congrArg F64.mk h

theorem F64.units_ne (h : x ≠ y) : x.units ≠ y.units := fun e => h (F64.ext_units e)

theorem F64.zero_units : F64.zero.units = 0 := rfl
theorem F64.one_units : F64.one.units = F64.scale := rfl

theorem F64.scale_pos : 0 < F64.scale := by
  simp only [F64.scale, Nat.two_pow_pos]

theorem F64.two_units : F64.two.units = 2 * F64.scale := by
  simp only [F64.two, F64.scale, ← Nat.pow_succ']

theorem F64.two_mul_half_units : 2 * F64.half.units = F64.scale := by
  have h : F64.two.units * F64.half.units = F64.scale * F64.scale := by
    simp only [F64.two, F64.half, F64.scale, ← Nat.pow_add, Nat.reduceAdd]
  rw [F64.two_units, Nat.mul_right_comm] at h
  exact Nat.eq_of_mul_eq_mul_right F64.scale_pos h

/-- Twice a binary64 number is one. -/
theorem F64.Valid.double (h : x.Valid) : F64.Valid ⟨2 * x.units⟩ := by
  have hlt := F64.quot_lt x.units
  have hsplit := Nat.div_mul_cancel (Nat.dvd_of_mod_eq_zero h)
  rw [← hsplit, Nat.mul_left_comm, ← Nat.pow_succ']
  exact F64.valid_of_scaled hlt.le

theorem F64.fmul_two (h : x.Valid) : F64.fmul F64.two x = ⟨2 * x.units⟩ := by
  rw [F64.fmul, F64.two_units, Nat.mul_right_comm]
  exact F64.round_mul_of_valid (x := ⟨2 * x.units⟩) h.double F64.scale_pos

/-- The integer part 1 dropped from a number below 2: the fraction has no more significant bits. -/
theorem F64.Valid.sub_scale (h : x.Valid) (hone : F64.scale ≤ x.units) (htwo : x.units < 2 * F64.scale) :
    F64.Valid ⟨x.units - F64.scale⟩ := by
  have hscale : F64.scale = 2 ^ 52 * 2 ^ 1022 := by
    simp only [F64.scale, ← Nat.pow_add, Nat.reduceAdd]
  have hdvd : 2 ^ 1022 ∣ x.units := h.dvd_of_le (hscale ▸ hone)
  obtain ⟨k, hk⟩ := Nat.dvd_sub hdvd (Dvd.intro_left _ hscale.symm)
  rw [hk, Nat.mul_comm]
  refine F64.valid_of_scaled (Nat.le_of_mul_le_mul_left (c := 2 ^ 1022) ?_ (by positivity))
  rw [← hk]
  omega

theorem F64.fsub_one (h : x.Valid) (hone : F64.scale ≤ x.units) (htwo : x.units < 2 * F64.scale) :
    F64.fsub x F64.one = ⟨x.units - F64.scale⟩ := F64.round_of_valid (h.sub_scale hone htwo)

end exactness

end Sys2Proof

namespace Sys2Proof.Machine

/-! ### Binary expansions -/

theorem foldl_eq_add_bitsNumber (v : Nat) (bs : List Bool) :
    bs.foldl (fun v b => 2 * v + b.toNat) v = v * 2 ^ bs.length + bitsNumber bs := by
  induction bs generalizing v with
  | nil => simp [bitsNumber]
  | cons b bs ih =>
    rw [bitsNumber, List.foldl_cons, List.foldl_cons, ih, ih (2 * 0 + b.toNat), List.length_cons, Nat.pow_succ]
    ring

/-- The first bit is the most significant. -/
theorem bitsNumber_cons (b : Bool) (bs : List Bool) :
    bitsNumber (b :: bs) = b.toNat * 2 ^ bs.length + bitsNumber bs := by
  rw [← foldl_eq_add_bitsNumber, bitsNumber, List.foldl_cons, Nat.mul_zero, Nat.zero_add]

theorem bitsNumber_lt (bs : List Bool) : bitsNumber bs < 2 ^ bs.length := by
  induction bs with
  | nil => exact Nat.one_pos
  | cons b bs ih =>
    rw [bitsNumber_cons, List.length_cons, Nat.pow_succ]
    have hb : b.toNat * 2 ^ bs.length ≤ 1 * 2 ^ bs.length := Nat.mul_le_mul_right _ b.toNat_le
    omega

section expansion
variable {x y : F64} {b : Bool} {bs cs : List Bool}

theorem expands_nil : expands x [] ↔ x = F64.zero := by
  have hunits : expands x [] ↔ x.units = 0 := by simp [expands, bitsNumber]
  exact hunits.trans ⟨fun h => F64.ext_units h, fun h => h ▸ rfl⟩

/-- The first bit is the integer part of the doubled fraction, and the others expand what is left of it. -/
theorem expands_cons :
    expands x (b :: bs) ↔ ∃ y : F64, 2 * x.units = b.toNat * F64.scale + y.units ∧ y.units < F64.scale
      ∧ expands y bs ∧ (bs = [] → b = true) := by
  have hpow : 0 < 2 ^ bs.length := Nat.two_pow_pos _
  have hlast : (b :: bs).getLast? ≠ some false ↔ bs.getLast? ≠ some false ∧ (bs = [] → b = true) := by
    cases bs with
    | nil => simp
    | cons c cs => simp
  have hleft : x.units * 2 ^ (b :: bs).length = 2 * x.units * 2 ^ bs.length := by
    rw [List.length_cons, Nat.pow_succ]
    ring
  have hright : bitsNumber (b :: bs) * F64.scale
      = b.toNat * F64.scale * 2 ^ bs.length + bitsNumber bs * F64.scale := by
    rw [bitsNumber_cons]
    ring
  unfold expands
  rw [hlast, hleft, hright]
  constructor
  · rintro ⟨hnum, hbs, hb⟩
    have hle : b.toNat * F64.scale ≤ 2 * x.units := Nat.le_of_mul_le_mul_right (by omega) hpow
    have hrest : (2 * x.units - b.toNat * F64.scale) * 2 ^ bs.length = bitsNumber bs * F64.scale := by
      rw [Nat.sub_mul]
      omega
    refine ⟨⟨2 * x.units - b.toNat * F64.scale⟩, (Nat.add_sub_cancel' hle).symm, ?_, ⟨hrest, hbs⟩, hb⟩
    refine Nat.lt_of_mul_lt_mul_right (a := 2 ^ bs.length) ?_
    rw [hrest, Nat.mul_comm F64.scale]
    exact Nat.mul_lt_mul_of_pos_right (bitsNumber_lt bs) F64.scale_pos
  · rintro ⟨y, hxy, -, ⟨hnum, hbs⟩, hb⟩
    exact ⟨by rw [hxy, Nat.add_mul, hnum], hbs, hb⟩

/-- The first bit says whether the doubled fraction reaches 1. -/
theorem bit_eq_decide (h : 2 * x.units = b.toNat * F64.scale + y.units) (hlt : y.units < F64.scale) :
    b = decide (F64.scale ≤ 2 * x.units) := by
  cases b with
  | true => exact (decide_eq_true (by rw [h, Bool.toNat_true]; omega)).symm
  | false => exact (decide_eq_false (by rw [h, Bool.toNat_false]; omega)).symm

theorem eq_nil_of_expands_zero (h : expands F64.zero bs) : bs = [] := by
  induction bs with
  | nil => rfl
  | cons b bs ih =>
    obtain ⟨y, hy, -, hbs, hb⟩ := expands_cons.1 h
    have hsum : 0 = b.toNat * F64.scale + y.units := hy
    obtain rfl : y = F64.zero := F64.ext_units (by rw [F64.zero_units]; omega)
    obtain rfl := ih hbs
    have := F64.scale_pos
    rw [hb rfl, Bool.toNat_true] at hsum
    omega

/-- A fraction has one finite expansion without a trailing 0. -/
theorem expands_unique (h : expands x bs) (k : expands x cs) : bs = cs := by
  induction bs generalizing x cs with
  | nil => exact (eq_nil_of_expands_zero (expands_nil.1 h ▸ k)).symm
  | cons b bs ih =>
    cases cs with
    | nil => exact eq_nil_of_expands_zero (expands_nil.1 k ▸ h)
    | cons c cs =>
      obtain ⟨y, hy, hylt, hbs, -⟩ := expands_cons.1 h
      obtain ⟨z, hz, hzlt, hcs, -⟩ := expands_cons.1 k
      obtain rfl : b = c := (bit_eq_decide hy hylt).trans (bit_eq_decide hz hzlt).symm
      obtain rfl : y = z := F64.ext_units (by omega)
      rw [ih hbs hcs]

/-! ### The doubling loop -/

/-- A doubling that drops the integer part is exact. -/
theorem doubleDrop_exact (hx : x.Valid) (hlt : x.units < F64.scale) :
    2 * x.units = (doubleDrop x).1.toNat * F64.scale + (doubleDrop x).2.units
    ∧ (doubleDrop x).2.units < F64.scale := by
  unfold doubleDrop
  rw [F64.fmul_two hx]
  by_cases hone : F64.scale ≤ 2 * x.units
  · have htrue : F64.le F64.one ⟨2 * x.units⟩ = true := F64.le_iff.2 hone
    simp only [htrue, if_true, F64.fsub_one hx.double hone (show 2 * x.units < _ by omega), Bool.toNat_true]
    omega
  · have hfalse : F64.le F64.one ⟨2 * x.units⟩ = false := decide_eq_false_iff_not.2 hone
    simp only [hfalse, Bool.false_eq_true, if_false, Bool.toNat_false]
    omega

theorem fractionBits_succ (n : Nat) (h : x ≠ F64.zero) :
    fractionBits (n + 1) x = (fractionBits n (doubleDrop x).2).map ((doubleDrop x).1 :: ·) := by
  rw [fractionBits, if_neg h]
  cases fractionBits n (doubleDrop x).2 <;> rfl

/-- A fraction with at most `n` fraction bits: the loop gives its expansion. -/
theorem fractionBits_expands {n : Nat} (hx : x.Valid) (hlt : x.units < F64.scale)
    (hn : F64.scale ∣ x.units * 2 ^ n) : ∃ bs, fractionBits n x = some bs ∧ expands x bs := by
  induction n generalizing x with
  | zero =>
    rw [Nat.pow_zero, Nat.mul_one] at hn
    obtain rfl : x = F64.zero := F64.ext_units (Nat.eq_zero_of_dvd_of_lt hn hlt)
    exact ⟨[], fractionBits_zero 0, expands_nil.2 rfl⟩
  | succ n ih =>
    by_cases h0 : x = F64.zero
    · subst h0
      exact ⟨[], fractionBits_zero _, expands_nil.2 rfl⟩
    · obtain ⟨hexact, hrest⟩ := doubleDrop_exact hx hlt
      have hdvd : F64.scale ∣ (doubleDrop x).2.units * 2 ^ n := by
        rw [Nat.pow_succ', ← Nat.mul_assoc, Nat.mul_comm x.units 2, hexact, Nat.add_mul, Nat.mul_right_comm] at hn
        exact (Nat.dvd_add_right (Nat.dvd_mul_left ..)).1 hn
      obtain ⟨bs, hbs, hexp⟩ := ih (doubleDrop_valid x) hrest hdvd
      refine ⟨_, by rw [fractionBits_succ n h0, hbs, Option.map_some],
        expands_cons.2 ⟨_, hexact, hrest, hexp, ?_⟩⟩
      rintro rfl
      have hzero := expands_nil.1 hexp
      have hne := F64.units_ne h0
      rw [F64.zero_units] at hne
      rw [hzero, F64.zero_units] at hexact
      cases hbit : (doubleDrop x).1 with
      | true => rfl
      | false =>
        rw [hbit, Bool.toNat_false] at hexact
        omega

/-- The bound of the doubling loops exceeds the number of fraction bits by one (R222 point (e)). -/
theorem two_pow_artLoopBound : 2 ^ Config.artLoopBound = 2 * F64.scale := by
  simp only [F64.scale, Config.artLoopBound, ← Nat.pow_succ']

/-- The bound of the loop covers every fraction below 1 (R222 point (e)). -/
theorem fractionBits_bound (hx : x.Valid) (hlt : x.units < F64.scale) :
    ∃ bs, fractionBits Config.artLoopBound x = some bs ∧ expands x bs := by
  refine fractionBits_expands hx hlt (Dvd.dvd.mul_left ?_ _)
  rw [two_pow_artLoopBound]
  exact Nat.dvd_mul_left ..

end expansion

/-! ### Renormalization -/

/-- An interval of positive width between binary64 numbers. -/
structure Wide (low high : F64) : Prop where
  lowValid : low.Valid
  highValid : high.Valid
  lt : low.units < high.units

/-- The interval of `r` is [low, high) doubled once a bit, less the bits, and it lies in neither half (R222). -/
structure Renormalized (low high : F64) (r : Renorm) : Prop where
  wide : Wide r.low r.high
  low : r.low.units + bitsNumber r.bits * F64.scale = low.units * 2 ^ r.bits.length
  high : r.high.units + bitsNumber r.bits * F64.scale = high.units * 2 ^ r.bits.length
  notLower : ¬(F64.lt r.low F64.half = true ∧ F64.lt r.high F64.half = true)
  notUpper : ¬(F64.le F64.half r.low = true ∧ F64.lt r.high F64.one = true)

section renorm
variable {low high low' high' : F64} {b : Bool} {r : Renorm}

/-- One pass before others: its bit is the integer part of both ends doubled. -/
theorem Renormalized.cons (hlow : 2 * low.units = b.toNat * F64.scale + low'.units)
    (hhigh : 2 * high.units = b.toNat * F64.scale + high'.units) (h : Renormalized low' high' r) :
    Renormalized low high { r with bits := b :: r.bits } where
  wide := h.wide
  low := by
    have hr := h.low
    simp only [bitsNumber_cons, List.length_cons, Nat.pow_succ', ← Nat.mul_assoc, Nat.mul_comm low.units 2, hlow,
      Nat.add_mul, ← hr]
    ring
  high := by
    have hr := h.high
    simp only [bitsNumber_cons, List.length_cons, Nat.pow_succ', ← Nat.mul_assoc, Nat.mul_comm high.units 2, hhigh,
      Nat.add_mul, ← hr]
    ring
  notLower := h.notLower
  notUpper := h.notUpper

theorem Renormalized.stop (h : Wide low high)
    (hlower : ¬(F64.lt low F64.half = true ∧ F64.lt high F64.half = true))
    (hupper : ¬(F64.le F64.half low = true ∧ F64.lt high F64.one = true)) :
    Renormalized low high ⟨low, high, []⟩ :=
  ⟨h, by simp [bitsNumber], by simp [bitsNumber], hlower, hupper⟩

theorem Wide.double (h : Wide low high) : Wide ⟨2 * low.units⟩ ⟨2 * high.units⟩ :=
  ⟨h.lowValid.double, h.highValid.double, by have := h.lt; dsimp only; omega⟩

theorem Wide.upper (h : Wide low high) (hlow : F64.scale ≤ 2 * low.units) (hhigh : high.units < F64.scale) :
    Wide ⟨2 * low.units - F64.scale⟩ ⟨2 * high.units - F64.scale⟩ := by
  have hlt := h.lt
  exact ⟨h.lowValid.double.sub_scale hlow (show 2 * low.units < _ by omega),
    h.highValid.double.sub_scale (show _ ≤ 2 * high.units by omega) (show 2 * high.units < _ by omega),
    show 2 * low.units - F64.scale < 2 * high.units - F64.scale by omega⟩

/-- A pass in the lower half drops no integer part. -/
theorem renormLoop_lower (n : Nat) (h : Wide low high) (hhigh : 2 * high.units < F64.scale) :
    renormLoop (n + 1) low high = emitted false (renormLoop n ⟨2 * low.units⟩ ⟨2 * high.units⟩) := by
  have hlt := h.lt
  have hhalf := F64.two_mul_half_units
  have hone : high ≠ F64.one := fun e => by
    rw [e, F64.one_units] at hhigh
    omega
  have hlower : (F64.lt low F64.half && F64.lt high F64.half) = true :=
    Bool.and_eq_true_iff.2 ⟨F64.lt_iff.2 (by omega), F64.lt_iff.2 (by omega)⟩
  rw [renormLoop_succ, if_neg hone, if_pos hlower, F64.fmul_two h.lowValid, F64.fmul_two h.highValid]

/-- A pass in the upper half drops the integer part 1 of both ends. -/
theorem renormLoop_upper (n : Nat) (h : Wide low high) (hlow : F64.scale ≤ 2 * low.units)
    (hhigh : high.units < F64.scale) :
    renormLoop (n + 1) low high
      = emitted true (renormLoop n ⟨2 * low.units - F64.scale⟩ ⟨2 * high.units - F64.scale⟩) := by
  have hlt := h.lt
  have hhalf := F64.two_mul_half_units
  have hone : high ≠ F64.one := fun e => by
    rw [e, F64.one_units] at hhigh
    omega
  have hlower : ¬(F64.lt low F64.half && F64.lt high F64.half) = true := fun hc => by
    have := F64.lt_iff.1 (Bool.and_eq_true_iff.1 hc).1
    omega
  have hupper : (F64.le F64.half low && F64.lt high F64.one) = true :=
    Bool.and_eq_true_iff.2 ⟨F64.le_iff.2 (by omega), F64.lt_iff.2 hhigh⟩
  rw [renormLoop_succ, if_neg hone, if_neg hlower, if_pos hupper, F64.fmul_two h.lowValid, F64.fmul_two h.highValid,
    F64.fsub_one h.lowValid.double hlow (show 2 * low.units < _ by omega),
    F64.fsub_one h.highValid.double (show _ ≤ 2 * high.units by omega) (show 2 * high.units < _ by omega)]

theorem renormLoop_stop (n : Nat) (hone : high ≠ F64.one)
    (hlower : ¬(F64.lt low F64.half = true ∧ F64.lt high F64.half = true))
    (hupper : ¬(F64.le F64.half low = true ∧ F64.lt high F64.one = true)) :
    renormLoop n low high = some ⟨low, high, []⟩ := by
  rw [← Bool.and_eq_true_iff] at hlower hupper
  cases n with
  | zero => rw [renormLoop_zero, if_neg hone, if_neg hlower, if_neg hupper]
  | succ n => rw [renormLoop_succ, if_neg hone, if_neg hlower, if_neg hupper]

/-- An interval that ends elsewhere than at 1 is renormalized within `n` passes, if after them it would be 1 wide. -/
theorem renormLoop_exact {n : Nat} (h : Wide low high) (hone : high.units ≠ F64.scale)
    (hn : F64.scale ≤ (high.units - low.units) * 2 ^ n) :
    ∃ r, renormLoop n low high = some r ∧ Renormalized low high r := by
  induction n generalizing low high with
  | zero =>
    have hlt := h.lt
    have hhalf := F64.two_mul_half_units
    have hlower : ¬(F64.lt low F64.half = true ∧ F64.lt high F64.half = true) := fun ⟨_, hc⟩ => by
      have := F64.lt_iff.1 hc
      omega
    have hupper : ¬(F64.le F64.half low = true ∧ F64.lt high F64.one = true) := fun ⟨_, hc⟩ => by
      have := F64.lt_iff.1 hc
      rw [F64.one_units] at this
      omega
    exact ⟨_, renormLoop_stop 0 (fun e => hone (e ▸ rfl)) hlower hupper, .stop h hlower hupper⟩
  | succ n ih =>
    have hlt := h.lt
    have hhalf := F64.two_mul_half_units
    rw [Nat.pow_succ', ← Nat.mul_assoc, Nat.mul_comm _ 2] at hn
    by_cases hlower : F64.lt low F64.half = true ∧ F64.lt high F64.half = true
    · have hhigh := F64.lt_iff.1 hlower.2
      obtain ⟨r, hr, hren⟩ := ih h.double (show 2 * high.units ≠ _ by omega)
        (hn.trans_eq (congrArg (· * 2 ^ n) (Nat.mul_sub ..)))
      refine ⟨_, ?_, hren.cons (b := false) (by simp) (by simp)⟩
      rw [renormLoop_lower n h (by omega), hr]
      rfl
    · by_cases hupper : F64.le F64.half low = true ∧ F64.lt high F64.one = true
      · have hlow := F64.le_iff.1 hupper.1
        have hhigh := F64.lt_iff.1 hupper.2
        rw [F64.one_units] at hhigh
        obtain ⟨r, hr, hren⟩ := ih (h.upper (by omega) hhigh) (show 2 * high.units - F64.scale ≠ _ by omega)
          (hn.trans_eq (congrArg (· * 2 ^ n) (by dsimp only; omega)))
        refine ⟨_, ?_, hren.cons (b := true) (by simp only [Bool.toNat_true]; omega)
          (by simp only [Bool.toNat_true]; omega)⟩
        rw [renormLoop_upper n h (by omega) hhigh, hr]
        rfl
      · exact ⟨_, renormLoop_stop _ (fun e => hone (e ▸ rfl)) hlower hupper, .stop h hlower hupper⟩

/-- An interval that ends at 1 is flushed (R222). -/
theorem artRenorm_one (h : low.Valid) (hlt : low.units < F64.scale) :
    ∃ bs, artRenorm low F64.one = some ⟨F64.zero, F64.one, bs⟩ ∧ expands low bs := by
  obtain ⟨bs, hbs, hexp⟩ := fractionBits_bound h hlt
  refine ⟨bs, ?_, hexp⟩
  have hflush : artRenorm low F64.one = flushed low := by
    unfold artRenorm Config.artLoopBound
    rw [renormLoop_succ, if_pos rfl]
  rw [hflush, flushed, hbs, Option.map_some]

theorem artRenorm_exact (h : Wide low high) (hone : high ≠ F64.one) :
    ∃ r, artRenorm low high = some r ∧ Renormalized low high r := by
  refine renormLoop_exact h (fun e => hone (F64.ext_units e)) ?_
  have hlt := h.lt
  calc F64.scale ≤ 2 ^ Config.artLoopBound := by
        rw [two_pow_artLoopBound]
        omega
    _ ≤ (high.units - low.units) * 2 ^ Config.artLoopBound := Nat.le_mul_of_pos_left _ (by omega)

end renorm

/-- Settles O41: every pass doubles the width of the interval, so the passes end; doubling and dropping the integer part
are exact. -/
theorem renormalizesExactly : Obligations.RenormalizesExactly := by
  unfold Obligations.RenormalizesExactly
  intro lo hi hlo hhi hlt
  rw [F64.lt_iff] at hlt
  by_cases hone : hi = F64.one
  · subst hone
    obtain ⟨bs, hr, hexp⟩ := artRenorm_one hlo hlt
    exact ⟨_, hr, F64.zero_valid, F64.one_valid, F64.lt_iff.2 F64.scale_pos, fun _ => ⟨rfl, rfl, hexp⟩,
      fun hne => absurd rfl hne⟩
  · obtain ⟨r, hr, hren⟩ := artRenorm_exact ⟨hlo, hhi, hlt⟩ hone
    exact ⟨r, hr, hren.wide.lowValid, hren.wide.highValid, F64.lt_iff.2 hren.wide.lt, fun e => absurd e hone,
      fun _ => ⟨hren.low, hren.high, hren.notLower, hren.notUpper⟩⟩

end Sys2Proof.Machine
end

section
/-! ART.INIT and the header of an archive (spec/43_arithmetic.md rules R223, R224, R227): the initial distribution has
no rounding in it. -/

namespace Sys2Proof

theorem F64.ofNat_of_le {n : Nat} (h : n ≤ 2 ^ 53) : F64.ofNat n = ⟨n * F64.scale⟩ :=
  F64.round_of_valid (x := ⟨n * F64.scale⟩) (F64.valid_of_scaled h)

theorem F64.fsub_zero {x : F64} (h : x.Valid) : F64.fsub x F64.zero = x := F64.round_of_valid h

theorem F64.fmul_one {x : F64} (h : x.Valid) : F64.fmul x F64.one = x := F64.round_mul_of_valid h F64.scale_pos

/-- The share of a count of 1, where it is a binary64 number: not rounded. -/
theorem F64.fdiv_ofNat_one {n share : Nat} (hn : n ≤ 2 ^ 53) (hvalid : F64.Valid ⟨share⟩)
    (h : F64.scale = share * n) : F64.fdiv (F64.ofNat 1) (F64.ofNat n) = ⟨share⟩ := by
  have hpos : 0 < n := Nat.pos_of_ne_zero fun h0 => F64.scale_pos.ne' (by rw [h, h0, Nat.mul_zero])
  have hprod : F64.scale * F64.scale = share * (n * F64.scale) := by rw [← Nat.mul_assoc, ← h]
  rw [F64.ofNat_of_le (by decide), F64.ofNat_of_le hn, F64.fdiv, Nat.one_mul, hprod]
  exact F64.round_mul_of_valid (x := ⟨share⟩) hvalid (Nat.mul_pos hpos F64.scale_pos)

/-- So many shares and one more, where they are a binary64 number: not rounded. -/
theorem F64.fadd_share {j share : Nat} (h : F64.Valid ⟨(j + 1) * share⟩) :
    F64.fadd ⟨j * share⟩ ⟨share⟩ = ⟨(j + 1) * share⟩ := by
  rw [F64.fadd, ← Nat.succ_mul]
  exact F64.round_of_valid h

end Sys2Proof

namespace Sys2Proof.Machine

/-! ### The initial model -/

/-- A symbol's share of the initial model, 1/256 (R223). -/
theorem start_share :
    F64.fmul (F64.fdiv (F64.ofNat 1) (F64.ofNat 256)) (F64.fsub F64.one F64.zero) = ⟨2 ^ 1066⟩ := by
  have hvalid : F64.Valid ⟨1 * 2 ^ 1066⟩ := F64.valid_of_scaled (by decide)
  have hscale : F64.scale = 2 ^ 1066 * 2 ^ 8 := by simp only [F64.scale, ← Nat.pow_add, Nat.reduceAdd]
  rw [Nat.one_mul] at hvalid
  have hdiv : F64.fdiv (F64.ofNat 1) (F64.ofNat 256) = ⟨2 ^ 1066⟩ := by
    rw [show 256 = 2 ^ 8 from rfl]
    exact F64.fdiv_ofNat_one (by decide) hvalid hscale
  rw [F64.fsub_zero F64.one_valid, hdiv, F64.fmul_one hvalid]

/-- Each boundary of the initial model is 1/256 after the one before, exactly. -/
theorem start_dist (j : Nat) (h : j < 257) : ArtUnit.start.dist[j] = ⟨j * 2 ^ 1066⟩ := by
  obtain ⟨hzero, hsucc⟩ := laidOut_of_relayout (u := ArtUnit.start) rfl
  have hlow : ArtUnit.start.low = F64.zero := rfl
  have hhigh : ArtUnit.start.high = F64.one := rfl
  have htotal : ArtUnit.start.atotal = 256 := rfl
  induction j with
  | zero =>
    rw [hzero, hlow, Nat.zero_mul]
    rfl
  | succ j ih =>
    have hcount : ArtUnit.start.acnt[j] = 1 := Vector.getElem_replicate ..
    rw [hsucc j (by omega), hcount, hlow, hhigh, htotal, start_share, ih (by omega)]
    exact F64.fadd_share (F64.valid_of_scaled (by omega))

/-- In an arithmetic session ART.INIT is accepted between calls of both directions (R223). -/
theorem accepted_artInit {s : State} (hcodec : s.codec = .art) (hphase : s.between) : Accepted .artInit s where
  codec := List.mem_singleton.2 hcodec
  phase := List.mem_pair.2 hphase
  mode _ hm := nomatch hm
  alive := by rcases hphase with e | e <;> rw [e] <;> decide

/-- ORIG_SIZE at the begin of a call (R162). -/
theorem State.beginCall_origSize_eq_ite (s : State) :
    s.beginCall.origSize = if s.mode = .compress then s.srcLen else 0#64 := by
  rw [State.beginCall_origSize]
  cases s.mode <;> rfl

/-- Settles O38: the initial layout is exact, boundary after boundary. -/
theorem artInitModel : Obligations.ArtInitModel := by
  unfold Obligations.ArtInitModel
  intro s hcodec hphase
  have hexec := (accepted_artInit hcodec hphase).exec_eq rfl rfl
  refine ⟨_, hexec.trans (runBody_of_ok artInitBody_apply), fun c => tabGet_replicate 1 c, rfl,
    fun j hj => congrArg F64.units (start_dist j hj), rfl, rfl,
    rfl, rfl, ?_⟩
  rw [← s.beginCall_origSize_eq_ite]
  rfl

/-! ### The header -/

section header
variable {s : State}

theorem artWrhdrBody_full (h : s.full 8) : artWrhdrBody s = .error (.raise .ioFailure) s :=
  Act.bind_eq_of_ok (Act.state_apply s) (Act.bind_of_error (dstPut_full _ h))

theorem artRdhdrBody_short (h : s.srcLen.toNat < s.srcPos.toNat + 8) :
    artRdhdrBody s = .error (.raise .ioFailure) s := Act.bind_of_error (srcNext_short h)

end header

/-- Settles O39: the size is one field, appended or taken whole or not at all. -/
theorem artHeader : Obligations.ArtHeader := by
  unfold Obligations.ArtHeader
  intro s hcodec hphase
  have hwrite (hmode : s.mode = .compress) : exec .artWrhdr s = runBody artWrhdrBody s :=
    At.exec_eq (i := .artWrhdr) ⟨hcodec, hmode, hphase⟩ (by decide) rfl rfl
  have hread (hmode : s.mode = .decompress) : exec .artRdhdr s = runBody artRdhdrBody s :=
    At.exec_eq (i := .artRdhdr) ⟨hcodec, hmode, hphase⟩ (by decide) rfl rfl
  refine ⟨fun hmode hroom => ?_, fun hmode hfull => ?_, fun hmode hshort => ?_, fun size hmode hlen hsize => ?_⟩
  · have happ := State.dstAppended_appended (s := s) (xs := beBytes 8 s.origSize.toNat)
      (by rw [beBytes_length]; exact hroom.2)
    exact ⟨_, (hwrite hmode).trans (runBody_of_ok (artWrhdrBody_room hroom)), happ.of_eq rfl rfl, rfl⟩
  · exact (hwrite hmode).trans (runBody_of_ioFailure (artWrhdrBody_full hfull))
  · exact (hread hmode).trans (runBody_of_ioFailure (artRdhdrBody_short hshort))
  · exact (hread hmode).trans (runBody_of_ok (artRdhdrBody_size hlen hsize))

end Sys2Proof.Machine
end

section
/-! ART.ENCSYM and ART.FLUSH (spec/43_arithmetic.md rules R225, R226): the bits of a renormalization or of an expansion,
appended whole or up to the first byte that does not fit. -/

namespace Sys2Proof.Machine

/-! ### The model after a symbol -/

/-- Step 3 of R225. -/
theorem ArtUnit.update_modelAfter (u : ArtUnit) (b : Byte) (r : Renorm) :
    modelAfter u (u.update b r.low r.high) b r := by
  refine ⟨fun c => ?_, rfl, rfl, rfl, laidOut_of_relayout rfl⟩
  refine (tabGet_tabSet u.acnt b c _).trans ?_
  by_cases hc : c = b
  · rw [if_pos hc, if_pos hc, hc]
  · rw [if_neg hc, if_neg hc]

/-- An interval of positive width is neither collapsed nor inverted. -/
theorem ne_and_not_lt_of_lt {lo hi : F64} (h : F64.lt lo hi = true) : lo ≠ hi ∧ ¬F64.lt hi lo = true := by
  have hlt := F64.lt_iff.1 h
  refine ⟨fun e => ?_, fun hc => ?_⟩
  · rw [e] at hlt
    exact Nat.lt_irrefl _ hlt
  · have := F64.lt_iff.1 hc
    omega

/-! ### ART.ENCSYM -/

section encsym
variable {s : State} {b : Byte} {r : Renorm} (hpos : s.srcPos.toNat < s.srcLen.toNat)
  (hb : Memory.read s.src s.srcPos.toNat = some b)
  (hlt : F64.lt (distLow s.art.dist b) (distHigh s.art.dist b) = true)
  (hr : artRenorm (distLow s.art.dist b) (distHigh s.art.dist b) = some r)
include hpos hb hlt hr

/-- For a symbol of positive width the byte is taken, and what is left are the bits and the update. -/
theorem artEncsymBody_coded :
    artEncsymBody s
      = (bwsPutBits r.bits >>= fun _ => Act.write fun s => { s with art := s.art.update b r.low r.high })
          (s.advanced 1) := by
  obtain ⟨hne, hninv⟩ := ne_and_not_lt_of_lt hlt
  refine Act.bind_eq_of_ok (srcByte_ok hpos hb) <| Act.bind_eq_of_ok (Act.state_apply _) ?_
  dsimp only
  rw [if_neg hne, if_neg hninv, hr]
  rfl

theorem artEncsymBody_ok (hw : s.writerOk) (hroom : s.room ((s.wcnt.toNat + r.bits.length) / 8)) :
    ∃ t, artEncsymBody s = .ok () { t with art := s.art.update b r.low r.high } ∧ BitsAppended s t r.bits
      ∧ t = { written s t with srcPos := s.srcPos + 1#64 } := by
  obtain ⟨t, et, happ, hframe, -⟩ := bwsPutBits_ok (s := s.advanced 1) hw hroom
  have hart : t.art = s.art := by rw [hframe]; rfl
  refine ⟨t, ?_, ⟨happ.len, happ.count, happ.bytes, happ.pending, happ.outside⟩, hframe⟩
  rw [artEncsymBody_coded hpos hb hlt hr, Act.bind_of_ok et, ← hart]
  rfl

theorem artEncsymBody_cut {m : Nat} (hw : s.writerOk) (hm : m < (s.wcnt.toNat + r.bits.length) / 8)
    (hroom : s.room m) (hfull : s.full (m + 1)) :
    ∃ t, artEncsymBody s = .error (.raise .ioFailure) t ∧ BitsCutOff s t r.bits m
      ∧ t = { written s t with srcPos := s.srcPos + 1#64 } := by
  obtain ⟨t, et, hcut, hframe⟩ := bwsPutBits_full (s := s.advanced 1) hw hm hroom hfull
  refine ⟨t, ?_, ⟨hcut.len, hcut.count, hcut.bytes, hcut.waiting, hcut.outside⟩, hframe⟩
  rw [artEncsymBody_coded hpos hb hlt hr, Act.bind_of_error et]

end encsym

/-- Settles O42: the byte is taken first and the model updated last, so a byte of the bits that does not fit leaves the
model as it was. -/
theorem artEncsymCodes : Obligations.ArtEncsymCodes := by
  unfold Obligations.ArtEncsymCodes
  intro s b r hcodec hmode hphase hw hpos hb hlt hr
  have hat : At .art .compress .aEnc s := ⟨hcodec, hmode, hphase⟩
  have hexec := hat.exec_eq (i := .artEncsym) (by decide) rfl (decide_eq_true hpos)
  refine ⟨fun hroom => ?_, fun m hm hroom hfull => ?_⟩
  · obtain ⟨t, e, happ, hframe⟩ := artEncsymBody_ok hpos hb hlt hr hw hroom
    refine ⟨_, hexec.trans (runBody_of_ok e), ⟨happ.len, happ.count, happ.bytes, happ.pending, happ.outside⟩,
      s.art.update_modelAfter b r, rfl, rfl, ?_⟩
    exact congrArg (fun u : State => { u with art := s.art.update b r.low r.high }) hframe
  · obtain ⟨t, e, hcut, hframe⟩ := artEncsymBody_cut hpos hb hlt hr hw hm hroom hfull
    exact ⟨ioFailed t, hexec.trans (runBody_of_ioFailure e),
      ⟨hcut.len, hcut.count, hcut.bytes, hcut.waiting, hcut.outside⟩, congrArg ioFailed hframe⟩

/-! ### ART.FLUSH -/

/-- The midpoint below 1 has its expansion, which the loop gives. -/
theorem exists_midpoint_expansion {u : ArtUnit} (h : F64.lt u.midpoint F64.one = true) :
    ∃ bits, fractionBits Config.artLoopBound u.midpoint = some bits ∧ expands u.midpoint bits :=
  fractionBits_bound (F64.fdiv_valid _ _) (F64.lt_iff.1 h)

section flush
variable {s : State} {bits : List Bool}

theorem artFlushBody_coded (hlt : F64.lt s.art.midpoint F64.one = true) (hbits : expands s.art.midpoint bits) :
    artFlushBody s = (bwsPutBits bits >>= fun _ => bwsFinish >>= fun _ => Act.write State.finishCompress) s := by
  obtain ⟨cs, hcs, hexp⟩ := exists_midpoint_expansion hlt
  have hbelow : ¬F64.le F64.one s.art.midpoint = true := fun hc => by
    have := F64.le_iff.1 hc
    have := F64.lt_iff.1 hlt
    omega
  refine Act.bind_eq_of_ok (Act.state_apply s) ?_
  rw [if_neg hbelow, hcs, expands_unique hbits hexp]

/-- Bits appended, the last byte padded and the call completed (R163, R226). -/
theorem putBits_finish_ok (hw : s.writerOk) (hroom : s.room ((s.wcnt.toNat + bits.length + 7) / 8)) :
    ∃ t, (bwsPutBits bits >>= fun _ => bwsFinish >>= fun _ => Act.write State.finishCompress) s
        = .ok () t.finishCompress ∧ BitsFinished s t bits ∧ t = written s t := by
  obtain ⟨u, eu, happ, hframe, hu⟩ := bwsPutBits_ok (bs := bits) hw (State.room_mono hroom (by omega))
  have hcount := happ.count
  obtain ⟨t, et, hfin, hwritten⟩ := bwsFinish_ok hu
    (State.room_after (s := s) (State.room_mono hroom (by omega)) (by rw [hframe]; rfl) happ.len)
  exact ⟨t, Act.bind_eq_of_ok eu (Act.bind_eq_of_ok et rfl), happ.finish hfin, written_trans hframe hwritten⟩

/-- The padded last byte does not fit (R226, R141). -/
theorem putBits_finish_unpadded {f : Unit → Act Unit} (hw : s.writerOk)
    (hroom : s.room ((s.wcnt.toNat + bits.length) / 8)) (hpad : (s.wcnt.toNat + bits.length) % 8 ≠ 0)
    (hfull : s.full ((s.wcnt.toNat + bits.length) / 8 + 1)) :
    ∃ t, (bwsPutBits bits >>= fun _ => bwsFinish >>= f) s = .error (.raise .ioFailure) t ∧ BitsAppended s t bits
      ∧ t = written s t := by
  obtain ⟨t, et, happ, hframe, -⟩ := bwsPutBits_ok (bs := bits) hw hroom
  have hpending : t.wcnt ≠ 0#4 := fun h0 => hpad (by rw [← happ.count, h0]; rfl)
  have hnoroom := State.full_after hfull (by rw [hframe]; rfl) happ.len
  exact ⟨t, Act.bind_eq_of_ok et (Act.bind_of_error (bwsFinish_full hpending hnoroom)), happ, hframe⟩

end flush

/-- Settles O44: the doubling loop gives the one expansion of the midpoint, and the packer appends and pads it. -/
theorem artFlushEnds : Obligations.ArtFlushEnds := by
  unfold Obligations.ArtFlushEnds
  intro s hcodec hmode hphase hend hw hlt
  have hat : At .art .compress .aEnc s := ⟨hcodec, hmode, hphase⟩
  have hexec := hat.exec_eq (i := .artFlush) (by decide) rfl (beq_iff_eq.2 hend)
  obtain ⟨cs, -, hcs⟩ := exists_midpoint_expansion (u := s.art) hlt
  refine ⟨⟨cs, hcs⟩, fun bits hbits => ?_⟩
  have hcoded := hexec.trans (runBody_congr (artFlushBody_coded hlt hbits))
  refine ⟨fun hroom => ?_, fun m hm hroom hfull => ?_, fun hroom hpad hfull => ?_⟩
  · obtain ⟨t, e, hfin, hframe⟩ := putBits_finish_ok hw hroom
    exact ⟨t.finishCompress, hcoded.trans (runBody_of_ok e), ⟨hfin.len, hfin.writer, hfin.bytes, hfin.outside⟩,
      congrArg State.finishCompress hframe⟩
  · obtain ⟨t, e, hcut, hframe⟩ := bwsPutBits_full hw hm hroom hfull
    exact ⟨ioFailed t, hcoded.trans (runBody_of_ioFailure (Act.bind_of_error e)),
      ⟨hcut.len, hcut.count, hcut.bytes, hcut.waiting, hcut.outside⟩, congrArg ioFailed hframe⟩
  · obtain ⟨t, e, happ, hframe⟩ := putBits_finish_unpadded hw hroom hpad hfull
    exact ⟨ioFailed t, hcoded.trans (runBody_of_ioFailure e),
      ⟨happ.len, happ.count, happ.bytes, happ.pending, happ.outside⟩, congrArg ioFailed hframe⟩

end Sys2Proof.Machine
end

section
/-! ART.DECSTEP (spec/43_arithmetic.md rules R228, R229): the search gives the symbol, which is emitted when the bits
folded so far single it out; and the two models stay equal over a symbol (R231). -/

namespace Sys2Proof

theorem F64.le_eq_false_iff {a b : F64} : F64.le a b = false ↔ b.units < a.units :=
  decide_eq_false_iff_not.trans Nat.not_le

end Sys2Proof

namespace Sys2Proof.Machine

/-! ### The search -/

section search
variable {acc : F64} {ds : List F64}

theorem lastAtMost_of_all_above (h : ∀ d ∈ ds, F64.le d acc = false) (i best : Nat) :
    lastAtMost acc ds i best = best := by
  induction ds generalizing i with
  | nil => rfl
  | cons d ds ih =>
    obtain ⟨hd, hds⟩ := List.forall_mem_cons.1 h
    rw [lastAtMost, hd, if_neg Bool.false_ne_true, ih hds]

/-- The boundary at place `k` is at most `acc`, and those after it are above. -/
theorem lastAtMost_eq {k : Nat} {d : F64} (hd : ds[k]? = some d) (hle : F64.le d acc = true)
    (habove : ∀ j x, k < j → ds[j]? = some x → F64.le x acc = false) (i best : Nat) :
    lastAtMost acc ds i best = i + k := by
  induction ds generalizing k i best with
  | nil => cases hd
  | cons x ds ih =>
    cases k with
    | zero =>
      obtain rfl : x = d := Option.some.inj hd
      rw [lastAtMost, hle]
      refine lastAtMost_of_all_above (fun y hy => ?_) _ _
      obtain ⟨j, hj⟩ := List.getElem?_of_mem hy
      exact habove (j + 1) y (Nat.succ_pos j) hj
    | succ k =>
      rw [lastAtMost, ih hd (fun j y hj hy => habove (j + 1) y (Nat.succ_lt_succ hj) hy), Nat.add_right_comm,
        Nat.add_assoc]

end search

theorem take_dist_getElem? (d : Vector F64 257) (b : Byte) : (d.toList.take 256)[b.toNat]? = some (distLow d b) := by
  have hb := b.isLt
  rw [List.getElem?_take_of_lt hb, distLow, Vector.getElem?_toList, Vector.getElem?_eq_getElem]

/-- `art_search` gives the symbol of R228. -/
theorem artSearch_eq {u : ArtUnit} {i : Byte} (h : searchGives u i) : artSearch u = some i := by
  obtain ⟨hfirst, hle, hlast⟩ := h
  have hnot : ¬F64.lt u.acc u.dist[0] = true := fun hc => by
    have := F64.lt_iff.1 hc
    have := F64.le_iff.1 hfirst
    omega
  have habove : ∀ j x, i.toNat < j → (u.dist.toList.take 256)[j]? = some x → F64.le x u.acc = false := by
    intro j x hj hx
    have hlen : j < 256 := by
      have := (List.getElem?_eq_some_iff.1 hx).1
      rw [List.length_take] at this
      omega
    obtain ⟨b, rfl⟩ : ∃ b : Byte, b.toNat = j := ⟨BitVec.ofNatLT j hlen, rfl⟩
    obtain rfl := Option.some.inj ((take_dist_getElem? u.dist b).symm.trans hx)
    exact F64.le_eq_false_iff.2 (F64.lt_iff.1 (hlast b hj))
  rw [artSearch, if_neg hnot, lastAtMost_eq (take_dist_getElem? u.dist i) hle habove, Nat.zero_add, BitVec.ofNat_toNat,
    BitVec.setWidth_eq]

/-! ### The branches of ART.DECSTEP -/

theorem doubleDrop_snd (x : F64) : (doubleDrop x).2 = dropDouble x := by
  unfold doubleDrop dropDouble
  dsimp only
  split <;> rfl

theorem rescale_eq_iterate (k : Nat) (x : F64) : rescale k x = dropDouble^[k] x := by
  induction k generalizing x with
  | zero => rfl
  | succ k ih => rw [rescale, ih, doubleDrop_snd, Function.iterate_succ_apply]

section branches
variable {s : State} {i : Byte}

/-- A symbol is due, and the search gives `i`. -/
structure Searched (s : State) (i : Byte) : Prop where
  due : s.dstLen ≠ s.origSize
  search : searchGives s.art i

theorem artDecstepBody_searched (h : Searched s i) :
    artDecstepBody s
      = (if artResolved s.art i then artEmit i
        else if bwsAvail s then do
          let bit ← bwsGetBit
          Act.write fun s => { s with art := s.art.fold bit }
        else Act.write State.finishDecompress) s := by
  unfold artDecstepBody
  rw [Act.bind_of_ok (Act.state_apply s), if_neg h.due, artSearch_eq h.search]

/-- The bits folded so far single out `i`, and its interval has positive width. -/
structure Resolved (s : State) (i : Byte) : Prop where
  searched : Searched s i
  resolved : F64.le (F64.fadd s.art.acc (F64.pow2neg s.art.exp)) (distHigh s.art.dist i) = true
  wide : F64.lt (distLow s.art.dist i) (distHigh s.art.dist i) = true

theorem artDecstepBody_resolved (h : Resolved s i) : artDecstepBody s = artEmit i s := by
  rw [artDecstepBody_searched h.searched, artResolved, if_pos h.resolved]

theorem artDecstepBody_emits {r : Renorm} (h : Resolved s i)
    (hr : artRenorm (distLow s.art.dist i) (distHigh s.art.dist i) = some r) (hexp : r.bits.length ≤ s.art.exp)
    (hroom : s.room 1) :
    artDecstepBody s = .ok () { s.appended [i] with art := s.art.decoded i r } := by
  obtain ⟨hne, hninv⟩ := ne_and_not_lt_of_lt h.wide
  refine (artDecstepBody_resolved h).trans <| Act.bind_eq_of_ok (Act.state_apply s) ?_
  rw [if_neg hne, if_neg hninv, hr, ← beBytes_one]
  refine Act.bind_eq_of_ok (dstPut_appended _ hroom) ?_
  dsimp only
  rw [if_neg (Nat.not_lt.2 hexp)]
  rfl

/-- The byte is put before the renormalization. -/
theorem artDecstepBody_full (h : Resolved s i) (hfull : s.full 1) :
    artDecstepBody s = .error (.raise .ioFailure) s := by
  obtain ⟨hne, hninv⟩ := ne_and_not_lt_of_lt h.wide
  refine (artDecstepBody_resolved h).trans <| Act.bind_eq_of_ok (Act.state_apply s) ?_
  rw [if_neg hne, if_neg hninv]
  exact Act.bind_of_error (dstPut_full _ hfull)

/-- `i` is not singled out yet. -/
structure Unresolved (s : State) (i : Byte) : Prop where
  searched : Searched s i
  unresolved : F64.le (F64.fadd s.art.acc (F64.pow2neg s.art.exp)) (distHigh s.art.dist i) = false

theorem artDecstepBody_unresolved (h : Unresolved s i) :
    artDecstepBody s
      = (if bwsAvail s then do
          let bit ← bwsGetBit
          Act.write fun s => { s with art := s.art.fold bit }
        else Act.write State.finishDecompress) s := by
  rw [artDecstepBody_searched h.searched, artResolved, h.unresolved]
  rfl

/-- Where there is a bit, `bws_avail` says so (R143). -/
theorem bwsAvail_of_srcBit {bit : Bool} (h : s.srcBit 0 = some bit) : bwsAvail s = true := by
  unfold bwsAvail
  by_cases hcnt : s.rcnt = 0#4
  · rw [State.srcBit, hcnt, if_neg (show ¬0 < (0#4).toNat by decide)] at h
    dsimp only at h
    split at h
    · rename_i hpos
      simpa using Or.inr hpos
    · cases h
  · simp [hcnt]

theorem artDecstepBody_folds {bit : Bool} (h : Unresolved s i) (hbit : s.srcBit 0 = some bit) :
    ∃ t, artDecstepBody s = .ok () { t with art := s.art.fold bit } ∧ BitsConsumed s t 1 ∧ t = consumed s t := by
  obtain ⟨t, et, hc, hframe⟩ := bwsGetBit_ok hbit
  have hart : t.art = s.art := by rw [hframe]; rfl
  refine ⟨t, ?_, hc, hframe⟩
  rw [artDecstepBody_unresolved h, if_pos (bwsAvail_of_srcBit hbit), ← hart]
  exact Act.bind_eq_of_ok et rfl

theorem artDecstepBody_exhausted (h : Unresolved s i) (hcnt : s.rcnt = 0#4)
    (hpos : s.srcLen.toNat ≤ s.srcPos.toNat) : artDecstepBody s = .ok () s.finishDecompress := by
  have havail : ¬bwsAvail s = true := by simpa [bwsAvail, hcnt] using hpos
  rw [artDecstepBody_unresolved h, if_neg havail]
  rfl

end branches

/-- The decoder's model after the symbol is the encoder's: ACC and EXP are outside it (R229). -/
theorem ArtUnit.decoded_modelAfter (u : ArtUnit) (i : Byte) (r : Renorm) : modelAfter u (u.decoded i r) i r :=
  u.update_modelAfter i r

theorem ArtUnit.fold_eq (u : ArtUnit) (bit : Bool) :
    u.fold bit = { u with
      exp := u.exp + 1
      acc := F64.fadd u.acc (F64.fmul (F64.ofNat bit.toNat) (F64.pow2neg (u.exp + 1))) } := by
  cases bit <;> rfl

/-- Settles O45: the search of R228 decides the branch, and each branch is evaluated. -/
theorem artDecstepCases : Obligations.ArtDecstepCases := by
  unfold Obligations.ArtDecstepCases
  intro s hcodec hmode hphase
  have hat : At .art .decompress .aDec s := ⟨hcodec, hmode, hphase⟩
  have hexec := hat.exec_eq (i := .artDecstep) (by decide) rfl rfl
  refine ⟨fun hend => hexec.trans (runBody_of_ok (artDecstepBody_complete hend)), fun i hdue hsearch => ?_⟩
  have hs : Searched s i := ⟨hdue, hsearch⟩
  refine ⟨fun r hres hlt hr hexp hroom => ?_, fun hres hlt hfull => ?_, fun bit hres hbit => ?_,
    fun hres hcnt hpos => ?_⟩
  · have happ := State.dstAppended_appended (s := s) (xs := [i]) hroom.2
    have hrun := artDecstepBody_emits ⟨hs, hres, hlt⟩ hr hexp hroom
    exact ⟨_, hexec.trans (runBody_of_ok hrun), happ.of_eq rfl rfl,
      s.art.decoded_modelAfter i r, rescale_eq_iterate _ _, rfl, rfl⟩
  · exact hexec.trans (runBody_of_ioFailure (artDecstepBody_full ⟨hs, hres, hlt⟩ hfull))
  · obtain ⟨t, e, hc, hframe⟩ := artDecstepBody_folds ⟨hs, hres⟩ hbit
    refine ⟨_, hexec.trans (runBody_of_ok e), ⟨hc.fetched, hc.held, hc.rest⟩, ?_⟩
    rw [← s.art.fold_eq]
    exact congrArg (fun u : State => { u with art := s.art.fold bit }) hframe
  · exact hexec.trans (runBody_of_ok (artDecstepBody_exhausted ⟨hs, hres⟩ hcnt hpos))

/-! ### The two models -/

theorem srcByte_leads (s : State) :
    srcByte.Leads (fun b t => Memory.read s.src s.srcPos.toNat = some b ∧ t.art = s.art) (fun _ _ => True) s := by
  unfold Act.Leads
  rw [srcByte_apply]
  by_cases hlen : s.srcLen.toNat < s.srcPos.toNat + 1
  · rw [if_pos hlen]
    trivial
  · rw [if_neg hlen]
    cases Memory.read s.src s.srcPos.toNat with
    | none => trivial
    | some b => exact ⟨rfl, rfl⟩

/-- ART.ENCSYM that goes to its end coded the byte at the cursor (R225). -/
theorem artEncsymBody_codes (s : State) :
    artEncsymBody.Leads
      (fun _ t => ∃ b r, Memory.read s.src s.srcPos.toNat = some b
        ∧ artRenorm (distLow s.art.dist b) (distHigh s.art.dist b) = some r ∧ t.art = s.art.update b r.low r.high)
      (fun _ _ => True) s := by
  unfold artEncsymBody
  rw [Act.leads_bind]
  refine (srcByte_leads s).mono (fun b t ⟨hb, hart⟩ => ?_) fun _ _ h => h
  rw [Act.leads_bind, Act.leads_state, hart]
  dsimp only
  split
  · exact (Act.leads_raise _).2 trivial
  · split
    · exact Act.leads_unspec _
    · split
      · exact Act.leads_unspec _
      · rename_i r hr
        rw [Act.leads_bind]
        refine ((bwsPutBits_part .closed r.bits).leads t).mono (fun _ u ⟨hu, _⟩ => ?_) fun _ _ _ => trivial
        rw [Act.leads_write]
        exact ⟨b, r, hb, hr, by rw [hu.art nofun, hart]⟩

/-- A byte that was appended stands where DST ended. -/
theorem dstPut_byte_leads (i : Byte) (s : State) :
    (dstPut 1 i.toNat).Leads (fun _ t => Memory.read t.dst s.dstLen.toNat = some i ∧ t.art = s.art)
      (fun _ _ => True) s := by
  unfold Act.Leads
  rw [dstPut_apply]
  by_cases hfits : s.cfg.dstFits s.dstLen.toNat 1
  · rw [if_pos hfits]
    by_cases h64 : s.dstLen.toNat + 1 < 2 ^ 64
    · rw [if_pos h64]
      refine ⟨?_, rfl⟩
      rw [read_memWrite, if_pos ⟨Nat.le_refl _, Nat.lt_succ_self _⟩, Nat.sub_self, beBytes_one]
      rfl
    · rw [if_neg h64]
      trivial
  · rw [if_neg hfits]
    trivial

/-- DST ends in the symbol `i`, and the model is the one after it. -/
def SymbolEmitted (s t : State) (i : Byte) : Prop :=
  Memory.read t.dst s.dstLen.toNat = some i
  ∧ ∃ r, artRenorm (distLow s.art.dist i) (distHigh s.art.dist i) = some r ∧ t.art = s.art.decoded i r

theorem artEmit_emits (i : Byte) (s : State) :
    (artEmit i).Leads (fun _ t => SymbolEmitted s t i) (fun _ _ => True) s := by
  unfold artEmit
  rw [Act.leads_bind, Act.leads_state]
  dsimp only
  split
  · exact (Act.leads_raise _).2 trivial
  · split
    · exact Act.leads_unspec _
    · rw [Act.leads_bind]
      refine (dstPut_byte_leads i s).mono (fun _ t ⟨hi, hart⟩ => ?_) fun _ _ _ => trivial
      split
      · exact Act.leads_unspec _
      · rename_i r hr
        split
        · exact Act.leads_unspec _
        · exact (Act.leads_write _).2 ⟨hi, r, hr, by rw [hart]⟩

/-- ART.DECSTEP that goes to its end leaves DST_LEN as it is or emits a symbol (R229). -/
theorem artDecstepBody_emits_or_keeps (s : State) :
    artDecstepBody.Leads (fun _ t => t.dstLen = s.dstLen ∨ ∃ i, SymbolEmitted s t i) (fun _ _ => True) s := by
  unfold artDecstepBody
  rw [Act.leads_bind, Act.leads_state]
  split
  · exact (Act.leads_write _).2 (.inl rfl)
  · split
    · exact Act.leads_unspec _
    · rename_i i _
      split
      · exact (artEmit_emits i s).mono (fun _ _ h => .inr ⟨i, h⟩) fun _ _ _ => trivial
      · split
        · rw [Act.leads_bind]
          refine (bwsGetBit_takes s).mono (fun _ t ⟨_, hframe⟩ => ?_) fun _ _ _ => trivial
          refine (Act.leads_write _).2 (.inl ?_)
          rw [hframe]
          rfl
        · exact (Act.leads_write _).2 (.inl rfl)

/-- Settles O46: both commands renormalize the interval of the same symbol and update equal models by the same rule. -/
theorem modelsInLockstep : Obligations.ModelsInLockstep := by
  unfold Obligations.ModelsInLockstep
  intro e d te td b hecodec hemode hephase hpos hdcodec hdmode hdphase hacnt hatotal hdist henc halive hdec hdalive
    hgrown hsrc hdst
  have heat : At .art .compress .aEnc e := ⟨hecodec, hemode, hephase⟩
  have hdat : At .art .decompress .aDec d := ⟨hdcodec, hdmode, hdphase⟩
  rw [heat.exec_eq (i := .artEncsym) (by decide) rfl (decide_eq_true hpos)] at henc
  rw [hdat.exec_eq (i := .artDecstep) (by decide) rfl rfl] at hdec
  obtain ⟨c, r, hc, hr, hte⟩ := (artEncsymBody_codes e).of_ok (ok_of_runBody henc halive)
  obtain ⟨i, hi, q, hq, htd⟩ :=
    ((artDecstepBody_emits_or_keeps d).of_ok (ok_of_runBody hdec hdalive)).resolve_left hgrown
  obtain rfl : c = b := Option.some.inj (hc.symm.trans hsrc)
  obtain rfl : i = c := Option.some.inj (hi.symm.trans hdst)
  rw [← hdist] at hq
  obtain rfl : q = r := Option.some.inj (hq.symm.trans hr)
  rw [hte, htd]
  unfold ArtUnit.decoded ArtUnit.update
  dsimp only
  rw [hacnt, hatotal]
  exact ⟨rfl, rfl, rfl, rfl, rfl⟩

end Sys2Proof.Machine
end

section
/-! The dictionary as a function (spec/44_lzw.md rule R271), and the commands that scan the source: LZW.INIT,
LZW.ENCBYTE, LZW.ENCEOF and LZW.WIDTH (rules R272 to R275). -/

namespace Sys2Proof.Machine

/-! ### The dictionary -/

section dictionary
variable {u : LzwUnit} {p : List Byte} {c : U32}

theorem dictFind_eq_none (h : p ∉ u.dict) : dictFind u p = none := by
  refine List.findIdx?_eq_none_iff.2 fun q hq => ?_
  rw [beq_eq_false_iff_ne]
  rintro rfl
  exact h hq

theorem exists_dictFind (h : p ∈ u.dict) : ∃ k, dictFind u p = some k := by
  refine Option.isSome_iff_exists.1 ?_
  rw [dictFind, List.findIdx?_isSome, List.any_eq_true]
  exact ⟨p, h, beq_self_eq_true p⟩

/-- `dict_find` gives the first place of the phrase (R271). -/
theorem dictFind_eq_some_iff {k : Nat} :
    dictFind u p = some k ↔ u.dict[k]? = some p ∧ ∀ j, j < k → u.dict[j]? ≠ some p := by
  rw [dictFind, List.findIdx?_eq_some_iff_getElem]
  constructor
  · rintro ⟨hk, hp, hfirst⟩
    refine ⟨List.getElem?_eq_some_iff.2 ⟨hk, eq_of_beq hp⟩, fun j hj hsome => hfirst j hj ?_⟩
    obtain ⟨hlt, e⟩ := List.getElem?_eq_some_iff.1 hsome
    exact beq_iff_eq.2 e
  · rintro ⟨hp, hfirst⟩
    obtain ⟨hk, e⟩ := List.getElem?_eq_some_iff.1 hp
    refine ⟨hk, beq_iff_eq.2 e, fun j hj hbeq => hfirst j hj ?_⟩
    exact List.getElem?_eq_some_iff.2 ⟨hj.trans hk, eq_of_beq hbeq⟩

/-- A phrase that is not one byte is looked up (R271). -/
theorem codeOf_of_two_le (h : 2 ≤ p.length) :
    codeOf u p = (dictFind u p).map fun k => BitVec.ofNat 32 (256 + k) := by
  unfold codeOf
  split
  · exact absurd h (Nat.not_succ_le_self 1)
  · cases dictFind u p <;> rfl

/-- `code_of` gives the codeword of the phrase (R271). -/
theorem codeOf_of_codewordIs (h : codewordIs u p c) : codeOf u p = some c := by
  rcases h with ⟨b, rfl, hc⟩ | ⟨hlen, k, hk, hfirst, hc⟩
  · refine congrArg some (BitVec.eq_of_toNat_eq ?_)
    rw [hc, BitVec.toNat_setWidth_of_le (by decide)]
  · rw [codeOf_of_two_le hlen, dictFind_eq_some_iff.2 ⟨hk, hfirst⟩, Option.map_some, ← hc, BitVec.ofNat_toNat,
      BitVec.setWidth_eq]

theorem codewordIs_length_pos (h : codewordIs u p c) : 0 < p.length := by
  rcases h with ⟨b, rfl, -⟩ | ⟨hlen, -⟩
  · exact Nat.one_pos
  · omega

/-- Each phrase of the unit has a codeword, in a dictionary within its bound (R5, R271). -/
theorem exists_codewordIs (hpos : 0 < p.length) (hknown : p.length ≤ 1 ∨ p ∈ u.dict)
    (hsize : u.dict.length ≤ Config.dictCapMax) : ∃ c, codewordIs u p c := by
  by_cases h1 : p.length ≤ 1
  · obtain ⟨b, rfl⟩ := List.length_eq_one_iff.1 (Nat.le_antisymm h1 hpos)
    exact ⟨b.setWidth 32, .inl ⟨b, rfl, BitVec.toNat_setWidth_of_le (by decide)⟩⟩
  · obtain ⟨k, hk⟩ := exists_dictFind (hknown.resolve_left h1)
    have hlt := (dictFind_some hk).1
    obtain ⟨hp, hfirst⟩ := dictFind_eq_some_iff.1 hk
    refine ⟨BitVec.ofNat 32 (256 + k), .inr ⟨by omega, k, hp, hfirst, ?_⟩⟩
    unfold Config.dictCapMax at hsize
    rw [BitVec.toNat_ofNat, Nat.mod_eq_of_lt (by omega)]

end dictionary

theorem dictLimit_le (c : Config) : c.dictLimit ≤ Config.dictCapMax := Nat.min_le_right ..

/-! ### Collecting a codeword and storing a phrase -/

section scan
variable {s : State} {b : Byte} {c : U32}

theorem dictAdd_ok (p : List Byte) (h : s.lzw.dict.length < s.cfg.dictLimit) :
    dictAdd p s = .ok () { s with lzw := { s.lzw with dict := s.lzw.dict ++ [p] } } :=
  Act.bind_eq_of_ok (Act.state_apply s) (by rw [if_pos h]; rfl)

theorem collectPhrase_ok (hc : codewordIs s.lzw s.lzw.phrase c)
    (hfits : s.cfg.codebufFits s.lzw.codebuf.length = true) :
    collectPhrase s = .ok () { s with lzw := { s.lzw with codebuf := s.lzw.codebuf ++ [c] } } :=
  Act.bind_eq_of_ok (Act.state_apply s) (by rw [if_pos hfits, codeOf_of_codewordIs hc]; rfl)

/-! ### LZW.INIT -/

/-- In an LZW session LZW.INIT is accepted between calls of both directions (R272). -/
theorem accepted_lzwInit (hcodec : s.codec = .lzw) (hphase : s.between) : Accepted .lzwInit s where
  codec := List.mem_singleton.2 hcodec
  phase := List.mem_pair.2 hphase
  mode _ hm := nomatch hm
  alive := by rcases hphase with e | e <;> rw [e] <;> decide

/-- Settles O47: the call begins, the unit starts anew and PHASE moves. -/
theorem lzwInitEmpty : Obligations.LzwInitEmpty := by
  unfold Obligations.LzwInitEmpty
  intro s hcodec hphase
  rw [← s.beginCall_origSize_eq_ite]
  exact ((accepted_lzwInit hcodec hphase).exec_eq rfl rfl).trans (runBody_of_ok lzwInitBody_apply)

/-! ### LZW.ENCBYTE -/

/-- The unit after a codeword of its phrase was collected and the phrase with `b` stored (R273). -/
def LzwUnit.learn (u : LzwUnit) (b : Byte) (c : U32) : LzwUnit :=
  { u with codebuf := u.codebuf ++ [c], dict := u.dict ++ [u.phrase ++ [b]], phrase := [b] }

/-- The state after LZW.ENCBYTE took a byte and left the unit `u` (R273). -/
def State.scanned (s : State) (u : LzwUnit) : State := { s.advanced 1 with phase := .lScan, lzw := u }

/-- One byte of SRC at the cursor. -/
theorem State.nextBytes_singleton (hpos : s.srcPos.toNat < s.srcLen.toNat)
    (hb : Memory.read s.src s.srcPos.toNat = some b) : s.NextBytes [b] :=
  ⟨hpos, Memory.readBytes_eq_some fun k hk => by rwa [Nat.lt_one_iff.1 hk]⟩

section encbyte
variable {rest : List Byte} (h : s.NextBytes (b :: rest))
include h

/-- The byte is taken, and what is left is the step on the unit. -/
theorem lzwEncbyteBody_of_extend {u : LzwUnit}
    (he : lzwExtend b (s.advanced 1) = .ok () { s.advanced 1 with lzw := u }) :
    lzwEncbyteBody s = .ok () (s.scanned u) :=
  Act.bind_eq_of_ok (srcByte_next h) (Act.bind_eq_of_ok he rfl)

theorem lzwEncbyteBody_first (hempty : s.lzw.phrase = []) :
    lzwEncbyteBody s = .ok () (s.scanned (s.lzw.setPhrase [b])) := by
  refine lzwEncbyteBody_of_extend h (Act.bind_eq_of_ok (Act.state_apply _) ?_)
  rw [if_pos (show (s.advanced 1).lzw.phrase = [] from hempty)]
  rfl

theorem lzwEncbyteBody_known (hne : s.lzw.phrase ≠ []) (hmem : s.lzw.phrase ++ [b] ∈ s.lzw.dict) :
    lzwEncbyteBody s = .ok () (s.scanned (s.lzw.setPhrase (s.lzw.phrase ++ [b]))) := by
  obtain ⟨k, hk⟩ := exists_dictFind hmem
  have hne : (s.advanced 1).lzw.phrase ≠ [] := hne
  have hk : dictFind (s.advanced 1).lzw ((s.advanced 1).lzw.phrase ++ [b]) = some k := hk
  refine lzwEncbyteBody_of_extend h (Act.bind_eq_of_ok (Act.state_apply _) ?_)
  rw [if_neg hne, hk]
  rfl

theorem lzwEncbyteBody_new (hmem : s.lzw.phrase ++ [b] ∉ s.lzw.dict) (hc : codewordIs s.lzw s.lzw.phrase c)
    (hfits : s.cfg.codebufFits s.lzw.codebuf.length = true) (hroom : s.lzw.dict.length < s.cfg.dictLimit) :
    lzwEncbyteBody s = .ok () (s.scanned (s.lzw.learn b c)) := by
  have hne : (s.advanced 1).lzw.phrase ≠ [] := List.length_pos_iff.1 (codewordIs_length_pos hc)
  have hnone : dictFind (s.advanced 1).lzw ((s.advanced 1).lzw.phrase ++ [b]) = none := dictFind_eq_none hmem
  refine lzwEncbyteBody_of_extend h (Act.bind_eq_of_ok (Act.state_apply _) ?_)
  rw [if_neg hne, hnone]
  exact Act.bind_eq_of_ok (collectPhrase_ok (s := s.advanced 1) hc hfits) <|
    Act.bind_eq_of_ok (dictAdd_ok _ hroom) rfl

end encbyte

end scan

/-- Settles O48: PHRASE is empty, or its extension is stored, or it is not; in the last case the codeword of PHRASE is
collected before the extension is stored. -/
theorem lzwEncbyteExtends : Obligations.LzwEncbyteExtends := by
  unfold Obligations.LzwEncbyteExtends
  intro s b hcodec hmode hphase hpos hb
  have hexec : exec .lzwEncbyte s = runBody lzwEncbyteBody s := by
    rcases hphase with hp | hp <;>
      exact At.exec_eq (i := .lzwEncbyte) ⟨hcodec, hmode, hp⟩ (by decide) rfl (decide_eq_true hpos)
  have hnext := State.nextBytes_singleton hpos hb
  refine ⟨fun hempty => ?_, fun hne hmem => ?_, fun c hmem hc hfits hroom => ?_⟩
  · exact hexec.trans (runBody_of_ok (lzwEncbyteBody_first hnext hempty))
  · exact hexec.trans (runBody_of_ok (lzwEncbyteBody_known hnext hne hmem))
  · exact hexec.trans (runBody_of_ok (lzwEncbyteBody_new hnext hmem hc hfits hroom))

/-! ### LZW.ENCEOF -/

/-- The unit after the codeword of its last phrase was collected (R274). -/
def LzwUnit.flush (u : LzwUnit) (c : U32) : LzwUnit := { u with codebuf := u.codebuf ++ [c], phrase := [] }

theorem lzwEnceofBody_phrase {s : State} {c : U32} (hc : codewordIs s.lzw s.lzw.phrase c)
    (hfits : s.cfg.codebufFits s.lzw.codebuf.length = true) :
    lzwEnceofBody s = .ok () ({ s with lzw := s.lzw.flush c }.setPhase .lScanned) := by
  have hne : s.lzw.phrase ≠ [] := List.length_pos_iff.1 (codewordIs_length_pos hc)
  refine Act.bind_eq_of_ok (Act.state_apply s) ?_
  rw [if_neg hne]
  exact Act.bind_eq_of_ok (collectPhrase_ok hc hfits) rfl

/-- Settles O49: with a phrase left its codeword is collected, and no branch stores an entry. -/
theorem lzwEnceofFlushes : Obligations.LzwEnceofFlushes := by
  unfold Obligations.LzwEnceofFlushes
  intro s hcodec hmode hphase hend
  have hexec : exec .lzwEnceof s = runBody lzwEnceofBody s := by
    rcases hphase with hp | hp <;>
      exact At.exec_eq (i := .lzwEnceof) ⟨hcodec, hmode, hp⟩ (by decide) rfl (beq_iff_eq.2 hend)
  exact ⟨fun hempty => hexec.trans (runBody_of_ok (lzwEnceofBody_noPhrase hempty)),
    fun c hc hfits => hexec.trans (runBody_of_ok (lzwEnceofBody_phrase hc hfits))⟩

/-! ### LZW.WIDTH -/

/-- The logarithm of R275 is the least exponent that suffices. -/
theorem ceilLog2_le_iff {n k : Nat} : ceilLog2 n ≤ k ↔ n ≤ 2 ^ k := by
  unfold ceilLog2
  by_cases h1 : n ≤ 1
  · have hpos : 0 < 2 ^ k := Nat.two_pow_pos k
    rw [if_pos h1]
    omega
  · rw [if_neg h1, Nat.succ_le_iff, Nat.log2_lt (by omega)]
    omega

/-- Within the bound of R5 the width is at most 32. -/
theorem lzwWidthFor_le {d : Nat} (h : d ≤ Config.dictCapMax) : lzwWidthFor d ≤ 32 := by
  unfold Config.dictCapMax at h
  have hlog : ceilLog2 (d + 256) ≤ 32 := ceilLog2_le_iff.2 (by omega)
  unfold lzwWidthFor
  omega

/-- The unit after LZW.WIDTH (R275). -/
def LzwUnit.sized (u : LzwUnit) : LzwUnit := { u with width := BitVec.ofNat 6 (lzwWidthFor u.dict.length) }

section sized
variable {u : LzwUnit} (h : u.dict.length ≤ Config.dictCapMax)
include h

theorem LzwUnit.toNat_width_sized : u.sized.width.toNat = lzwWidthFor u.dict.length := by
  have hle := lzwWidthFor_le h
  rw [LzwUnit.sized, BitVec.toNat_ofNat, Nat.mod_eq_of_lt (by omega)]

theorem LzwUnit.legalWidth_sized : legalWidth u.sized.width := by
  rw [legalWidth, u.toNat_width_sized h]
  exact lzwWidthFor_legal (lzwWidthFor_le h)

end sized

theorem lzwWidthBody_ok {s : State} (h : s.lzw.dict.length ≤ Config.dictCapMax) :
    lzwWidthBody s = .ok () ({ s with lzw := s.lzw.sized }.setPhase .lWidth) :=
  lzwWidthBody_apply (lzwWidthFor_le h)

/-- Settles O50: the exponent is the logarithm of R275, and the width made of it fits WIDTH. -/
theorem lzwWidthRoundsUp : Obligations.LzwWidthRoundsUp := by
  unfold Obligations.LzwWidthRoundsUp
  intro s hcodec hmode hphase hsize
  have hat : At .lzw .compress .lScanned s := ⟨hcodec, hmode, hphase⟩
  have hexec := hat.exec_eq (i := .lzwWidth) (by decide) rfl rfl
  refine ⟨_, ceilLog2 (s.lzw.dict.length + 256), hexec.trans (runBody_of_ok (lzwWidthBody_ok hsize)),
    ceilLog2_le_iff.1 (Nat.le_refl _), fun j hj => ?_, LzwUnit.toNat_width_sized hsize,
    LzwUnit.legalWidth_sized hsize, rfl⟩
  exact Nat.lt_of_not_le fun hc => Nat.not_lt.2 (ceilLog2_le_iff.2 hc) hj

end Sys2Proof.Machine
end

section
/-! The LZW archive's header and body (spec/44_lzw.md rules R276 to R278): LZW.WRHDR, LZW.EMIT and LZW.RDHDR. -/

namespace Sys2Proof.Machine

/-! ### LZW.WRHDR and LZW.RDHDR -/

/-- The header of an LZW archive as the fields that are appended one after another (R276). -/
def lzwFields (size : U64) (w : BitVec 6) : List (List Byte) := [beBytes 8 size.toNat, beBytes 4 w.toNat]

/-- LZW.WRHDR's appends, before PHASE moves. -/
def lzwHeaderPuts (size : U64) (w : BitVec 6) : Act Unit :=
  dstPut 8 size.toNat >>= fun _ => dstPut 4 w.toNat >>= fun _ => pure ()

theorem lzwHeaderPuts_puts (size : U64) (w : BitVec 6) : (lzwHeaderPuts size w).Puts (lzwFields size w) :=
  (Act.Puts.nil.cons 4 w.toNat).cons 8 size.toNat

section header
variable {s : State}

theorem lzwWrhdrBody_cut {pre : List (List Byte)} (h : fieldsCut s (lzwFields s.origSize s.lzw.width) pre) :
    lzwWrhdrBody s = .error (.raise .ioFailure) (s.appended pre.flatten) := by
  have hputs : lzwWrhdrBody s
      = (lzwHeaderPuts s.origSize s.lzw.width >>= fun _ => Act.write fun s => s.setPhase .lHdrw) s := by
    unfold lzwWrhdrBody lzwHeaderPuts
    rw [Act.bind_of_ok (Act.state_apply s)]
    simp only [bind_assoc, pure_bind]
  rw [hputs]
  exact Act.bind_of_error ((lzwHeaderPuts_puts s.origSize s.lzw.width).cut s pre h)

/-- SRC ends before the size (R278, R313). -/
theorem lzwRdhdrBody_noSize (h : s.srcLen.toNat < s.srcPos.toNat + 8) :
    lzwRdhdrBody s = .error (.raise .ioFailure) s := Act.bind_of_error (srcNext_short h)

/-- SRC ends between the size and the width (R278, R313). -/
theorem lzwRdhdrBody_noWidth {size : Nat} (h8 : s.srcPos.toNat + 8 ≤ s.srcLen.toNat)
    (h12 : s.srcLen.toNat < s.srcPos.toNat + 12) (hsize : memRead s.src s.srcPos.toNat 8 = some size) :
    lzwRdhdrBody s
      = .error (.raise .ioFailure) { s with origSize := BitVec.ofNat 64 size, srcPos := s.srcPos + 8#64 } := by
  have hpos : (s.srcPos + 8#64).toNat = s.srcPos.toNat + 8 := dstLen_add (by have := s.srcLen.isLt; omega)
  refine Act.bind_eq_of_ok (srcNext_ok h8 hsize) <| Act.bind_eq_of_ok (Act.write_apply _ _) <|
    Act.bind_of_error (srcNext_short ?_)
  show s.srcLen.toNat < (s.srcPos + 8#64).toNat + 4
  omega

end header

/-- Settles O51: both fields are appended or those that DST takes; both are read or those that SRC holds. -/
theorem lzwHeader : Obligations.LzwHeader := by
  unfold Obligations.LzwHeader
  intro s hcodec
  have hwrite (hmode : s.mode = .compress) (hphase : s.phase = .lWidth) :
      exec .lzwWrhdr s = runBody lzwWrhdrBody s :=
    At.exec_eq (i := .lzwWrhdr) ⟨hcodec, hmode, hphase⟩ (by decide) rfl rfl
  have hread (hmode : s.mode = .decompress) (hphase : s.phase = .lInit) :
      exec .lzwRdhdr s = runBody lzwRdhdrBody s :=
    At.exec_eq (i := .lzwRdhdr) ⟨hcodec, hmode, hphase⟩ (by decide) rfl rfl
  refine ⟨fun hmode hphase hroom => ?_, fun pre hmode hphase hcut => ?_, fun hmode hphase hshort => ?_,
    fun size hmode hphase h8 h12 hsize => ?_, fun size w hmode hphase hlen hsize hw hlegal => ?_⟩
  · have happ := State.dstAppended_appended (s := s)
      (xs := beBytes 8 s.origSize.toNat ++ beBytes 4 s.lzw.width.toNat)
      (by rw [List.length_append, beBytes_length, beBytes_length]; exact hroom.2)
    exact ⟨_, (hwrite hmode hphase).trans (runBody_of_ok (lzwWrhdrBody_room hroom)), happ.of_eq rfl rfl, rfl⟩
  · have hrun := (hwrite hmode hphase).trans (runBody_of_ioFailure (lzwWrhdrBody_cut hcut))
    obtain ⟨f, post, -, hroom, -⟩ := hcut
    exact ⟨_, hrun, (State.dstAppended_appended hroom.2).of_eq rfl rfl, rfl⟩
  · exact (hread hmode hphase).trans (runBody_of_ioFailure (lzwRdhdrBody_noSize hshort))
  · exact (hread hmode hphase).trans (runBody_of_ioFailure (lzwRdhdrBody_noWidth h8 h12 hsize))
  · have hpos : s.srcPos + 8#64 + 4#64 = s.srcPos + 12#64 := BitVec.add_assoc ..
    rw [← hpos]
    exact (hread hmode hphase).trans (runBody_of_ok (lzwRdhdrBody_width hlen hsize hw hlegal))

/-! ### LZW.EMIT -/

/-- The stream bits of codewords of `w` bits each, bit 0 first (R114). -/
def codesBits (w : Nat) (cs : List U32) : List Bool := cs.flatMap fun c => codeBits c w

theorem codesBits_cons (w : Nat) (c : U32) (cs : List U32) :
    codesBits w (c :: cs) = codeBits c w ++ codesBits w cs := List.flatMap_cons

theorem putCodes_eq (w : Nat) (cs : List U32) (s : State) :
    putCodes w cs s = bwsPutBits (codesBits w cs) s := by
  induction cs generalizing s with
  | nil => rfl
  | cons c cs ih =>
    rw [codesBits_cons, bwsPutBits_append]
    exact congrArg (fun m : Act Unit => (bwsWrite c w >>= fun _ => m) s) (funext ih)

theorem length_codesBits (w : Nat) (cs : List U32) : (codesBits w cs).length = w * cs.length := by
  induction cs with
  | nil => rfl
  | cons c cs ih =>
    rw [codesBits_cons, List.length_append, length_codeBits, ih, List.length_cons, Nat.mul_succ, Nat.add_comm]

theorem length_packedBits (u : LzwUnit) : (packedBits u).length = u.width.toNat * u.codebuf.length :=
  length_codesBits ..

/-- The collected codewords are packed as one run of bits. -/
theorem lzwEmitBody_apply (s : State) :
    lzwEmitBody s
      = (bwsPutBits (packedBits s.lzw) >>= fun _ => bwsFinish >>= fun _ => Act.write State.finishCompress) s := by
  refine Act.bind_eq_of_ok (Act.state_apply s) ?_
  rw [Act.bind_apply, Act.bind_apply, putCodes_eq]
  rfl

/-- Settles O52: the packer appends one run of bits and pads it. -/
theorem lzwEmitPacks : Obligations.LzwEmitPacks := by
  unfold Obligations.LzwEmitPacks
  intro s hcodec hmode hphase hw
  have hat : At .lzw .compress .lHdrw s := ⟨hcodec, hmode, hphase⟩
  have hexec := (hat.exec_eq (i := .lzwEmit) (by decide) rfl rfl).trans (runBody_congr (lzwEmitBody_apply s))
  rw [← length_packedBits]
  refine ⟨fun hroom => ?_, fun m hm hroom hfull => ?_, fun hroom hpad hfull => ?_⟩
  · obtain ⟨t, e, hfin, hframe⟩ := putBits_finish_ok hw hroom
    exact ⟨t.finishCompress, hexec.trans (runBody_of_ok e), ⟨hfin.len, hfin.writer, hfin.bytes, hfin.outside⟩,
      congrArg State.finishCompress hframe⟩
  · obtain ⟨t, e, hcut, hframe⟩ := bwsPutBits_full hw hm hroom hfull
    exact ⟨ioFailed t, hexec.trans (runBody_of_ioFailure (Act.bind_of_error e)),
      ⟨hcut.len, hcut.count, hcut.bytes, hcut.waiting, hcut.outside⟩, congrArg ioFailed hframe⟩
  · obtain ⟨t, e, happ, hframe⟩ := putBits_finish_unpadded hw hroom hpad hfull
    exact ⟨ioFailed t, hexec.trans (runBody_of_ioFailure e),
      ⟨happ.len, happ.count, happ.bytes, happ.pending, happ.outside⟩, congrArg ioFailed hframe⟩

end Sys2Proof.Machine
end

section
/-! LZW.DECCODE (spec/44_lzw.md rule R279): a codeword is read, its phrase is appended byte by byte, and the unit learns
one entry. -/

namespace Sys2Proof.Machine

/-! ### A phrase appended -/

theorem putPhrase_puts (p : List Byte) : (putPhrase p).Puts (p.map fun x => [x]) := by
  induction p with
  | nil => exact .nil
  | cons x xs ih =>
    have hcons := ih.cons 1 x.toNat
    rwa [beBytes_one] at hcons

theorem flatten_map_singleton {α : Type} (xs : List α) : (xs.map fun x => [x]).flatten = xs := by
  rw [← List.flatMap_def, List.flatMap_singleton']

theorem putPhrase_ok {s : State} {p : List Byte} (h : s.room p.length) : putPhrase p s = .ok () (s.appended p) := by
  have hwhole := (putPhrase_puts p).whole s
  rw [flatten_map_singleton] at hwhole
  exact hwhole h

/-- DST takes the first `m` bytes of the phrase only (R79, R313). -/
theorem putPhrase_cut {s : State} {p : List Byte} {m : Nat} (hm : m < p.length) (hroom : s.room m)
    (hfull : s.full (m + 1)) : putPhrase p s = .error (.raise .ioFailure) (s.appended (p.take m)) := by
  obtain ⟨xs, y, ys, rfl, rfl⟩ := exists_append_cons_of_lt_length hm
  have hcut := (putPhrase_puts (xs ++ y :: ys)).cut s (xs.map fun x => [x])
  rw [flatten_map_singleton] at hcut
  rw [List.take_left]
  refine hcut ⟨[y], ys.map fun x => [x], by rw [List.map_append, List.map_cons], ?_, ?_⟩
  · rwa [flatten_map_singleton]
  · rwa [flatten_map_singleton]

/-! ### The phrase of a codeword -/

/-- The model finds the phrase that R271 and R279 give a codeword. -/
theorem decodePhrase_of_phraseIs {u : LzwUnit} {c : Nat} {p : List Byte} (h : phraseIs u c p) :
    decodePhrase u c = .ok p := by
  unfold decodePhrase phraseOf LzwUnit.next Config.lzwFirstCode
  rcases h with ⟨hc, rfl⟩ | ⟨hc, hp⟩ | ⟨rfl, hprev, x, xs, hx, rfl⟩
  · rw [if_pos (by omega), if_pos hc]
  · have hlt := (List.getElem?_eq_some_iff.1 hp).1
    rw [if_pos (by omega), if_neg (by omega), hp]
  · rw [if_neg (Nat.lt_irrefl _), hprev, hx]
    simp

/-- The unit after it learnt from the phrase `x :: xs` (R279). -/
def LzwUnit.decoded (u : LzwUnit) (x : Byte) (xs : List Byte) : LzwUnit :=
  { u with dict := if u.havePrev then u.dict ++ [u.prev ++ [x]] else u.dict, prev := x :: xs, havePrev := true }

/-- The state after the phrase `x :: xs` was appended and learnt from (R279). -/
def State.learnt (s : State) (x : Byte) (xs : List Byte) : State :=
  { s.appended (x :: xs) with lzw := s.lzw.decoded x xs }

/-- The call ends where ORIG_SIZE bytes are out (R164, R279). -/
def State.settled (s : State) : State := if s.origSize.toNat ≤ s.dstLen.toNat then s.finishDecompress else s

theorem settle_apply (s : State) :
    (Act.state >>= fun t => if t.origSize.toNat ≤ t.dstLen.toNat then Act.write State.finishDecompress else pure ()) s
      = .ok () s.settled := by
  rw [Act.bind_of_ok (Act.state_apply s), State.settled]
  split <;> rfl

section phrase
variable {s : State} {x : Byte} {xs : List Byte}

theorem decodeInsert_ok (x : Byte) (hroom : s.lzw.havePrev = true → s.lzw.dict.length < s.cfg.dictLimit) :
    decodeInsert x s = .ok () { s with lzw := { s.lzw with
      dict := if s.lzw.havePrev then s.lzw.dict ++ [s.lzw.prev ++ [x]] else s.lzw.dict } } := by
  refine Act.bind_eq_of_ok (Act.state_apply s) ?_
  by_cases hprev : s.lzw.havePrev = true
  · rw [if_pos hprev, if_pos hprev, dictAdd_ok _ (hroom hprev)]
  · rw [if_neg hprev, if_neg hprev]
    rfl

theorem lzwEmitPhrase_ok (hin : s.dstLen.toNat + (x :: xs).length ≤ s.origSize.toNat)
    (hroom : s.room (x :: xs).length) (hdict : s.lzw.havePrev = true → s.lzw.dict.length < s.cfg.dictLimit) :
    lzwEmitPhrase (x :: xs) s = .ok () (s.learnt x xs).settled := by
  refine Act.bind_eq_of_ok (Act.state_apply s) ?_
  rw [if_neg (Nat.not_lt.2 hin)]
  exact Act.bind_eq_of_ok (putPhrase_ok hroom) <| Act.bind_eq_of_ok (decodeInsert_ok x hdict) <|
    Act.bind_eq_of_ok (Act.write_apply _ _) <| settle_apply (s.learnt x xs)

theorem lzwEmitPhrase_cut {m : Nat} (hin : s.dstLen.toNat + (x :: xs).length ≤ s.origSize.toNat)
    (hm : m < (x :: xs).length) (hroom : s.room m) (hfull : s.full (m + 1)) :
    lzwEmitPhrase (x :: xs) s = .error (.raise .ioFailure) (s.appended ((x :: xs).take m)) := by
  refine Act.bind_eq_of_ok (Act.state_apply s) ?_
  rw [if_neg (Nat.not_lt.2 hin)]
  exact Act.bind_of_error (putPhrase_cut hm hroom hfull)

end phrase

/-- With DST within ORIG_SIZE the call ends where they meet. -/
theorem State.settled_eq {s : State} (h : s.dstLen.toNat ≤ s.origSize.toNat) :
    s.settled = { s with
      phase := if s.dstLen = s.origSize then .done else s.phase
      result := if s.dstLen = s.origSize then s.origSize else s.result } := by
  unfold State.settled
  by_cases hend : s.dstLen = s.origSize
  · rw [if_pos (by rw [hend]), if_pos hend, if_pos hend]
    rfl
  · have hne : s.dstLen.toNat ≠ s.origSize.toNat := fun e => hend (BitVec.eq_of_toNat_eq e)
    rw [if_neg (by omega), if_neg hend, if_neg hend]

/-! ### LZW.DECCODE -/

/-- A codeword of a legal width is at the cursor, whole, and its phrase `p` ends within ORIG_SIZE. -/
structure State.PhraseNext (s : State) (p : List Byte) : Prop where
  legal : legalWidth s.lzw.width
  bits : ∀ n, n < s.lzw.width.toNat → (s.srcBit n).isSome = true
  phrase : phraseIs s.lzw (s.codewordAt s.lzw.width.toNat) p
  inside : s.dstLen.toNat + p.length ≤ s.origSize.toNat

section deccode
variable {s : State} {x : Byte} {xs : List Byte}

theorem le_of_mem_lzwWidths {w : Nat} (h : w ∈ Config.lzwWidths) : w ≤ 32 := by
  have hall : ∀ w ∈ Config.lzwWidths, w ≤ 32 := by decide
  exact hall w h

/-- The codeword is read, and what is left is its phrase. -/
theorem lzwDeccodeBody_phrase (h : s.PhraseNext (x :: xs)) :
    ∃ t, lzwDeccodeBody s = lzwEmitPhrase (x :: xs) t ∧ BitsConsumed s t s.lzw.width.toNat
      ∧ t = consumed s t := by
  obtain ⟨t, et, hc, hframe⟩ := bwsRead_ok h.bits
  have hword : (BitVec.ofNat 32 (s.codewordAt s.lzw.width.toNat)).toNat = s.codewordAt s.lzw.width.toNat := by
    rw [BitVec.toNat_ofNat]
    refine Nat.mod_eq_of_lt ((s.codewordAt_lt _).trans_le (Nat.pow_le_pow_right (by decide) ?_))
    exact le_of_mem_lzwWidths h.legal
  have hin := h.inside
  rw [List.length_cons] at hin
  refine ⟨t, Act.bind_eq_of_ok (Act.state_apply s) ?_, hc, hframe⟩
  rw [if_neg (by omega), Act.bind_of_ok et, hword, decodePhrase_of_phraseIs h.phrase]

theorem lzwDeccodeBody_ok (h : s.PhraseNext (x :: xs)) (hroom : s.room (x :: xs).length)
    (hdict : s.lzw.havePrev = true → s.lzw.dict.length < s.cfg.dictLimit) :
    ∃ t, lzwDeccodeBody s = .ok () (t.learnt x xs).settled ∧ BitsConsumed s t s.lzw.width.toNat
      ∧ t = consumed s t := by
  obtain ⟨t, et, hc, hframe⟩ := lzwDeccodeBody_phrase h
  refine ⟨t, et.trans (lzwEmitPhrase_ok ?_ ?_ ?_), hc, hframe⟩ <;> rw [hframe]
  · exact h.inside
  · exact hroom
  · exact hdict

/-- DST takes the first `m` bytes of the phrase only. -/
theorem lzwDeccodeBody_cut {m : Nat} (h : s.PhraseNext (x :: xs)) (hm : m < (x :: xs).length) (hroom : s.room m)
    (hfull : s.full (m + 1)) :
    ∃ t, lzwDeccodeBody s = .error (.raise .ioFailure) (t.appended ((x :: xs).take m))
      ∧ BitsConsumed s t s.lzw.width.toNat ∧ t = consumed s t := by
  obtain ⟨t, et, hc, hframe⟩ := lzwDeccodeBody_phrase h
  refine ⟨t, et.trans (lzwEmitPhrase_cut ?_ hm ?_ ?_), hc, hframe⟩ <;> rw [hframe]
  · exact h.inside
  · exact hroom
  · exact hfull

/-- SRC ends inside the codeword: every bit is taken. -/
theorem lzwDeccodeBody_short (hdue : s.dstLen.toNat < s.origSize.toNat) (hs : s.srcIntact)
    (hleft : s.bitsLeft < s.lzw.width.toNat) :
    lzwDeccodeBody s = .error (.raise .ioFailure) s.drained := by
  refine Act.bind_eq_of_ok (Act.state_apply s) ?_
  rw [if_neg (Nat.not_le.2 hdue)]
  exact Act.bind_of_error (Act.bind_of_error (bwsGetBits_short hs hleft))

end deccode

/-- Bytes appended after bits were taken are appended to what was there before. -/
theorem DstAppended.of_consumed {s t u : State} {bs : List Byte} (hframe : t = consumed s t)
    (h : DstAppended t u bs) : DstAppended s u bs := by
  rw [hframe] at h
  exact h

/-- Settles O53: the codeword is read, then its phrase is appended, and then the unit learns. -/
theorem lzwDeccodeDecodes : Obligations.LzwDeccodeDecodes := by
  unfold Obligations.LzwDeccodeDecodes
  intro s hcodec hmode hphase
  have hat : At .lzw .decompress .lDec s := ⟨hcodec, hmode, hphase⟩
  have hexec := hat.exec_eq (i := .lzwDeccode) (by decide) rfl rfl
  refine ⟨fun hend => hexec.trans (runBody_of_ok (lzwDeccodeBody_complete hend)),
    fun x xs hlegal hbits hp hin hroom hdict => ?_,
    fun hdue hs hleft => hexec.trans (runBody_of_ioFailure (lzwDeccodeBody_short hdue hs hleft)),
    fun x xs m hlegal hbits hp hin hm hroom hfull => ?_⟩
  · obtain ⟨t, e, hc, hframe⟩ := lzwDeccodeBody_ok ⟨hlegal, hbits, hp, hin⟩ hroom hdict
    have happ : DstAppended s (t.learnt x xs) (x :: xs) :=
      .of_consumed hframe ((State.dstAppended_appended (by rw [hframe]; exact hroom.2)).of_eq rfl rfl)
    have hlen : (t.learnt x xs).dstLen.toNat ≤ (t.learnt x xs).origSize.toNat := by
      rw [happ.1, hframe]
      exact hin
    rw [State.settled_eq hlen] at e
    refine ⟨_, hexec.trans (runBody_of_ok e), happ.of_eq rfl rfl, ⟨hc.fetched, hc.held, hc.rest⟩, ?_⟩
    rw [← hphase, hframe]
    rfl
  · obtain ⟨t, e, hc, hframe⟩ := lzwDeccodeBody_cut ⟨hlegal, hbits, hp, hin⟩ hm hroom hfull
    have happ : DstAppended s (t.appended ((x :: xs).take m)) ((x :: xs).take m) :=
      .of_consumed hframe (State.dstAppended_appended (by
        rw [List.length_take_of_le hm.le, hframe]
        exact hroom.2))
    refine ⟨_, hexec.trans (runBody_of_ioFailure e), happ.of_eq rfl rfl, ⟨hc.fetched, hc.held, hc.rest⟩, ?_⟩
    rw [hframe]
    rfl

end Sys2Proof.Machine
end

section
/-! The LZW round trip (spec/44_lzw.md rules R280, R281), the dictionaries: what scanning a source collects, and that
the decoder's dictionary follows the encoder's one entry behind, so each codeword gives the phrase it was collected
for. -/

namespace Sys2Proof.Machine

/-! ### What scanning a source collects -/

/-- From the unit `u`, the bytes `bs` and the end of SRC collect the codewords `cs` and leave the unit `v`: LZW.ENCBYTE
byte after byte, then LZW.ENCEOF (R273, R274). -/
inductive Collects : LzwUnit → List Byte → List U32 → LzwUnit → Prop where
  | nothing {u : LzwUnit} : u.phrase = [] → Collects u [] [] u
  | last {u : LzwUnit} {c : U32} : codewordIs u u.phrase c → Collects u [] [c] (u.flush c)
  | first {u v : LzwUnit} {b : Byte} {bs : List Byte} {cs : List U32} : u.phrase = [] →
    Collects (u.setPhrase [b]) bs cs v → Collects u (b :: bs) cs v
  | known {u v : LzwUnit} {b : Byte} {bs : List Byte} {cs : List U32} : u.phrase ≠ [] →
    u.phrase ++ [b] ∈ u.dict → Collects (u.setPhrase (u.phrase ++ [b])) bs cs v → Collects u (b :: bs) cs v
  | new {u v : LzwUnit} {b : Byte} {bs : List Byte} {c : U32} {cs : List U32} :
    u.phrase ++ [b] ∉ u.dict → codewordIs u u.phrase c → Collects (u.learn b c) bs cs v → Collects u (b :: bs) (c :: cs) v

section collects
variable {u v : LzwUnit} {bs : List Byte} {cs : List U32}

theorem Collects.codebuf (h : Collects u bs cs v) : v.codebuf = u.codebuf ++ cs := by
  induction h with
  | nothing => rw [List.append_nil]
  | last => rfl
  | first _ _ ih => exact ih
  | known _ _ _ ih => exact ih
  | new _ _ _ ih =>
    rw [ih, LzwUnit.learn, List.append_assoc]
    rfl

/-- Each byte makes one codeword at most, and the phrase one. -/
theorem Collects.length_le (h : Collects u bs cs v) : cs.length ≤ min u.phrase.length 1 + bs.length := by
  induction h with
  | nothing => exact Nat.zero_le _
  | last hc =>
    have := codewordIs_length_pos hc
    simp only [List.length_cons, List.length_nil]
    omega
  | first hempty _ ih =>
    simp only [LzwUnit.setPhrase, hempty, List.length_cons, List.length_nil] at ih ⊢
    omega
  | known hne _ _ ih =>
    have := List.length_pos_iff.2 hne
    simp only [LzwUnit.setPhrase, List.length_append, List.length_cons, List.length_nil] at ih ⊢
    omega
  | new _ hc _ ih =>
    have := codewordIs_length_pos hc
    simp only [LzwUnit.learn, List.length_cons, List.length_nil] at ih ⊢
    omega

end collects

/-! ### Scanning -/

/-- The tables hold what `n` bytes and the phrase of the unit may add to them (R5, R271, R273, R274). -/
structure TablesFit (cfg : Config) (u : LzwUnit) (n : Nat) : Prop where
  dict : u.dict.length + n ≤ cfg.dictLimit
  codebuf : ∀ k, k < u.codebuf.length + min u.phrase.length 1 + n → cfg.codebufFits k = true

section tables
variable {cfg : Config} {u : LzwUnit} {n : Nat} {b : Byte}

theorem TablesFit.first (h : TablesFit cfg u (n + 1)) (hempty : u.phrase = []) :
    TablesFit cfg (u.setPhrase [b]) n := by
  obtain ⟨hdict, hbuf⟩ := h
  rw [hempty] at hbuf
  exact ⟨by simp only [LzwUnit.setPhrase]; omega, fun k hk => hbuf k (by
    simp only [LzwUnit.setPhrase, List.length_singleton, List.length_nil] at hk ⊢
    omega)⟩

theorem TablesFit.known (h : TablesFit cfg u (n + 1)) (hpos : 0 < u.phrase.length) :
    TablesFit cfg (u.setPhrase (u.phrase ++ [b])) n := by
  obtain ⟨hdict, hbuf⟩ := h
  exact ⟨by simp only [LzwUnit.setPhrase]; omega, fun k hk => hbuf k (by
    simp only [LzwUnit.setPhrase] at hk
    omega)⟩

theorem TablesFit.new {c : U32} (h : TablesFit cfg u (n + 1)) (hpos : 0 < u.phrase.length) :
    TablesFit cfg (u.learn b c) n := by
  obtain ⟨hdict, hbuf⟩ := h
  exact ⟨by simp only [LzwUnit.learn, List.length_append, List.length_singleton]; omega, fun k hk => hbuf k (by
    simp only [LzwUnit.learn, List.length_append, List.length_singleton] at hk
    omega)⟩

theorem TablesFit.codebufFits (h : TablesFit cfg u n) (hpos : 0 < u.phrase.length) :
    cfg.codebufFits u.codebuf.length = true := h.codebuf _ (by omega)

end tables

/-- Before LZW.WIDTH nothing is asked of WIDTH. -/
def anyWidth (_ : BitVec 6) : Prop := True

/-- The unit is sound, and `bs` comes next in SRC, with room in the tables for what it collects. -/
structure Scannable (s : State) (bs : List Byte) : Prop where
  sound : DictOk anyWidth s.cfg.dictLimit s.lzw
  next : s.NextBytes bs
  fit : TablesFit s.cfg s.lzw bs.length

/-- The state after the scan of `bs`, the unit being left as `v`. -/
def State.collected (s : State) (bs : List Byte) (v : LzwUnit) : State :=
  { s.advanced bs.length with phase := .lScanned, lzw := v }

section scanning
variable {s : State} {b : Byte} {bs : List Byte}

theorem State.collected_nil (s : State) (v : LzwUnit) :
    s.collected [] v = { s with lzw := v }.setPhase .lScanned := by
  rw [State.collected, List.length_nil, State.advanced_zero]
  rfl

theorem State.collected_scanned (s : State) (b : Byte) (bs : List Byte) (u v : LzwUnit) :
    (s.scanned u).collected bs v = s.collected (b :: bs) v := by
  rw [State.collected, State.collected, List.length_cons, Nat.add_comm, ← State.advanced_advanced]
  rfl

/-- A phrase that is not empty has its codeword. -/
theorem Scannable.exists_codewordIs (h : Scannable s bs) (hpos : 0 < s.lzw.phrase.length) :
    ∃ c, codewordIs s.lzw s.lzw.phrase c :=
  Machine.exists_codewordIs hpos h.sound.phrase (h.sound.room.trans (dictLimit_le s.cfg))

/-- One byte scanned: what the bytes after it collect, it collects with them. -/
theorem Scannable.encbyte (h : Scannable s (b :: bs)) :
    ∃ u, lzwEncbyteBody s = .ok () (s.scanned u) ∧ Scannable (s.scanned u) bs
      ∧ ∀ cs v, Collects u bs cs v → ∃ ds, Collects s.lzw (b :: bs) ds v := by
  have hrest : (s.advanced 1).NextBytes bs := h.next.right (xs := [b])
  have scannable {u : LzwUnit} (e : lzwEncbyteBody s = .ok () (s.scanned u))
      (hfit : TablesFit s.cfg u bs.length) : Scannable (s.scanned u) bs :=
    ⟨(lzwEncbyteBody_keepsDict.leads s h.sound).of_ok e, hrest.of_eq rfl rfl rfl, hfit⟩
  by_cases hempty : s.lzw.phrase = []
  · have e := lzwEncbyteBody_first h.next hempty
    exact ⟨_, e, scannable e (h.fit.first hempty), fun cs v hcs => ⟨cs, .first hempty hcs⟩⟩
  · have hpos := List.length_pos_iff.2 hempty
    by_cases hmem : s.lzw.phrase ++ [b] ∈ s.lzw.dict
    · have e := lzwEncbyteBody_known h.next hempty hmem
      exact ⟨_, e, scannable e (h.fit.known hpos), fun cs v hcs => ⟨cs, .known hempty hmem hcs⟩⟩
    · obtain ⟨c, hc⟩ := h.exists_codewordIs hpos
      have hroom := h.fit.dict
      rw [List.length_cons] at hroom
      have e := lzwEncbyteBody_new h.next hmem hc (h.fit.codebufFits hpos) (by omega)
      exact ⟨_, e, scannable e (h.fit.new hpos), fun cs v hcs => ⟨c :: cs, .new hmem hc hcs⟩⟩

/-- The end of SRC: the phrase that remains is collected. -/
theorem Scannable.enceof (h : Scannable s []) :
    ∃ cs v, lzwEnceofBody s = .ok () (s.collected [] v) ∧ Collects s.lzw [] cs v := by
  by_cases hempty : s.lzw.phrase = []
  · refine ⟨[], s.lzw, ?_, .nothing hempty⟩
    rw [lzwEnceofBody_noPhrase hempty, State.collected_nil]
  · have hpos := List.length_pos_iff.2 hempty
    obtain ⟨c, hc⟩ := h.exists_codewordIs hpos
    refine ⟨[c], s.lzw.flush c, ?_, .last hc⟩
    rw [lzwEnceofBody_phrase hc (h.fit.codebufFits hpos), State.collected_nil]

/-- The bytes are scanned one after another, then the end of SRC. -/
theorem Scannable.exists_collects (h : Scannable s bs) :
    ∃ cs v t, Collects s.lzw bs cs v ∧ Act.times lzwEncbyteBody bs.length s = .ok () t
      ∧ lzwEnceofBody t = .ok () (s.collected bs v) := by
  induction bs generalizing s with
  | nil =>
    obtain ⟨cs, v, e, hcs⟩ := h.enceof
    exact ⟨cs, v, s, hcs, rfl, e⟩
  | cons b bs ih =>
    obtain ⟨u, e, hu, hcollects⟩ := h.encbyte
    obtain ⟨cs, v, t, hcs, et, eend⟩ := ih hu
    obtain ⟨ds, hds⟩ := hcollects cs v hcs
    exact ⟨ds, v, t, hds, Act.bind_eq_of_ok e et, by rw [eend, s.collected_scanned b]⟩

/-- The codewords that a scan leaves are below NEXT, and the dictionary is within its bound. -/
theorem collected_sound {v : LzwUnit} {t : State} {n : Nat}
    (h : DictOk anyWidth s.cfg.dictLimit s.lzw) (et : Act.times lzwEncbyteBody n s = .ok () t)
    (eend : lzwEnceofBody t = .ok () (s.collected bs v)) : DictOk anyWidth s.cfg.dictLimit v :=
  have ht := ((Act.Preserves.times lzwEncbyteBody_keepsDict n).leads s h).of_ok et
  (lzwEnceofBody_keepsDict.leads t ht).of_ok eend

end scanning

/-! ### The decoder behind the encoder -/

/-- The decoder's unit `d` follows the encoder's unit `u`: both dictionaries are empty, or the decoder's lacks the
encoder's last entry, which is the decoder's last phrase and the first byte of the encoder's phrase (R280). -/
def Follows (d u : LzwUnit) : Prop :=
  (d.havePrev = false ∧ d.dict = [] ∧ u.dict = [])
  ∨ (d.havePrev = true ∧ ∃ x xs y ys,
      d.prev = x :: xs ∧ u.phrase = y :: ys ∧ u.dict = d.dict ++ [x :: xs ++ [y]])

section follows
variable {d u : LzwUnit} {b x : Byte} {xs : List Byte} {c : U32}

theorem Follows.first (h : Follows d u) (hempty : u.phrase = []) : Follows d (u.setPhrase [b]) := by
  rcases h with h | ⟨-, _, _, y, ys, -, hphrase, -⟩
  · exact .inl h
  · rw [hempty] at hphrase
    cases hphrase

theorem Follows.known (h : Follows d u) : Follows d (u.setPhrase (u.phrase ++ [b])) := by
  rcases h with h | ⟨hprev, x, xs, y, ys, hx, hphrase, hdict⟩
  · exact .inl h
  · exact .inr ⟨hprev, x, xs, y, ys ++ [b], hx, by rw [hphrase]; rfl, hdict⟩

theorem Follows.length_dict (h : Follows d u) (hprev : d.havePrev = true) : u.dict.length = d.dict.length + 1 := by
  rcases h with ⟨hnone, -⟩ | ⟨-, _, _, _, _, -, -, hdict⟩
  · rw [hprev] at hnone
    cases hnone
  · rw [hdict, List.length_append, List.length_singleton]

/-- Once the decoder has learnt from the encoder's phrase, it follows the encoder that has learnt the next entry. -/
theorem Follows.new (h : Follows d u) (hphrase : u.phrase = x :: xs) : Follows (d.decoded x xs) (u.learn b c) := by
  have hdict : (d.decoded x xs).dict = u.dict := by
    rcases h with ⟨hprev, hd, hu⟩ | ⟨hprev, _, _, _, _, hx, hy, hu⟩
    · rw [LzwUnit.decoded, hprev, hd, hu]
      rfl
    · obtain ⟨rfl, -⟩ := List.cons.inj (hphrase.symm.trans hy)
      rw [LzwUnit.decoded, hprev, hx, hu]
      rfl
  refine .inr ⟨rfl, x, xs, b, [], rfl, rfl, ?_⟩
  rw [hdict, LzwUnit.learn, hphrase]

/-- A codeword of the encoder's phrase gives the decoder that phrase (R280): where the entry is the one the decoder
lacks, it is the previous phrase and its first byte again. -/
theorem Follows.phraseIs (h : Follows d u) (hc : codewordIs u u.phrase c) :
    Machine.phraseIs d c.toNat u.phrase := by
  rcases hc with ⟨b, hb, hc⟩ | ⟨-, k, hk, -, hc⟩
  · refine .inl ⟨hc ▸ b.isLt, ?_⟩
    rw [hb, hc, BitVec.ofNat_toNat, BitVec.setWidth_eq]
  · have hplace : c.toNat - 256 = k := by omega
    rcases h with ⟨-, -, hu⟩ | ⟨hprev, x, xs, y, ys, hx, hy, hu⟩
    · rw [hu] at hk
      cases hk
    · by_cases hlt : k < d.dict.length
      · rw [hu, List.getElem?_append_left hlt] at hk
        exact .inr (.inl ⟨by omega, by rw [hplace, hk]⟩)
      · have hlast : k = d.dict.length := by
          have := (List.getElem?_eq_some_iff.1 hk).1
          rw [hu, List.length_append, List.length_singleton] at this
          omega
        rw [hu, hlast, List.getElem?_concat_length, hy] at hk
        obtain ⟨rfl, hys⟩ := List.cons.inj (Option.some.inj hk)
        exact .inr (.inr ⟨by omega, hprev, x, xs, hx, by rw [hy, ← hys]; rfl⟩)

end follows

end Sys2Proof.Machine
end

section
/-! The LZW round trip (spec/44_lzw.md rules R280, R281), the decoder: DECOMPRESS repeats LZW.DECCODE over the packed
codewords that scanning a source collected, and its bytes come out. -/

namespace Sys2Proof.Machine

/-! ### One codeword of the encoder -/

theorem State.nextBits.isSome {s : State} {xs ys : List Bool} (h : s.nextBits (xs ++ ys)) {n : Nat}
    (hn : n < xs.length) : (s.srcBit n).isSome = true := by
  rw [h n (by rw [List.length_append]; omega), List.getElem?_append_left hn, List.getElem?_eq_getElem hn]
  rfl

/-- The decoder stands before the codewords `cs` that the encoder, being at the unit `u`, collected for its phrase and
the bytes `bs`, and has room for these. -/
structure Decoding (s : State) (u : LzwUnit) (bs : List Byte) (cs : List U32) : Prop where
  phase : s.phase = .lDec
  follows : Follows s.lzw u
  legal : legalWidth s.lzw.width
  narrow : ∀ c ∈ cs, c.toNat < 2 ^ s.lzw.width.toNat
  bits : s.nextBits (codesBits s.lzw.width.toNat cs)
  size : s.origSize.toNat = s.dstLen.toNat + (u.phrase ++ bs).length
  room : s.room (u.phrase ++ bs).length
  dict : u.dict.length + bs.length ≤ s.cfg.dictLimit

/-- A codeword was taken and its phrase `x :: xs` appended and learnt from; the stream goes on with `bits`. -/
structure PhraseDecoded (s t : State) (x : Byte) (xs : List Byte) (bits : List Bool) : Prop where
  appended : DstAppended s t (x :: xs)
  bits : t.nextBits bits
  frame : t = { consumed s t with dst := t.dst, dstLen := t.dstLen, lzw := s.lzw.decoded x xs }

section decoding
variable {s t : State} {u v : LzwUnit} {b x : Byte} {bs xs : List Byte} {c : U32} {cs : List U32}

theorem Decoding.phraseNext (h : Decoding s u bs (c :: cs)) (hc : codewordIs u u.phrase c) :
    s.PhraseNext u.phrase := by
  have hbits : s.nextBits (codeBits c s.lzw.width.toNat ++ codesBits s.lzw.width.toNat cs) := h.bits
  have hword : s.codewordAt s.lzw.width.toNat = c.toNat := by
    have hat := hbits.codewordAt_eq
    rwa [length_codeBits, bitsValue_codeBits, Nat.mod_eq_of_lt (h.narrow c List.mem_cons_self)] at hat
  have hsize := h.size
  rw [List.length_append] at hsize
  exact ⟨h.legal, fun n hn => hbits.isSome (by rwa [length_codeBits]), hword ▸ h.follows.phraseIs hc, by omega⟩

/-- LZW.DECCODE of the codeword that comes next. -/
theorem Decoding.deccode (h : Decoding s u bs (c :: cs)) (hc : codewordIs u u.phrase c) (hphrase : u.phrase = x :: xs) :
    ∃ t, lzwDeccodeBody s = .ok () t.settled ∧ PhraseDecoded s t x xs (codesBits s.lzw.width.toNat cs) := by
  have hnext := h.phraseNext hc
  have hroom := State.room_mono h.room (m := u.phrase.length) (by rw [List.length_append]; omega)
  rw [hphrase] at hnext hroom
  obtain ⟨t, e, htaken, hframe⟩ := lzwDeccodeBody_ok hnext hroom fun hprev => by
    have := h.follows.length_dict hprev
    have := h.dict
    omega
  have hbits : t.nextBits (codesBits s.lzw.width.toNat cs) :=
    BitsConsumed.nextBits (xs := codeBits c s.lzw.width.toNat) (by rwa [length_codeBits]) h.bits
  refine ⟨t.learnt x xs, e, ?_, hbits, by rw [hframe]; rfl⟩
  exact .of_consumed hframe ((State.dstAppended_appended (by rw [hframe]; exact hroom.2)).of_eq rfl rfl)

/-- Before the last codeword the decoder goes on. -/
theorem PhraseDecoded.decoding (h : PhraseDecoded s t x xs (codesBits s.lzw.width.toNat cs))
    (hphrase : u.phrase = x :: xs) (hs : Decoding s u (b :: bs) (c :: cs)) : Decoding t (u.learn b c) bs cs := by
  have hframe := h.frame
  have hlen := h.appended.1
  have hsize := hs.size
  have hdict := hs.dict
  have hroom := hs.room
  have hsplit : (u.phrase ++ b :: bs).length = (x :: xs).length + ([b] ++ bs).length := by
    rw [hphrase, List.length_append]
    rfl
  rw [hsplit] at hsize hroom
  have hlzw : t.lzw = s.lzw.decoded x xs := by rw [hframe]
  have hwidth : t.lzw.width = s.lzw.width := by rw [hlzw]; rfl
  have horig : t.origSize = s.origSize := by rw [hframe]; rfl
  have hcfg : t.cfg = s.cfg := by rw [hframe]; rfl
  refine ⟨?_, ?_, hwidth ▸ hs.legal, ?_, hwidth ▸ h.bits, ?_, State.room_after hroom hcfg hlen, ?_⟩
  · rw [hframe]
    exact hs.phase
  · rw [hlzw]
    exact hs.follows.new hphrase
  · rw [hwidth]
    exact fun d hd => hs.narrow d (List.mem_cons_of_mem c hd)
  · rw [horig, hsize, hlen, Nat.add_assoc]
    rfl
  · rw [hcfg]
    simp only [LzwUnit.learn, List.length_append, List.length_cons, List.length_nil] at hdict ⊢
    omega

/-- A byte moves from the source to the encoder's phrase, and the decoder stands where it stood. -/
theorem Decoding.setPhrase {p : List Byte} (h : Decoding s u (b :: bs) cs) (hp : p ++ bs = u.phrase ++ b :: bs)
    (hfollows : Follows s.lzw (u.setPhrase p)) : Decoding s (u.setPhrase p) bs cs := by
  have hdict := h.dict
  rw [List.length_cons] at hdict
  refine ⟨h.phase, hfollows, h.legal, h.narrow, h.bits, ?_, ?_, ?_⟩
  · show _ = _ + (p ++ bs).length
    rw [hp]
    exact h.size
  · show s.room (p ++ bs).length
    rw [hp]
    exact h.room
  · show u.dict.length + bs.length ≤ _
    omega

/-- All the bytes are appended, and what the end of the call reports stands as it did (R164). -/
structure DecodedAll (s t : State) (bytes : List Byte) : Prop where
  appended : DstAppended s t bytes
  origSize : t.origSize = s.origSize
  err : t.err = s.err

/-- LZW.DECCODE, repeated while the call goes on. -/
abbrev lzwDecodeLoop (n : Nat) : Act Unit := Act.while (fun s => s.phase == .lDec) lzwDeccodeBody n

theorem lzwDecodeLoop_step {n : Nat} (hphase : s.phase = .lDec) (e : lzwDeccodeBody s = .ok () t) :
    lzwDecodeLoop (n + 1) s = lzwDecodeLoop n t := by
  rw [lzwDecodeLoop, Act.while_go (by rw [hphase]; rfl), Act.bind_of_ok e]

/-- From the codewords of a source its bytes come out, by induction on how they were collected (R281). -/
theorem Collects.decode (h : Collects u bs cs v) {n : Nat} (hn : cs.length < n) (hs : Decoding s u bs cs) :
    ∃ t, lzwDecodeLoop n s = .ok () t.finishDecompress ∧ DecodedAll s t (u.phrase ++ bs) := by
  induction h generalizing s n with
  | @nothing u hempty =>
    obtain ⟨n, rfl⟩ := Nat.exists_eq_add_of_lt hn
    have hsize := hs.size
    rw [hempty, List.append_nil, List.length_nil] at hsize
    rw [hempty]
    refine ⟨s, ?_, ⟨rfl, rfl, fun _ _ => rfl⟩, rfl, rfl⟩
    rw [lzwDecodeLoop_step hs.phase (lzwDeccodeBody_complete hsize.le)]
    exact Act.while_stop rfl
  | @last u c hc =>
    obtain ⟨n, rfl⟩ := Nat.exists_eq_add_of_lt hn
    obtain ⟨x, xs, hphrase⟩ := List.exists_cons_of_length_pos (codewordIs_length_pos hc)
    obtain ⟨t, e, ht⟩ := hs.deccode hc hphrase
    have hsize := hs.size
    rw [List.append_nil, hphrase] at hsize ⊢
    have horig : t.origSize = s.origSize := by rw [ht.frame]; rfl
    have hend : t.settled = t.finishDecompress := if_pos (by rw [horig, hsize, ht.appended.1])
    refine ⟨t, ?_, ht.appended, horig, by rw [ht.frame]; rfl⟩
    rw [lzwDecodeLoop_step hs.phase e, hend]
    exact Act.while_stop rfl
  | @first u v b bs cs hempty _ ih =>
    have hbytes : [b] ++ bs = u.phrase ++ b :: bs := by rw [hempty]; rfl
    rw [← hbytes]
    exact ih hn (hs.setPhrase hbytes (hs.follows.first hempty))
  | @known u v b bs cs _ _ _ ih =>
    have hbytes : u.phrase ++ [b] ++ bs = u.phrase ++ b :: bs := List.append_assoc ..
    rw [← hbytes]
    exact ih hn (hs.setPhrase hbytes hs.follows.known)
  | @new u v b bs c cs _ hc _ ih =>
    obtain ⟨n, rfl⟩ := Nat.exists_eq_succ_of_ne_zero (Nat.ne_zero_of_lt hn)
    obtain ⟨x, xs, hphrase⟩ := List.exists_cons_of_length_pos (codewordIs_length_pos hc)
    obtain ⟨t, e, ht⟩ := hs.deccode hc hphrase
    have hrest := ht.decoding hphrase hs
    have hgoes : t.settled = t := if_neg (by
      rw [hrest.size]
      exact Nat.not_le.2 (Nat.lt_add_of_pos_right (Nat.succ_pos _)))
    obtain ⟨w, eloop, happ, horig, herr⟩ := ih (Nat.lt_of_succ_lt_succ hn) hrest
    have hframe := ht.frame
    refine ⟨w, ?_, ?_, horig.trans (by rw [hframe]; rfl), herr.trans (by rw [hframe]; rfl)⟩
    · rw [lzwDecodeLoop_step hs.phase e, hgoes, eloop]
    · rw [hphrase]
      exact ht.appended.trans happ

end decoding

end Sys2Proof.Machine
end

section
/-! The LZW round trip (spec/44_lzw.md rule R281), the two calls: COMPRESS leaves the header and the packed codewords in
DST, and DECOMPRESS of that archive gives the source back. -/

namespace Sys2Proof.Machine

/-! ### The archive -/

/-- The header of an LZW archive (R114). -/
def lzwHeaderBytes (size : U64) (w : BitVec 6) : List Byte := beBytes 8 size.toNat ++ beBytes 4 w.toNat

theorem length_lzwHeaderBytes (size : U64) (w : BitVec 6) : (lzwHeaderBytes size w).length = 12 := by
  rw [lzwHeaderBytes, List.length_append, beBytes_length, beBytes_length]

/-- DST holds the archive of the source `bs`: the header, and the codewords `cs` that scanning it collects from an empty
dictionary, at `w` bits each. -/
structure LzwArchive (t : State) (size : U64) (bs : List Byte) (w : BitVec 6) (cs : List U32) : Prop where
  holds : HoldsArchive t (lzwHeaderBytes size w) (codesBits w.toNat cs)
  legal : legalWidth w
  narrow : ∀ c ∈ cs, c.toNat < 2 ^ w.toNat
  collects : ∃ u v, u.phrase = [] ∧ u.dict = [] ∧ Collects u bs cs v

section archive
variable {s t u : State} {header : List Byte} {bits : List Bool} {bs : List Byte} {cs : List U32} {w : BitVec 6}
  {size : U64}

/-- A stream written after a header at the begin of DST. -/
theorem holdsArchive_of_bitsFinished (hcnt : s.wcnt = 0#4) (hdst : s.dstLen = 0#64)
    (hlt : s.dstLen.toNat + header.length < 2 ^ 64) (h : BitsFinished (s.appended header) t bits) :
    HoldsArchive t header bits := by
  obtain ⟨-, hheader, -⟩ := State.dstAppended_appended hlt
  have hend := State.toNat_dstLen_appended hlt
  have hplace : (s.appended header).dstLen = BitVec.ofNat 64 header.length := by
    rw [State.appended, hdst]
    exact BitVec.zero_add _
  rw [hdst, BitVec.toNat_zero] at hheader hend
  rw [Nat.zero_add] at hend
  refine ⟨Memory.readBytes_eq_some fun k hk => ?_, s.appended header, hcnt, hplace, hend, h⟩
  rw [← Memory.read_of_readBytes hheader hk]
  exact h.outside _ (.inl (by omega))

/-! ### COMPRESS -/

/-- The state before the header is written: the source scanned and the width chosen. -/
def State.packing (s : State) (bs : List Byte) (v : LzwUnit) : State :=
  { s.collected bs v with phase := .lWidth, lzw := v.sized }

/-- The state after LZW.INIT. -/
def State.lzwBegun (s : State) : State := { s.beginCall with lzw := s.lzw.start }.setPhase .lInit

/-- At the begin of a call the source is scannable, when the tables hold an entry for each of its bytes. -/
theorem scannable_lzwBegun (hread : Memory.readBytes s.src 0 s.srcLen.toNat = some bs)
    (hdict : bs.length ≤ s.cfg.dictLimit) (hbuf : ∀ k, k < bs.length → s.cfg.codebufFits k = true) :
    Scannable s.lzwBegun bs := by
  have hlen := Memory.length_of_readBytes hread
  have hempty : DictOk anyWidth s.cfg.dictLimit s.lzw.start :=
    ⟨Nat.zero_le _, nofun, .inl (Nat.zero_le _), nofun, nofun, trivial⟩
  refine ⟨hempty, .of_readBytes rfl hlen.le (by rwa [hlen]), ?_, fun k hk => hbuf k ?_⟩
  · exact (Nat.zero_add _).trans_le hdict
  · simpa [State.lzwBegun, LzwUnit.start] using hk

/-- The scan of a source: its codewords are collected, below NEXT. -/
theorem compressLzw_packing (hread : Memory.readBytes s.src 0 s.srcLen.toNat = some bs)
    (hscan : Scannable s.lzwBegun bs) :
    ∃ cs v, Collects s.lzw.start bs cs v ∧ DictOk anyWidth s.cfg.dictLimit v
      ∧ compressLzw s = (lzwWrhdrBody >>= fun _ => lzwEmitBody) (s.lzwBegun.packing bs v) := by
  have hlen := Memory.length_of_readBytes hread
  obtain ⟨cs, v, t, hcs, et, eend⟩ := hscan.exists_collects
  have hsound := collected_sound hscan.sound et eend
  rw [hlen] at et
  refine ⟨cs, v, hcs, hsound, ?_⟩
  exact Act.bind_eq_of_ok lzwInitBody_apply <| Act.bind_eq_of_ok (Act.state_apply _) <| Act.bind_eq_of_ok et <|
    Act.bind_eq_of_ok eend <| Act.bind_eq_of_ok (lzwWidthBody_ok (hsound.room.trans (dictLimit_le s.cfg))) rfl

/-- The header and the packed codewords, at the begin of DST. -/
theorem lzwWrhdr_emit_ok (hacc : s.wacc = 0#8) (hcnt : s.wcnt = 0#4) (hdst : s.dstLen = 0#64)
    (hroom : s.room (12 + ((packedBits s.lzw).length + 7) / 8)) :
    ∃ t, (lzwWrhdrBody >>= fun _ => lzwEmitBody) s = .ok () t
      ∧ HoldsArchive t (lzwHeaderBytes s.origSize s.lzw.width) (packedBits s.lzw) ∧ t.phase = .done ∧ t.err = s.err
      ∧ t.origSize = s.origSize ∧ t.compSize = t.dstLen := by
  have hheader := length_lzwHeaderBytes s.origSize s.lzw.width
  rw [← hheader] at hroom
  have hwriter : s.writerOk := by simp [State.writerOk, hacc, hcnt]
  have hbody : (s.appended (lzwHeaderBytes s.origSize s.lzw.width)).room
      ((s.wcnt.toNat + (packedBits s.lzw).length + 7) / 8) := by
    rw [hcnt, BitVec.toNat_zero, Nat.zero_add]
    exact State.room_appended hroom
  obtain ⟨t, et, hfin, hframe⟩ := putBits_finish_ok
    (s := (s.appended (lzwHeaderBytes s.origSize s.lzw.width)).setPhase .lHdrw) hwriter hbody
  refine ⟨t.finishCompress, ?_, ?_, rfl, by rw [hframe]; rfl, by rw [hframe]; rfl, rfl⟩
  · refine Act.bind_eq_of_ok (lzwWrhdrBody_room (State.room_mono hroom (by omega))) ?_
    rw [lzwEmitBody_apply]
    exact et
  · exact holdsArchive_of_bitsFinished hcnt hdst (dstLen_add_lt_of_room hroom)
      ⟨hfin.len, hfin.writer, hfin.bytes, hfin.outside⟩

/-- The header and the codewords of a source fit P_CAP (R281). -/
theorem room_packing {v : LzwUnit} (hcs : Collects s.lzw.start bs v.codebuf v)
    (hsound : v.dict.length ≤ Config.dictCapMax) (hdict : bs.length ≤ s.cfg.dictLimit)
    (hfits : s.cfg.dstFits 0 (12 + 4 * bs.length) = true) :
    (s.lzwBegun.packing bs v).room (12 + ((packedBits v.sized).length + 7) / 8) := by
  have hcount : v.codebuf.length ≤ bs.length := by simpa [LzwUnit.start] using hcs.length_le
  have hbits : (packedBits v.sized).length ≤ 32 * bs.length := by
    rw [length_packedBits, LzwUnit.toNat_width_sized hsound]
    exact Nat.mul_le_mul (lzwWidthFor_le hsound) hcount
  have hroom : (s.lzwBegun.packing bs v).room (12 + 4 * bs.length) := by
    have hcap := hdict.trans (dictLimit_le s.cfg)
    unfold Config.dictCapMax at hcap
    refine ⟨hfits, ?_⟩
    show 0 + (12 + 4 * bs.length) < 2 ^ 64
    omega
  exact State.room_mono hroom (by omega)

/-- COMPRESS of a source with room for its archive (R281). -/
theorem compressLzw_ok (hread : Memory.readBytes s.src 0 s.srcLen.toNat = some bs)
    (hdict : bs.length ≤ s.cfg.dictLimit) (hbuf : ∀ k, k < bs.length → s.cfg.codebufFits k = true)
    (hfits : s.cfg.dstFits 0 (12 + 4 * bs.length) = true) :
    ∃ t w cs, compressLzw s = .ok () t ∧ LzwArchive t s.beginCall.origSize bs w cs ∧ t.phase = .done
      ∧ t.err = .noError ∧ t.origSize = s.beginCall.origSize ∧ t.compSize = t.dstLen := by
  obtain ⟨cs, v, hcs, hsound, hrun⟩ := compressLzw_packing hread (scannable_lzwBegun hread hdict hbuf)
  obtain rfl : v.codebuf = cs := hcs.codebuf
  have hcap := hsound.room.trans (dictLimit_le s.cfg)
  obtain ⟨t, et, harchive, hstate⟩ := lzwWrhdr_emit_ok (s := s.lzwBegun.packing bs v) rfl rfl rfl
    (room_packing hcs hcap hdict hfits)
  refine ⟨t, v.sized.width, v.codebuf, hrun.trans et,
    ⟨harchive, LzwUnit.legalWidth_sized hcap, fun c hc => ?_, s.lzw.start, v, rfl, rfl, hcs⟩, hstate⟩
  rw [LzwUnit.toNat_width_sized hcap]
  exact (hsound.codes c hc).trans_le (next_le_two_pow_width v)

/-! ### DECOMPRESS -/

/-- The state after LZW.INIT and LZW.RDHDR of a header. -/
def State.lzwHeaderRead (s : State) (size : U64) (w : BitVec 6) : State :=
  { s.lzwBegun with
    origSize := size, srcPos := 12#64, phase := .lDec, lzw := { s.lzw.start with width := w } }

theorem decompressLzw_headerRead (hlen : 12 ≤ s.srcLen.toNat)
    (hread : Memory.readBytes s.src 0 12 = some (lzwHeaderBytes size w)) (hlegal : legalWidth w) :
    decompressLzw s = lzwDecodeLoop (lzwDecodeBound (s.lzwHeaderRead size w)) (s.lzwHeaderRead size w) := by
  obtain ⟨hsize, hwidth⟩ := Memory.readBytes_append (xs := beBytes 8 size.toNat) (ys := beBytes 4 w.toNat) hread
  replace hsize := memRead_of_readBytes hsize
  replace hwidth := memRead_of_readBytes hwidth
  rw [beValue_beBytes size.isLt] at hsize
  rw [beValue_beBytes (w.isLt.trans (by decide))] at hwidth
  have hheader := lzwRdhdrBody_width (s := s.lzwBegun) hlen hsize hwidth hlegal
  rw [BitVec.ofNat_toNat, BitVec.ofNat_toNat, BitVec.setWidth_eq, BitVec.setWidth_eq] at hheader
  exact Act.bind_eq_of_ok lzwInitBody_apply <| Act.bind_eq_of_ok hheader rfl

/-- The bound of the repetition leaves a step for each codeword and one more. -/
theorem length_lt_lzwDecodeBound (h : LzwArchive t size bs w cs) (hlen : u.srcLen = t.dstLen) :
    cs.length < lzwDecodeBound (u.lzwHeaderRead size w) := by
  have hwidths : ∀ k ∈ Config.lzwWidths, 0 < k := by decide
  obtain ⟨x, hcnt, -, hplace, hfin⟩ := h.holds.body
  have hend := hfin.len
  have hmul := Nat.le_mul_of_pos_left cs.length (hwidths _ h.legal)
  rw [hplace, hcnt, length_lzwHeaderBytes, length_codesBits, BitVec.toNat_zero] at hend
  show _ < 0 + 8 * (u.srcLen.toNat - 12) + 1
  rw [hlen]
  omega

/-- DECOMPRESS of the archive of a source, with room for its bytes: they are DST (R281). -/
theorem decompressLzw_ok (h : LzwArchive t size bs w cs) (hsize : size.toNat = bs.length) (hlen : u.srcLen = t.dstLen)
    (hbytes : Memory.readBytes u.src 0 u.srcLen.toNat = Memory.readBytes t.dst 0 t.dstLen.toNat)
    (hdict : bs.length ≤ u.cfg.dictLimit) (hfits : u.cfg.dstFits 0 bs.length = true) :
    ∃ v, decompressLzw u = .ok () v ∧ v.phase = .done ∧ v.err = .noError ∧ v.result = size ∧ v.dstLen = size
      ∧ Memory.readBytes v.dst 0 bs.length = some bs := by
  obtain ⟨hin, hread⟩ := h.holds.readBytes_header hlen hbytes
  obtain ⟨x, hcnt, hplace, -, hfin⟩ := h.holds.body
  rw [length_lzwHeaderBytes] at hin hread hplace
  obtain ⟨y, v, hphrase, hempty, hcollects⟩ := h.collects
  have hstart : Decoding (u.lzwHeaderRead size w) y bs cs := by
    refine ⟨rfl, .inl ⟨rfl, rfl, hempty⟩, h.legal, h.narrow, ?_, ?_, ?_, ?_⟩
    · exact hfin.nextBits_of_read hcnt hplace.symm rfl hlen fun a ha => h.holds.read_eq hlen hbytes ha
    · rw [hphrase, List.nil_append, ← hsize]
      exact (Nat.zero_add _).symm
    · rw [hphrase, List.nil_append]
      refine ⟨hfits, ?_⟩
      show 0 + bs.length < 2 ^ 64
      rw [Nat.zero_add, ← hsize]
      exact size.isLt
    · rw [hempty]
      exact (Nat.zero_add _).trans_le hdict
  obtain ⟨z, ez, happ, horig, herr⟩ := hcollects.decode (length_lt_lzwDecodeBound h hlen) hstart
  rw [hphrase, List.nil_append] at happ
  obtain ⟨hend, hout, -⟩ := happ
  refine ⟨z.finishDecompress, ?_, rfl, herr, horig, BitVec.eq_of_toNat_eq (hend.trans ?_), hout⟩
  · rw [decompressLzw_headerRead hin hread h.legal, ez]
  · rw [hsize]
    exact Nat.zero_add _

end archive

/-- Settles O54: scanning the source collects codewords, which the decoder, one entry behind, turns back into their
phrases. -/
theorem lzwRoundTrip : Obligations.LzwRoundTrip := by
  unfold Obligations.LzwRoundTrip
  intro s bs hcodec hmode hphase hread hdict hbuf hfits
  have hbs := Memory.length_of_readBytes hread
  have hsize : s.beginCall.origSize = s.srcLen := by rw [State.beginCall_origSize, hmode]
  obtain ⟨t, w, cs, et, harchive, hdone, herr, horig, hcomp⟩ := compressLzw_ok hread hdict hbuf hfits
  rw [hsize] at harchive horig
  have hacc : Accepted .compress s := accepted_call (.inl rfl) (hcodec ▸ nofun) (congrArg some hmode.symm) hphase
  refine ⟨t, ?_, hdone, herr, horig, hcomp, fun u hucodec humode huphase hulen hubytes hudict hufits => ?_⟩
  · rw [exec_compress hacc, hcodec]
    exact runBody_of_ok et
  · obtain ⟨v, ev, hvdone, hverr, hresult, hvlen, hvbytes⟩ :=
      decompressLzw_ok harchive hbs.symm hulen hubytes hudict hufits
    have huacc : Accepted .decompress u :=
      accepted_call (.inr rfl) (hucodec ▸ nofun) (congrArg some humode.symm) huphase
    refine ⟨v, ?_, hvdone, hverr, hresult, hvlen, ?_⟩
    · rw [exec_decompress huacc, hucodec]
      exact runBody_of_ok ev
    · rwa [hvlen, ← hbs]

end Sys2Proof.Machine
end

section
/-! The acceptance procedure read off the tables of R24 and R103 (spec/60_exceptions.md rules R311, R314, R316): which
commands out of place it refuses, and which it answers with ModeMismatch. -/

namespace Sys2Proof.Machine

section acceptance
variable {i : Instr} {s : State}

/-- The cursor condition of a command's guard is that of its rule (R225, R226, R273, R274). -/
theorem cursorOk_cursorOf_iff : cursorOk (cursorOf i) s = true ↔ cursorFor i s := by
  cases i with
  | artEncsym | lzwEncbyte => exact decide_eq_true_iff
  | artFlush | lzwEnceof => exact beq_iff_eq
  | _ => exact iff_of_true rfl trivial

/-- Steps 4 and 5 of R316, in the terms of R24 and R103. -/
theorem inPlace_iff : (codecOk (guardOf i) s && phaseOk (guardOf i) s) = true
    ↔ s.codec ∈ codecsFor i ∧ s.phase ∈ phasesFor i ∧ cursorFor i s := by
  rw [← cursorOk_cursorOf_iff]
  simp only [codecOk, phaseOk, guardOf, Bool.and_eq_true, List.contains_iff_mem]

theorem widthOperand_of_isSome {a : BitVec 8} (h : (widthOperand a).isSome = true) :
    widthOperand a = some a.toNat := by
  obtain ⟨w, hw⟩ := Option.isSome_iff_exists.1 h
  rw [hw, widthOperand_eq_some hw]

theorem widthOperand_of_illegal {a : BitVec 8} (h : (widthOperand a).isSome = false) : widthOperand a = none :=
  Option.isNone_iff_eq_none.1 (Option.isSome_eq_false_iff.1 h)

/-- A command with its operands inside their sets goes through the acceptance procedure, NOP and SOPEN left out, which
are legal in FAULT (R24, R316 step 3). -/
theorem exec_eq_accept (hw : i.wellFormed = true) (hi : .fault ∉ phasesFor i) :
    exec i s = accept (guardOf i) (bodyOf i) s := by
  cases i with
  | nop | sopen => exact absurd (by simp [phasesFor]) hi
  | bwsWrite imm a =>
    show execBwsWrite imm a s = _
    rw [execBwsWrite, widthOperand_of_isSome hw]
    rfl
  | bwsRead a =>
    show execBwsRead a s = _
    rw [execBwsRead, widthOperand_of_isSome hw]
    rfl
  | _ => rfl

/-- An operand outside its set is refused first (R316 step 2). -/
theorem exec_refuse_of_illFormed (hw : i.wellFormed = false) : exec i s = .next s.refuse := by
  cases i with
  | sopen a b =>
    show execSopen a b s = _
    unfold execSopen
    split
    · rename_i ha hb
      simp [Instr.wellFormed, ha, hb] at hw
    · rfl
  | bwsWrite imm a =>
    show execBwsWrite imm a s = _
    rw [execBwsWrite, widthOperand_of_illegal hw]
  | bwsRead a =>
    show execBwsRead a s = _
    rw [execBwsRead, widthOperand_of_illegal hw]
  | _ => cases hw

/-- NOP and SOPEN are out of place nowhere (R24). -/
theorem inPlace_of_fault_mem (hi : .fault ∈ phasesFor i) :
    s.codec ∈ codecsFor i ∧ s.phase ∈ phasesFor i ∧ cursorFor i s := by
  cases i with
  | nop | sopen =>
    refine ⟨?_, ?_, trivial⟩
    · cases s.codec <;> simp [codecsFor]
    · cases s.phase <;> simp [phasesFor]
  | _ => simp [phasesFor] at hi

/-- A command out of place is refused (R314, R316 steps 4 and 5). -/
theorem accept_refuse {g : Guard} {m : Act Unit} (h : (codecOk g s && phaseOk g s) = false) :
    accept g m s = .next s.refuse := by
  rcases accept_cases g m s with ⟨e, -⟩ | ⟨-, hg, -⟩ | ⟨-, hg, -⟩
  · exact e
  · exact absurd (hg.symm.trans h) (by decide)
  · exact absurd (hg.symm.trans h) (by decide)

end acceptance

/-- Settles O9: the operands are looked at first, then codec, phase and cursor, and a refusal only sets CMDERR. -/
theorem refusedOutOfPlace : Obligations.RefusedOutOfPlace := by
  unfold Obligations.RefusedOutOfPlace
  intro i s h
  cases hw : i.wellFormed with
  | false => exact exec_refuse_of_illFormed hw
  | true =>
    have hout : ¬(s.codec ∈ codecsFor i ∧ s.phase ∈ phasesFor i ∧ cursorFor i s) := by
      rintro ⟨hcodec, hphase, hcursor⟩
      rcases h with h | h | h | h
      · exact Bool.false_ne_true (h.symm.trans hw)
      · exact h hcodec
      · exact h hphase
      · exact h hcursor
    have hi : .fault ∉ phasesFor i := fun hi => hout (inPlace_of_fault_mem hi)
    exact (exec_eq_accept hw hi).trans (accept_refuse (Bool.eq_false_of_not_eq_true (mt inPlace_iff.1 hout)))

/-- The commands with a direction have no operands and are not legal in FAULT (R103). -/
theorem wellFormed_of_directionFor {i : Instr} {m : Mode} (h : directionFor i = some m) :
    i.wellFormed = true ∧ .fault ∉ phasesFor i := by
  cases i with
  | nop | sopen | bwsReset | bwsWrite | bwsFinish | bwsRead | hufBuild | artInit | lzwInit => cases h
  | _ => exact ⟨rfl, by decide⟩

/-- Settles O10: codec, phase and cursor let the command through to step 6 of R316, which finds the other direction. -/
theorem wrongDirection : Obligations.WrongDirection := by
  unfold Obligations.WrongDirection
  intro i m s hdir hne hcodec hphase hcursor
  obtain ⟨hw, hi⟩ := wellFormed_of_directionFor hdir
  obtain ⟨h4, h5⟩ := Bool.and_eq_true_iff.1 (inPlace_iff.2 ⟨hcodec, hphase, hcursor⟩)
  have h6 : dirOk (guardOf i) s = false := by simpa [dirOk, guardOf, hdir] using hne.symm
  exact (exec_eq_accept hw hi).trans (accept_modeMismatch h4 h5 h6)

end Sys2Proof.Machine
end

section
/-! A symbol of zero width in either symbol coder (spec/60_exceptions.md rule R312, spec/43_arithmetic.md rules R225,
R229). -/

namespace Sys2Proof.Machine

section collapse
variable {s : State} {b : Byte} (hzero : distLow s.art.dist b = distHigh s.art.dist b)
include hzero

/-- The encoder takes the byte and finds no interval for it. -/
theorem artEncsymBody_collapsed (hpos : s.srcPos.toNat < s.srcLen.toNat)
    (hb : Memory.read s.src s.srcPos.toNat = some b) :
    artEncsymBody s = .error (.raise .modelPrecision) (s.advanced 1) := by
  refine Act.bind_eq_of_ok (srcByte_ok hpos hb) <| Act.bind_eq_of_ok (Act.state_apply _) ?_
  exact congrFun (if_pos hzero) _

/-- The decoder finds no interval for the symbol it resolved. -/
theorem artEmit_collapsed : artEmit b s = .error (.raise .modelPrecision) s :=
  Act.bind_eq_of_ok (Act.state_apply s) (congrFun (if_pos hzero) s)

theorem artDecstepBody_collapsed (h : Searched s b)
    (hres : F64.le (F64.fadd s.art.acc (F64.pow2neg s.art.exp)) (distHigh s.art.dist b) = true) :
    artDecstepBody s = .error (.raise .modelPrecision) s := by
  rw [artDecstepBody_searched h, artResolved, if_pos hres, artEmit_collapsed hzero]

end collapse

/-- Settles O43: the width is looked at after the source byte is taken and before anything is written. -/
theorem intervalCollapse : Obligations.IntervalCollapse := by
  unfold Obligations.IntervalCollapse
  intro s b hcodec hzero
  refine ⟨fun hmode hphase hpos hb => ?_, fun hmode hphase hdue hsearch hres => ?_⟩
  · have hat : At .art .compress .aEnc s := ⟨hcodec, hmode, hphase⟩
    exact (hat.exec_eq (i := .artEncsym) (by decide) rfl (decide_eq_true hpos)).trans
      (runBody_of_raise (artEncsymBody_collapsed hzero hpos hb))
  · have hat : At .art .decompress .aDec s := ⟨hcodec, hmode, hphase⟩
    exact (hat.exec_eq (i := .artDecstep) (by decide) rfl rfl).trans
      (runBody_of_raise (artDecstepBody_collapsed hzero ⟨hdue, hsearch⟩ hres))

end Sys2Proof.Machine
end

section
/-! The UNSPEC points of the Huffman unit (spec/60_exceptions.md rules R322, R324, spec/42_huffman.md rules R181, R183,
R189 to R191): at each the pseudocode stops with a refusal of its own name. -/

namespace Sys2Proof.Machine

/-! ### Actions that stop at an UNSPEC point -/

/-- From `s` the action stops at the UNSPEC point named `r`; no next state comes of it (R11, R322). -/
def Act.Refuses {α : Type} (m : Act α) (r : Refusal) (s : State) : Prop := ∃ t, m s = .error (.unspec r) t

section refuses
variable {α β : Type} {m : Act α} {f : α → Act β} {r : Refusal} {s t : State}

theorem Act.refuses_unspec (r : Refusal) (s : State) : (Act.unspec r : Act α).Refuses r s := ⟨s, rfl⟩

theorem Act.Refuses.of_eq {m' : Act α} (e : m s = m' t) (h : m'.Refuses r t) : m.Refuses r s := by
  unfold Act.Refuses
  rwa [e]

/-- The first action stops. -/
theorem Act.Refuses.bind (h : m.Refuses r s) : (m >>= f).Refuses r s :=
  h.imp fun _ => Act.bind_of_error

/-- The first action goes on, and the rest stops. -/
theorem Act.Refuses.after {a : α} (e : m s = .ok a t) (h : (f a).Refuses r t) : (m >>= f).Refuses r s :=
  .of_eq (Act.bind_of_ok e) h

/-- The rest stops on what it reads of the state. -/
theorem Act.Refuses.get {f : State → Act α} (h : (f s).Refuses r s) : (Act.state >>= f).Refuses r s :=
  .after (Act.state_apply s) h

theorem runBody_of_refuses {m : Act Unit} (h : m.Refuses r s) : runBody m s = .refused r := by
  obtain ⟨t, e⟩ := h
  simp [runBody, e]

end refuses

/-! ### Weights past u32 -/

section overflow
variable {ls : List Leaf} {ns : List Node} {q : List Nat}

/-- With two nodes waiting the two least are merged, or their weights leave u32 (R183, R186). -/
theorem mergeStep_two (ns : List Node) (hq : 2 ≤ q.length) :
    ∃ a b, Least ns q a ∧ Least ns (q.erase a) b
      ∧ mergeStep ns q = if weightAt ns a + weightAt ns b < 2 ^ 32
          then .ok (some (ns ++ [mergedNode ns a b], (q.erase a).erase b ++ [ns.length]))
          else .error .hufWeightOverflow := by
  obtain ⟨a, hpop, ha⟩ := popMin_least (ns := ns) (List.ne_nil_of_length_pos (by omega : 0 < q.length))
  have hlen : (q.erase a).length = q.length - 1 := List.length_erase_of_mem ha.1
  obtain ⟨b, hpop', hb⟩ := popMin_least (ns := ns) (List.ne_nil_of_length_pos (by omega : 0 < (q.erase a).length))
  refine ⟨a, b, ha, hb, ?_⟩
  unfold mergeStep
  rw [hpop]
  dsimp only
  rw [hpop']
  rfl

theorem weightAt_lt (ns : List Node) (i : Nat) : weightAt ns i < 2 ^ 32 := by
  unfold weightAt
  split
  · exact BitVec.isLt _
  · decide

/-- One node alone weighs a u32 at most, so more than one waits. -/
theorem Growing.two_waiting (h : Growing ls ns q) (hw : 2 ^ 32 ≤ (ls.map fun l => l.weight.toNat).sum) :
    2 ≤ q.length := by
  rw [← h.weight] at hw
  match q with
  | [] => exact absurd hw (Nat.not_le.2 (Nat.two_pow_pos 32))
  | [i] => exact absurd hw (Nat.not_le.2 (weightAt_lt ns i))
  | _ :: _ :: q => exact Nat.le_add_left 2 q.length

/-- Waiting nodes that weigh more than a u32 holds are never merged into one: a merge before leaves u32. -/
theorem Growing.mergeAll_overflow {n : Nat} (h : Growing ls ns q)
    (hw : 2 ^ 32 ≤ (ls.map fun l => l.weight.toNat).sum) (hn : q.length ≤ n) :
    mergeAll n ns q = .error .hufWeightOverflow := by
  have hq := h.two_waiting hw
  induction n generalizing ns q with
  | zero => omega
  | succ n ih =>
    obtain ⟨a, b, ha, hb, e⟩ := mergeStep_two ns hq
    unfold mergeAll
    split at e
    · rename_i hab
      have hnext := h.step e ha hb hab
      have hlt := (h.merging.step e).2
      rw [e]
      exact ih hnext (by omega) (hnext.two_waiting hw)
    · rw [e]

theorem buildTree_overflow (hw : 2 ^ 32 ≤ (ls.map fun l => l.weight.toNat).sum) :
    buildTree ls = .error .hufWeightOverflow := by
  unfold buildTree
  dsimp only
  rw [(growing_start ls).mergeAll_overflow hw List.length_range.le]

end overflow

/-! ### The pseudocodes -/

section huffman
variable {s : State}

/-- HUF.COUNT of a source longer than HUF_MAX_SRC (R181). -/
theorem hufCountBody_tooLong (h : 2 ^ 32 - 1 < s.srcLen.toNat) : hufCountBody.Refuses .hufSourceTooLong s := by
  refine .after (Act.write_apply _ s) (.get ?_)
  rw [if_pos (show Config.hufMaxSrc < s.beginCall.srcLen.toNat from h)]
  exact Act.refuses_unspec _ _

/-- HUF.BUILD of weights that add up past u32 (R183). -/
theorem hufBuildBody_overflow (h : 2 ^ 32 ≤ (s.huf.leaves.map fun l => l.weight.toNat).sum) :
    hufBuildBody.Refuses .hufWeightOverflow s := by
  refine .get ?_
  rw [buildTree_overflow h]
  exact Act.refuses_unspec _ _

/-- HUF.ENCODE of a byte without a code, after bytes whose codes fit (R189). -/
theorem hufEncodeBody_uncoded {pre : List Byte} {b : Byte} (hlt : pre.length < s.srcLen.toNat)
    (hread : Memory.readBytes s.src 0 (pre.length + 1) = some (pre ++ [b]))
    (hcoded : ∀ c ∈ pre, (tabGet s.huf.code c).isSome = true) (hnone : tabGet s.huf.code b = none)
    (hw : s.writerOk) (hroom : s.room ((s.wcnt.toNat + (codedBits s.huf.code pre).length) / 8)) :
    hufEncodeBody.Refuses .hufByteWithoutCode s := by
  have hlen : (pre ++ [b]).length = pre.length + 1 := List.length_append
  have hnext : s.rewound.NextBytes (pre ++ [b]) := .of_readBytes rfl (hlen.trans_le hlt) (by rwa [hlen])
  obtain ⟨u, hu, hrun⟩ := hufEncodeBytes_ok (s := s.rewound) hnext hcoded hw hroom
  have hcode : tabGet (u.advanced 1).huf.code b = none := by rw [State.advanced, hu.frame]; exact hnone
  obtain ⟨n, hn⟩ := Nat.exists_eq_add_of_lt hlt
  have hbyte : (hufEncodeBytes (n + 1)).Refuses .hufByteWithoutCode u := by
    refine .after (srcByte_next (hu.nextBytes hnext)) (.get ?_)
    rw [hcode]
    exact (Act.refuses_unspec _ _).bind
  refine .of_eq (hufEncodeBody_apply s) (.bind ?_)
  rw [hn]
  exact .of_eq (hrun (n + 1)) hbyte

/-- HUF.RDHDR of a leaf count above 256 (R190). -/
theorem hufRdhdrBody_tooMany {size n : Nat} (hlen : 12 ≤ s.srcLen.toNat) (hsize : memRead s.src 0 8 = some size)
    (hcount : memRead s.src 8 4 = some n) (hn : 256 < n) : hufRdhdrBody.Refuses .hufLeafCountAbove256 s := by
  refine .after (Act.write_apply _ s) <| .after (srcNext_ok (show 0 + 8 ≤ s.srcLen.toNat by omega) hsize) <|
    .after (Act.write_apply _ _) <| .after (srcNext_ok (show 8 + 4 ≤ s.srcLen.toNat from hlen) hcount) ?_
  rw [if_pos hn]
  exact Act.refuses_unspec _ _

/-- HUF.DECODE stops where the pass after the first `k` does. -/
theorem hufDecodeBody_refuses {r : Refusal} {k : Nat} {t : State} (h : hufDecodeByte.Refuses r t)
    (hrun : ∀ n, Act.times hufDecodeByte (k + n) s = Act.times hufDecodeByte n t)
    (hsize : k < s.origSize.toNat - s.dstLen.toNat) : hufDecodeBody.Refuses r s := by
  obtain ⟨n, hn⟩ := Nat.exists_eq_add_of_lt hsize
  have htimes : (Act.times hufDecodeByte (n + 1)).Refuses r t := h.bind
  refine .of_eq (hufDecodeBody_apply s) (.bind ?_)
  rw [hn]
  exact .of_eq (hrun (n + 1)) htimes

/-- HUF.DECODE with a byte due and no tree (R191). -/
theorem hufDecodeBody_noTree (hroot : s.huf.root = none) (hdue : s.dstLen.toNat < s.origSize.toNat) :
    hufDecodeBody.Refuses .hufNoTree s := by
  refine hufDecodeBody_refuses (.get ?_) (fun n => by rw [Nat.zero_add]) (Nat.sub_pos_of_lt hdue)
  rw [hroot]
  exact Act.refuses_unspec _ _

/-- HUF.DECODE of bits that lead to the dummy leaf, after the codes of the first symbols (R191). -/
theorem hufDecodeBody_dummy {ps : List (List Bool × Byte)} {r : Nat} {p : List Bool} {x : Node}
    (harena : ArenaOk s.huf.node s.huf.root) (hps : ∀ y ∈ ps, isCode s.huf.node s.huf.root y.2 y.1)
    (hr : s.huf.root = some r) (hx : leadsTo s.huf.node r p x) (hdummy : x.dummy = true)
    (hsize : ps.length < s.origSize.toNat - s.dstLen.toNat) (hbits : s.nextBits (ps.flatMap Prod.fst ++ p))
    (hroom : s.room ps.length) : hufDecodeBody.Refuses .hufDummyReached s := by
  obtain ⟨t, ht, hrest, hrun⟩ := hufDecodeBytes_ok harena hps hbits hroom
  have hhuf : t.huf = s.huf := by rw [ht.frame]; rfl
  obtain ⟨u, hu, -, -⟩ := walkLeaf_path (rest := []) hx (length_le_of_isRoot harena hr hx)
    (by rwa [List.append_nil])
  rw [← hhuf] at hr hu
  refine hufDecodeBody_refuses (.of_eq (hufDecodeByte_walk hr) (.after hu ?_)) hrun hsize
  rw [if_pos hdummy]
  exact Act.refuses_unspec _ _

end huffman

end Sys2Proof.Machine
end

section
/-! The UNSPEC points of the arithmetic unit (spec/60_exceptions.md rules R322, R324, spec/43_arithmetic.md rules R226,
R228, R229). -/

namespace Sys2Proof.Machine

section arithmetic
variable {s : State}

/-- ART.FLUSH with the midpoint at 1 or more (R226). -/
theorem artFlushBody_atLeastOne (h : F64.le F64.one s.art.midpoint = true) :
    artFlushBody.Refuses .artMidpointAtLeastOne s := by
  refine .get ?_
  rw [if_pos h]
  exact Act.refuses_unspec _ _

/-- ART.DECSTEP with ACC below every boundary (R228). -/
theorem artDecstepBody_below (hdue : s.dstLen ≠ s.origSize) (h : F64.lt s.art.acc s.art.dist[0] = true) :
    artDecstepBody.Refuses .artAccBelowDist s := by
  refine .get ?_
  rw [if_neg hdue, artSearch, if_pos h]
  exact Act.refuses_unspec _ _

/-- ART.DECSTEP with fewer bits folded than the renormalization takes back (R229): the byte is out by then. -/
theorem artDecstepBody_expBelow {i : Byte} {r : Renorm} (h : Resolved s i)
    (hr : artRenorm (distLow s.art.dist i) (distHigh s.art.dist i) = some r) (hexp : s.art.exp < r.bits.length)
    (hroom : s.room 1) : artDecstepBody.Refuses .artExpBelowCount s := by
  obtain ⟨hne, hninv⟩ := ne_and_not_lt_of_lt h.wide
  refine .of_eq (artDecstepBody_resolved h) (.get ?_)
  rw [if_neg hne, if_neg hninv, hr]
  refine .after (dstPut_appended _ hroom) ?_
  dsimp only
  rw [if_pos hexp]
  exact Act.refuses_unspec _ _

end arithmetic

end Sys2Proof.Machine
end

section
/-! The UNSPEC points of the LZW unit (spec/60_exceptions.md rules R322, R324, spec/44_lzw.md rules R271, R273, R274,
R278, R279), and with them every point of R324's table. -/

namespace Sys2Proof.Machine

section lzw
variable {s : State} {b : Byte} {c : U32}

/-! ### The encoder -/

theorem dictAdd_full (p : List Byte) (h : s.cfg.dictLimit ≤ s.lzw.dict.length) :
    (dictAdd p).Refuses .lzwDictFull s := by
  refine .get ?_
  rw [if_neg (Nat.not_lt.2 h)]
  exact Act.refuses_unspec _ _

theorem collectPhrase_full (h : s.cfg.codebufFits s.lzw.codebuf.length = false) :
    collectPhrase.Refuses .lzwCodebufFull s := by
  refine .get ?_
  rw [h]
  exact Act.refuses_unspec _ _

/-- PHRASE with the byte is not stored yet: the codeword of PHRASE is collected before the longer phrase is stored
(R273). -/
theorem lzwExtend_new (hne : s.lzw.phrase ≠ []) (hmem : s.lzw.phrase ++ [b] ∉ s.lzw.dict) :
    lzwExtend b s = (collectPhrase >>= fun _ => dictAdd (s.lzw.phrase ++ [b]) >>= fun _ =>
      Act.write fun s => { s with lzw := s.lzw.setPhrase [b] }) s := by
  refine Act.bind_eq_of_ok (Act.state_apply s) ?_
  rw [if_neg hne, dictFind_eq_none hmem]

/-- LZW.ENCBYTE stops where the step on the unit does. -/
theorem lzwEncbyteBody_refuses {r : Refusal} (h : s.NextBytes [b]) (he : (lzwExtend b).Refuses r (s.advanced 1)) :
    lzwEncbyteBody.Refuses r s := .after (srcByte_next h) he.bind

/-- LZW.ENCBYTE with the dictionary full (R271, R273). -/
theorem lzwEncbyteBody_dictFull (h : s.NextBytes [b]) (hmem : s.lzw.phrase ++ [b] ∉ s.lzw.dict)
    (hc : codewordIs s.lzw s.lzw.phrase c) (hfits : s.cfg.codebufFits s.lzw.codebuf.length = true)
    (hfull : s.cfg.dictLimit ≤ s.lzw.dict.length) : lzwEncbyteBody.Refuses .lzwDictFull s := by
  have hne : s.lzw.phrase ≠ [] := List.length_pos_iff.1 (codewordIs_length_pos hc)
  refine lzwEncbyteBody_refuses h (.of_eq (lzwExtend_new (s := s.advanced 1) hne hmem) ?_)
  exact .after (collectPhrase_ok (s := s.advanced 1) hc hfits) (.bind (dictAdd_full _ hfull))

/-- LZW.ENCBYTE with the code buffer full (R273). -/
theorem lzwEncbyteBody_codebufFull (h : s.NextBytes [b]) (hne : s.lzw.phrase ≠ [])
    (hmem : s.lzw.phrase ++ [b] ∉ s.lzw.dict) (hfull : s.cfg.codebufFits s.lzw.codebuf.length = false) :
    lzwEncbyteBody.Refuses .lzwCodebufFull s :=
  lzwEncbyteBody_refuses h (.of_eq (lzwExtend_new (s := s.advanced 1) hne hmem) (.bind (collectPhrase_full hfull)))

/-- LZW.ENCEOF with the code buffer full (R274). -/
theorem lzwEnceofBody_codebufFull (hne : s.lzw.phrase ≠ [])
    (hfull : s.cfg.codebufFits s.lzw.codebuf.length = false) : lzwEnceofBody.Refuses .lzwCodebufFull s := by
  refine .get ?_
  rw [if_neg hne]
  exact .bind (collectPhrase_full hfull)

/-! ### The decoder -/

/-- LZW.RDHDR of a width outside LZW_WIDTHS (R278). -/
theorem lzwRdhdrBody_illegal {size w : Nat} (hlen : s.srcPos.toNat + 12 ≤ s.srcLen.toNat)
    (hsize : memRead s.src s.srcPos.toNat 8 = some size) (hw : memRead s.src (s.srcPos.toNat + 8) 4 = some w)
    (hillegal : w ∉ Config.lzwWidths) : lzwRdhdrBody.Refuses .lzwWidthIllegal s := by
  have hpos : (s.srcPos + 8#64).toNat = s.srcPos.toNat + 8 := dstLen_add (by have := s.srcLen.isLt; omega)
  rw [← hpos] at hw
  refine .after (srcNext_ok (by omega) hsize) <| .after (Act.write_apply _ _) <|
    .after (srcNext_ok (show (s.srcPos + 8#64).toNat + 4 ≤ s.srcLen.toNat by omega) hw) ?_
  rw [if_neg hillegal]
  exact Act.refuses_unspec _ _

/-- A codeword of a legal width is at the cursor, whole, and a byte is due. -/
structure State.CodewordNext (s : State) : Prop where
  due : s.dstLen.toNat < s.origSize.toNat
  legal : legalWidth s.lzw.width
  bits : ∀ n, n < s.lzw.width.toNat → (s.srcBit n).isSome = true

/-- The codeword is read whole: no bit of it is lost in a u32. -/
theorem State.CodewordNext.read (h : s.CodewordNext) :
    ∃ (code : U32) (t : State), bwsRead s.lzw.width.toNat s = .ok code t
      ∧ code.toNat = s.codewordAt s.lzw.width.toNat ∧ t = consumed s t := by
  obtain ⟨t, et, -, hframe⟩ := bwsRead_ok h.bits
  refine ⟨_, t, et, ?_, hframe⟩
  rw [BitVec.toNat_ofNat]
  refine Nat.mod_eq_of_lt ((s.codewordAt_lt _).trans_le (Nat.pow_le_pow_right (by decide) ?_))
  exact le_of_mem_lzwWidths h.legal

theorem decodePhrase_undefined {u : LzwUnit} {n : Nat}
    (h : 256 + u.dict.length < n ∨ 256 + u.dict.length = n ∧ u.havePrev = false) :
    decodePhrase u n = .error .lzwCodeUndefined := by
  unfold decodePhrase LzwUnit.next Config.lzwFirstCode
  rcases h with hlt | ⟨rfl, hprev⟩
  · rw [if_neg (by omega), if_neg (by simp [hlt.ne'])]
  · rw [if_neg (Nat.lt_irrefl _), if_neg (by simp [hprev])]

/-- LZW.DECCODE of an undefined codeword (R279). -/
theorem lzwDeccodeBody_undefined (h : s.CodewordNext)
    (hundef : 256 + s.lzw.dict.length < s.codewordAt s.lzw.width.toNat
      ∨ 256 + s.lzw.dict.length = s.codewordAt s.lzw.width.toNat ∧ s.lzw.havePrev = false) :
    lzwDeccodeBody.Refuses .lzwCodeUndefined s := by
  obtain ⟨code, t, et, hcode, -⟩ := h.read
  refine .get ?_
  rw [if_neg (Nat.not_le.2 h.due)]
  refine .after et ?_
  rw [hcode, decodePhrase_undefined hundef]
  exact Act.refuses_unspec _ _

section phrase
variable {r : Refusal} {x : Byte} {xs : List Byte}

/-- LZW.DECCODE stops where the rest does once the phrase is known. -/
theorem lzwDeccodeBody_refuses (h : s.CodewordNext)
    (hp : phraseIs s.lzw (s.codewordAt s.lzw.width.toNat) (x :: xs))
    (hrest : ∀ t, t = consumed s t → (lzwEmitPhrase (x :: xs)).Refuses r t) : lzwDeccodeBody.Refuses r s := by
  obtain ⟨code, t, et, hcode, hframe⟩ := h.read
  refine .get ?_
  rw [if_neg (Nat.not_le.2 h.due)]
  refine .after et ?_
  rw [hcode, decodePhrase_of_phraseIs hp]
  exact hrest t hframe

/-- A phrase past ORIG_SIZE (R279). -/
theorem lzwEmitPhrase_pastEnd (h : s.origSize.toNat < s.dstLen.toNat + (x :: xs).length) :
    (lzwEmitPhrase (x :: xs)).Refuses .lzwPhrasePastEnd s := by
  refine .get ?_
  rw [if_pos h]
  exact Act.refuses_unspec _ _

/-- With the dictionary full the phrase is appended and not learnt from (R271, R279). -/
theorem lzwEmitPhrase_dictFull (hin : s.dstLen.toNat + (x :: xs).length ≤ s.origSize.toNat)
    (hroom : s.room (x :: xs).length) (hprev : s.lzw.havePrev = true) (hfull : s.cfg.dictLimit ≤ s.lzw.dict.length) :
    (lzwEmitPhrase (x :: xs)).Refuses .lzwDictFull s := by
  have hinsert : (decodeInsert x).Refuses .lzwDictFull (s.appended (x :: xs)) := by
    refine .get ?_
    rw [if_pos (show (s.appended (x :: xs)).lzw.havePrev = true from hprev)]
    exact dictAdd_full _ hfull
  refine .get ?_
  rw [if_neg (Nat.not_lt.2 hin)]
  exact .after (putPhrase_ok hroom) hinsert.bind

end phrase

end lzw

/-! ### The table of R324 -/

/-- In an LZW compress call LZW.ENCBYTE is accepted with a byte of SRC left (R273). -/
theorem exec_lzwEncbyte {s : State} (hcodec : s.codec = .lzw) (hmode : s.mode = .compress)
    (hphase : s.phase = .lInit ∨ s.phase = .lScan) (hpos : s.srcPos.toNat < s.srcLen.toNat) :
    exec .lzwEncbyte s = runBody lzwEncbyteBody s := by
  rcases hphase with hp | hp <;>
    exact At.exec_eq (i := .lzwEncbyte) ⟨hcodec, hmode, hp⟩ (by decide) rfl (decide_eq_true hpos)

/-- In an LZW compress call LZW.ENCEOF is accepted at the end of SRC (R274). -/
theorem exec_lzwEnceof {s : State} (hcodec : s.codec = .lzw) (hmode : s.mode = .compress)
    (hphase : s.phase = .lInit ∨ s.phase = .lScan) (hend : s.srcPos = s.srcLen) :
    exec .lzwEnceof s = runBody lzwEnceofBody s := by
  rcases hphase with hp | hp <;>
    exact At.exec_eq (i := .lzwEnceof) ⟨hcodec, hmode, hp⟩ (by decide) rfl (beq_iff_eq.2 hend)

/-- Settles O12: each command is accepted, and its pseudocode stops at the point by name. -/
theorem unspecPoints : Obligations.UnspecPoints := by
  unfold Obligations.UnspecPoints
  intro s
  refine ⟨fun hcodec hmode hphase hlen => ?_, fun hcodec hphase hw => ?_,
    fun pre b hcodec hmode hphase hw hlt hread hcoded hnone hroom => ?_,
    fun size n hcodec hmode hphase hlen hsize hcount hn => ?_, fun hcodec hmode hphase hroot hdue => ?_,
    fun ps r p x hcodec hmode hphase harena hps hr hx hdummy hsize hbits hroom => ?_,
    fun hcodec hmode hphase hend hmid => ?_, fun hcodec hmode hphase hdue hbelow => ?_,
    fun i r hcodec hmode hphase hdue hsearch hres hwide hr hexp hroom => ?_,
    fun c code hcodec hmode hphase hpos hc hmem hcode hfits hfull => ?_,
    fun c hcodec hmode hphase hpos hc hne hmem hfull => ?_,
    fun hcodec hmode hphase hend hne hfull => ?_,
    fun size w hcodec hmode hphase hlen hsize hw hillegal => ?_,
    fun hcodec hmode hphase hdue hlegal hbits => ?_⟩
  · have hacc : Accepted .hufCount s := accepted_hufCall (.inl rfl) hcodec (congrArg some hmode.symm) hphase
    exact (hacc.exec_eq rfl rfl).trans (runBody_of_refuses (hufCountBody_tooLong hlen))
  · have hacc : Accepted .hufBuild s := ⟨List.mem_singleton.2 hcodec, List.mem_pair.2 hphase, nofun,
      by rcases hphase with e | e <;> rw [e] <;> decide⟩
    exact (hacc.exec_eq rfl rfl).trans (runBody_of_refuses (hufBuildBody_overflow hw))
  · have hat : At .huf .compress .hHdrw s := ⟨hcodec, hmode, hphase⟩
    exact (hat.exec_eq (i := .hufEncode) (by decide) rfl rfl).trans
      (runBody_of_refuses (hufEncodeBody_uncoded hlt hread hcoded hnone hw hroom))
  · have hacc : Accepted .hufRdhdr s := accepted_hufCall (.inr rfl) hcodec (congrArg some hmode.symm) hphase
    exact (hacc.exec_eq rfl rfl).trans (runBody_of_refuses (hufRdhdrBody_tooMany hlen hsize hcount hn))
  · have hat : At .huf .decompress .hRebuilt s := ⟨hcodec, hmode, hphase⟩
    exact (hat.exec_eq (i := .hufDecode) (by decide) rfl rfl).trans
      (runBody_of_refuses (hufDecodeBody_noTree hroot hdue))
  · have hat : At .huf .decompress .hRebuilt s := ⟨hcodec, hmode, hphase⟩
    exact (hat.exec_eq (i := .hufDecode) (by decide) rfl rfl).trans
      (runBody_of_refuses (hufDecodeBody_dummy harena hps hr hx hdummy hsize hbits hroom))
  · have hat : At .art .compress .aEnc s := ⟨hcodec, hmode, hphase⟩
    exact (hat.exec_eq (i := .artFlush) (by decide) rfl (beq_iff_eq.2 hend)).trans
      (runBody_of_refuses (artFlushBody_atLeastOne hmid))
  · have hat : At .art .decompress .aDec s := ⟨hcodec, hmode, hphase⟩
    exact (hat.exec_eq (i := .artDecstep) (by decide) rfl rfl).trans
      (runBody_of_refuses (artDecstepBody_below hdue hbelow))
  · have hat : At .art .decompress .aDec s := ⟨hcodec, hmode, hphase⟩
    exact (hat.exec_eq (i := .artDecstep) (by decide) rfl rfl).trans
      (runBody_of_refuses (artDecstepBody_expBelow ⟨⟨hdue, hsearch⟩, hres, hwide⟩ hr hexp hroom))
  · exact (exec_lzwEncbyte hcodec hmode hphase hpos).trans (runBody_of_refuses
      (lzwEncbyteBody_dictFull (State.nextBytes_singleton hpos hc) hmem hcode hfits hfull))
  · exact (exec_lzwEncbyte hcodec hmode hphase hpos).trans (runBody_of_refuses
      (lzwEncbyteBody_codebufFull (State.nextBytes_singleton hpos hc) hne hmem hfull))
  · exact (exec_lzwEnceof hcodec hmode hphase hend).trans
      (runBody_of_refuses (lzwEnceofBody_codebufFull hne hfull))
  · have hat : At .lzw .decompress .lInit s := ⟨hcodec, hmode, hphase⟩
    exact (hat.exec_eq (i := .lzwRdhdr) (by decide) rfl rfl).trans
      (runBody_of_refuses (lzwRdhdrBody_illegal hlen hsize hw hillegal))
  · have hat : At .lzw .decompress .lDec s := ⟨hcodec, hmode, hphase⟩
    have hexec := hat.exec_eq (i := .lzwDeccode) (by decide) rfl rfl
    have hnext : s.CodewordNext := ⟨hdue, hlegal, hbits⟩
    refine ⟨fun hundef => ?_, fun x xs hp => ⟨fun hpast => ?_, fun hin hroom hprev hfull => ?_⟩⟩
    · exact hexec.trans (runBody_of_refuses (lzwDeccodeBody_undefined hnext hundef))
    · refine hexec.trans (runBody_of_refuses (lzwDeccodeBody_refuses hnext hp fun t ht => ?_))
      exact lzwEmitPhrase_pastEnd (by rw [ht]; exact hpast)
    · refine hexec.trans (runBody_of_refuses (lzwDeccodeBody_refuses hnext hp fun t ht => ?_))
      rw [ht]
      exact lzwEmitPhrase_dictFull hin hroom hprev hfull

end Sys2Proof.Machine
end

section
/-! The way into FAULT (spec/60_exceptions.md rules R310, R312, R313, R317): ModelPrecisionFailure is raised by the two
symbol coders alone, every other pseudocode raises IOFailure only. -/

namespace Sys2Proof.Machine

/-! ### Actions that raise IOFailure only -/

/-- The only error the action raises is IOFailure. -/
structure Act.RaisesIo {α : Type} (m : Act α) : Prop where
  eq : ∀ s k t, m s = .error (.raise k) t → k = .ioFailure

section raises
variable {α β : Type}

theorem Act.RaisesIo.pure (a : α) : (pure a : Act α).RaisesIo := ⟨fun _ _ _ => nofun⟩

theorem Act.RaisesIo.write (f : State → State) : (Act.write f).RaisesIo := ⟨fun _ _ _ => nofun⟩

theorem Act.RaisesIo.unspec (r : Refusal) : (Act.unspec r : Act α).RaisesIo := ⟨fun _ _ _ => nofun⟩

theorem Act.RaisesIo.broken (f : Fault) : (Act.broken f : Act α).RaisesIo := ⟨fun _ _ _ => nofun⟩

theorem Act.RaisesIo.raise : (Act.raise .ioFailure : Act α).RaisesIo := ⟨fun _ _ _ e => by cases e; rfl⟩

theorem Act.RaisesIo.bind {m : Act α} {f : α → Act β} (hm : m.RaisesIo) (hf : ∀ a, (f a).RaisesIo) :
    (m >>= f).RaisesIo :=
  ⟨fun s k t e => by
    rcases Act.bind_error e with e | ⟨a, u, -, e⟩
    · exact hm.eq s k t e
    · exact (hf a).eq u k t e⟩

theorem Act.RaisesIo.get {f : State → Act α} (hf : ∀ s, (f s).RaisesIo) : (Act.state >>= f).RaisesIo :=
  .bind ⟨fun _ _ _ => nofun⟩ hf

theorem Act.RaisesIo.times {m : Act Unit} (hm : m.RaisesIo) (n : Nat) : (Act.times m n).RaisesIo := by
  induction n with
  | zero => exact .pure ()
  | succ n ih => exact .bind hm fun _ => ih

theorem Act.RaisesIo.loop {m : Act Unit} (hm : m.RaisesIo) (go : State → Bool) (n : Nat) :
    (Act.while go m n).RaisesIo := by
  induction n with
  | zero =>
    refine .get fun s => ?_
    split
    · exact .unspec _
    · exact .pure ()
  | succ n ih =>
    refine .get fun s => ?_
    split
    · exact .bind hm fun _ => ih
    · exact .pure ()

end raises

/-! ### The accesses and the packer -/

theorem srcNext_raisesIo (n : Nat) : (srcNext n).RaisesIo := by
  refine .get fun s => ?_
  split
  · exact .raise
  · split
    · exact .broken _
    · exact .bind (.write _) fun _ => .pure _

theorem srcByte_raisesIo : srcByte.RaisesIo := .bind (srcNext_raisesIo 1) fun _ => .pure _

theorem dstPut_raisesIo (n v : Nat) : (dstPut n v).RaisesIo := by
  refine .get fun s => ?_
  split
  · split
    · exact .write _
    · exact .unspec _
  · exact .raise

theorem bwsPutBit_raisesIo (b : Bool) : (bwsPutBit b).RaisesIo := by
  refine .bind (.write _) fun _ => .get fun s => ?_
  split
  · exact .bind (dstPut_raisesIo _ _) fun _ => .write _
  · exact .pure ()

theorem bwsPutBits_raisesIo (bs : List Bool) : (bwsPutBits bs).RaisesIo := by
  induction bs with
  | nil => exact .pure ()
  | cons b bs ih => exact .bind (bwsPutBit_raisesIo b) fun _ => ih

theorem bwsFinish_raisesIo : bwsFinish.RaisesIo := by
  refine .get fun s => ?_
  split
  · exact .pure ()
  · exact .bind (dstPut_raisesIo _ _) fun _ => .write _

theorem bwsGetBit_raisesIo : bwsGetBit.RaisesIo := by
  refine .bind (.get fun s => ?_) fun _ => .get fun _ => .bind (.write _) fun _ => .pure _
  split
  · exact .bind srcByte_raisesIo fun _ => .write _
  · exact .pure ()

theorem bwsGetBits_raisesIo (n : Nat) : (bwsGetBits n).RaisesIo := by
  induction n with
  | zero => exact .pure _
  | succ n ih => exact .bind bwsGetBit_raisesIo fun _ => .bind ih fun _ => .pure _

theorem bwsRead_raisesIo (w : Nat) : (bwsRead w).RaisesIo := .bind (bwsGetBits_raisesIo w) fun _ => .pure _

/-- A stream closed and the call completed. -/
theorem finishStream_raisesIo : (bwsFinish >>= fun _ => Act.write State.finishCompress).RaisesIo :=
  .bind bwsFinish_raisesIo fun _ => .write _

/-! ### The Huffman unit -/

theorem hufTally_raisesIo (n : Nat) : (hufTally n).RaisesIo := by
  induction n with
  | zero => exact .pure ()
  | succ n ih => exact .bind srcByte_raisesIo fun _ => .bind (.write _) fun _ => ih

theorem hufCountBody_raisesIo : hufCountBody.RaisesIo := by
  refine .bind (.write _) fun _ => .get fun s => ?_
  split
  · exact .unspec _
  · exact .bind (.write _) fun _ => .bind (hufTally_raisesIo _) fun _ => .bind (.write _) fun _ => .write _

theorem hufBuildBody_raisesIo : hufBuildBody.RaisesIo :=
  ⟨fun s _ _ e => ((hufBuildBody_raises_nothing s).of_raise e).elim⟩

theorem hufCodesBody_raisesIo : hufCodesBody.RaisesIo := by
  refine .get fun s => ?_
  split
  · exact .unspec _
  · exact .bind (.write _) fun _ => .write _

theorem putLeaves_raisesIo (ls : List Leaf) : (putLeaves ls).RaisesIo := by
  induction ls with
  | nil => exact .pure ()
  | cons l ls ih => exact .bind (dstPut_raisesIo _ _) fun _ => .bind (dstPut_raisesIo _ _) fun _ => ih

theorem hufWrhdrBody_raisesIo : hufWrhdrBody.RaisesIo :=
  .get fun _ => .bind (dstPut_raisesIo _ _) fun _ => .bind (dstPut_raisesIo _ _) fun _ =>
    .bind (putLeaves_raisesIo _) fun _ => .write _

theorem hufEncodeBytes_raisesIo (n : Nat) : (hufEncodeBytes n).RaisesIo := by
  induction n with
  | zero => exact .pure ()
  | succ n ih =>
    refine .bind srcByte_raisesIo fun b => .get fun s => ?_
    split
    · exact .bind (.unspec _) fun _ => ih
    · exact .bind (bwsPutBits_raisesIo _) fun _ => ih

theorem hufEncodeBody_raisesIo : hufEncodeBody.RaisesIo :=
  .bind (.write _) fun _ => .get fun _ => .bind (hufEncodeBytes_raisesIo _) fun _ => finishStream_raisesIo

theorem getLeaves_raisesIo (k n : Nat) : (getLeaves k n).RaisesIo := by
  induction n generalizing k with
  | zero => exact .pure ()
  | succ n ih =>
    exact .bind srcByte_raisesIo fun _ => .bind (srcNext_raisesIo _) fun _ => .bind (.write _) fun _ => ih _

theorem hufRdhdrBody_raisesIo : hufRdhdrBody.RaisesIo := by
  refine .bind (.write _) fun _ => .bind (srcNext_raisesIo _) fun _ => .bind (.write _) fun _ =>
    .bind (srcNext_raisesIo _) fun n => ?_
  split
  · exact .unspec _
  · exact .bind (.write _) fun _ => .bind (getLeaves_raisesIo _ _) fun _ => .bind (.write _) fun _ => .write _

theorem walkLeaf_raisesIo (ns : List Node) (d i : Nat) : (walkLeaf ns d i).RaisesIo := by
  induction d generalizing i with
  | zero =>
    unfold walkLeaf
    split
    · exact .unspec _
    · split
      · exact .pure _
      · exact .unspec _
  | succ d ih =>
    unfold walkLeaf
    split
    · exact .unspec _
    · split
      · exact .pure _
      · exact .bind bwsGetBit_raisesIo fun _ => ih _

theorem hufDecodeByte_raisesIo : hufDecodeByte.RaisesIo := by
  refine .get fun s => ?_
  split
  · exact .unspec _
  · refine .bind (walkLeaf_raisesIo _ _ _) fun n => ?_
    split
    · exact .unspec _
    · exact dstPut_raisesIo _ _

theorem hufDecodeBody_raisesIo : hufDecodeBody.RaisesIo :=
  .get fun _ => .bind (.times hufDecodeByte_raisesIo _) fun _ => .write _

/-! ### The arithmetic unit, but for its symbol coders -/

theorem artInitBody_raisesIo : artInitBody.RaisesIo :=
  .bind (.write _) fun _ => .bind (.write _) fun _ => .write _

theorem artWrhdrBody_raisesIo : artWrhdrBody.RaisesIo :=
  .get fun _ => .bind (dstPut_raisesIo _ _) fun _ => .write _

theorem artFlushBody_raisesIo : artFlushBody.RaisesIo := by
  refine .get fun s => ?_
  split
  · exact .unspec _
  · split
    · exact .unspec _
    · exact .bind (bwsPutBits_raisesIo _) fun _ => finishStream_raisesIo

theorem artRdhdrBody_raisesIo : artRdhdrBody.RaisesIo :=
  .bind (srcNext_raisesIo _) fun _ => .bind (.write _) fun _ => .bind (.write _) fun _ => .bind (.write _) fun _ =>
    .write _

/-! ### The LZW unit -/

theorem dictAdd_raisesIo (p : List Byte) : (dictAdd p).RaisesIo := by
  refine .get fun s => ?_
  split
  · exact .write _
  · exact .unspec _

theorem collectPhrase_raisesIo : collectPhrase.RaisesIo := by
  refine .get fun s => ?_
  split
  · split
    · exact .unspec _
    · exact .write _
  · exact .unspec _

theorem lzwInitBody_raisesIo : lzwInitBody.RaisesIo :=
  .bind (.write _) fun _ => .bind (.write _) fun _ => .write _

theorem lzwExtend_raisesIo (b : Byte) : (lzwExtend b).RaisesIo := by
  refine .get fun s => ?_
  split
  · exact .write _
  · split
    · exact .write _
    · exact .bind collectPhrase_raisesIo fun _ => .bind (dictAdd_raisesIo _) fun _ => .write _

theorem lzwEncbyteBody_raisesIo : lzwEncbyteBody.RaisesIo :=
  .bind srcByte_raisesIo fun _ => .bind (lzwExtend_raisesIo _) fun _ => .write _

theorem lzwEnceofBody_raisesIo : lzwEnceofBody.RaisesIo := by
  refine .get fun s => ?_
  split
  · exact .write _
  · exact .bind collectPhrase_raisesIo fun _ => .bind (.write _) fun _ => .write _

theorem lzwWidthBody_raisesIo : lzwWidthBody.RaisesIo := by
  refine .get fun s => ?_
  split
  · exact .unspec _
  · exact .bind (.write _) fun _ => .write _

theorem lzwWrhdrBody_raisesIo : lzwWrhdrBody.RaisesIo :=
  .get fun _ => .bind (dstPut_raisesIo _ _) fun _ => .bind (dstPut_raisesIo _ _) fun _ => .write _

theorem putCodes_raisesIo (w : Nat) (cs : List U32) : (putCodes w cs).RaisesIo := by
  induction cs with
  | nil => exact .pure ()
  | cons x cs ih => exact .bind (bwsPutBits_raisesIo _) fun _ => ih

theorem lzwEmitBody_raisesIo : lzwEmitBody.RaisesIo :=
  .get fun _ => .bind (putCodes_raisesIo _ _) fun _ => finishStream_raisesIo

theorem lzwRdhdrBody_raisesIo : lzwRdhdrBody.RaisesIo := by
  refine .bind (srcNext_raisesIo _) fun _ => .bind (.write _) fun _ => .bind (srcNext_raisesIo _) fun w => ?_
  split
  · exact .bind (.write _) fun _ => .bind (.write _) fun _ => .write _
  · exact .unspec _

theorem putPhrase_raisesIo (p : List Byte) : (putPhrase p).RaisesIo := by
  induction p with
  | nil => exact .pure ()
  | cons x xs ih => exact .bind (dstPut_raisesIo _ _) fun _ => ih

theorem decodeInsert_raisesIo (x : Byte) : (decodeInsert x).RaisesIo := by
  refine .get fun s => ?_
  split
  · exact dictAdd_raisesIo _
  · exact .pure ()

theorem lzwEmitPhrase_raisesIo (p : List Byte) : (lzwEmitPhrase p).RaisesIo := by
  refine .get fun s => ?_
  split
  · exact .unspec _
  · split
    · exact .unspec _
    · refine .bind (putPhrase_raisesIo _) fun _ => .bind (decodeInsert_raisesIo _) fun _ =>
        .bind (.write _) fun _ => .get fun t => ?_
      split
      · exact .write _
      · exact .pure ()

theorem lzwDeccodeBody_raisesIo : lzwDeccodeBody.RaisesIo := by
  refine .get fun s => ?_
  split
  · exact .write _
  · refine .bind (bwsRead_raisesIo _) fun c => ?_
    split
    · exact .unspec _
    · exact lzwEmitPhrase_raisesIo _

/-! ### COMPRESS and DECOMPRESS -/

theorem compressOf_raisesIo {c : Codec} (hc : c ≠ .art) : (compressOf c).RaisesIo := by
  cases c with
  | closed => exact .pure ()
  | huf =>
    exact .bind hufCountBody_raisesIo fun _ => .bind hufBuildBody_raisesIo fun _ =>
      .bind hufCodesBody_raisesIo fun _ => .bind hufWrhdrBody_raisesIo fun _ => hufEncodeBody_raisesIo
  | art => exact absurd rfl hc
  | lzw =>
    exact .bind lzwInitBody_raisesIo fun _ => .get fun _ => .bind (.times lzwEncbyteBody_raisesIo _) fun _ =>
      .bind lzwEnceofBody_raisesIo fun _ => .bind lzwWidthBody_raisesIo fun _ =>
        .bind lzwWrhdrBody_raisesIo fun _ => lzwEmitBody_raisesIo

theorem decompressOf_raisesIo {c : Codec} (hc : c ≠ .art) : (decompressOf c).RaisesIo := by
  cases c with
  | closed => exact .pure ()
  | huf =>
    exact .bind hufRdhdrBody_raisesIo fun _ => .bind hufBuildBody_raisesIo fun _ => hufDecodeBody_raisesIo
  | art => exact absurd rfl hc
  | lzw =>
    exact .bind lzwInitBody_raisesIo fun _ => .bind lzwRdhdrBody_raisesIo fun _ => .get fun _ =>
      .loop lzwDeccodeBody_raisesIo _ _

/-! ### Every command -/

/-- The commands that code symbols, alone or in their expansion (R312). -/
def codesSymbols (i : Instr) (c : Codec) : Prop :=
  i = .artEncsym ∨ i = .artDecstep ∨ ((i = .compress ∨ i = .decompress) ∧ c = .art)

/-- Every other command raises IOFailure only. -/
theorem bodyOf_raise_eq {i : Instr} {s t : State} {k : ErrKind} (hi : ¬codesSymbols i s.codec)
    (e : bodyOf i s = .error (.raise k) t) : k = .ioFailure := by
  cases i with
  | nop | sopen => cases e
  | compress =>
    have hc : s.codec ≠ .art := fun hc => hi (.inr (.inr ⟨.inl rfl, hc⟩))
    exact (compressOf_raisesIo hc).eq _ _ _ ((compressBody_apply s).symm.trans e)
  | decompress =>
    have hc : s.codec ≠ .art := fun hc => hi (.inr (.inr ⟨.inr rfl, hc⟩))
    exact (decompressOf_raisesIo hc).eq _ _ _ ((decompressBody_apply s).symm.trans e)
  | bwsReset => cases e
  | bwsWrite => exact (bwsPutBits_raisesIo _).eq _ _ _ e
  | bwsFinish => exact bwsFinish_raisesIo.eq _ _ _ e
  | bwsRead => exact (Act.RaisesIo.bind (bwsRead_raisesIo _) fun _ => .write _).eq _ _ _ e
  | hufCount => exact hufCountBody_raisesIo.eq _ _ _ e
  | hufBuild => exact hufBuildBody_raisesIo.eq _ _ _ e
  | hufCodes => exact hufCodesBody_raisesIo.eq _ _ _ e
  | hufWrhdr => exact hufWrhdrBody_raisesIo.eq _ _ _ e
  | hufEncode => exact hufEncodeBody_raisesIo.eq _ _ _ e
  | hufRdhdr => exact hufRdhdrBody_raisesIo.eq _ _ _ e
  | hufDecode => exact hufDecodeBody_raisesIo.eq _ _ _ e
  | artInit => exact artInitBody_raisesIo.eq _ _ _ e
  | artWrhdr => exact artWrhdrBody_raisesIo.eq _ _ _ e
  | artEncsym => exact absurd (.inl rfl) hi
  | artFlush => exact artFlushBody_raisesIo.eq _ _ _ e
  | artRdhdr => exact artRdhdrBody_raisesIo.eq _ _ _ e
  | artDecstep => exact absurd (.inr (.inl rfl)) hi
  | lzwInit => exact lzwInitBody_raisesIo.eq _ _ _ e
  | lzwEncbyte => exact lzwEncbyteBody_raisesIo.eq _ _ _ e
  | lzwEnceof => exact lzwEnceofBody_raisesIo.eq _ _ _ e
  | lzwWidth => exact lzwWidthBody_raisesIo.eq _ _ _ e
  | lzwWrhdr => exact lzwWrhdrBody_raisesIo.eq _ _ _ e
  | lzwEmit => exact lzwEmitBody_raisesIo.eq _ _ _ e
  | lzwRdhdr => exact lzwRdhdrBody_raisesIo.eq _ _ _ e
  | lzwDeccode => exact lzwDeccodeBody_raisesIo.eq _ _ _ e

/-- A command leaves FAULT at its end only where it began there. -/
theorem fault_not_mem_phasesAfter (i : Instr) {p : Phase} (h : p ≠ .fault) : .fault ∉ phasesAfter i p := by
  cases i with
  | hufBuild =>
    rw [phasesAfter, List.mem_singleton, builtPhase]
    split <;> nofun
  | nop | sopen | bwsReset | bwsWrite | bwsFinish | bwsRead | artEncsym | artDecstep | lzwDeccode =>
    simpa [phasesAfter] using h.symm
  | _ => simp [phasesAfter]

/-- Settles O11: a command is in FAULT only after `fail`, which sets ERR, RESULT and PHASE alone. -/
theorem enteringFault : Obligations.EnteringFault := by
  unfold Obligations.EnteringFault
  intro i s t h halive hfault
  cases answer_of_exec h with
  | nop | refused | mismatched => exact absurd hfault halive
  | opened => cases hfault
  | ended _ ha e => exact absurd (hfault ▸ ha.phase_after e) (fault_not_mem_phasesAfter i halive)
  | failed k u ha e =>
    obtain ⟨hk, hu⟩ := ha.failed e
    refine ⟨?_, rfl, by simpa using hu.mode, by simpa using hu.compSize, by simpa using hu.codec,
      by simpa using hu.cmderr⟩
    by_cases hi : codesSymbols i s.codec
    · exact hk.symm.imp_right fun hk => ⟨hk, hi⟩
    · exact .inl (bodyOf_raise_eq hi e)

end Sys2Proof.Machine
end
